-- ==== Sys2Proof/Word.lean ====
section
/-! DEFINITION. The two word types of RMQR-ENC: the 32-bit bus word (20_memory.md R61) and the 8-bit
codeword or payload byte (00_scope.md R14). -/

namespace Sys2Proof

/-- A register, a command word or a bus word: 32 bits, bit 0 least significant (R10, R61). -/
abbrev Word := BitVec 32

/-- A payload byte, a codeword or an element of GF(256) (R14, R190). -/
abbrev Byte := BitVec 8

end Sys2Proof
end

