-- ==== Sys2Proof/Syntax.lean ====
section
/-! DEFINITION. The commands of RMQR-ENC, one constructor per row of spec/opcode_table.json (30_encoding.md R92). -/

namespace Sys2Proof

/-- A decoded command. An operand is its field's value zero-extended to a natural number (R91), in the
order F1, F0 of the assembler syntax (R96). -/
inductive Instr where
  /-- NOP, 40_control.md R130. -/
  | nop
  /-- CLEAR, the return from an error, R131. -/
  | clear
  /-- SOFT_RESET, R132. -/
  | softReset
  /-- SEGMENT, stage 1, 41_mode_selector.md R145. -/
  | segment
  /-- BUILD, stage 2, 42_bitstream.md R170. -/
  | build
  /-- RSENC, stage 3, 43_ecc.md R200. -/
  | rsenc
  /-- STAMP, stage 4, 44_matrix.md R240. -/
  | stamp
  /-- PLACE, stage 5, R250. -/
  | place
  /-- MASK, stage 6, 45_mask.md R280. -/
  | mask
  /-- FORMAT, stage 7, 46_format.md R303. -/
  | format
  /-- ENCODE, the whole pipeline, 40_control.md R134. -/
  | encode
  /-- GF_MUL a, b, 43_ecc.md R210. -/
  | gfMul (a b : Nat)
  /-- GF_EXP n, R211. -/
  | gfExp (n : Nat)
  /-- GF_LOG a, R212. -/
  | gfLog (a : Nat)
  /-- GF_INV a, R213. -/
  | gfInv (a : Nat)
  /-- RS_BLOCK k, e, R214. -/
  | rsBlock (k e : Nat)
  /-- GEN_POLY e, R215. -/
  | genPoly (e : Nat)
  deriving DecidableEq, Repr

end Sys2Proof
end

