-- ==== Sys2Proof/WellFormed.lean ====
section
/-! DEFINITION. Which commands have a command word: every operand fits its 8-bit field (30_encoding.md R90, R91).
Ranges a command checks when it executes (GF_LOG of 0, RS_BLOCK with k + e > 255) are no part of this: such
a word decodes, and its execution raises an error (R91). -/

namespace Sys2Proof

/-- An operand fits its field F1 or F0 (R90). -/
def fitsField (n : Nat) : Bool := decide (n < 256)

/-- Every operand of the command fits its field. -/
def Instr.wf : Instr → Bool
  | .nop | .clear | .softReset | .segment | .build | .rsenc | .stamp | .place | .mask | .format | .encode => true
  | .gfMul a b => fitsField a && fitsField b
  | .gfExp n => fitsField n
  | .gfLog a => fitsField a
  | .gfInv a => fitsField a
  | .rsBlock k e => fitsField k && fitsField e
  | .genPoly e => fitsField e

end Sys2Proof
end

