-- ==== Sys2Proof/Decode.lean ====
section
/-! DEFINITION. The command word's fields, its decoder (total, 30_encoding.md R93) and its encoder (R92, R96). -/

namespace Sys2Proof

/-- cmd[31:24], the opcode (R90). -/
def opcField (w : Word) : Nat := w.toNat / 2 ^ 24
/-- cmd[23:16], reserved in every command (R90). -/
def f2Field (w : Word) : Nat := w.toNat / 2 ^ 16 % 256
/-- cmd[15:8], the first operand or reserved (R90). -/
def f1Field (w : Word) : Nat := w.toNat / 2 ^ 8 % 256
/-- cmd[7:0], the second operand or reserved (R90). -/
def f0Field (w : Word) : Nat := w.toNat % 256

/-- Why a word is no command (R93, R94): each raises IllegalCommand when it executes. -/
inductive Illegal where
  /-- cmd[31:24] is an unassigned opcode. -/
  | unassignedOpcode
  /-- cmd[23:16] is not 0. -/
  | reservedF2
  /-- cmd[15:0] is not 0 in a command without operands. -/
  | reservedF1F0
  /-- cmd[15:8] is not 0 in a command whose one operand is F0. -/
  | reservedF1
  deriving DecidableEq, Repr

/-- A command without operands: cmd[15:0] must be 0 (R93). -/
def noOperands (w : Word) (i : Instr) : Except Illegal Instr :=
  if f1Field w = 0 ∧ f0Field w = 0 then .ok i else .error .reservedF1F0

/-- A command whose one operand is F0: cmd[15:8] must be 0 (R93). -/
def oneOperand (w : Word) (i : Nat → Instr) : Except Illegal Instr :=
  if f1Field w = 0 then .ok (i (f0Field w)) else .error .reservedF1

/-- A command with operands F1 and F0 (R92). -/
def twoOperands (w : Word) (i : Nat → Nat → Instr) : Except Illegal Instr :=
  .ok (i (f1Field w) (f0Field w))

/-- cmd[23:16] is checked once the opcode is known to be assigned, before the operand fields (R93). -/
def checkF2 (w : Word) (rest : Except Illegal Instr) : Except Illegal Instr :=
  if f2Field w = 0 then rest else .error .reservedF2

/-- The decoder of R93: every 32-bit word is exactly one command or illegal. -/
def decode (w : Word) : Except Illegal Instr :=
  match opcField w with
  | 0x00 => checkF2 w (noOperands w .nop)
  | 0x01 => checkF2 w (noOperands w .clear)
  | 0x02 => checkF2 w (noOperands w .softReset)
  | 0x10 => checkF2 w (noOperands w .segment)
  | 0x11 => checkF2 w (noOperands w .build)
  | 0x12 => checkF2 w (noOperands w .rsenc)
  | 0x13 => checkF2 w (noOperands w .stamp)
  | 0x14 => checkF2 w (noOperands w .place)
  | 0x15 => checkF2 w (noOperands w .mask)
  | 0x16 => checkF2 w (noOperands w .format)
  | 0x1F => checkF2 w (noOperands w .encode)
  | 0x20 => checkF2 w (twoOperands w .gfMul)
  | 0x21 => checkF2 w (oneOperand w .gfExp)
  | 0x22 => checkF2 w (oneOperand w .gfLog)
  | 0x23 => checkF2 w (oneOperand w .gfInv)
  | 0x24 => checkF2 w (twoOperands w .rsBlock)
  | 0x25 => checkF2 w (oneOperand w .genPoly)
  | _ => .error .unassignedOpcode

/-- The opcode of a command (R92). -/
def opcode : Instr → Nat
  | .nop => 0x00
  | .clear => 0x01
  | .softReset => 0x02
  | .segment => 0x10
  | .build => 0x11
  | .rsenc => 0x12
  | .stamp => 0x13
  | .place => 0x14
  | .mask => 0x15
  | .format => 0x16
  | .encode => 0x1F
  | .gfMul _ _ => 0x20
  | .gfExp _ => 0x21
  | .gfLog _ => 0x22
  | .gfInv _ => 0x23
  | .rsBlock _ _ => 0x24
  | .genPoly _ => 0x25

/-- What stands in F1: the first of two operands, else 0 (R92, R96). -/
def operandF1 : Instr → Nat
  | .gfMul a _ => a
  | .rsBlock k _ => k
  | .nop | .clear | .softReset | .segment | .build | .rsenc | .stamp | .place | .mask | .format | .encode => 0
  | .gfExp _ | .gfLog _ | .gfInv _ | .genPoly _ => 0

/-- What stands in F0: the last operand, else 0 (R92, R96). -/
def operandF0 : Instr → Nat
  | .gfMul _ b => b
  | .gfExp n => n
  | .gfLog a => a
  | .gfInv a => a
  | .rsBlock _ e => e
  | .genPoly e => e
  | .nop | .clear | .softReset | .segment | .build | .rsenc | .stamp | .place | .mask | .format | .encode => 0

/-- The command word `OPC << 24 | F1 << 8 | F0` (R96). -/
def encode (i : Instr) : Word :=
  BitVec.ofNat 32 (opcode i * 2 ^ 24 + operandF1 i * 2 ^ 8 + operandF0 i)

/-- What the decoder reads from a table row's word. The word is one 32-bit bus word and has no byte order
(R68, R90), so the row's bit n is the word's bit n, and every bit above `nbits` is 0. -/
def decodeTableWord (nbits w : Nat) : Option Instr :=
  match decode (BitVec.ofNat 32 (w % 2 ^ nbits)) with
  | .ok i => some i
  | .error _ => none

/-- The mnemonic in the assembler syntax (R96). -/
def mnemonic : Instr → String
  | .nop => "NOP"
  | .clear => "CLEAR"
  | .softReset => "SOFT_RESET"
  | .segment => "SEGMENT"
  | .build => "BUILD"
  | .rsenc => "RSENC"
  | .stamp => "STAMP"
  | .place => "PLACE"
  | .mask => "MASK"
  | .format => "FORMAT"
  | .encode => "ENCODE"
  | .gfMul _ _ => "GF_MUL"
  | .gfExp _ => "GF_EXP"
  | .gfLog _ => "GF_LOG"
  | .gfInv _ => "GF_INV"
  | .rsBlock _ _ => "RS_BLOCK"
  | .genPoly _ => "GEN_POLY"

/-- The command in the assembler syntax of R96: the mnemonic, then its operands in the order F1, F0,
separated by a comma, here in decimal. -/
def assemblyText (i : Instr) : String :=
  match i with
  | .gfMul a b => mnemonic i ++ " " ++ toString a ++ ", " ++ toString b
  | .rsBlock k e => mnemonic i ++ " " ++ toString k ++ ", " ++ toString e
  | .gfExp n => mnemonic i ++ " " ++ toString n
  | .gfLog a => mnemonic i ++ " " ++ toString a
  | .gfInv a => mnemonic i ++ " " ++ toString a
  | .genPoly e => mnemonic i ++ " " ++ toString e
  | .nop | .clear | .softReset | .segment | .build | .rsenc | .stamp | .place | .mask | .format | .encode =>
    mnemonic i

end Sys2Proof
end

