-- ==== Sys2Proof/Config.lean ====
section
/-! DEFINITION. The configuration of 00_scope.md R7 as plain data, one field per parameter, and the opaque
constants that stand for what the spec leaves open: the OPEN parameters CAP, CCI_W and BASE (R9, R60), the
value of a read while BUSY (20_memory.md R67) and the outputs of a stage that raised an encoding error
(60_exceptions.md R326). An opaque constant has no body, so no proof can see its value. -/

namespace Sys2Proof

/-- The error-correction levels, CONFIG.ECL codes 0 to 3 (10_state.md R32). -/
inductive Ecl where
  | low | medium | quartile | high
  deriving DecidableEq, Repr

/-- A block group (num, c, k) of CAP: num blocks of c codewords, k of them data (42_bitstream.md R160). -/
structure Group where
  num : Nat
  c : Nat
  k : Nat
  deriving DecidableEq, Repr

/-- One defined entry CAP(version, level) (R160). -/
structure CapRow where
  version : Nat
  level : Ecl
  groups : List Group
  deriving DecidableEq, Repr

/-- CCI_W(v, m) of one version: the character-count field widths of the three modes (R163, R172). -/
structure CountWidths where
  numeric : Nat
  alphanumeric : Nat
  byte : Nat
  deriving DecidableEq, Repr, Inhabited

/-- What GEOM(v) says of an in-range cell: a Data cell, a Format cell, or a Structural cell with its fixed
colour (44_matrix.md R231). -/
inductive Layout where
  | data | format | dark | light
  deriving DecidableEq, Repr

/-- GEOM(v), FMT_POS_A(v) and FMT_POS_B(v) of one version written out as a table, for a configuration that
substitutes its own geometry (00_scope.md R7). -/
structure VersionLayout where
  cells : List (List Layout)
  posA : List (Nat × Nat)
  posB : List (Nat × Nat)
  deriving DecidableEq, Repr

/-- The parameters GEOM, FMT_POS_A and FMT_POS_B: the layout rules of 44_matrix.md R231 to R238 over a table
ALIGN(W) of alignment columns, or any other layout as a table. -/
inductive Geom where
  | rmqr (align : List (Nat × List Nat))
  | table (versions : List VersionLayout)
  deriving DecidableEq, Repr

/-- A mask predicate m_i(r, c) of MASKSET (45_mask.md R270). The first eight are those of
93_implementation_defined.md G22, in its order; the reference mask of R270 is `blocks`. Any other predicate
is its table over rows and columns. -/
inductive MaskFn where
  | checker | rows | columns | diagonals | blocks | products | productsEven | mixedEven
  | table (rows : List (List Bool))
  deriving DecidableEq, Repr

/-- The configuration: the parameters of R7. Derived parameters (NV, NM, MW, FMT_W) are functions of
these fields. -/
structure Config where
  /-- BASE / 4096: the window's base address is 4096-byte aligned (20_memory.md R60). -/
  basePage : Nat
  /-- VTAB: (height, width) of each version; NV is its length. -/
  vtab : List (Nat × Nat)
  /-- PMAX, payload buffer depth. -/
  pmax : Nat
  /-- CWMAX, codeword buffer depth. -/
  cwmax : Nat
  /-- ECL_SUPPORTED with ECL_CODE: the accepted levels, each with its code in the format field; the first row of a level
counts (DESIGN CHOICE, log entry 31). -/
  levels : List (Ecl × Nat)
  /-- ECL_W, bits of the level code. -/
  eclW : Nat
  /-- CAP, the defined entries; the first row of a pair counts (DESIGN CHOICE, log entry 31). -/
  cap : List CapRow
  /-- CCI_W, one row per version. -/
  cciW : List CountWidths
  /-- REM(v), remainder bits of each version. -/
  rem : List Nat
  /-- SIZE_ORDER, any list of versions: it may leave versions out and repeat them (42_bitstream.md R168). -/
  sizeOrder : List Nat
  /-- MI_W, mode-indicator and terminator width. -/
  miW : Nat
  /-- MI_CODE of numeric, alphanumeric and byte mode. -/
  miNumeric : Nat
  miAlphanumeric : Nat
  miByte : Nat
  /-- The bytes b with BYTE_OK(b) false. -/
  byteNotOk : List Byte
  /-- ALNUM: each alphanumeric character with its value, any number; the first row of a character counts (DESIGN CHOICE,
  log entry 31). -/
  alnum : List (Byte × Nat)
  /-- PAD0 and PAD1, the pad codewords. -/
  pad0 : Byte
  pad1 : Byte
  /-- PRIM, the field polynomial of GF(256), with its x^8 bit. -/
  prim : Nat
  /-- ALPHA, the primitive element. -/
  alpha : Nat
  /-- GEOM, FMT_POS_A and FMT_POS_B. -/
  geom : Geom
  /-- MASKSET; NM is its length. -/
  masks : List MaskFn
  /-- The penalty weights N1 to N4. -/
  n1 : Nat
  n2 : Nat
  n3 : Nat
  n4 : Nat
  /-- VI_W, version-indicator bits of the format field. -/
  viW : Nat
  /-- FMT_GEN, the format BCH generator. -/
  fmtGen : Nat
  /-- FMT_EC_W, format check bits. -/
  fmtEcW : Nat
  /-- FMT_MASK_A and FMT_MASK_B, the format XOR masks. -/
  fmtMaskA : Nat
  fmtMaskB : Nat
  deriving DecidableEq, Repr

/-- OPEN parameter CAP of the reference configuration (R9, 92_eei_decisions.md D20). -/
opaque Config.openCap : List CapRow

/-- OPEN parameter CCI_W of the reference configuration (R9, D21). -/
opaque Config.openCciW : List CountWidths

/-- OPEN parameter BASE of the reference configuration, divided by 4096 (20_memory.md R60, D3). -/
opaque Config.openBasePage : Nat

/-- Free value: what the n-th draw of the run returns to a read while BUSY (R67, 93 U1). -/
opaque Config.busyRead : Nat → Word

/-- Free value: what element number `element` of a failed stage's outputs holds after the n-th draw of
the run (R326, 93 U3). -/
opaque Config.unspecified : (draw : Nat) → (element : Nat) → Word

end Sys2Proof
end

