-- ==== Sys2Proof/Machine/Geometry.lean ====
section
/-! DEFINITION. The symbol geometry: VTAB, GEOM(v) and the format positions (44_matrix.md R230 to R239) and the
placement order (R242), as functions of the configuration. -/

namespace Sys2Proof.Machine

/-- NV, the number of versions (00_scope.md R7). -/
def nv (c : Config) : Nat := c.vtab.length

/-- H(v), the number of rows of version v (R230). -/
def heightOf (c : Config) (v : Nat) : Nat := (c.vtab.getD v (0, 0)).1

/-- W(v), the number of columns of version v (R230). -/
def widthOf (c : Config) (v : Nat) : Nat := (c.vtab.getD v (0, 0)).2

/-- The distance of two coordinates. -/
def dist (a b : Nat) : Nat := (a - b) + (b - a)

/-- ALIGN(W), the alignment-pattern centre columns of a width (R230). -/
def alignColumns (align : List (Nat × List Nat)) (w : Nat) : List Nat :=
  ((align.find? fun row => row.1 == w).map Prod.snd).getD []

/-- FMT_POS_A of R238: beside the finder. -/
def rmqrPosA : List (Nat × Nat) :=
  ((List.range 15).map fun n => (1 + n % 5, 8 + n / 5)) ++ [(1, 11), (2, 11), (3, 11)]

/-- FMT_POS_B of R238: beside the sub-finder. -/
def rmqrPosB (h w : Nat) : List (Nat × Nat) :=
  ((List.range 15).map fun n => (h - 6 + n % 5, w - 8 + n / 5)) ++ [(h - 6, w - 5), (h - 6, w - 4), (h - 6, w - 3)]

/-- Dark or Light as a structural layout. -/
def darkIf (b : Bool) : Layout := if b then .dark else .light

/-- R232: the 7×7 finder at the top left. -/
def finderCell (r c : Nat) : Option Layout :=
  if r < 7 ∧ c < 7 then some (darkIf (max (dist r 3) (dist c 3) != 2)) else none

/-- R233: the light separator at column 7, and at row 7 when H ≥ 9. -/
def separatorCell (h r c : Nat) : Option Layout :=
  if (c = 7 ∧ r ≤ min 7 (h - 1)) ∨ (9 ≤ h ∧ r = 7 ∧ c ≤ 7) then some .light else none

/-- R234: the 5×5 sub-finder at the bottom right. -/
def subfinderCell (h w r c : Nat) : Option Layout :=
  if h ≤ r + 5 ∧ w ≤ c + 5 then some (darkIf (max (dist (r + 3) h) (dist (c + 3) w) != 1)) else none

/-- R235: the corner finder patterns at the top-right and bottom-left corners. -/
def cornerCell (h w r c : Nat) : Option Layout :=
  if r = 0 ∧ (c + 1 = w ∨ c + 2 = w) then some .dark
  else if r = 1 ∧ c + 1 = w then some .dark
  else if r = 1 ∧ c + 2 = w then some .light
  else if r + 1 = h ∧ c ≤ 2 then some .dark
  else if 11 ≤ h ∧ r + 2 = h ∧ c = 0 then some .dark
  else if 11 ≤ h ∧ r + 2 = h ∧ c = 1 then some .light
  else none

/-- R236: the 3×3 alignment patterns at the top and bottom edge, around each alignment column. -/
def alignmentCell (cols : List Nat) (h r c : Nat) : Option Layout :=
  match cols.find? fun cx => dist c cx ≤ 1 with
  | some cx =>
    if r ≤ 2 then some (darkIf !(r == 1 && c == cx))
    else if h ≤ r + 3 then some (darkIf !(r + 2 == h && c == cx))
    else none
  | none => none

/-- R237: the timing patterns on the edge rows, the edge columns and the alignment columns. -/
def timingCell (cols : List Nat) (h w r c : Nat) : Option Layout :=
  if r = 0 ∨ r + 1 = h then some (darkIf (c % 2 == 0))
  else if c = 0 ∨ c + 1 = w ∨ cols.contains c then some (darkIf (r % 2 == 0))
  else none

/-- R231: a structural cell takes its colour from the first component that names it. -/
def structuralCell (cols : List Nat) (h w r c : Nat) : Option Layout :=
  finderCell r c <|> separatorCell h r c <|> subfinderCell h w r c <|> cornerCell h w r c
    <|> alignmentCell cols h r c <|> timingCell cols h w r c

/-- The cells FMT_POS_A of R238 lists: three columns of five rows, and three cells of a fourth column. -/
def inPosA (r c : Nat) : Bool :=
  decide (1 ≤ r) && (decide (r ≤ 5) && decide (8 ≤ c) && decide (c ≤ 10) || decide (r ≤ 3) && c == 11)

/-- The cells FMT_POS_B of R238 lists: three columns of five rows, and three cells of the first row. -/
def inPosB (h w r c : Nat) : Bool :=
  decide (h - 6 ≤ r) && decide (w - 8 ≤ c)
    && (decide (r < h - 6 + 5) && decide (c < w - 8 + 3)
      || r == h - 6 && (c == w - 5 || c == w - 4 || c == w - 3))

/-- R231 for one in-range cell: the format positions are assigned after the structural components, and
a cell named by none is a Data cell. -/
def rmqrCell (align : List (Nat × List Nat)) (h w r c : Nat) : Layout :=
  if inPosA r c || inPosB h w r c then .format
  else (structuralCell (alignColumns align w) h w r c).getD .data

/-- The table layout of version v, when GEOM is given as tables. -/
def versionLayout (versions : List VersionLayout) (v : Nat) : VersionLayout :=
  versions.getD v { cells := [], posA := [], posB := [] }

/-- GEOM(v) at an in-range cell (R231). -/
def geomCell (c : Config) (v row col : Nat) : Layout :=
  match c.geom with
  | .rmqr align => rmqrCell align (heightOf c v) (widthOf c v) row col
  | .table versions => ((versionLayout versions v).cells.getD row []).getD col .data

/-- FMT_POS_A(v) (R238). -/
def fmtPosA (c : Config) (v : Nat) : List (Nat × Nat) :=
  match c.geom with
  | .rmqr _ => rmqrPosA
  | .table versions => (versionLayout versions v).posA

/-- FMT_POS_B(v) (R238). -/
def fmtPosB (c : Config) (v : Nat) : List (Nat × Nat) :=
  match c.geom with
  | .rmqr _ => rmqrPosB (heightOf c v) (widthOf c v)
  | .table versions => (versionLayout versions v).posB

/-- The in-range cells of version v, row by row from the top, left to right (00_scope.md R13). -/
def cellsOf (c : Config) (v : Nat) : List (Nat × Nat) :=
  (List.range (heightOf c v)).flatMap fun r => (List.range (widthOf c v)).map fun col => (r, col)

/-- free(v): the number of Data cells of GEOM(v) (R239). -/
def freeCells (c : Config) (v : Nat) : Nat :=
  ((cellsOf c v).filter fun p => geomCell c v p.1 p.2 == .data).length

/-- The right columns of the walk's column pairs: W−2, W−4, … while not negative (R242). -/
def pairColumns (w : Nat) : List Nat := (List.range (w / 2)).map fun k => w - 2 - 2 * k

/-- The rows of one sweep: from the bottom when going up, from the top when going down (R242). -/
def sweepRows (h : Nat) (up : Bool) : List Nat :=
  if up then (List.range h).reverse else List.range h

/-- The columns of a pair, right column first (R242). -/
def pairOf (rc : Nat) : List Nat := if rc = 0 then [0] else [rc, rc - 1]

/-- The sweeps over the column pairs, alternating from `up` (R242). -/
def sweeps (h : Nat) : Bool → List Nat → List (Nat × Nat)
  | _, [] => []
  | up, rc :: rest =>
    ((sweepRows h up).flatMap fun r => (pairOf rc).map fun c => (r, c)) ++ sweeps h (!up) rest

/-- order(v): the Data cells in placement order (R242). -/
def placementOrder (c : Config) (v : Nat) : List (Nat × Nat) :=
  (sweeps (heightOf c v) true (pairColumns (widthOf c v))).filter fun p => geomCell c v p.1 p.2 == .data

end Sys2Proof.Machine
end

