-- ==== Sys2Proof/Machine/Admissible.lean ====
section
/-! DEFINITION. The well-formedness conditions of 00_scope.md R8 on a configuration, and the derived parameters.
A configuration that fails one has no meaning in this model (R7): `Params` cannot hold it. -/

namespace Sys2Proof.Machine

/-- NM, the number of mask candidates (R7). -/
def nm (c : Config) : Nat := c.masks.length

/-- MW = ceil(log2 NM), mask-index bits in the format field, for the NM ≤ 8 that R8 admits (R7). -/
def mw (c : Config) : Nat := if nm c ≤ 1 then 0 else if nm c ≤ 2 then 1 else if nm c ≤ 4 then 2 else 3

/-- FMT_W = ECL_W + MW + VI_W + FMT_EC_W (R7). -/
def fmtW (c : Config) : Nat := c.eclW + mw c + c.viW + c.fmtEcW

/-- TCW of a CAP entry: all its codewords (42_bitstream.md R160). -/
def totalOf (gs : List Group) : Nat := (gs.map fun g => g.num * g.c).sum

/-- DCW of a CAP entry: its data codewords (R160). -/
def dataOf (gs : List Group) : Nat := (gs.map fun g => g.num * g.k).sum

/-- NBLK of a CAP entry: its blocks (R160). -/
def blocksOf (gs : List Group) : Nat := (gs.map fun g => g.num).sum

/-- R8 condition 1: 1 to 32 versions, each of 1 to 32 rows and 1 to 256 columns. -/
def wfVersions (c : Config) : Bool :=
  decide (1 ≤ nv c ∧ nv c ≤ 32) &&
    c.vtab.all fun s => decide (1 ≤ s.1 ∧ s.1 ≤ 32 ∧ 1 ≤ s.2 ∧ s.2 ≤ 256)

/-- R8 condition 2 for one CAP entry. -/
def wfGroups (cwmax : Nat) (gs : List Group) : Bool :=
  (gs.all fun g => decide (1 ≤ g.num ∧ 1 ≤ g.k ∧ g.k < g.c ∧ g.c ≤ 255)) &&
    decide (totalOf gs ≤ cwmax) && decide (blocksOf gs ≤ 31)

/-- R8 condition 2. -/
def wfCap (c : Config) : Bool := c.cap.all fun row => wfGroups c.cwmax row.groups

/-- R8 condition 3 at one version and CAP entry: the Data cells hold exactly the stream. A property, not a
refusal (R8, 92_eei_decisions.md D52). -/
def capacityMatches (c : Config) (v : Nat) (gs : List Group) : Bool :=
  freeCells c v == 8 * totalOf gs + c.rem.getD v 0

/-- A count-field width R8 condition 4 admits. -/
def wfCountWidth (w : Nat) : Bool := decide (1 ≤ w ∧ w ≤ 16)

/-- CCI_W of version v, all modes. -/
def countWidths (c : Config) (v : Nat) : CountWidths := c.cciW.getD v default

/-- R8 condition 4. -/
def wfCountWidths (c : Config) : Bool :=
  (List.range (nv c)).all fun v =>
    wfCountWidth (countWidths c v).numeric && wfCountWidth (countWidths c v).alphanumeric
      && wfCountWidth (countWidths c v).byte

/-- R8 condition 5 for one version: two lists of FMT_W distinct Format cells, and every in-range Format cell
on exactly one of them. -/
def wfFormatCells (c : Config) (v : Nat) : Bool :=
  decide ((fmtPosA c v).length = fmtW c) && decide ((fmtPosB c v).length = fmtW c)
    && decide (fmtPosA c v ++ fmtPosB c v).Nodup
    && ((fmtPosA c v ++ fmtPosB c v).all fun p =>
      decide (p.1 < heightOf c v) && decide (p.2 < widthOf c v) && geomCell c v p.1 p.2 == .format)
    && ((cellsOf c v).all fun p =>
      geomCell c v p.1 p.2 != .format || (fmtPosA c v ++ fmtPosB c v).contains p)

/-- R8 condition 5. -/
def wfFormat (c : Config) : Bool :=
  decide (1 ≤ nm c ∧ nm c ≤ 8) && (List.range (nv c)).all fun v => wfFormatCells c v

/-- R8 condition 6: no Data cell in the last column. -/
def wfLastColumn (c : Config) : Bool :=
  (List.range (nv c)).all fun v =>
    (List.range (heightOf c v)).all fun r => geomCell c v r (widthOf c v - 1) != .data

/-- R8 condition 7. -/
def wfSizes (c : Config) : Bool :=
  decide (fmtW c ≤ 32 ∧ 1 ≤ c.miW ∧ c.miW ≤ 8 ∧ 1 ≤ c.pmax ∧ c.pmax ≤ 1024 ∧ 256 ≤ c.cwmax ∧ c.cwmax ≤ 1024)

/-- What R7 says of the tables by their typing: SIZE_ORDER lists versions, in any order and any number, CAP is given
for versions, and REM has a value for each version. -/
def wfTables (c : Config) : Bool :=
  (c.sizeOrder.all fun v => decide (v < nv c)) && (c.cap.all fun row => decide (row.version < nv c))
    && decide (c.rem.length = nv c)

/-- The conditions a configuration must meet to have a meaning: R8, all but its condition 3, and the typing
of R7. -/
def configWf (c : Config) : Bool :=
  wfTables c && wfVersions c && wfCap c && wfCountWidths c && wfFormat c && wfLastColumn c && wfSizes c

/-- A configuration together with the proof that R8 admits it: an ill-formed one is refused in that it
cannot be written here (R7, 93_implementation_defined.md U7). -/
structure Params where
  config : Config
  ok : configWf config = true
  deriving DecidableEq, Repr

/-- The model's refusal of ill-formed configurations as a function: none where R8 refuses. -/
def ofConfig? (c : Config) : Option Params :=
  if h : configWf c = true then some ⟨c, h⟩ else none

end Sys2Proof.Machine
end

