-- ==== Sys2Proof/Machine/Reference.lean ====
section
/-! DEFINITION. The reference configuration of 00_scope.md R7. CAP, CCI_W and BASE are OPEN (R9): they come from
opaque constants, brought into the form R8 demands, its condition 3 included; every other parameter has its reference value. -/

namespace Sys2Proof.Machine

/-- VTAB of 44_matrix.md R230: (H, W) of versions 0 to 31. -/
def refVtab : List (Nat × Nat) :=
  [(7, 43), (7, 59), (7, 77), (7, 99), (7, 139), (9, 43), (9, 59), (9, 77)] ++
  [(9, 99), (9, 139), (11, 27), (11, 43), (11, 59), (11, 77), (11, 99), (11, 139)] ++
  [(13, 27), (13, 43), (13, 59), (13, 77), (13, 99), (13, 139), (15, 43), (15, 59)] ++
  [(15, 77), (15, 99), (15, 139), (17, 43), (17, 59), (17, 77), (17, 99), (17, 139)]

/-- ALIGN(W) of R230. -/
def refAlign : List (Nat × List Nat) :=
  [(27, []), (43, [21]), (59, [19, 39]), (77, [25, 51]), (99, [23, 49, 75]), (139, [27, 55, 83, 111])]

/-- REM(v) of R230. -/
def refRem : List Nat :=
  [0, 3, 5, 6, 1, 2, 3, 1] ++ [4, 5, 2, 1, 0, 2, 7, 6] ++ [4, 1, 6, 4, 3, 0, 1, 4] ++ [6, 7, 2, 1, 2, 0, 3, 4]

/-- SIZE_ORDER of 42_bitstream.md R161. -/
def refSizeOrder : List Nat :=
  [10, 0, 16, 5, 1, 11, 6, 2] ++ [17, 22, 12, 3, 7, 27, 18, 13] ++
  [23, 8, 4, 19, 28, 14, 24, 9] ++ [20, 29, 25, 15, 30, 21, 26, 31]

/-- ALNUM of 41_mode_selector.md R141: the digits, the upper-case letters and nine more characters, with their values. -/
def refAlnum : List (Byte × Nat) :=
  ((List.range 10).map fun i => (BitVec.ofNat 8 (0x30 + i), i)) ++
  ((List.range 26).map fun i => (BitVec.ofNat 8 (0x41 + i), 10 + i)) ++
  [(0x20, 36), (0x24, 37), (0x25, 38), (0x2A, 39), (0x2B, 40), (0x2D, 41), (0x2E, 42), (0x2F, 43), (0x3A, 44)]

/-- The reference configuration with the OPEN parameters (and the bytes BYTE_OK excludes) as arguments. -/
def refWith (basePage : Nat) (cap : List CapRow) (cciW : List CountWidths) (byteNotOk : List Byte) : Config where
  basePage := basePage
  vtab := refVtab
  pmax := 512
  cwmax := 256
  levels := [(.medium, 0), (.high, 1)]
  eclW := 1
  cap := cap
  cciW := cciW
  rem := refRem
  sizeOrder := refSizeOrder
  miW := 4
  miNumeric := 1
  miAlphanumeric := 2
  miByte := 4
  byteNotOk := byteNotOk
  alnum := refAlnum
  pad0 := 0xEC
  pad1 := 0x11
  prim := 0x11D
  alpha := 2
  geom := .rmqr refAlign
  masks := [.blocks]
  n1 := 3
  n2 := 3
  n3 := 40
  n4 := 10
  viW := 5
  fmtGen := 0x1F25
  fmtEcW := 12
  fmtMaskA := 0x1FAB2
  fmtMaskB := 0x20A7B

/-- The reference configuration without its OPEN parameters, which its geometry and REM do not depend on. -/
def refGeometry : Config := refWith 0 [] [] []

/-- The OPEN capacity table restricted to the versions there are and to the entries that R8 condition 2 admits and that
show condition 3, which the reference configuration must (R8, 42_bitstream.md R160). -/
def capOfOpen (rows : List CapRow) : List CapRow :=
  rows.filter fun row => (decide (row.version < 32) && wfGroups 256 row.groups)
    && capacityMatches refGeometry row.version row.groups

/-- A count-field width, replaced by 1 where R8 condition 4 does not admit it. -/
def widthOfOpen (w : Nat) : Nat := if wfCountWidth w then w else 1

/-- The OPEN count-field widths of the 32 versions in the form R8 condition 4 admits. -/
def cciWOfOpen (rows : List CountWidths) : List CountWidths :=
  (List.range 32).map fun v =>
    { numeric := widthOfOpen (rows.getD v default).numeric
      alphanumeric := widthOfOpen (rows.getD v default).alphanumeric
      byte := widthOfOpen (rows.getD v default).byte }

/-! The reference configuration meets R8, whatever the OPEN parameters are. -/

theorem refVtab_bounds : ∀ s ∈ refVtab, 7 ≤ s.1 ∧ s.1 ≤ 17 ∧ 27 ≤ s.2 ∧ s.2 ≤ 139 := by decide

theorem refVtab_getD {v : Nat} (hv : v < 32) :
    7 ≤ (refVtab.getD v (0, 0)).1 ∧ 27 ≤ (refVtab.getD v (0, 0)).2 := by
  have hl : v < refVtab.length := hv
  have h := refVtab_bounds _ (List.getElem_mem hl)
  simp only [List.getD_eq_getElem?_getD, List.getElem?_eq_getElem hl, Option.getD_some]
  omega

theorem mem_rmqrPosA {r c : Nat} : (r, c) ∈ rmqrPosA ↔ inPosA r c = true := by
  simp only [rmqrPosA, inPosA, List.mem_append, List.mem_map, List.mem_range, Prod.mk.injEq, List.mem_cons,
    List.not_mem_nil, or_false, Bool.and_eq_true, Bool.or_eq_true, decide_eq_true_eq, beq_iff_eq]
  constructor
  · rintro (⟨n, hn, h1, h2⟩ | h | h | h) <;> omega
  · rintro ⟨h1, ⟨⟨h2, h3⟩, h4⟩ | ⟨h2, h3⟩⟩
    · exact .inl ⟨(c - 8) * 5 + (r - 1), by omega, by omega, by omega⟩
    · right; omega

theorem mem_rmqrPosB {h w r c : Nat} : (r, c) ∈ rmqrPosB h w ↔ inPosB h w r c = true := by
  simp only [rmqrPosB, inPosB, List.mem_append, List.mem_map, List.mem_range, Prod.mk.injEq, List.mem_cons,
    List.not_mem_nil, or_false, Bool.and_eq_true, Bool.or_eq_true, decide_eq_true_eq, beq_iff_eq]
  constructor
  · rintro (⟨n, hn, h1, h2⟩ | h | h | h) <;> omega
  · rintro ⟨⟨h1, h2⟩, ⟨h3, h4⟩ | ⟨h3, h4⟩⟩
    · exact .inl ⟨(c - (w - 8)) * 5 + (r - (h - 6)), by omega, by omega, by omega⟩
    · right; omega

theorem rmqrPosA_nodup : rmqrPosA.Nodup := by decide

theorem rmqrPosB_nodup {h w : Nat} (hw : 8 ≤ w) : (rmqrPosB h w).Nodup := by
  have e : rmqrPosB h w = (((List.range 15).map fun n => (n % 5, n / 5)) ++ [(0, 3), (0, 4), (0, 5)]).map
      fun p : Nat × Nat => (h - 6 + p.1, w - 8 + p.2) := by
    simp only [rmqrPosB, List.map_append, List.map_map, Function.comp_def, List.map_cons, List.map_nil, Nat.add_zero]
    have h5 : w - 5 = w - 8 + 3 := by omega
    have h4 : w - 4 = w - 8 + 4 := by omega
    have h3 : w - 3 = w - 8 + 5 := by omega
    rw [h5, h4, h3]
  rw [e]
  refine List.Nodup.map ?_ (by decide)
  rintro ⟨a, b⟩ ⟨a', b'⟩ hab
  simp only [Prod.mk.injEq] at hab ⊢
  omega

theorem rmqrPos_nodup {h w : Nat} (hw : 27 ≤ w) : (rmqrPosA ++ rmqrPosB h w).Nodup := by
  refine List.nodup_append.mpr ⟨rmqrPosA_nodup, rmqrPosB_nodup (by omega), ?_⟩
  rintro ⟨r, c⟩ ha ⟨r', c'⟩ hb hab
  simp only [Prod.mk.injEq] at hab
  rw [mem_rmqrPosA] at ha
  rw [mem_rmqrPosB] at hb
  simp only [inPosA, inPosB, Bool.and_eq_true, Bool.or_eq_true, decide_eq_true_eq, beq_iff_eq] at ha hb
  omega

theorem darkIf_ne_format (b : Bool) : darkIf b ≠ .format := by cases b <;> decide

/-- The last column is vertical timing (R237), so a structural component names each of its cells. -/
theorem structuralCell_last (cols : List Nat) {h w r c : Nat} (hc : c + 1 = w) :
    (structuralCell cols h w r c).isSome := by
  have ht : (timingCell cols h w r c).isSome := by
    simp only [timingCell, hc]
    split <;> simp
  have key : ∀ {x y : Option Layout}, y.isSome → (x <|> y).isSome := by
    intro x y hy
    cases x <;> simp_all
  exact key (key (key (key (key ht))))

/-- No structural component makes a Format cell. -/
theorem structuralCell_ne_format (cols : List Nat) (h w r c : Nat) :
    (structuralCell cols h w r c).getD .data ≠ .format := by
  have hne : ∀ o ∈ structuralCell cols h w r c, o ≠ .format := by
    intro o ho
    have key : ∀ {x y : Option Layout}, (∀ a ∈ x, a ≠ .format) → (∀ a ∈ y, a ≠ .format) →
        ∀ a ∈ (x <|> y), a ≠ .format := by
      intro x y hx hy a ha
      cases x with
      | none => exact hy a (by simpa using ha)
      | some b => exact hx a (by simpa using ha)
    have some_darkIf : ∀ (b : Bool), ∀ a ∈ some (darkIf b), a ≠ .format := by
      intro b a ha
      rw [← Option.mem_some.mp ha]
      exact darkIf_ne_format b
    refine key ?_ (key ?_ (key ?_ (key ?_ (key ?_ ?_)))) o ho <;> intro a ha
    · simp only [finderCell] at ha
      split at ha
      · exact some_darkIf _ a ha
      · simp at ha
    · simp only [separatorCell] at ha
      split at ha
      · exact some_darkIf false a ha
      · simp at ha
    · simp only [subfinderCell] at ha
      split at ha
      · exact some_darkIf _ a ha
      · simp at ha
    · simp only [cornerCell] at ha
      split_ifs at ha
      · exact some_darkIf true a ha
      · exact some_darkIf true a ha
      · exact some_darkIf false a ha
      · exact some_darkIf true a ha
      · exact some_darkIf true a ha
      · exact some_darkIf false a ha
      · simp at ha
    · simp only [alignmentCell] at ha
      split at ha
      · split_ifs at ha
        · exact some_darkIf _ a ha
        · exact some_darkIf _ a ha
        · simp at ha
      · simp at ha
    · simp only [timingCell] at ha
      split_ifs at ha
      · exact some_darkIf _ a ha
      · exact some_darkIf _ a ha
      · simp at ha
  cases hs : structuralCell cols h w r c with
  | none => decide
  | some o => exact hne o (by simp [hs])

theorem darkIf_ne_data (b : Bool) : darkIf b ≠ .data := by cases b <;> decide

/-- No structural component makes a Data cell. -/
theorem structuralCell_ne_data (cols : List Nat) (h w r c : Nat) :
    structuralCell cols h w r c ≠ some .data := by
  have key : ∀ {x y : Option Layout}, x ≠ some .data → y ≠ some .data → (x <|> y) ≠ some .data := by
    intro x y hx hy
    cases x <;> simp_all
  have some_darkIf : ∀ b : Bool, some (darkIf b) ≠ some .data := fun b h =>
    darkIf_ne_data b (Option.some.inj h)
  refine key ?_ (key ?_ (key ?_ (key ?_ (key ?_ ?_))))
  · simp only [finderCell]; split
    · exact some_darkIf _
    · simp
  · simp only [separatorCell]; split <;> simp
  · simp only [subfinderCell]; split
    · exact some_darkIf _
    · simp
  · simp only [cornerCell]; split_ifs <;> simp
  · simp only [alignmentCell]; split
    · split_ifs
      · exact some_darkIf _
      · exact some_darkIf _
      · simp
    · simp
  · simp only [timingCell]; split_ifs
    · exact some_darkIf _
    · exact some_darkIf _
    · simp

/-- A cell of the reference layout is a Format cell exactly when a format list names it. -/
theorem rmqrCell_format {align : List (Nat × List Nat)} {h w r c : Nat} :
    rmqrCell align h w r c = .format ↔ (r, c) ∈ rmqrPosA ++ rmqrPosB h w := by
  rw [List.mem_append, mem_rmqrPosA, mem_rmqrPosB, rmqrCell]
  split
  · next h => simpa using h
  · next h => simpa [structuralCell_ne_format] using h

/-- No cell of the last column is a Data cell. -/
theorem rmqrCell_last (align : List (Nat × List Nat)) {h w r : Nat} (hw : 0 < w) :
    rmqrCell align h w r (w - 1) ≠ .data := by
  rw [rmqrCell]
  split
  · simp
  · have hs := structuralCell_last (alignColumns align w) (h := h) (r := r) (c := w - 1) (w := w) (by omega)
    have hd := structuralCell_ne_data (alignColumns align w) h w r (w - 1)
    cases hx : structuralCell (alignColumns align w) h w r (w - 1) with
    | none => simp [hx] at hs
    | some o => simpa [hx] using hd

section
variable {basePage : Nat} {cap : List CapRow} {cciW : List CountWidths} {bad : List Byte}

theorem nv_refWith : nv (refWith basePage cap cciW bad) = 32 := rfl

theorem fmtW_refWith : fmtW (refWith basePage cap cciW bad) = 18 := rfl

theorem wfFormatCells_refWith {v : Nat} (hv : v < 32) : wfFormatCells (refWith basePage cap cciW bad) v = true := by
  obtain ⟨hh, hw⟩ := refVtab_getD hv
  have eA : fmtPosA (refWith basePage cap cciW bad) v = rmqrPosA := rfl
  have eB : fmtPosB (refWith basePage cap cciW bad) v =
      rmqrPosB (refVtab.getD v (0, 0)).1 (refVtab.getD v (0, 0)).2 := rfl
  have eC : ∀ r c, geomCell (refWith basePage cap cciW bad) v r c =
      rmqrCell refAlign (refVtab.getD v (0, 0)).1 (refVtab.getD v (0, 0)).2 r c := fun _ _ => rfl
  have eH : heightOf (refWith basePage cap cciW bad) v = (refVtab.getD v (0, 0)).1 := rfl
  have eW : widthOf (refWith basePage cap cciW bad) v = (refVtab.getD v (0, 0)).2 := rfl
  rw [wfFormatCells, eA, eB, eH, eW, fmtW_refWith]
  simp only [eC]
  generalize refVtab.getD v (0, 0) = s at hh hw
  obtain ⟨h, w⟩ := s
  simp only [Bool.and_eq_true, decide_eq_true_eq, List.all_eq_true, beq_iff_eq, Bool.or_eq_true, bne_iff_ne, ne_eq,
    List.contains_iff_mem, rmqrCell_format]
  refine ⟨⟨⟨⟨rfl, rfl⟩, rmqrPos_nodup hw⟩, ?_⟩, ?_⟩
  · rintro ⟨r, c⟩ hp
    refine ⟨?_, hp⟩
    rw [List.mem_append, mem_rmqrPosA, mem_rmqrPosB] at hp
    simp only [inPosA, inPosB, Bool.and_eq_true, Bool.or_eq_true, decide_eq_true_eq, beq_iff_eq] at hp hh hw
    refine ⟨?_, ?_⟩ <;> dsimp only <;> omega
  · rintro ⟨r, c⟩ -
    exact (em' _)

theorem wfFormat_refWith : wfFormat (refWith basePage cap cciW bad) = true := by
  simp only [wfFormat, Bool.and_eq_true, List.all_eq_true, List.mem_range, nv_refWith]
  exact ⟨rfl, fun v hv => wfFormatCells_refWith hv⟩

theorem wfLastColumn_refWith : wfLastColumn (refWith basePage cap cciW bad) = true := by
  simp only [wfLastColumn, List.all_eq_true, List.mem_range, nv_refWith, bne_iff_ne, ne_eq]
  intro v hv r _
  have hw := (refVtab_getD hv).2
  exact rmqrCell_last refAlign (by show 0 < (refVtab.getD v (0, 0)).2; omega)

theorem wfVersions_refWith : wfVersions (refWith basePage cap cciW bad) = true := by
  have h : ∀ s ∈ refVtab, 1 ≤ s.1 ∧ s.1 ≤ 32 ∧ 1 ≤ s.2 ∧ s.2 ≤ 256 := fun s hs => by
    have := refVtab_bounds s hs
    omega
  simp only [wfVersions, Bool.and_eq_true, List.all_eq_true, decide_eq_true_eq, nv_refWith]
  exact ⟨rfl, h⟩

/-- The reference configuration is admitted whenever its CAP and CCI_W meet R8 conditions 2 and 4. -/
theorem refWith_wf (hcap : cap.all (fun row => decide (row.version < 32) && wfGroups 256 row.groups) = true)
    (hcci : ∀ v < 32, wfCountWidth (cciW.getD v default).numeric = true ∧
      wfCountWidth (cciW.getD v default).alphanumeric = true ∧ wfCountWidth (cciW.getD v default).byte = true) :
    configWf (refWith basePage cap cciW bad) = true := by
  simp only [List.all_eq_true, Bool.and_eq_true, decide_eq_true_eq] at hcap
  have h2 : wfCap (refWith basePage cap cciW bad) = true := List.all_eq_true.mpr fun row h => (hcap row h).2
  have h0 : wfTables (refWith basePage cap cciW bad) = true := by
    have hc : cap.all (fun row => decide (row.version < 32)) = true :=
      List.all_eq_true.mpr fun row h => decide_eq_true (hcap row h).1
    have ho : refSizeOrder.all (fun v => decide (v < 32)) = true := by decide +kernel
    simp only [wfTables, nv_refWith, Bool.and_eq_true]
    exact ⟨⟨ho, hc⟩, rfl⟩
  have h4 : wfCountWidths (refWith basePage cap cciW bad) = true := by
    simp only [wfCountWidths, List.all_eq_true, List.mem_range, nv_refWith, Bool.and_eq_true]
    exact fun v hv => ⟨⟨(hcci v hv).1, (hcci v hv).2.1⟩, (hcci v hv).2.2⟩
  have h7 : wfSizes (refWith basePage cap cciW bad) = true := rfl
  simp only [configWf, h0, wfVersions_refWith, h2, h4, wfFormat_refWith, wfLastColumn_refWith, h7, Bool.and_self]

end

theorem wfCountWidth_widthOfOpen (w : Nat) : wfCountWidth (widthOfOpen w) = true := by
  unfold widthOfOpen
  split
  · assumption
  · rfl

/-- The configuration of this hardware: the reference values, and the OPEN parameters at whatever values
the opaque constants have. -/
def referenceParams : Params where
  config := refWith Config.openBasePage (capOfOpen Config.openCap) (cciWOfOpen Config.openCciW) []
  ok := refWith_wf (List.all_eq_true.mpr fun _ h => (Bool.and_eq_true_iff.mp (List.mem_filter.mp h).2).1) (fun v hv => by
    simp [cciWOfOpen, hv, wfCountWidth_widthOfOpen])

end Sys2Proof.Machine
end

