-- ==== Sys2Proof/Machine/State.lean ====
section
/-! DEFINITION. The state of RMQR-ENC (10_state.md R20 to R55) as plain data, the reasons a step can stop, and the
state after reset. -/

namespace Sys2Proof.Machine

/-- STATUS.STAGE, the last completed pipeline stage (10_state.md R31). -/
inductive Stage where
  | none | segmented | built | coded | stamped | placed | masked | formatted
  deriving DecidableEq, Repr

/-- The tag of a matrix cell: what the cell is for (R49). -/
inductive Tag where
  | data | structural | format | outside
  deriving DecidableEq, Repr

/-- The colour of a matrix cell (R49). -/
inductive Colour where
  | unset | dark | light | reservedFormat
  deriving DecidableEq, Repr

/-- A matrix cell (R49). -/
structure Cell where
  tag : Tag
  colour : Colour
  deriving DecidableEq, Repr

/-- A SEGTAB entry: MODE, START and LEN; its reserved bits have no storage and read 0 (R45, R53). -/
structure SegEntry where
  mode : BitVec 2
  start : BitVec 12
  len : BitVec 12
  deriving DecidableEq, Repr

/-- The Mode Selector's three modes (41_mode_selector.md R140). -/
inductive Mode where
  | numeric | alphanumeric | byte
  deriving DecidableEq, Repr

/-- A segment (mode, start, len): PBUF[start .. start + len − 1] are its bytes (R144). -/
structure Segment where
  mode : Mode
  start : Nat
  len : Nat
  deriving DecidableEq, Repr

/-- What ERR_CODE.CODE holds; no other value is ever written there (60_exceptions.md R320). -/
inductive ErrKind where
  /-- No error recorded. -/
  | none
  /-- OUDON's encoding errors, codes 0x01 to 0x04. -/
  | unsupportedCharacter | capacityExceeded | invalidConfiguration | matrixCapacityMismatch
  /-- The interface errors, codes 0x10 to 0x13. -/
  | illegalCommand | stageOrder | gfDomain | badOperand
  deriving DecidableEq, Repr

/-- What the world outside does next: a bus access of `width` bytes at offset `off` from BASE (20_memory.md
R60, R61), or the assertion of the reset input (70_reset_and_hazards.md R350). -/
inductive HostEvent where
  | read (off width : Nat)
  | write (off width : Nat) (value : Word)
  | reset
  deriving DecidableEq, Repr

/-- The two agents that step (00_scope.md R15). -/
inductive Agent where
  | host | core
  deriving DecidableEq, Repr

/-- The machine's state. `params` is the configuration, which no step changes (R21). `host`, `reads` and
`turns` are the host's side: what it does next, what its reads returned (latest first) and which agent moves
next. `draws` counts the draws of free values. All other fields are the core's own state. -/
structure State where
  /-- The configuration the machine was built with (00_scope.md R7); no state (R21). -/
  params : Params
  /-- PEND: the pending command word (R27). -/
  pend : Option Word
  /-- STATUS.DONE (R28). -/
  done : Bool
  /-- STATUS.ERROR (R29). -/
  error : Bool
  /-- STATUS.BUS_ERR (R30). -/
  busErr : Bool
  /-- STATUS.WR_BUSY (R30). -/
  wrBusy : Bool
  /-- STATUS.STAGE (R31). -/
  stage : Stage
  /-- CONFIG (R32). -/
  config : Word
  /-- PLEN.LEN (R34). -/
  plen : BitVec 16
  /-- ERR_CODE.CODE (R35). -/
  errKind : ErrKind
  /-- ERR_CODE.OPC (R35). -/
  errOpc : Byte
  /-- ERR_EXP (R36). -/
  errExp : Word
  /-- ERR_ACT (R36). -/
  errAct : Word
  /-- VI_SEL, which is also RES_VER.VI (R37, R52). -/
  viSel : BitVec 5
  /-- ECL_SEL, which is also RES_VER.ECL (R37, R52). -/
  eclSel : Ecl
  /-- RES_VER.H (R37). -/
  resH : BitVec 5
  /-- RES_VER.W (R37). -/
  resW : BitVec 8
  /-- RES_BITS (R38). -/
  resBits : Word
  /-- RES_CW, bits 25 to 0 (R39). -/
  resCw : BitVec 26
  /-- RES_MASK, bits 2 to 0 (R40). -/
  resMask : BitVec 3
  /-- RES_FMT_A (R41). -/
  resFmtA : Word
  /-- RES_FMT_B (R41). -/
  resFmtB : Word
  /-- GF_RESULT, bits 7 to 0 (R42). -/
  gfResult : Byte
  /-- NSEG, bits 15 to 0 (R43). -/
  nseg : BitVec 16
  /-- PENALTY[0..7], in order (R44). -/
  penalty : List Word
  /-- SEGTAB: the entries that differ from their reset value 0, by index (R45). -/
  segtab : List (Nat × SegEntry)
  /-- The SEGTAB entries that hold an unspecified value since an encoding error: (index, draw) (R326). -/
  segFree : List (Nat × Nat)
  /-- PBUF: the entries that differ from their reset value 0, by index (R46). -/
  pbuf : List Host.Cell
  /-- CWBUF: the entries that differ from their reset value 0, by index (R47). -/
  cwbuf : List Host.Cell
  /-- The CWBUF entries that hold an unspecified value since an encoding error: (index, draw) (R326). -/
  cwFree : List (Nat × Nat)
  /-- The matrix: cell(r, c) at index 256·r + c, where it is not Outside and Unset (R49, R50). -/
  cells : List (Nat × Cell)
  /-- MDIM.MH, rows of the current matrix (R50). -/
  mdimH : Nat
  /-- MDIM.MW, columns of the current matrix (R50). -/
  mdimW : Nat
  /-- The host's coming events, in the order they reach the core (20_memory.md R60, R74). -/
  host : List HostEvent
  /-- The words the host's reads returned, latest first. -/
  reads : List Word
  /-- Which agent moves next; when it is used up the core moves while it can, then the host. -/
  turns : List Agent
  /-- How many free values have been drawn: the model's own counter. -/
  draws : Nat
  deriving DecidableEq, Repr

/-- Why the machine stops with a fault: never. Every command and every bus access completes, an error being
a state (60_exceptions.md R326, R361), so no constructor is needed. -/
inductive Fault : Type
  deriving DecidableEq, Repr

/-- Why a command has no meaning. A configuration R8 refuses is refused by the type `Params`, not here. -/
inductive Refusal where
  /-- Raised by exec for a command that has no meaning in this model yet; safe. No arm raises it. -/
  | notModelled (mnemonic : String)
  deriving DecidableEq, Repr

/-- A cell outside the current matrix, which is also a cell after reset (R50, R55). -/
def outsideCell : Cell := ⟨.outside, .unset⟩

/-- A SEGTAB entry after reset (R55). -/
def zeroEntry : SegEntry := ⟨0, 0, 0⟩

/-- Every state element at its reset value (R55, R350) under a given configuration, no host event due. -/
def State.resetWith (p : Params) : State where
  params := p
  pend := none
  done := false
  error := false
  busErr := false
  wrBusy := false
  stage := .none
  config := 0x00000001
  plen := 0
  errKind := .none
  errOpc := 0
  errExp := 0
  errAct := 0
  viSel := 0
  eclSel := .low
  resH := 0
  resW := 0
  resBits := 0
  resCw := 0
  resMask := 0
  resFmtA := 0
  resFmtB := 0
  gfResult := 0
  nseg := 0
  penalty := [0, 0, 0, 0, 0, 0, 0, 0]
  segtab := []
  segFree := []
  pbuf := []
  cwbuf := []
  cwFree := []
  cells := []
  mdimH := 0
  mdimW := 0
  host := []
  reads := []
  turns := []
  draws := 0

/-- The machine right after reset, in the reference configuration. -/
def State.reset : State := State.resetWith referenceParams

/-- The configuration. -/
abbrev State.cfg (s : State) : Config := s.params.config

end Sys2Proof.Machine
end

