-- ==== Sys2Proof/Machine/Ops.lean ====
section
/-! DEFINITION. The named operations over the state: indexed memories in their canonical form, the accessors of the
buffers and of the matrix, the completion of a command, error entry (60_exceptions.md R326), the return from it,
and reset. -/

namespace Sys2Proof.Machine

/-! ## Memories

PBUF, CWBUF, SEGTAB and the matrix are lists of (index, value), indices strictly rising, no value equal to what
an unlisted index reads as. That default is the reset value (10_state.md R55). -/

/-- The value listed at an index. -/
def Memory.find {α : Type} : List (Nat × α) → Nat → Option α
  | [], _ => none
  | (k, v) :: m, a => if a = k then some v else Memory.find m a

/-- What an index reads as: the listed value, else the default. -/
def Memory.read {α : Type} (d : α) (m : List (Nat × α)) (a : Nat) : α := (Memory.find m a).getD d

/-- List a value at an index, in order, replacing what was listed there. -/
def Memory.insert {α : Type} : List (Nat × α) → Nat → α → List (Nat × α)
  | [], a, v => [(a, v)]
  | (k, w) :: m, a, v =>
    if a < k then (a, v) :: (k, w) :: m else if a = k then (a, v) :: m else (k, w) :: Memory.insert m a v

/-- List nothing at an index. -/
def Memory.erase {α : Type} (m : List (Nat × α)) (a : Nat) : List (Nat × α) := m.filter fun p => p.1 != a

/-- Write one entry: the default is not listed. -/
def Memory.write {α : Type} [DecidableEq α] (d : α) (m : List (Nat × α)) (a : Nat) (v : α) : List (Nat × α) :=
  if v = d then Memory.erase m a else Memory.insert m a v

/-- The canonical form: indices strictly rising. -/
def Memory.sorted {α : Type} : List (Nat × α) → Bool
  | [] => true
  | (k, _) :: m => (m.all fun p => decide (k < p.1)) && Memory.sorted m

/-- The canonical form: indices strictly rising and the default listed nowhere. -/
def Memory.wf {α : Type} [DecidableEq α] (d : α) (m : List (Nat × α)) : Bool :=
  Memory.sorted m && m.all fun p => decide (p.2 ≠ d)

/-! ## Buffers and matrix -/

/-- PBUF[i] (10_state.md R46). -/
def pbufByte (s : State) (i : Nat) : Byte := Memory.read 0 s.pbuf i

/-- CWBUF[i] (R47): the free value drawn for it while it is unspecified (60_exceptions.md R326). -/
def cwByte (s : State) (i : Nat) : Byte :=
  match Memory.find s.cwFree i with
  | some draw => (Config.unspecified draw i).setWidth 8
  | none => Memory.read 0 s.cwbuf i

/-- CWBUF[i] ← v. -/
def setCwByte (s : State) (i : Nat) (v : Byte) : State :=
  { s with cwbuf := Memory.write 0 s.cwbuf i v, cwFree := Memory.erase s.cwFree i }

/-- CWBUF[base], CWBUF[base + 1], … ← the codewords in order. -/
def setCwBytes (s : State) (base : Nat) : List Byte → State
  | [] => s
  | v :: vs => setCwBytes (setCwByte s base v) (base + 1) vs

/-- CWBUF[base .. base + n − 1]. -/
def cwBytes (s : State) (base n : Nat) : List Byte := (List.range n).map fun i => cwByte s (base + i)

/-- CWBUF[0 .. n−1] become unspecified, by the present draw (R326). -/
def freeCwBytes (s : State) (n : Nat) : State :=
  { s with
    cwbuf := s.cwbuf.filter fun p => decide (n ≤ p.1)
    cwFree := ((List.range n).map fun i => (i, s.draws)) ++ s.cwFree.filter fun p => decide (n ≤ p.1) }

/-- A word as a SEGTAB entry, its reserved bits dropped (R45, R53). -/
def segOfWord (w : Word) : SegEntry := ⟨w.extractLsb' 0 2, w.extractLsb' 8 12, w.extractLsb' 20 12⟩

/-- SEGTAB[i] (R45): the free value drawn for it while it is unspecified (R326). -/
def segEntry (s : State) (i : Nat) : SegEntry :=
  match Memory.find s.segFree i with
  | some draw => segOfWord (Config.unspecified draw i)
  | none => Memory.read zeroEntry s.segtab i

/-- SEGTAB[i] ← e. -/
def setSegEntry (s : State) (i : Nat) (e : SegEntry) : State :=
  { s with segtab := Memory.write zeroEntry s.segtab i e, segFree := Memory.erase s.segFree i }

/-- SEGTAB[base], SEGTAB[base + 1], … ← the entries in order. -/
def setSegEntries (s : State) (base : Nat) : List SegEntry → State
  | [] => s
  | e :: es => setSegEntries (setSegEntry s base e) (base + 1) es

/-- SEGTAB[0 .. n−1] become unspecified, by the present draw (R326). -/
def freeSegEntries (s : State) (n : Nat) : State :=
  { s with
    segtab := s.segtab.filter fun p => decide (n ≤ p.1)
    segFree := ((List.range n).map fun i => (i, s.draws)) ++ s.segFree.filter fun p => decide (n ≤ p.1) }

/-- The index of cell(r, c) (20_memory.md R63). -/
def cellIndex (r c : Nat) : Nat := 256 * r + c

/-- The row and column of a cell index (R64). -/
def cellRow (k : Nat) : Nat := k / 256
def cellCol (k : Nat) : Nat := k % 256

/-- cell(r, c) (10_state.md R49). -/
def cellAt (s : State) (r c : Nat) : Cell := Memory.read outsideCell s.cells (cellIndex r c)

/-- cell(r, c).colour ← colour, the tag unchanged. -/
def setColour (s : State) (r c : Nat) (colour : Colour) : State :=
  { s with cells := Memory.write outsideCell s.cells (cellIndex r c) { cellAt s r c with colour := colour } }

/-- The colours of a list of cells ← a list of colours, in order. -/
def setColours (s : State) : List (Nat × Nat) → List Colour → State
  | p :: ps, k :: ks => setColours (setColour s p.1 p.2 k) ps ks
  | [], _ => s
  | _ :: _, [] => s

/-! ## Levels, stages and errors as numbers -/

/-- The level of a CONFIG.ECL code (R32). -/
def eclOfBits (b : BitVec 2) : Ecl :=
  match b.toNat with
  | 0 => .low
  | 1 => .medium
  | 2 => .quartile
  | _ => .high

/-- The code of a level (R32). -/
def eclCode : Ecl → Nat
  | .low => 0
  | .medium => 1
  | .quartile => 2
  | .high => 3

/-- The number of a stage in STATUS.STAGE (R31). -/
def stageCode : Stage → Nat
  | .none => 0
  | .segmented => 1
  | .built => 2
  | .coded => 3
  | .stamped => 4
  | .placed => 5
  | .masked => 6
  | .formatted => 7

/-- ERR_CODE.CODE of an error (60_exceptions.md R320). -/
def errorCode : ErrKind → Nat
  | .none => 0x00
  | .unsupportedCharacter => 0x01
  | .capacityExceeded => 0x02
  | .invalidConfiguration => 0x03
  | .matrixCapacityMismatch => 0x04
  | .illegalCommand => 0x10
  | .stageOrder => 0x11
  | .gfDomain => 0x12
  | .badOperand => 0x13

/-- The encoding errors, codes 0x01 to 0x04 (R320). -/
def isEncodingError : ErrKind → Bool
  | .unsupportedCharacter | .capacityExceeded | .invalidConfiguration | .matrixCapacityMismatch => true
  | .none | .illegalCommand | .stageOrder | .gfDomain | .badOperand => false

/-! ## Command completion and error entry -/

/-- An error a rule raises: its kind and its two info words (R321), and the opcode recorded with it, the
command's or the ENCODE sub-stage's (40_control.md R134). -/
structure Failure where
  kind : ErrKind
  opc : Nat
  exp : Nat
  act : Nat
  deriving DecidableEq, Repr

/-- What the rule of a command ends in: success, or an error raised in a state that already holds whatever
the rule wrote and left unspecified. -/
inductive RuleEnd where
  | success (s : State)
  | failed (f : Failure) (s : State)
  deriving DecidableEq, Repr

/-- Error entry (R326), without the unspecified outputs, which are the failing rule's. The first error
recorded stays (R327). PEND ← none ends the command. -/
def raiseError (f : Failure) (s : State) : State :=
  if s.error then { s with pend := none }
  else
    { s with
      error := true
      done := false
      errKind := f.kind
      errOpc := BitVec.ofNat 8 f.opc
      errExp := BitVec.ofNat 32 f.exp
      errAct := BitVec.ofNat 32 f.act
      stage := if isEncodingError f.kind then .none else s.stage
      pend := none }

/-- The return from an error, CLEAR's effect (40_control.md R131, 60_exceptions.md R329). -/
def clearError (s : State) : State :=
  { s with
    error := false
    busErr := false
    wrBusy := false
    done := false
    errKind := .none
    errOpc := 0
    errExp := 0
    errAct := 0 }

/-- A command leaves the sequencer: BUSY reads 0 (40_control.md R121). -/
def retire (s : State) : State := { s with pend := none }

/-- Success of a command: DONE ← 1 (R124). -/
def succeed (s : State) : State := { s with done := true, pend := none }

/-- The end of a command's rule: success or error entry (R124, R125). -/
def finish : RuleEnd → State
  | .success s => succeed s
  | .failed f s => raiseError f s

/-- Execution of a command other than NOP, CLEAR and SOFT_RESET: refused while ERROR = 1, which changes
nothing but PEND (R123); else its rule runs (R125). -/
def runRule (rule : State → RuleEnd) (s : State) : State :=
  if s.error then retire s else finish (rule s)

/-- A stage command's precondition (R122): at another stage it raises StageOrder and changes nothing else. -/
def requireStage (required : Stage) (opc : Nat) (rule : State → RuleEnd) (s : State) : RuleEnd :=
  if s.stage = required then rule s
  else .failed ⟨.stageOrder, opc, stageCode required, stageCode s.stage⟩ s

/-- Run one rule after another; the first error ends the command (R134). -/
def andThen (r : RuleEnd) (rule : State → RuleEnd) : RuleEnd :=
  match r with
  | .success s => rule s
  | .failed f s => .failed f s

/-! ## Reset and issue -/

/-- Reset of the core (10_state.md R55, 70_reset_and_hazards.md R350): every element of the core takes its reset
value; the configuration and the host's side are no part of the core. -/
def resetCore (s : State) : State :=
  { State.resetWith s.params with host := s.host, reads := s.reads, turns := s.turns, draws := s.draws }

/-- Issue of a command word (40_control.md R120). -/
def issue (w : Word) (s : State) : State := { s with pend := some w, done := false }

end Sys2Proof.Machine
end

