-- ==== Sys2Proof/Machine/Operands.lean ====
section
/-! DEFINITION. Register fields and words (10_state.md R24 to R49), and bit strings (00_scope.md R11). -/

namespace Sys2Proof.Machine

/-- A value in the bits [lo + width − 1 : lo] of a word: a field holds its low `width` bits (R10). -/
def field (lo width v : Nat) : Nat := (v % 2 ^ width) * 2 ^ lo

/-! ## CONFIG (R32) -/

/-- The bits of CONFIG that exist: [12:8], [3], [2] and [1:0]. -/
def configBits : Word := 0x00001F0F

/-- CONFIG.ECL. -/
def configEcl (s : State) : Ecl := eclOfBits (s.config.extractLsb' 0 2)

/-- CONFIG.FIXED. -/
def configFixed (s : State) : Bool := s.config.getLsbD 2

/-- CONFIG.IRQ_EN. -/
def configIrqEn (s : State) : Bool := s.config.getLsbD 3

/-- CONFIG.VERSION. -/
def configVersion (s : State) : Nat := (s.config.extractLsb' 8 5).toNat

/-! ## Register words -/

/-- ID, hardwired (R24). -/
def idWord : Word := 0x524D5152

/-- PARAM0, hardwired to the configuration (R33). -/
def param0Word (c : Config) : Word :=
  BitVec.ofNat 32 (field 0 8 (nv c) + field 8 4 (nm c) + field 12 4 c.miW + field 16 5 (fmtW c))

/-- PARAM1, hardwired to the configuration (R33). -/
def param1Word (c : Config) : Word := BitVec.ofNat 32 (field 0 16 c.pmax + field 16 16 c.cwmax)

/-- ERR_CODE (R35). -/
def errCodeWord (s : State) : Word := BitVec.ofNat 32 (field 0 8 (errorCode s.errKind) + field 8 8 s.errOpc.toNat)

/-- RES_VER (R37). -/
def resVerWord (s : State) : Word :=
  BitVec.ofNat 32 (field 0 5 s.viSel.toNat + field 8 5 s.resH.toNat + field 16 8 s.resW.toNat
    + field 24 2 (eclCode s.eclSel))

/-- RES_BITS of an encoded length and a capacity in bits (R38). -/
def resBitsOf (l capBits : Nat) : Word := BitVec.ofNat 32 (field 0 16 l + field 16 16 capBits)

/-- RES_CW of DCW, TCW, REM and NBLK (R39). -/
def resCwOf (dcw tcw remBits nblk : Nat) : BitVec 26 :=
  BitVec.ofNat 26 (field 0 9 dcw + field 9 9 tcw + field 18 3 remBits + field 21 5 nblk)

/-- A SEGTAB word: MODE [1:0], START [19:8], LEN [31:20] (R45). -/
def segWord (e : SegEntry) : Word :=
  BitVec.ofNat 32 (field 0 2 e.mode.toNat + field 8 12 e.start.toNat + field 20 12 e.len.toNat)

/-- COLOUR of a cell word (R49). -/
def colourCode : Colour → Nat
  | .unset => 0
  | .dark => 1
  | .light => 2
  | .reservedFormat => 3

/-- TAG of a cell word (R49). -/
def tagCode : Tag → Nat
  | .data => 0
  | .structural => 1
  | .format => 2
  | .outside => 3

/-- The word a read of a cell returns: COLOUR [1:0], TAG [3:2], DARK [4] (R49). -/
def cellWord (x : Cell) : Word :=
  BitVec.ofNat 32 (field 0 2 (colourCode x.colour) + field 2 2 (tagCode x.tag)
    + field 4 1 (if x.colour = .dark then 1 else 0))

/-- A colour from a free word: any of the four (R326, R49). -/
def colourOfWord (w : Word) : Colour :=
  match w.toNat % 4 with
  | 0 => .unset
  | 1 => .dark
  | 2 => .light
  | _ => .reservedFormat

/-! ## Bit strings, most significant bit first (00_scope.md R11) -/

/-- bits_n(v), which R11 defines for v < 2^n. DESIGN CHOICE, log entry 30: of a larger v, the low n bits. -/
def bitsOf (n v : Nat) : List Bool := (List.range n).map fun i => v.testBit (n - 1 - i)

/-- The value of a bit string. -/
def valueOf (bits : List Bool) : Nat := bits.foldl (fun acc b => 2 * acc + b.toNat) 0

/-- A bit string of n zeros. -/
def zeros (n : Nat) : List Bool := List.replicate n false

/-- The codewords as a bit string, most significant bit first within each (20_memory.md R69). -/
def bitsOfBytes (bs : List Byte) : List Bool := bs.flatMap fun b => bitsOf 8 b.toNat

/-- Codewords 0 .. n−1 of a bit string (R69). -/
def bytesOfBits (n : Nat) (bits : List Bool) : List Byte :=
  (List.range n).map fun i => BitVec.ofNat 8 (valueOf ((bits.drop (8 * i)).take 8))

end Sys2Proof.Machine
end

