-- ==== Sys2Proof/Machine/Flags.lean ====
section
/-! DEFINITION. The status flags: STATUS and the interrupt output (10_state.md R26 to R31, R54, 60_exceptions.md R335). -/

namespace Sys2Proof.Machine

/-- STATUS.BUSY: a command is pending (R27). -/
def busy (s : State) : Bool := s.pend.isSome

/-- The interrupt output, STATUS.IRQ = CONFIG.IRQ_EN ∧ ¬BUSY ∧ (DONE ∨ ERROR) (R335). -/
def irq (s : State) : Bool := configIrqEn s && !busy s && (s.done || s.error)

/-- STATUS (R26). -/
def statusWord (s : State) : Word :=
  BitVec.ofNat 32 (field 0 1 (busy s).toNat + field 1 1 s.done.toNat + field 2 1 s.error.toNat
    + field 3 1 s.busErr.toNat + field 4 1 s.wrBusy.toNat + field 5 1 (irq s).toNat
    + field 8 3 (stageCode s.stage))

end Sys2Proof.Machine
end

