-- ==== Sys2Proof/Machine/Ecc.lean ====
section
/-! DEFINITION. GF(256), the Error Correction Coder and the diagnostic commands (43_ecc.md R190 to R215). -/

namespace Sys2Proof.Machine

/-! ## The field -/

/-- Doubling in the field: one shift, reduced by PRIM (R190). -/
def gfDouble (prim x : Nat) : Nat := if 256 ≤ 2 * x then (2 * x) ^^^ prim else 2 * x

/-- x times the polynomial a of at most `fuel` bits, by shift and add. With a = ALPHA = 2 it is one doubling. -/
def gfTimes (prim : Nat) : (fuel : Nat) → (x a : Nat) → Nat
  | 0, _, _ => 0
  | fuel + 1, x, a =>
    if a = 0 then 0
    else if a % 2 = 1 then x ^^^ gfTimes prim fuel (gfDouble prim x) (a / 2)
    else gfTimes prim fuel (gfDouble prim x) (a / 2)

/-- ALPHA^n, by the loop of R190. -/
def alphaPow (c : Config) : Nat → Nat
  | 0 => 1
  | n + 1 => gfTimes c.prim 8 (alphaPow c n) c.alpha

/-- The EXP ROM: EXP[i] = ALPHA^i for i < 255, and EXP[255] = 1 (R190). -/
def expRom (c : Config) (i : Nat) : Byte := if i < 255 then BitVec.ofNat 8 (alphaPow c i) else 1

/-- The LOG ROM: the last i < 255 the loop of R190 wrote at x; LOG[0] = 0. -/
def logOfByte (c : Config) (x : Byte) : Byte :=
  if x = 0 then 0 else BitVec.ofNat 8 (((List.range 255).reverse.find? fun i => expRom c i == x).getD 0)

/-- LOG[i] (R190). -/
def logRom (c : Config) (i : Nat) : Byte := logOfByte c (BitVec.ofNat 8 i)

/-- Addition (R191). -/
def gfAdd (a b : Byte) : Byte := a ^^^ b

/-- Multiplication by the log tables (R192). -/
def gfMul (c : Config) (a b : Byte) : Byte :=
  if a = 0 ∨ b = 0 then 0 else expRom c (((logOfByte c a).toNat + (logOfByte c b).toNat) % 255)

/-- The inverse of a ≠ 0 (R193). -/
def gfInv (c : Config) (a : Byte) : Byte := expRom c ((255 - (logOfByte c a).toNat) % 255)

/-! ## Reed-Solomon coding -/

/-- One factor (x − ALPHA^i) multiplied into g, highest degree first (R195). -/
def genStep (c : Config) (g : List Byte) (i : Nat) : List Byte :=
  List.zipWith gfAdd (g ++ [0]) (0 :: g.map fun x => gfMul c x (expRom c i))

/-- The generator g_e, highest degree first (R195). -/
def genPoly (c : Config) (e : Nat) : List Byte := (List.range e).foldl (genStep c) [1]

/-- One step of the division's shift register (R196): f = d xor r[0]; r shifts and adds f times g. -/
def parityStep (c : Config) (g : List Byte) (r : List Byte) (d : Byte) : List Byte :=
  List.zipWith gfAdd (r.drop 1 ++ [0]) (g.tail.map fun x => gfMul c (gfAdd d (r.headD 0)) x)

/-- The parity of one block, the remainder's highest coefficient first (R196). -/
def rsParity (c : Config) (data : List Byte) (e : Nat) : List Byte :=
  data.foldl (parityStep c (genPoly c e)) (List.replicate e 0)

/-! ## Blocks -/

/-- CAP(v, l), when it is defined (42_bitstream.md R160). -/
def capOf (c : Config) (v : Nat) (l : Ecl) : Option (List Group) :=
  (c.cap.find? fun row => row.version == v && row.level == l).map fun row => row.groups

/-- The block groups of CAP(v, l), none where it is undefined. -/
def groupsOf (c : Config) (v : Nat) (l : Ecl) : List Group := (capOf c v l).getD []

/-- The block groups of VI_SEL and ECL_SEL (R166); BUILD selects only defined ones. -/
def selectedGroups (s : State) : List Group := groupsOf s.cfg s.viSel.toNat s.eclSel

/-- The blocks (k_b, e_b) in the table's order (43_ecc.md R197). -/
def blockShapes (gs : List Group) : List (Nat × Nat) :=
  gs.flatMap fun g => List.replicate g.num (g.k, g.c - g.k)

/-- The blocks' data and parity, the data filling them contiguously (R197). -/
def codeBlocks (c : Config) : List (Nat × Nat) → List Byte → List (List Byte × List Byte)
  | [], _ => []
  | (k, e) :: shapes, data => (data.take k, rsParity c (data.take k) e) :: codeBlocks c shapes (data.drop k)

/-- Round-robin over lists of unequal length: position 0 of each, position 1 of each, …, a list with none
left skipped (R198). -/
def roundRobin (lists : List (List Byte)) : List Byte :=
  (List.range ((lists.map List.length).max?.getD 0)).flatMap fun i => lists.filterMap fun l => l[i]?

/-- Data codewords round-robin, then parity codewords round-robin (R198). -/
def interleave (blocks : List (List Byte × List Byte)) : List Byte :=
  roundRobin (blocks.map Prod.fst) ++ roundRobin (blocks.map Prod.snd)

/-! ## The commands -/

/-- The rule of RSENC at its stage (R200). -/
def rsencRule (s : State) : RuleEnd :=
  let gs := selectedGroups s
  let out := interleave (codeBlocks s.cfg (blockShapes gs) (cwBytes s 0 (dataOf gs)))
  .success { setCwBytes s 0 out with stage := .coded }

/-- RSENC as a stage command (40_control.md R122). -/
def rsencStage : State → RuleEnd := requireStage .built (opcode .rsenc) rsencRule

/-- RSENC (R200). -/
def execRsenc (s : State) : Host.Outcome State Fault Refusal := .next (runRule rsencStage s)

/-- GF_MUL a, b (R210). -/
def execGfMul (a b : Nat) (s : State) : Host.Outcome State Fault Refusal :=
  .next (runRule (fun s => .success { s with gfResult := gfMul s.cfg (BitVec.ofNat 8 a) (BitVec.ofNat 8 b) }) s)

/-- GF_EXP n (R211). -/
def execGfExp (n : Nat) (s : State) : Host.Outcome State Fault Refusal :=
  .next (runRule (fun s => .success { s with gfResult := expRom s.cfg n }) s)

/-- GfDomain of a command: ERR_ACT is the whole command word (R212, R213, 60_exceptions.md R321). -/
def gfDomain (i : Instr) : Failure := ⟨.gfDomain, opcode i, 0, (encode i).toNat⟩

/-- BadOperand of a command: ERR_ACT is the whole command word (R214, R215, R321). -/
def badOperand (i : Instr) : Failure := ⟨.badOperand, opcode i, 0, (encode i).toNat⟩

/-- GF_LOG a (R212). -/
def execGfLog (a : Nat) (s : State) : Host.Outcome State Fault Refusal :=
  .next (runRule (fun s =>
    if a = 0 then .failed (gfDomain (.gfLog a)) s else .success { s with gfResult := logRom s.cfg a }) s)

/-- GF_INV a (R213). -/
def execGfInv (a : Nat) (s : State) : Host.Outcome State Fault Refusal :=
  .next (runRule (fun s =>
    if a = 0 then .failed (gfDomain (.gfInv a)) s
    else .success { s with gfResult := gfInv s.cfg (BitVec.ofNat 8 a) }) s)

/-- RS_BLOCK k, e (R214). -/
def execRsBlock (k e : Nat) (s : State) : Host.Outcome State Fault Refusal :=
  .next (runRule (fun s =>
    if e = 0 ∨ 255 < k + e then .failed (badOperand (.rsBlock k e)) s
    else .success { setCwBytes s k (rsParity s.cfg (cwBytes s 0 k) e) with stage := .none }) s)

/-- GEN_POLY e (R215). -/
def execGenPoly (e : Nat) (s : State) : Host.Outcome State Fault Refusal :=
  .next (runRule (fun s =>
    if e = 0 then .failed (badOperand (.genPoly e)) s
    else .success { setCwBytes s 0 (genPoly s.cfg e) with stage := .none }) s)

end Sys2Proof.Machine
end

