-- ==== Sys2Proof/Machine/Bus.lean ====
section
/-! DEFINITION. The host bus: the address map and its decoding, reads and writes, and what a host event does
(20_memory.md R60 to R79). -/

namespace Sys2Proof.Machine

/-- The defined words of the address map (R63). -/
inductive BusWord where
  | id | cmd | status | config | plen | errCode | errExp | errAct
  | resVer | resBits | resCw | resMask | resFmtA | resFmtB | gfResult | nseg
  | penalty (i : Nat) | param0 | param1
  | segtab (i : Nat) | pbuf (i : Nat) | cwbuf (i : Nat) | exp (i : Nat) | log (i : Nat)
  | cell (r c : Nat)
  deriving DecidableEq, Repr

/-- The bytes of the register window (R60). -/
def windowBytes : Nat := 0x20000

/-- BASE, 4096-byte aligned (R60). -/
def baseAddress (c : Config) : Nat := 4096 * c.basePage

/-- The offset a bus address selects in the window; none when it does not address this core (R60). -/
def offsetOfAddress (c : Config) (address : Nat) : Option Nat :=
  if baseAddress c ≤ address ∧ address < baseAddress c + windowBytes then some (address - baseAddress c) else none

/-- The buffer, table and matrix words, by the index decoding of R64. -/
def decodeBuffer (c : Config) (off : Nat) : Option BusWord :=
  if 0x01000 ≤ off ∧ off < 0x01000 + 4 * c.pmax then some (.segtab ((off - 0x01000) / 4))
  else if 0x02000 ≤ off ∧ off < 0x02000 + 4 * c.pmax then some (.pbuf ((off - 0x02000) / 4))
  else if 0x04000 ≤ off ∧ off < 0x04000 + 4 * c.cwmax then some (.cwbuf ((off - 0x04000) / 4))
  else if 0x05000 ≤ off ∧ off < 0x05400 then some (.exp ((off - 0x05000) / 4))
  else if 0x05400 ≤ off ∧ off < 0x05800 then some (.log ((off - 0x05400) / 4))
  else if 0x10000 ≤ off ∧ off < 0x18000 then
    some (.cell ((off - 0x10000) / 4 / 256) ((off - 0x10000) / 4 % 256))
  else none

/-- The word at an aligned offset; none where the offset is unmapped (R63). -/
def decodeOffset (c : Config) (off : Nat) : Option BusWord :=
  match off with
  | 0x00 => some .id
  | 0x04 => some .cmd
  | 0x08 => some .status
  | 0x0C => some .config
  | 0x10 => some .plen
  | 0x14 => some .errCode
  | 0x18 => some .errExp
  | 0x1C => some .errAct
  | 0x20 => some .resVer
  | 0x24 => some .resBits
  | 0x28 => some .resCw
  | 0x2C => some .resMask
  | 0x30 => some .resFmtA
  | 0x34 => some .resFmtB
  | 0x38 => some .gfResult
  | 0x3C => some .nseg
  | 0x60 => some .param0
  | 0x64 => some .param1
  | _ => if 0x40 ≤ off ∧ off < 0x60 then some (.penalty ((off - 0x40) / 4)) else decodeBuffer c off

/-- The word an access selects; none when its width, its alignment or its offset is illegal (R61, R65). -/
def selectWord (c : Config) (off width : Nat) : Option BusWord :=
  if width = 4 ∧ off % 4 = 0 then decodeOffset c off else none

/-- The words a write may go to: CMD and the read-write words (R63). -/
def writable : BusWord → Bool
  | .cmd | .config | .plen | .pbuf _ | .cwbuf _ => true
  | .id | .status | .errCode | .errExp | .errAct | .resVer | .resBits | .resCw | .resMask | .resFmtA | .resFmtB
  | .gfResult | .nseg | .penalty _ | .param0 | .param1 | .segtab _ | .exp _ | .log _ | .cell _ _ => false

/-- The words whose reads are exact while BUSY = 1 (R67). -/
def exactWhileBusy : BusWord → Bool
  | .id | .cmd | .status | .param0 | .param1 => true
  | .config | .plen | .errCode | .errExp | .errAct | .resVer | .resBits | .resCw | .resMask | .resFmtA | .resFmtB
  | .gfResult | .nseg | .penalty _ | .segtab _ | .pbuf _ | .cwbuf _ | .exp _ | .log _ | .cell _ _ => false

/-- The value of a defined word (10_state.md). CMD holds no readable state and reads 0 (R25). -/
def wordValue (s : State) : BusWord → Word
  | .id => idWord
  | .cmd => 0
  | .status => statusWord s
  | .config => s.config
  | .plen => s.plen.setWidth 32
  | .errCode => errCodeWord s
  | .errExp => s.errExp
  | .errAct => s.errAct
  | .resVer => resVerWord s
  | .resBits => s.resBits
  | .resCw => s.resCw.setWidth 32
  | .resMask => s.resMask.setWidth 32
  | .resFmtA => s.resFmtA
  | .resFmtB => s.resFmtB
  | .gfResult => s.gfResult.setWidth 32
  | .nseg => s.nseg.setWidth 32
  | .penalty i => s.penalty.getD i 0
  | .param0 => param0Word s.cfg
  | .param1 => param1Word s.cfg
  | .segtab i => segWord (segEntry s i)
  | .pbuf i => (pbufByte s i).setWidth 32
  | .cwbuf i => (cwByte s i).setWidth 32
  | .exp i => (expRom s.cfg i).setWidth 32
  | .log i => (logRom s.cfg i).setWidth 32
  | .cell r c => cellWord (cellAt s r c)

/-- What a read returns: 0 when illegal (R65), a free value for most words while BUSY (R67), else the word. -/
def readValue (s : State) (off width : Nat) : Word :=
  match selectWord s.cfg off width with
  | none => 0
  | some w => if busy s && !exactWhileBusy w then Config.busyRead s.draws else wordValue s w

/-- The state after a read: BUS_ERR when it is illegal (R65), else only the model's record of the value and
of the draw (R62: reads have no side effects). -/
def hostRead (s : State) (off width : Nat) : State :=
  match selectWord s.cfg off width with
  | none => { s with busErr := true, reads := 0 :: s.reads }
  | some w =>
    if busy s && !exactWhileBusy w then
      { s with reads := Config.busyRead s.draws :: s.reads, draws := s.draws + 1 }
    else { s with reads := wordValue s w :: s.reads }

/-- A legal write while BUSY = 0 (R66): CMD issues a command; an input register or buffer takes the value and
STAGE ← 0. -/
def storeWord (s : State) (w : BusWord) (v : Word) : State :=
  match w with
  | .cmd => issue v s
  | .config => { s with config := v &&& configBits, stage := .none }
  | .plen => { s with plen := v.setWidth 16, stage := .none }
  | .pbuf i => { s with pbuf := Memory.write 0 s.pbuf i (v.setWidth 8), stage := .none }
  | .cwbuf i => { setCwByte s i (v.setWidth 8) with stage := .none }
  | .id | .status | .errCode | .errExp | .errAct | .resVer | .resBits | .resCw | .resMask | .resFmtA | .resFmtB
  | .gfResult | .nseg | .penalty _ | .param0 | .param1 | .segtab _ | .exp _ | .log _ | .cell _ _ => s

/-- Whether a write is legal: it selects a word that may be written (R65). -/
def writeLegal (s : State) (off width : Nat) : Bool :=
  match selectWord s.cfg off width with
  | none => false
  | some w => writable w

/-- The state after a write: ignored while BUSY, with WR_BUSY, and BUS_ERR too when it is illegal (R67);
ignored with BUS_ERR when illegal (R65); else stored (R66). -/
def hostWrite (s : State) (off width : Nat) (v : Word) : State :=
  if busy s then { s with wrBusy := true, busErr := s.busErr || !writeLegal s off width }
  else if writeLegal s off width then
    match selectWord s.cfg off width with
    | some w => storeWord s w v
    | none => s
  else { s with busErr := true }

/-- What one event of the outside does (R74, 70_reset_and_hazards.md R351). -/
def hostEvent (s : State) : HostEvent → State
  | .read off width => hostRead s off width
  | .write off width v => hostWrite s off width v
  | .reset => resetCore s

/-- The host agent's step: its next event, if it has one. -/
def hostStep (s : State) : State :=
  match s.host with
  | [] => s
  | e :: rest => hostEvent { s with host := rest } e

end Sys2Proof.Machine
end

