-- ==== Sys2Proof/Machine/ModeSelector.lean ====
section
/-! DEFINITION. The Mode Selector: SEGMENT (41_mode_selector.md R140 to R146). -/

namespace Sys2Proof.Machine

/-- The code of a mode (R140). -/
def modeCode : Mode → Nat
  | .numeric => 0
  | .alphanumeric => 1
  | .byte => 2

/-- The mode of a SEGTAB MODE field. Code 3 is no mode and SEGMENT never writes it. -/
def modeOfBits (b : BitVec 2) : Mode :=
  match b.toNat with
  | 0 => .numeric
  | 1 => .alphanumeric
  | _ => .byte

/-- alnum_val(b), the value of the byte in the alphanumeric table; none outside it (R141). -/
def alnumVal (c : Config) (b : Byte) : Option Nat := (c.alnum.find? fun row => row.1 == b).map Prod.snd

/-- '0' to '9'. -/
def isDigit (b : Byte) : Bool := decide (0x30 ≤ b.toNat) && decide (b.toNat ≤ 0x39)

/-- class(b) (R142). -/
def classOf (c : Config) (b : Byte) : Mode :=
  if isDigit b then .numeric else if (alnumVal c b).isSome then .alphanumeric else .byte

/-- BYTE_OK(b) (R143). -/
def byteOk (c : Config) (b : Byte) : Bool := !c.byteNotOk.contains b

/-- The payload from index i on, in the segment `cur` so far: a byte of the same class joins it, another
starts a new one (R144). -/
def segmentsFrom (c : Config) (cur : Segment) (i : Nat) : List Byte → List Segment
  | [] => [cur]
  | b :: bs =>
    if cur.mode = classOf c b then segmentsFrom c { cur with len := cur.len + 1 } (i + 1) bs
    else cur :: segmentsFrom c ⟨classOf c b, i, 1⟩ (i + 1) bs

/-- segments(p) (R144). -/
def segments (c : Config) : List Byte → List Segment
  | [] => []
  | b :: bs => segmentsFrom c ⟨classOf c b, 0, 1⟩ 1 bs

/-- PBUF[start .. start + n − 1]. -/
def pbufBytes (s : State) (start n : Nat) : List Byte := (List.range n).map fun i => pbufByte s (start + i)

/-- The payload PBUF[0 .. PLEN.LEN − 1] (10_state.md R46). -/
def payload (s : State) : List Byte := pbufBytes s 0 s.plen.toNat

/-- The SEGTAB entry of a segment (R145). -/
def entryOfSegment (g : Segment) : SegEntry :=
  ⟨BitVec.ofNat 2 (modeCode g.mode), BitVec.ofNat 12 g.start, BitVec.ofNat 12 g.len⟩

/-- SEGMENT's outputs after an encoding error: NSEG and SEGTAB hold unspecified values (R145, R326). SEGTAB[i]
is element i of the draw and NSEG is element PMAX. -/
def freeSegmentOutputs (s : State) : State :=
  { freeSegEntries s s.cfg.pmax with
    nseg := (Config.unspecified s.draws s.cfg.pmax).setWidth 16
    draws := s.draws + 1 }

/-- The rule of SEGMENT (R145). -/
def segmentRule (s : State) : RuleEnd :=
  let p := payload s
  if s.cfg.pmax < s.plen.toNat then
    .failed ⟨.invalidConfiguration, opcode .segment, 0, 1⟩ (freeSegmentOutputs { s with stage := .none })
  else
    match p.findIdx? fun b => !byteOk s.cfg b with
    | some i =>
      .failed ⟨.unsupportedCharacter, opcode .segment, i, (p.getD i 0).toNat⟩
        (freeSegmentOutputs { s with stage := .none })
    | none =>
      let segs := segments s.cfg p
      .success
        { setSegEntries s 0 (segs.map entryOfSegment) with
          nseg := BitVec.ofNat 16 segs.length
          stage := .segmented }

/-- SEGMENT (R145). -/
def execSegment (s : State) : Host.Outcome State Fault Refusal := .next (runRule segmentRule s)

end Sys2Proof.Machine
end

