-- ==== Sys2Proof/Machine/BitStream.lean ====
section
/-! DEFINITION. The Bit Stream Builder: BUILD (42_bitstream.md R160 to R173). -/

namespace Sys2Proof.Machine

/-- DCW(v, l) (R160). -/
def dcwOf (c : Config) (v : Nat) (l : Ecl) : Nat := dataOf (groupsOf c v l)

/-- CAPBITS(v, l) (R160). -/
def capBitsOf (c : Config) (v : Nat) (l : Ecl) : Nat := 8 * dcwOf c v l

/-- CCI_W(v, m) (R172). -/
def cciWidth (c : Config) (v : Nat) : Mode → Nat
  | .numeric => (countWidths c v).numeric
  | .alphanumeric => (countWidths c v).alphanumeric
  | .byte => (countWidths c v).byte

/-- MI_CODE(m) (R165). DESIGN CHOICE, log entry 30: of a code that does not fit MI_W bits, `segBits` emits the low ones. -/
def miCode (c : Config) : Mode → Nat
  | .numeric => c.miNumeric
  | .alphanumeric => c.miAlphanumeric
  | .byte => c.miByte

/-! ## Packing (R162) -/

/-- A digit's value, byte − 0x30. -/
def digitValue (b : Byte) : Nat := b.toNat - 0x30

/-- Groups of three digits in 10 bits, the rest in 7 or 4. -/
def numericBits : List Byte → List Bool
  | x :: y :: z :: rest => bitsOf 10 (100 * digitValue x + 10 * digitValue y + digitValue z) ++ numericBits rest
  | [x, y] => bitsOf 7 (10 * digitValue x + digitValue y)
  | [x] => bitsOf 4 (digitValue x)
  | [] => []

/-- alnum_val of a byte of an alphanumeric segment. -/
def alnumValue (c : Config) (b : Byte) : Nat := (alnumVal c b).getD 0

/-- Pairs in 11 bits, an odd last byte in 6. DESIGN CHOICE, log entry 30: with an ALNUM that has values above 44 a
number may not fit its field, and its low bits are emitted. -/
def alnumBits (c : Config) : List Byte → List Bool
  | x :: y :: rest => bitsOf 11 (45 * alnumValue c x + alnumValue c y) ++ alnumBits c rest
  | [x] => bitsOf 6 (alnumValue c x)
  | [] => []

/-- data_bits(mode, b). -/
def dataBits (c : Config) (m : Mode) (bs : List Byte) : List Bool :=
  match m with
  | .numeric => numericBits bs
  | .alphanumeric => alnumBits c bs
  | .byte => bitsOfBytes bs

/-- D(mode, n), the number of data bits. -/
def dataLength (m : Mode) (n : Nat) : Nat :=
  match m with
  | .numeric => 10 * (n / 3) + (match n % 3 with | 0 => 0 | 1 => 4 | _ => 7)
  | .alphanumeric => 11 * (n / 2) + 6 * (n % 2)
  | .byte => 8 * n

/-! ## The stream -/

/-- seg_bits(v, s) (R163), the segment's bytes given. -/
def segBits (c : Config) (v : Nat) (g : Segment) (bs : List Byte) : List Bool :=
  bitsOf c.miW (miCode c g.mode) ++ bitsOf (cciWidth c v g.mode) g.len ++ dataBits c g.mode bs

/-- The segment a SEGTAB entry describes (10_state.md R45). -/
def segmentOfEntry (e : SegEntry) : Segment := ⟨modeOfBits e.mode, e.start.toNat, e.len.toNat⟩

/-- The segment list SEGTAB[0 .. NSEG − 1]. -/
def segmentList (s : State) : List Segment := (List.range s.nseg.toNat).map fun j => segmentOfEntry (segEntry s j)

/-- payload_bits(v) (R163). -/
def payloadBits (s : State) (v : Nat) : List Bool :=
  (segmentList s).flatMap fun g => segBits s.cfg v g (pbufBytes s g.start g.len)

/-- L(v), the encoded length in bits (R163). -/
def encodedLength (c : Config) (v : Nat) (segs : List Segment) : Nat :=
  (segs.map fun g => c.miW + cciWidth c v g.mode + dataLength g.mode g.len).sum

/-- n pad codewords, PAD0 first, alternating (R164). -/
def padBytes (c : Config) (n : Nat) : List Byte := (List.range n).map fun i => if i % 2 = 0 then c.pad0 else c.pad1

/-- Terminator, fill to a codeword boundary and pad codewords up to `cap` bits (R164). -/
def padStream (c : Config) (cap : Nat) (bits : List Bool) : List Bool :=
  let terminated := bits ++ zeros (min c.miW (cap - bits.length))
  let filled := terminated ++ zeros ((8 - terminated.length % 8) % 8)
  filled ++ bitsOfBytes (padBytes c ((cap - filled.length) / 8))

/-- stream(v, l) (R164). -/
def stream (s : State) (v : Nat) (l : Ecl) : List Bool := padStream s.cfg (capBitsOf s.cfg v l) (payloadBits s v)

/-! ## Fit and selection -/

/-- Some segment's count does not fit its count field at version v (R167, R168). -/
def countOverflows (c : Config) (v : Nat) (segs : List Segment) : Bool :=
  segs.any fun g => decide (2 ^ cciWidth c v g.mode ≤ g.len)

/-- fits(v, l) (R167). -/
def fits (c : Config) (segs : List Segment) (v : Nat) (l : Ecl) : Bool :=
  (capOf c v l).isSome && !countOverflows c v segs && decide (encodedLength c v segs ≤ capBitsOf c v l)

/-- The candidate versions of R168, or the InvalidConfiguration sub-reason. -/
def candidates (s : State) (l : Ecl) : Except Nat (List Nat) :=
  if configFixed s then
    if nv s.cfg ≤ configVersion s then .error 3
    else if (capOf s.cfg (configVersion s) l).isNone then .error 4
    else .ok [configVersion s]
  else
    match s.cfg.sizeOrder.filter fun v => (capOf s.cfg v l).isSome with
    | [] => .error 4
    | v :: vs => .ok (v :: vs)

/-- CapacityExceeded of a candidate list: capacity and need of the last version tried (R168, R321). -/
def capacityExceeded (s : State) (l : Ecl) (cand : List Nat) : Failure :=
  let u := cand.getLast?.getD 0
  ⟨.capacityExceeded, opcode .build, capBitsOf s.cfg u l,
    if countOverflows s.cfg u (segmentList s) then 0xFFFFFFFF else encodedLength s.cfg u (segmentList s)⟩

/-- The level is in ECL_SUPPORTED (R169). -/
def levelSupported (c : Config) (l : Ecl) : Bool := c.levels.any fun p => p.1 == l

/-- The most data codewords of any CAP entry. -/
def mostDataCodewords (c : Config) : Nat := ((c.cap.map fun row => dataOf row.groups).max?).getD 0

/-- The most data codewords of a list of versions at a level. -/
def mostDataCodewordsOf (c : Config) (l : Ecl) (cand : List Nat) : Nat :=
  ((cand.map fun v => dcwOf c v l).max?).getD 0

/-- BUILD's outputs after an encoding error: CWBUF[0 .. n−1], VI_SEL, ECL_SEL, RES_VER, RES_BITS and RES_CW hold
unspecified values (R170, R326). CWBUF[i] is element i of the draw, the registers are elements CWMAX on. -/
def freeBuildOutputs (n : Nat) (s : State) : State :=
  { freeCwBytes s n with
    viSel := (Config.unspecified s.draws s.cfg.cwmax).setWidth 5
    eclSel := eclOfBits ((Config.unspecified s.draws (s.cfg.cwmax + 1)).setWidth 2)
    resH := (Config.unspecified s.draws (s.cfg.cwmax + 2)).setWidth 5
    resW := (Config.unspecified s.draws (s.cfg.cwmax + 3)).setWidth 8
    resBits := Config.unspecified s.draws (s.cfg.cwmax + 4)
    resCw := (Config.unspecified s.draws (s.cfg.cwmax + 5)).setWidth 26
    draws := s.draws + 1 }

/-- BUILD at the selected version and level (R170). -/
def buildSelected (s : State) (v : Nat) (l : Ecl) : State :=
  let gs := groupsOf s.cfg v l
  { setCwBytes s 0 (bytesOfBits (dataOf gs) (stream s v l)) with
    viSel := BitVec.ofNat 5 v
    eclSel := l
    resH := BitVec.ofNat 5 (heightOf s.cfg v)
    resW := BitVec.ofNat 8 (widthOf s.cfg v)
    resBits := resBitsOf (encodedLength s.cfg v (segmentList s)) (8 * dataOf gs)
    resCw := resCwOf (dataOf gs) (totalOf gs) (s.cfg.rem.getD v 0) (blocksOf gs)
    stage := .built }

/-- The rule of BUILD at its stage (R170). -/
def buildRule (s : State) : RuleEnd :=
  let l := configEcl s
  if !levelSupported s.cfg l then
    .failed ⟨.invalidConfiguration, opcode .build, 0, 2⟩ (freeBuildOutputs (mostDataCodewords s.cfg) s)
  else
    match candidates s l with
    | .error reason =>
      .failed ⟨.invalidConfiguration, opcode .build, 0, reason⟩ (freeBuildOutputs (mostDataCodewords s.cfg) s)
    | .ok cand =>
      match cand.find? fun v => fits s.cfg (segmentList s) v l with
      | some v => .success (buildSelected s v l)
      | none => .failed (capacityExceeded s l cand) (freeBuildOutputs (mostDataCodewordsOf s.cfg l cand) s)

/-- BUILD as a stage command (40_control.md R122). -/
def buildStage : State → RuleEnd := requireStage .segmented (opcode .build) buildRule

/-- BUILD (R170). -/
def execBuild (s : State) : Host.Outcome State Fault Refusal := .next (runRule buildStage s)

end Sys2Proof.Machine
end

