-- ==== Sys2Proof/Machine/Matrix.lean ====
section
/-! DEFINITION. The Matrix Builder: STAMP and PLACE (44_matrix.md R240 to R253). -/

namespace Sys2Proof.Machine

/-- The stamped cell of a layout: Data cells Unset, Format cells ReservedFormat (R231, R240). -/
def cellOfLayout : Layout → Cell
  | .data => ⟨.data, .unset⟩
  | .format => ⟨.format, .reservedFormat⟩
  | .dark => ⟨.structural, .dark⟩
  | .light => ⟨.structural, .light⟩

/-- The stamped matrix of version v: its in-range cells; every other cell is Outside and Unset (R240). -/
def stampedCells (c : Config) (v : Nat) : List (Nat × Cell) :=
  (cellsOf c v).map fun p => (cellIndex p.1 p.2, cellOfLayout (geomCell c v p.1 p.2))

/-- The rule of STAMP at its stage (R240). -/
def stampRule (s : State) : RuleEnd :=
  let v := s.viSel.toNat
  .success
    { s with
      mdimH := heightOf s.cfg v
      mdimW := widthOf s.cfg v
      cells := stampedCells s.cfg v
      stage := .stamped }

/-- STAMP as a stage command (40_control.md R122). -/
def stampStage : State → RuleEnd := requireStage .coded (opcode .stamp) stampRule

/-- STAMP (R240). -/
def execStamp (s : State) : Host.Outcome State Fault Refusal := .next (runRule stampStage s)

/-- The bit stream placed in the matrix: the codewords, then REM(v) zero bits (43_ecc.md R199, R250). -/
def placedBits (s : State) : List Bool :=
  bitsOfBytes (cwBytes s 0 (totalOf (selectedGroups s))) ++ zeros (s.cfg.rem.getD s.viSel.toNat 0)

/-- Dark for a 1 bit, Light for a 0 bit (R250). -/
def colourOfBit (b : Bool) : Colour := if b then .dark else .light

/-- PLACE's outputs after an encoding error: the colour of every Data cell holds an unspecified value (R250,
R326). The cell of index k is element k of the draw. -/
def freePlaceOutputs (s : State) : State :=
  { s with
    cells := s.cells.map fun p =>
      if p.2.tag = .data then (p.1, { p.2 with colour := colourOfWord (Config.unspecified s.draws p.1) }) else p
    draws := s.draws + 1 }

/-- The rule of PLACE at its stage (R250, R251). -/
def placeRule (s : State) : RuleEnd :=
  let v := s.viSel.toNat
  let bits := 8 * totalOf (selectedGroups s) + s.cfg.rem.getD v 0
  if freeCells s.cfg v ≠ bits then
    .failed ⟨.matrixCapacityMismatch, opcode .place, freeCells s.cfg v, bits⟩ (freePlaceOutputs s)
  else
    .success { setColours s (placementOrder s.cfg v) ((placedBits s).map colourOfBit) with stage := .placed }

/-- PLACE as a stage command (40_control.md R122). -/
def placeStage : State → RuleEnd := requireStage .stamped (opcode .place) placeRule

/-- PLACE (R250). -/
def execPlace (s : State) : Host.Outcome State Fault Refusal := .next (runRule placeStage s)

end Sys2Proof.Machine
end

