-- ==== Sys2Proof/Machine/Format.lean ====
section
/-! DEFINITION. The Format Encoder: FORMAT (46_format.md R300 to R304). -/

namespace Sys2Proof.Machine

/-- ECL_CODE(l) (00_scope.md R7); BUILD selects only levels that have one (R300). -/
def levelCode (c : Config) (l : Ecl) : Nat := ((c.levels.find? fun p => p.1 == l).map Prod.snd).getD 0

/-- fmt_data: the level code, the mask index where MW > 0, and the version (R300). DEDUCED, log entry 30: a code or a
version too wide for its field overlaps the next one, as the rule's shifts and ors say. -/
def fmtData (c : Config) (l : Ecl) (maskIndex v : Nat) : Nat :=
  (levelCode c l <<< (mw c + c.viW)) ||| (maskIndex <<< c.viW) ||| v

/-- One step of the GF(2) long division: clear bit i with the generator (R301). -/
def bchStep (c : Config) (r i : Nat) : Nat := if r.testBit i then r ^^^ (c.fmtGen <<< (i - c.fmtEcW)) else r

/-- bch(d): the data bits and their check bits, bits FMT_W − 1 down to FMT_EC_W divided out (R301). -/
def bch (c : Config) (d : Nat) : Nat :=
  (d <<< c.fmtEcW) |||
    ((List.range (fmtW c - c.fmtEcW)).map fun j => fmtW c - 1 - j).foldl (bchStep c) (d <<< c.fmtEcW)

/-- The format word of the selected version, level and mask (R300, R301). -/
def formatWord (s : State) : Nat := bch s.cfg (fmtData s.cfg s.eclSel s.resMask.toNat s.viSel.toNat)

/-- The colours of a format word's bits, bit 0 first (R302). -/
def fmtColours (c : Config) (w : Nat) : List Colour := (List.range (fmtW c)).map fun n => colourOfBit (w.testBit n)

/-- What RES_FMT_A or RES_FMT_B holds of a masked word: bits FMT_W − 1 to 0, other bits reading 0 (10_state.md R41).
DEDUCED, log entry 30: a word with a bit above them loses it. -/
def fmtRegister (c : Config) (w : Nat) : Word := BitVec.ofNat 32 (field 0 (fmtW c) w)

/-- The rule of FORMAT at its stage (R303). -/
def formatRule (s : State) : RuleEnd :=
  let v := s.viSel.toNat
  let a := formatWord s ^^^ s.cfg.fmtMaskA
  let b := formatWord s ^^^ s.cfg.fmtMaskB
  .success
    { setColours (setColours s (fmtPosA s.cfg v) (fmtColours s.cfg a)) (fmtPosB s.cfg v) (fmtColours s.cfg b) with
      resFmtA := fmtRegister s.cfg a
      resFmtB := fmtRegister s.cfg b
      stage := .formatted }

/-- FORMAT as a stage command (40_control.md R122). -/
def formatStage : State → RuleEnd := requireStage .masked (opcode .format) formatRule

/-- FORMAT (R303). -/
def execFormat (s : State) : Host.Outcome State Fault Refusal := .next (runRule formatStage s)

end Sys2Proof.Machine
end

