-- ==== Sys2Proof/Machine/Mask.lean ====
section
/-! DEFINITION. The Mask Evaluator: MASK (45_mask.md R270 to R283). -/

namespace Sys2Proof.Machine

/-- m_i(r, c) (R270; the named predicates are those of 93_implementation_defined.md G22). -/
def maskAt (m : MaskFn) (r c : Nat) : Bool :=
  match m with
  | .checker => (r + c) % 2 == 0
  | .rows => r % 2 == 0
  | .columns => c % 3 == 0
  | .diagonals => (r + c) % 3 == 0
  | .blocks => (r / 2 + c / 3) % 2 == 0
  | .products => (r * c) % 2 + (r * c) % 3 == 0
  | .productsEven => ((r * c) % 2 + (r * c) % 3) % 2 == 0
  | .mixedEven => ((r + c) % 2 + (r * c) % 3) % 2 == 0
  | .table rows => (rows.getD r []).getD c false

/-- Dark ↔ Light; no other colour is flipped (R271). -/
def flipColour : Colour → Colour
  | .dark => .light
  | .light => .dark
  | .unset => .unset
  | .reservedFormat => .reservedFormat

/-- A cell of the trial matrix: a Data cell whose predicate is true is flipped (R271). -/
def maskCell (m : MaskFn) (r c : Nat) (x : Cell) : Cell :=
  if x.tag = .data ∧ maskAt m r c = true then { x with colour := flipColour x.colour } else x

/-- B(r, c) over the H × W in-range cells of the trial matrix of mask m, row by row (R272). -/
def trialGrid (s : State) (m : MaskFn) : List (List Bool) :=
  (List.range s.mdimH).map fun r =>
    (List.range s.mdimW).map fun c => decide ((maskCell m r c (cellAt s r c)).colour = .dark)

/-- The columns of a grid of width w. -/
def columnsOf (w : Nat) (grid : List (List Bool)) : List (List Bool) :=
  (List.range w).map fun c => grid.map fun row => row.getD c false

/-- The lines of a grid of width w: its rows and its columns (R272). -/
def linesOf (w : Nat) (grid : List (List Bool)) : List (List Bool) := grid ++ columnsOf w grid

/-- The maximal run lengths of a line, in a run of `cur` that has length k so far. -/
def runsFrom (cur : Bool) (k : Nat) : List Bool → List Nat
  | [] => [k]
  | b :: bs => if b = cur then runsFrom cur (k + 1) bs else k :: runsFrom b 1 bs

/-- The lengths of the maximal runs of a line, in order (R273). -/
def runLengths : List Bool → List Nat
  | [] => []
  | b :: bs => runsFrom b 1 bs

/-- What one run adds: N1 + (k − 5) from length 5 on (R273). -/
def runPenalty (n1 k : Nat) : Nat := if 5 ≤ k then n1 + (k - 5) else 0

/-- pen_a (R273). -/
def penaltyRuns (n1 : Nat) (lines : List (List Bool)) : Nat :=
  (lines.map fun line => ((runLengths line).map (runPenalty n1)).sum).sum

/-- The value of a grid at (r, c). -/
def gridAt (grid : List (List Bool)) (r c : Nat) : Bool := (grid.getD r []).getD c false

/-- The 2×2 block at (r, c) is uniform (R274). -/
def uniformBlock (grid : List (List Bool)) (r c : Nat) : Bool :=
  gridAt grid r (c + 1) == gridAt grid r c && gridAt grid (r + 1) c == gridAt grid r c
    && gridAt grid (r + 1) (c + 1) == gridAt grid r c

/-- pen_b (R274). -/
def penaltyBlocks (n2 h w : Nat) (grid : List (List Bool)) : Nat :=
  n2 * ((List.range (h - 1)).map fun r => (List.range (w - 1)).countP fun c => uniformBlock grid r c).sum

/-- P1 = 1 0 1 1 1 0 1 0 0 0 0 (R275). -/
def patternP1 : List Bool := [true, false, true, true, true, false, true, false, false, false, false]

/-- P2 = 0 0 0 0 1 0 1 1 1 0 1 (R275). -/
def patternP2 : List Bool := [false, false, false, false, true, false, true, true, true, false, true]

/-- The number of windows of a line that equal P1 or P2 (R275). -/
def finderLike (line : List Bool) : Nat :=
  (List.range (line.length - 10)).countP fun i =>
    (line.drop i).take 11 == patternP1 || (line.drop i).take 11 == patternP2

/-- pen_c (R275). -/
def penaltyFinders (n3 : Nat) (lines : List (List Bool)) : Nat := n3 * (lines.map finderLike).sum

/-- The number of Dark cells of a grid. -/
def darkCells (grid : List (List Bool)) : Nat := (grid.map fun row => row.countP fun b => b).sum

/-- pen_d (R276). -/
def penaltyBalance (n4 dark tot : Nat) : Nat := n4 * (((100 * dark - 50 * tot) + (50 * tot - 100 * dark)) / (5 * tot))

/-- penalty(T) of a grid of h rows and w columns (R277). -/
def penaltyOf (c : Config) (h w : Nat) (grid : List (List Bool)) : Nat :=
  penaltyRuns c.n1 (linesOf w grid) + penaltyBlocks c.n2 h w grid + penaltyFinders c.n3 (linesOf w grid)
    + penaltyBalance c.n4 (darkCells grid) (h * w)

/-- P[0 .. NM−1]: the penalty of each candidate's trial matrix (R280). -/
def penalties (s : State) : List Nat := s.cfg.masks.map fun m => penaltyOf s.cfg s.mdimH s.mdimW (trialGrid s m)

/-- The least index at which a list has its least value (R280). -/
def leastIndex (ps : List Nat) : Nat := ps.findIdx fun p => ps.all fun q => decide (p ≤ q)

/-- The matrix with mask m applied to its Data cells (R280). -/
def maskedCells (m : MaskFn) (cells : List (Nat × Cell)) : List (Nat × Cell) :=
  cells.map fun p => (p.1, maskCell m (cellRow p.1) (cellCol p.1) p.2)

/-- PENALTY[0..7]: the candidates' penalties, and 0 beyond them (R280). -/
def penaltyWords (ps : List Nat) : List Word := (List.range 8).map fun i => BitVec.ofNat 32 (ps.getD i 0)

/-- The rule of MASK at its stage (R280). -/
def maskRule (s : State) : RuleEnd :=
  let ps := penalties s
  let best := leastIndex ps
  .success
    { s with
      cells := maskedCells (s.cfg.masks.getD best .blocks) s.cells
      penalty := penaltyWords ps
      resMask := BitVec.ofNat 3 best
      stage := .masked }

/-- MASK as a stage command (40_control.md R122). -/
def maskStage : State → RuleEnd := requireStage .placed (opcode .mask) maskRule

/-- MASK (R280). -/
def execMask (s : State) : Host.Outcome State Fault Refusal := .next (runRule maskStage s)

end Sys2Proof.Machine
end

