-- ==== Sys2Proof/Machine/Control.lean ====
section
/-! DEFINITION. The control commands NOP, CLEAR, SOFT_RESET and ENCODE (40_control.md R130 to R134). -/

namespace Sys2Proof.Machine

/-- NOP (R130): it runs even while ERROR = 1, and then leaves DONE as it is. -/
def execNop (s : State) : Host.Outcome State Fault Refusal := .next (if s.error then retire s else succeed s)

/-- CLEAR (R131): the return from an error; DONE is not set. -/
def execClear (s : State) : Host.Outcome State Fault Refusal := .next (retire (clearError s))

/-- SOFT_RESET (R132): every element of the core takes its reset value; PEND among them. -/
def execSoftReset (s : State) : Host.Outcome State Fault Refusal := .next (retire (resetCore s))

/-- The seven stages in order from STAGE = 0, up to the first error (R134). -/
def encodeRule (s : State) : RuleEnd :=
  andThen (andThen (andThen (andThen (andThen (andThen (segmentRule { s with stage := .none })
    buildStage) rsencStage) stampStage) placeStage) maskStage) formatStage

/-- ENCODE (R134). -/
def execEncode (s : State) : Host.Outcome State Fault Refusal := .next (runRule encodeRule s)

end Sys2Proof.Machine
end

