-- ==== Sys2Proof/Machine/Dispatch.lean ====
section
/-! DEFINITION. One arm per command: its meaning (30_encoding.md R92). -/

namespace Sys2Proof.Machine

def exec (i : Instr) (s : State) : Host.Outcome State Fault Refusal :=
  match i with
  | .nop => Sys2Proof.Machine.execNop s
  | .clear => Sys2Proof.Machine.execClear s
  | .softReset => Sys2Proof.Machine.execSoftReset s
  | .segment => Sys2Proof.Machine.execSegment s
  | .build => Sys2Proof.Machine.execBuild s
  | .rsenc => Sys2Proof.Machine.execRsenc s
  | .stamp => Sys2Proof.Machine.execStamp s
  | .place => Sys2Proof.Machine.execPlace s
  | .mask => Sys2Proof.Machine.execMask s
  | .format => Sys2Proof.Machine.execFormat s
  | .encode => Sys2Proof.Machine.execEncode s
  | .gfMul a b => Sys2Proof.Machine.execGfMul a b s
  | .gfExp n => Sys2Proof.Machine.execGfExp n s
  | .gfLog a => Sys2Proof.Machine.execGfLog a s
  | .gfInv a => Sys2Proof.Machine.execGfInv a s
  | .rsBlock k e => Sys2Proof.Machine.execRsBlock k e s
  | .genPoly e => Sys2Proof.Machine.execGenPoly e s

end Sys2Proof.Machine
end

