-- ==== Sys2Proof/Machine/Sequencer.lean ====
section
/-! DEFINITION. The Core sequencer's step (40_control.md R121, R125) and whose turn it is (00_scope.md R15). -/

namespace Sys2Proof.Machine

/-- The agent that moves next: the first of `turns`; when they are used up, the core while a command is
pending, else the host. -/
def nextAgent (s : State) : Agent :=
  match s.turns with
  | a :: _ => a
  | [] => if busy s then .core else .host

/-- One turn is used. -/
def useTurn (s : State) : State := { s with turns := s.turns.tail }

/-- The commands that execute while ERROR = 1: opcodes 0x00, 0x01 and 0x02 (R125). -/
def runsWhileError (w : Word) : Bool := decide (opcField w ≤ 2)

/-- IllegalCommand of a word: ERR_ACT is the whole word (30_encoding.md R93, 60_exceptions.md R321). -/
def illegalCommand (w : Word) : Failure := ⟨.illegalCommand, opcField w, 0, w.toNat⟩

/-- execute(cmd) (R125): refused while ERROR = 1, else decoded and run. -/
def execute (w : Word) (s : State) : Host.Outcome State Fault Refusal :=
  if s.error && !runsWhileError w then .next (retire s)
  else
    match decode w with
    | .error _ => .next (raiseError (illegalCommand w) s)
    | .ok i => exec i s

/-- The core's step: it has one exactly when a command is pending (R121). -/
def coreStep (s : State) : Host.Outcome State Fault Refusal :=
  match s.pend with
  | none => .next s
  | some w => execute w s

end Sys2Proof.Machine
end

