-- ==== Sys2Proof/Machine/Step.lean ====
section
/-! DEFINITION. One step of the machine: one host event or one command, whichever agent's turn it is. -/

namespace Sys2Proof.Machine

/-- One step (00_scope.md R15, 20_memory.md R74): the agent whose turn it is moves. -/
def step (s : State) : Host.Outcome State Fault Refusal :=
  match nextAgent s with
  | .host => .next (hostStep (useTurn s))
  | .core => coreStep (useTurn s)

/-- The state in which the very next step executes a word: the word is issued (40_control.md R120), which is
how a command reaches the core (it fetches nothing, 20_memory.md R77), and it is the core's turn. -/
def State.withFetchWord (s : State) (nbits w : Nat) : State :=
  { issue (BitVec.ofNat 32 (w % 2 ^ nbits)) s with turns := [] }

end Sys2Proof.Machine
end

