-- ==== Sys2Proof/Safety.lean ====
section
/-! DEFINITION. What a safe state is: the invariants of the machine that every step keeps, and the words in which the
statements say what a rule of the spec demands (polynomials over GF(2) and GF(256), segmentations, the address of
a word). -/

namespace Sys2Proof.Machine

/-! ## Flags and error registers -/

/-- The status flags, the error registers and CONFIG fit together. -/
structure FlagsOk (s : State) : Prop where
  /-- DONE is cleared at issue (40_control.md R120). -/
  busyNotDone : s.pend ≠ none → s.done = false
  /-- DONE means success (R124). -/
  errorNotDone : s.error = true → s.done = false
  /-- The error registers read 0 when no error is recorded (10_state.md R35, R36). -/
  clean : s.error = false → s.errKind = .none ∧ s.errOpc = 0 ∧ s.errExp = 0 ∧ s.errAct = 0
  /-- ERROR = 1 means a code is recorded (R29, 60_exceptions.md R320). -/
  recorded : s.error = true → s.errKind ≠ .none
  /-- No stage can run on the partial result of a failed one (R326). -/
  aborted : isEncodingError s.errKind = true → s.stage = .none
  /-- The reserved bits of CONFIG read 0 (10_state.md R32, R53). -/
  reserved : s.config &&& configBits = s.config

/-! ## Memories -/

/-- Every listed index is below a bound. -/
def indicesBelow {α : Type} (n : Nat) (m : List (Nat × α)) : Prop := ∀ p ∈ m, p.1 < n

/-- The buffers are in their canonical form and inside their windows (10_state.md R45 to R47). -/
structure BuffersOk (s : State) : Prop where
  pbufWf : Memory.wf 0 s.pbuf = true
  pbufBelow : indicesBelow s.cfg.pmax s.pbuf
  cwbufWf : Memory.wf 0 s.cwbuf = true
  cwbufBelow : indicesBelow s.cfg.cwmax s.cwbuf
  segtabWf : Memory.wf zeroEntry s.segtab = true
  segtabBelow : indicesBelow s.cfg.pmax s.segtab
  /-- The unspecified entries are listed in order, and only there. -/
  cwFreeSorted : Memory.sorted s.cwFree = true
  cwFreeBelow : indicesBelow s.cfg.cwmax s.cwFree
  cwFreeApart : ∀ p ∈ s.cwFree, Memory.find s.cwbuf p.1 = none
  segFreeSorted : Memory.sorted s.segFree = true
  segFreeBelow : indicesBelow s.cfg.pmax s.segFree
  segFreeApart : ∀ p ∈ s.segFree, Memory.find s.segtab p.1 = none
  /-- PENALTY has eight entries (R44). -/
  penaltyEight : s.penalty.length = 8

/-- cell(r, c) is inside the current matrix (10_state.md R50). -/
def insideMatrix (s : State) (r c : Nat) : Prop := r < s.mdimH ∧ c < s.mdimW

/-- The matrix memory: exactly the cells inside MDIM have a tag other than Outside, and a cell outside it is Unset
(R50). -/
structure MatrixOk (s : State) : Prop where
  cellsWf : Memory.wf outsideCell s.cells = true
  rows : s.mdimH ≤ 32
  columns : s.mdimW ≤ 256
  inside : ∀ r c, insideMatrix s r c → (cellAt s r c).tag ≠ .outside
  outside : ∀ r c, c < 256 → ¬insideMatrix s r c → cellAt s r c = outsideCell

/-! ## Stages -/

/-- The tag of a cell of the layout (44_matrix.md R231). -/
def tagOfLayout (l : Layout) : Tag := (cellOfLayout l).tag

/-- A module a reader can see: Dark or Light. -/
def darkOrLight (k : Colour) : Prop := k = .dark ∨ k = .light

/-- What a Data cell of the matrix may hold at a stage (44_matrix.md R240, R253). -/
def dataColourOk : Stage → Colour → Prop
  | .stamped, k => k = .unset
  | .placed, k | .masked, k | .formatted, k => darkOrLight k
  | .none, _ | .segmented, _ | .built, _ | .coded, _ => True

/-- What a Format cell of the matrix may hold at a stage (R240, R253). -/
def formatColourOk : Stage → Colour → Prop
  | .stamped, k | .placed, k | .masked, k => k = .reservedFormat
  | .formatted, k => darkOrLight k
  | .none, _ | .segmented, _ | .built, _ | .coded, _ => True

/-- What a cell of a given layout holds at a stage from STAMPED on. -/
def cellOkAt (stage : Stage) (l : Layout) (x : Cell) : Prop :=
  x.tag = tagOfLayout l ∧
    match l with
    | .data => dataColourOk stage x.colour
    | .format => formatColourOk stage x.colour
    | .dark => x.colour = .dark
    | .light => x.colour = .light

/-- What STATUS.STAGE promises of the results (10_state.md R31, 44_matrix.md R253). -/
structure StageOk (s : State) : Prop where
  /-- From SEGMENTED on the segment list is that of the payload (41_mode_selector.md R145). -/
  segments : 1 ≤ stageCode s.stage → s.plen.toNat ≤ s.cfg.pmax ∧ segmentList s = segments s.cfg (payload s)
  /-- From BUILT on a version and a level with a CAP entry are selected (42_bitstream.md R168, R169). -/
  selected : 2 ≤ stageCode s.stage →
    s.viSel.toNat < nv s.cfg ∧ (capOf s.cfg s.viSel.toNat s.eclSel).isSome ∧ levelSupported s.cfg s.eclSel = true
  /-- From STAMPED on MDIM is the selected version's size (10_state.md R50). -/
  size : 4 ≤ stageCode s.stage →
    s.mdimH = heightOf s.cfg s.viSel.toNat ∧ s.mdimW = widthOf s.cfg s.viSel.toNat
  /-- From STAMPED on every cell of the matrix has its layout's tag and a colour the stage allows. -/
  matrix : 4 ≤ stageCode s.stage → ∀ r c, insideMatrix s r c →
    cellOkAt s.stage (geomCell s.cfg s.viSel.toNat r c) (cellAt s r c)
  /-- From MASKED on RES_MASK is a candidate's index (45_mask.md R280). -/
  maskIndex : 6 ≤ stageCode s.stage → s.resMask.toNat < nm s.cfg

/-- The invariant of the machine. -/
structure Inv (s : State) : Prop where
  flags : FlagsOk s
  buffers : BuffersOk s
  matrix : MatrixOk s
  stages : StageOk s
  /-- The bits of RES_FMT_A and RES_FMT_B from FMT_W on read 0 (10_state.md R41). -/
  formats : s.resFmtA.toNat < 2 ^ fmtW s.cfg ∧ s.resFmtB.toNat < 2 ^ fmtW s.cfg

/-! ## Words of the statements -/

/-- The product of a and b as polynomials over GF(2), a of at most n bits: the xor of b shifted to every
1 bit of a. -/
def polyMul (n a b : Nat) : Nat := (List.range n).foldl (fun x i => if a.testBit i then x ^^^ (b <<< i) else x) 0

/-- The field of the reference configuration (43_ecc.md R190). -/
def referenceField (c : Config) : Prop := c.prim = 0x11D ∧ c.alpha = 0x02

/-- The value at x of the polynomial over GF(256) whose coefficients are listed from the highest degree down. -/
def evalAt (c : Config) (coefficients : List Byte) (x : Byte) : Byte :=
  coefficients.foldl (fun acc k => gfAdd (gfMul c acc x) k) 0

/-- A list of segments partitions a payload into maximal runs of one class (41_mode_selector.md R144): the
segments follow one another without gap or overlap, none is empty, every byte has its segment's class, and
adjacent segments differ in mode. -/
def isSegmentation (c : Config) (p : List Byte) : (from' : Nat) → List Segment → Prop
  | i, [] => i = p.length
  | i, g :: gs =>
    g.start = i ∧ 1 ≤ g.len ∧ i + g.len ≤ p.length
      ∧ (∀ j, i ≤ j → j < i + g.len → classOf c (p.getD j 0) = g.mode)
      ∧ (∀ h ∈ gs.head?, h.mode ≠ g.mode)
      ∧ isSegmentation c p (i + g.len) gs

/-- The offset of a word (20_memory.md R63). -/
def offsetOf : BusWord → Nat
  | .id => 0x00000
  | .cmd => 0x00004
  | .status => 0x00008
  | .config => 0x0000C
  | .plen => 0x00010
  | .errCode => 0x00014
  | .errExp => 0x00018
  | .errAct => 0x0001C
  | .resVer => 0x00020
  | .resBits => 0x00024
  | .resCw => 0x00028
  | .resMask => 0x0002C
  | .resFmtA => 0x00030
  | .resFmtB => 0x00034
  | .gfResult => 0x00038
  | .nseg => 0x0003C
  | .penalty i => 0x00040 + 4 * i
  | .param0 => 0x00060
  | .param1 => 0x00064
  | .segtab i => 0x01000 + 4 * i
  | .pbuf i => 0x02000 + 4 * i
  | .cwbuf i => 0x04000 + 4 * i
  | .exp i => 0x05000 + 4 * i
  | .log i => 0x05400 + 4 * i
  | .cell r c => 0x10000 + 4 * (256 * r + c)

/-- The word's index is inside the range the address map states (R63). -/
def inRange (k : Config) : BusWord → Prop
  | .penalty i => i < 8
  | .segtab i | .pbuf i => i < k.pmax
  | .cwbuf i => i < k.cwmax
  | .exp i | .log i => i < 256
  | .cell r c => r < 32 ∧ c < 256
  | .id | .cmd | .status | .config | .plen | .errCode | .errExp | .errAct | .resVer | .resBits | .resCw | .resMask
  | .resFmtA | .resFmtB | .gfResult | .nseg | .param0 | .param1 => True

/-- The core's part of a state: the host's side and the count of draws put aside. -/
def coreOf (s : State) : State := { s with host := [], reads := [], turns := [], draws := 0 }

/-- A command ended well: DONE is set and nothing is pending (40_control.md R124, R121). -/
def completed (s : State) : State := { s with done := true, pend := none }

/-- An interface error is recorded and nothing else changes but DONE and PEND (60_exceptions.md R326). -/
def interfaceError (kind : ErrKind) (opc expWord actWord : Nat) (s : State) : State :=
  { s with
    error := true
    done := false
    errKind := kind
    errOpc := BitVec.ofNat 8 opc
    errExp := BitVec.ofNat 32 expWord
    errAct := BitVec.ofNat 32 actWord
    pend := none }

/-- The codewords BUILD and RSENC make of a bit stream: data, parity and interleaving (43_ecc.md R197, R198). -/
def finalCodewords (c : Config) (gs : List Group) (bits : List Bool) : List Byte :=
  interleave (codeBlocks c (blockShapes gs) (bytesOfBits (dataOf gs) bits))

/-- The bits PLACE puts into the matrix: the final codewords, then the remainder bits (R199). -/
def placedStream (c : Config) (v : Nat) (gs : List Group) (bits : List Bool) : List Bool :=
  bitsOfBytes (finalCodewords c gs bits) ++ zeros (c.rem.getD v 0)

/-- The payload's bits at version v, straight from its segmentation (42_bitstream.md R163). -/
def payloadStream (c : Config) (v : Nat) (p : List Byte) : List Bool :=
  (segments c p).flatMap fun g => segBits c v g ((p.drop g.start).take g.len)

/-- The assigned opcodes (30_encoding.md R92). -/
def assignedOpcodes : List Nat :=
  [0x00, 0x01, 0x02, 0x10, 0x11, 0x12, 0x13, 0x14, 0x15, 0x16, 0x1F, 0x20, 0x21, 0x22, 0x23, 0x24, 0x25]

/-- The opcodes of the commands whose bits [15:0] are reserved (R93). -/
def operandFreeOpcodes : List Nat := [0x00, 0x01, 0x02, 0x10, 0x11, 0x12, 0x13, 0x14, 0x15, 0x16, 0x1F]

/-- The opcodes of the commands whose bits [15:8] are reserved and whose bits [7:0] are an operand (R93). -/
def oneOperandOpcodes : List Nat := [0x21, 0x22, 0x23, 0x25]

/-- cmd[31:24]. -/
def opcOf (w : Word) : Nat := (w.extractLsb' 24 8).toNat

/-- A word that is a command, by the bits of R93. -/
def legalWord (w : Word) : Prop :=
  opcOf w ∈ assignedOpcodes ∧ w.extractLsb' 16 8 = 0
    ∧ (opcOf w ∈ operandFreeOpcodes → w.extractLsb' 0 16 = 0)
    ∧ (opcOf w ∈ oneOperandOpcodes → w.extractLsb' 8 8 = 0)

/-- The encoding clauses of a command's rule: its word, and that its opcode with a bit set outside the
operands' bits is no command and raises IllegalCommand. -/
def encodedAs (i : Instr) (w operandBits : Word) : Prop :=
  encode i = w
    ∧ ∀ x : Word, x.extractLsb' 24 8 = w.extractLsb' 24 8 → x &&& 0x00FFFFFF &&& ~~~operandBits ≠ 0 →
      (∃ why, decode x = .error why) ∧ ∀ s : State, s.error = false →
        execute x s = .next (interfaceError .illegalCommand (opcOf x) 0 x.toNat s)

/-- fits(v, l), clause by clause (42_bitstream.md R167). -/
def fitsAt (s : State) (v : Nat) (l : Ecl) : Prop :=
  (capOf s.cfg v l).isSome ∧ (∀ g ∈ segmentList s, g.len < 2 ^ cciWidth s.cfg v g.mode)
    ∧ encodedLength s.cfg v (segmentList s) ≤ capBitsOf s.cfg v l

/-- ERR_ACT of CapacityExceeded: the encoded length, or all ones when a count overflows its field (R168). -/
def neededBits (s : State) (v : Nat) : Nat :=
  if ∃ g ∈ segmentList s, 2 ^ cciWidth s.cfg v g.mode ≤ g.len then 0xFFFFFFFF
  else encodedLength s.cfg v (segmentList s)

/-- An encoding error with its record, in a state t that a command left (60_exceptions.md R326). -/
def encodingError (kind : ErrKind) (opc expWord actWord : Nat) (t : State) : Prop :=
  t.error = true ∧ t.done = false ∧ t.pend = none ∧ t.stage = .none ∧ t.errKind = kind
    ∧ t.errOpc = BitVec.ofNat 8 opc ∧ t.errExp = BitVec.ofNat 32 expWord ∧ t.errAct = BitVec.ofNat 32 actWord

/-- The index in a round-robin stream of entry i of list b: the entries of earlier positions of every list,
then those of this position of the earlier lists (43_ecc.md R198). -/
def roundRobinIndex (lengths : List Nat) (i b : Nat) : Nat :=
  (lengths.map fun n => min n i).sum + ((lengths.take b).countP fun n => decide (i < n))

/-- The blocks of a stream of data codewords, each cut at its own offset (R197). -/
def blockAt (c : Config) (shapes : List (Nat × Nat)) (data : List Byte) (b : Nat) : List Byte × List Byte :=
  let offset := ((shapes.take b).map Prod.fst).sum
  let shape := shapes.getD b (0, 0)
  let mine := (data.drop offset).take shape.1
  (mine, rsParity c mine shape.2)

/-! ### What the four penalties count (45_mask.md R272 to R277), over the values B(r, c) of a grid of h rows and w columns -/

/-- f(0) + … + f(n − 1). -/
def sumBelow (n : Nat) (f : Nat → Nat) : Nat := ((List.range n).map f).sum

/-- A measure of a line of n cells, summed over the h rows and the w columns (R272). -/
def sumOverLines (h w : Nat) (value : Nat → Nat → Bool) (f : Nat → (Nat → Bool) → Nat) : Nat :=
  sumBelow h (fun r => f w (value r)) + sumBelow w fun c => f h fun r => value r c

/-- The k cells from i are a maximal run of equal cells in a line of n cells (R273). -/
abbrev isMaximalRun (n : Nat) (line : Nat → Bool) (i k : Nat) : Prop :=
  i + k ≤ n ∧ (∀ j < k, line (i + j) = line i) ∧ (i = 0 ∨ line (i - 1) ≠ line i) ∧ (i + k = n ∨ line (i + k) ≠ line i)

/-- What a line adds to pen_a: N1 + (k − 5) for every maximal run of k ≥ 5 cells (R273). -/
def runScore (n1 n : Nat) (line : Nat → Bool) : Nat :=
  sumBelow n fun i => sumBelow (n + 1) fun k => if 5 ≤ k ∧ isMaximalRun n line i k then n1 + (k - 5) else 0

/-- The number of (r, c) at which the 2×2 block lies inside the grid and is uniform (R274). -/
def uniformBlocks (h w : Nat) (value : Nat → Nat → Bool) : Nat :=
  sumBelow h fun r => sumBelow w fun c =>
    if r + 1 < h ∧ c + 1 < w ∧ value r (c + 1) = value r c ∧ value (r + 1) c = value r c
        ∧ value (r + 1) (c + 1) = value r c then 1 else 0

/-- The number of windows of 11 cells inside a line that equal P1 or P2 (R275). -/
def finderWindows (n : Nat) (line : Nat → Bool) : Nat :=
  sumBelow n fun i =>
    if i + 11 ≤ n ∧ ((List.range 11).map fun j => (line (i + j)).toNat) ∈
        [[1, 0, 1, 1, 1, 0, 1, 0, 0, 0, 0], [0, 0, 0, 0, 1, 0, 1, 1, 1, 0, 1]] then 1 else 0

/-- Σ B(r, c). -/
def darkSum (h w : Nat) (value : Nat → Nat → Bool) : Nat := sumBelow h fun r => sumBelow w fun c => (value r c).toNat

/-- The whole 5 % steps by which a share of dark cells deviates from one half (R276). -/
def balanceSteps (dark tot : Nat) : Nat := (100 * (dark : Int) - 50 * (tot : Int)).natAbs / (5 * tot)

/-- penalty(T) of a scored grid (R277). -/
def penaltyScore (k : Config) (h w : Nat) (value : Nat → Nat → Bool) : Nat :=
  sumOverLines h w value (runScore k.n1) + k.n2 * uniformBlocks h w value
    + k.n3 * sumOverLines h w value finderWindows + k.n4 * balanceSteps (darkSum h w value) (h * w)

/-- B(r, c) of the trial matrix of a mask: 1 for a cell that is Dark, or that is a Light Data cell which the mask flips;
0 for every other (R271, R272). -/
def scoredValue (s : State) (m : MaskFn) (r c : Nat) : Bool :=
  decide ((cellAt s r c).colour = if (cellAt s r c).tag = .data ∧ maskAt m r c = true then .light else .dark)

/-! ### Maps and stages -/

/-- The character of a cell in the maps of 44_matrix.md R254. -/
def layoutChar : Layout → Char
  | .dark => '#'
  | .light => 'o'
  | .format => 'f'
  | .data => '.'

/-- A row of such a map. -/
def layoutRow (c : Config) (v r : Nat) : String :=
  String.ofList ((List.range (widthOf c v)).map fun col => layoutChar (geomCell c v r col))

/-- The stage commands, each with its opcode, the stage it requires and the stage it leaves (R122). -/
def stageTable : List (Instr × Nat × Stage × Stage) :=
  [(.build, 0x11, .segmented, .built), (.rsenc, 0x12, .built, .coded), (.stamp, 0x13, .coded, .stamped),
    (.place, 0x14, .stamped, .placed), (.mask, 0x15, .placed, .masked), (.format, 0x16, .masked, .formatted)]

end Sys2Proof.Machine
end

