-- ==== Sys2Proof/Certificates/Slice0/Obligations.lean ====
section
/-! DEFINITION. The statements for the provers, in the order of the spec's files. Each docstring names the rule it
formalises. A statement about a command says what `exec` answers, whatever the state, under hypotheses on the
state and the operands alone; `{ t with f := s.f } = …` says that no field but those named differs. -/

open Sys2Proof Sys2Proof.Machine

/-! ## Encoding (30_encoding.md) -/

/-- Decoding an encoded well-formed command gives it back, with every operand (R92, R96). -/
def Obligations.DecodeOfEncodeIsTheCommand : Prop := ∀ i : Instr, i.wf = true → decode (encode i) = .ok i

/-- A word that decodes is the encoding of the command it decodes to: no two words are one command (R93, R94). -/
def Obligations.EncodeOfDecodeIsTheWord : Prop :=
  ∀ (w : Word) (i : Instr), decode w = .ok i → i.wf = true ∧ encode i = w

/-- R93: the decoder gives the opcode's command with a = cmd[15:8] and b = cmd[7:0], or Illegal, and Illegal
raises IllegalCommand with ERR_ACT = cmd. -/
def Obligations.DecoderAcceptsExactlyTheLegalWords : Prop :=
  ∀ w : Word,
    (legalWord w → ∃ i, decode w = .ok i ∧ opcode i = opcOf w ∧ operandF1 i = (w.extractLsb' 8 8).toNat
      ∧ operandF0 i = (w.extractLsb' 0 8).toNat) ∧
    (¬legalWord w → (∃ why, decode w = .error why) ∧ ∀ s : State, s.error = false →
      execute w s = .next (interfaceError .illegalCommand (opcOf w) 0 w.toNat s))

/-- Words written out from the encodings of R92, one for each command, and four illegal words. -/
def Obligations.SpecWordsDecode : Prop :=
  decode 0x00000000 = .ok .nop ∧ decode 0x01000000 = .ok .clear ∧ decode 0x02000000 = .ok .softReset
    ∧ decode 0x10000000 = .ok .segment ∧ decode 0x11000000 = .ok .build ∧ decode 0x12000000 = .ok .rsenc
    ∧ decode 0x13000000 = .ok .stamp ∧ decode 0x14000000 = .ok .place ∧ decode 0x15000000 = .ok .mask
    ∧ decode 0x16000000 = .ok .format ∧ decode 0x1F000000 = .ok .encode
    ∧ decode 0x200053CA = .ok (.gfMul 0x53 0xCA) ∧ decode 0x21000008 = .ok (.gfExp 8)
    ∧ decode 0x22000003 = .ok (.gfLog 3) ∧ decode 0x23000002 = .ok (.gfInv 2)
    ∧ decode 0x2400010A = .ok (.rsBlock 1 10) ∧ decode 0x25000007 = .ok (.genPoly 7)
    ∧ decode 0x03000000 = .error .unassignedOpcode ∧ decode 0x20010000 = .error .reservedF2
    ∧ decode 0x11000001 = .error .reservedF1F0 ∧ decode 0x21000100 = .error .reservedF1

/-! ## The step (00_scope.md R15, 40_control.md R120 to R126) -/

/-- When it is the core's turn and the pending word is a command, the step is that command's `exec`, with one turn
used; and the state `withFetchWord` gives runs the word, which `decodeTableWord` reads as the same command, at once. A
command other than NOP, CLEAR and SOFT_RESET needs ERROR = 0. The order of turns is the model's choice (log entry 5),
and `withFetchWord` stands for the host's write of CMD (log entry 19). -/
def Obligations.StepRunsTheDecodedCommand : Prop :=
  ∀ (s : State) (w : Word) (i : Instr), decode w = .ok i → s.error = false ∨ opcOf w ≤ 2 →
    (s.pend = some w → nextAgent s = .core → step s = exec i { s with turns := s.turns.tail }) ∧
    step (s.withFetchWord 32 w.toNat) = exec i { s with pend := some w, done := false, turns := [] } ∧
    decodeTableWord 32 w.toNat = some i

/-- R121: the core has a step exactly when a command is pending, and it ends with nothing pending; the host's step
is its next event, a read or a write of the bus (the reset input is in `SoftResetIsReset`). Whose turn it is, and the
host's list of coming events, are the model's choice (log entries 5, 6). -/
def Obligations.OneAgentMovesAtATime : Prop :=
  ∀ s : State,
    nextAgent s = (match s.turns with
      | agent :: _ => agent
      | [] => if s.pend.isSome then .core else .host) ∧
    (∀ off width v, hostEvent s (.read off width) = hostRead s off width
      ∧ hostEvent s (.write off width v) = hostWrite s off width v) ∧
    (nextAgent s = .core → s.pend = none → step s = .next { s with turns := s.turns.tail }) ∧
    (nextAgent s = .core → s.pend ≠ none → ∃ t, step s = .next t ∧ t.pend = none ∧ t.host = s.host
      ∧ t.reads = s.reads ∧ t.turns = s.turns.tail ∧ t.params = s.params) ∧
    (nextAgent s = .host → ∀ e rest, s.host = e :: rest →
      step s = .next (hostEvent { s with turns := s.turns.tail, host := rest } e)) ∧
    (nextAgent s = .host → s.host = [] → step s = .next { s with turns := s.turns.tail })

/-- R361: BUSY returns to 0. Whatever the schedule of turns and whatever the host does meanwhile, nothing is
pending after some number of steps that the remaining turns bound. The list of turns is the model's form of the weak
fairness of R121 (log entry 5). -/
def Obligations.PendingCommandCompletes : Prop :=
  ∀ s : State, ∃ k ≤ s.turns.length + 1, ∃ t : State, Sys2Proof.core.run k s = .next t ∧ t.pend = none

/-- R123 and R327: while ERROR = 1 only CLEAR and SOFT_RESET change anything but PEND. Every other command is refused,
NOP leaves DONE 0, and a word of these three with a reserved bit set leaves the first record. -/
def Obligations.FirstErrorRecordStays : Prop :=
  ∀ (s : State) (w : Word), s.error = true → w ≠ 0x01000000 → w ≠ 0x02000000 →
    execute w s = .next { s with pend := none } ∧ (FlagsOk s → s.done = false)

/-- R122: a stage command at another stage raises StageOrder and changes nothing else; one that succeeds leaves the
next stage; SEGMENT leaves stage 1 from any; no other command ever raises StageOrder. -/
def Obligations.StageOrderIsLinear : Prop :=
  (∀ row ∈ stageTable, ∀ s : State, s.error = false → s.stage ≠ row.2.2.1 →
    exec row.1 s = .next (interfaceError .stageOrder row.2.1 (stageCode row.2.2.1) (stageCode s.stage) s)) ∧
  (∀ row ∈ stageTable, ∀ s t : State, s.error = false → s.stage = row.2.2.1 → exec row.1 s = .next t →
    t.errKind ≠ .stageOrder ∨ s.errKind = .stageOrder) ∧
  (∀ row ∈ stageTable, ∀ s t : State, s.error = false → exec row.1 s = .next t → t.error = false →
    t.stage = row.2.2.2) ∧
  (∀ s t : State, s.error = false → exec .segment s = .next t → t.error = false → t.stage = .segmented) ∧
  (∀ (i : Instr) (s t : State), (∀ row ∈ stageTable, row.1 ≠ i) → exec i s = .next t → t.errKind = .stageOrder →
    s.errKind = .stageOrder)

/-- R124 and R28: a command other than CLEAR and SOFT_RESET that ran without error sets DONE, one that raised an error
leaves it 0, and each leaves BUSY 0. -/
def Obligations.DoneMeansSuccess : Prop :=
  ∀ (i : Instr) (s t : State), i ≠ .clear → i ≠ .softReset → s.error = false → exec i s = .next t →
    t.pend = none ∧ t.done = !t.error ∧ t.busErr = s.busErr ∧ t.wrBusy = s.wrBusy ∧ t.config = s.config
      ∧ t.plen = s.plen ∧ t.pbuf = s.pbuf

/-! ## Control commands -/

/-- R130: NOP. -/
def Obligations.NopOnlySetsDone : Prop :=
  ∀ s : State, exec .nop s = .next (if s.error then { s with pend := none } else completed s)
    ∧ encodedAs .nop 0x00000000 0

/-- R131: CLEAR, the return from an error. -/
def Obligations.ClearReturnsFromAnError : Prop :=
  ∀ s : State,
    exec .clear s = .next
      { s with error := false, busErr := false, wrBusy := false, done := false, errKind := .none, errOpc := 0,
               errExp := 0, errAct := 0, pend := none }
    ∧ encodedAs .clear 0x01000000 0

/-- R132 and R351: SOFT_RESET and the reset input put every element of the core in its reset value, and the
discarded command never executes. -/
def Obligations.SoftResetIsReset : Prop :=
  ∀ s : State,
    (∃ t, exec .softReset s = .next t ∧ coreOf t = State.resetWith s.params ∧ hostEvent s .reset = t)
    ∧ encodedAs .softReset 0x02000000 0

/-- R134: ENCODE and the seven single commands in sequence leave identical state, in every state and whichever stage
fails. -/
def Obligations.EncodeIsTheSevenStages : Prop :=
  ∀ s : State, ∃ t1 t2 t3 t4 t5 t6 t7 : State,
    exec .segment s = .next t1 ∧ exec .build t1 = .next t2 ∧ exec .rsenc t2 = .next t3 ∧ exec .stamp t3 = .next t4
      ∧ exec .place t4 = .next t5 ∧ exec .mask t5 = .next t6 ∧ exec .format t6 = .next t7
      ∧ exec .encode s = .next t7 ∧ encodedAs .encode 0x1F000000 0

/-- R134, R253: ENCODE of an encodable payload completes at stage 7, and the symbol it leaves is the payload's: the
i-th cell of the placement order shows bit i of the placed stream, flipped where the selected mask says so, and
every in-range cell is Dark or Light. `gs` and `v` are the CAP entry and the version that the first fit selects; the
hypotheses are on the payload and the configuration alone. That PLACE takes TCW and REM from the CAP entry of the
selection is log entry 29; what a mode code or a character value too wide for its field emits is the model's choice
(log entry 30). -/
def Obligations.EncodeMakesTheSymbol : Prop :=
  ∀ (s : State) (cand : List Nat) (v : Nat) (gs : List Group),
    let l := configEcl s
    let segs := segments s.cfg (payload s)
    s.error = false → s.plen.toNat ≤ s.cfg.pmax → (∀ b ∈ payload s, byteOk s.cfg b = true) →
    levelSupported s.cfg l = true → candidates s l = .ok cand →
    cand.find? (fun u => fits s.cfg segs u l) = some v → capOf s.cfg v l = some gs →
    freeCells s.cfg v = 8 * totalOf gs + s.cfg.rem.getD v 0 →
    ∃ t : State, exec .encode s = .next t ∧ t.error = false ∧ t.done = true ∧ t.pend = none ∧ t.stage = .formatted
      ∧ t.viSel.toNat = v ∧ t.eclSel = l ∧ t.mdimH = heightOf s.cfg v ∧ t.mdimW = widthOf s.cfg v
      ∧ t.resMask.toNat < nm s.cfg
      ∧ (∀ i r c, (placementOrder s.cfg v)[i]? = some (r, c) →
        ((cellAt t r c).colour = .dark ↔
          (placedStream s.cfg v gs (padStream s.cfg (8 * dataOf gs) (payloadStream s.cfg v (payload s)))).getD i false
            ≠ maskAt (s.cfg.masks.getD t.resMask.toNat .blocks) r c))
      ∧ (∀ r c, insideMatrix t r c → darkOrLight (cellAt t r c).colour)

/-! ## Mode Selector (41_mode_selector.md) -/

/-- R141 and R142 with the reference table, which the reference configuration has: the class of every byte and the value
of every alphanumeric one. -/
def Obligations.ByteClassesOfTheReferenceTable : Prop :=
  State.reset.cfg.alnum = refAlnum ∧ ∀ (c : Config) (b : Byte), c.alnum = refAlnum →
    let n := b.toNat
    (0x30 ≤ n ∧ n ≤ 0x39 → classOf c b = .numeric ∧ alnumVal c b = some (n - 0x30)) ∧
    (0x41 ≤ n ∧ n ≤ 0x5A → classOf c b = .alphanumeric ∧ alnumVal c b = some (n - 0x41 + 10)) ∧
    (∀ v, (n, v) ∈ [(0x20, 36), (0x24, 37), (0x25, 38), (0x2A, 39), (0x2B, 40), (0x2D, 41), (0x2E, 42), (0x2F, 43),
      (0x3A, 44)] → classOf c b = .alphanumeric ∧ alnumVal c b = some v) ∧
    (¬(0x30 ≤ n ∧ n ≤ 0x39) → ¬(0x41 ≤ n ∧ n ≤ 0x5A) →
      n ∉ [0x20, 0x24, 0x25, 0x2A, 0x2B, 0x2D, 0x2E, 0x2F, 0x3A] → classOf c b = .byte ∧ alnumVal c b = none)

/-- R144: the segment list covers the payload without gaps or overlaps in maximal runs of one class, and is the only
list that does. -/
def Obligations.SegmentsAreTheMaximalRuns : Prop :=
  ∀ (c : Config) (p : List Byte) (gs : List Segment), isSegmentation c p 0 gs ↔ gs = segments c p

/-- R145: SEGMENT of a legal payload, the bytes PBUF[0..PLEN.LEN − 1] (R46), writes the payload's maximal runs to SEGTAB,
with the mode codes of R140 in the fields of R45, and their number to NSEG. -/
def Obligations.SegmentWritesTheSegmentList : Prop :=
  ∀ s : State, payload s = (List.range s.plen.toNat).map (fun i => (wordValue s (.pbuf i)).setWidth 8) ∧
   (s.error = false → s.plen.toNat ≤ s.cfg.pmax → (∀ b ∈ payload s, byteOk s.cfg b = true) →
    ∃ (t : State) (gs : List Segment), exec .segment s = .next t
      ∧ isSegmentation s.cfg (payload s) 0 gs
      ∧ wordValue t .nseg = BitVec.ofNat 32 gs.length
      ∧ (∀ j g, gs[j]? = some g →
        wordValue t (.segtab j) = BitVec.ofNat 32
          ((match g.mode with | .numeric => 0 | .alphanumeric => 1 | .byte => 2) + g.start * 2 ^ 8 + g.len * 2 ^ 20))
      ∧ (∀ j, gs.length ≤ j → segEntry t j = segEntry s j)
      ∧ { t with segtab := s.segtab, segFree := s.segFree, nseg := s.nseg } = completed { s with stage := .segmented }
      ∧ encodedAs .segment 0x10000000 0)

/-- R146 and R143: SEGMENT's two errors, each with its record; in the reference configuration every byte is
supported. NSEG and SEGTAB are left open and nothing else changes but
STAGE, DONE, PEND and the error registers; `draws` counts the free values drawn for what is left open (log entry 8). -/
def Obligations.SegmentRejects : Prop :=
  ∀ s : State, s.error = false →
    let rejected := fun (kind : ErrKind) (expWord actWord : Nat) =>
      ∃ t : State, exec .segment s = .next t ∧ encodingError kind 0x10 expWord actWord t
        ∧ { t with segtab := s.segtab, segFree := s.segFree, nseg := s.nseg }
          = { interfaceError kind 0x10 expWord actWord s with stage := .none, draws := t.draws }
    (s.cfg.pmax < s.plen.toNat → rejected .invalidConfiguration 0 1) ∧
    (s.plen.toNat ≤ s.cfg.pmax → ∀ i b, (payload s)[i]? = some b → byteOk s.cfg b = false →
      (∀ j a, j < i → (payload s)[j]? = some a → byteOk s.cfg a = true) →
      rejected .unsupportedCharacter i b.toNat) ∧
    (∀ (c : Config) (b : Byte), byteOk c b = true ↔ b ∉ c.byteNotOk) ∧ (∀ b : Byte, byteOk State.reset.cfg b = true)

/-! ## Bit Stream Builder (42_bitstream.md) -/

/-- R161: SIZE_ORDER of the reference configuration lists every version once, by ascending module count, and by
ascending index where two counts are equal. -/
def Obligations.SizeOrderIsByModuleCount : Prop :=
  let c := State.reset.cfg
  c.sizeOrder.Perm (List.range 32) ∧
    c.sizeOrder.Pairwise fun u v =>
      heightOf c u * widthOf c u < heightOf c v * widthOf c v
        ∨ heightOf c u * widthOf c u = heightOf c v * widthOf c v ∧ u < v

/-- R163: payload_bits(v) is, segment by segment, the mode code in MI_W bits, the length in CCI_W bits and the data bits
of the segment's bytes, and L(v) is its length, each segment giving MI_W + CCI_W + D (R162). The segment list is what
SEGTAB[0..NSEG − 1] reads in the fields of R45; that MODE = 3, which SEGMENT never writes, is byte mode is the model's
reading (log entry 14). bits_n(v) is most significant bit first (R11); of a value too wide for n bits it holds the low ones
(log entry 30). -/
def Obligations.EncodedLengthIsTheStreamLength : Prop :=
  (∀ n v : Nat, (bitsOf n v).length = n ∧ ∀ i < n, (bitsOf n v)[i]? = some (v.testBit (n - 1 - i))) ∧
  ∀ (s : State) (v : Nat),
    let widths := s.cfg.cciW.getD v default
    let miCodeOf := fun (m : Mode) => match m with
      | .numeric => s.cfg.miNumeric
      | .alphanumeric => s.cfg.miAlphanumeric
      | .byte => s.cfg.miByte
    let cciWidthOf := fun (m : Mode) => match m with
      | .numeric => widths.numeric
      | .alphanumeric => widths.alphanumeric
      | .byte => widths.byte
    let dataBitCount := fun (m : Mode) (n : Nat) => match m with
      | .numeric => 10 * (n / 3) + [0, 4, 7].getD (n % 3) 0
      | .alphanumeric => 11 * (n / 2) + 6 * (n % 2)
      | .byte => 8 * n
    segmentList s = (List.range s.nseg.toNat).map (fun j =>
      let w := wordValue s (.segtab j)
      ⟨match (w.extractLsb' 0 2).toNat with | 0 => .numeric | 1 => .alphanumeric | _ => .byte,
        (w.extractLsb' 8 12).toNat, (w.extractLsb' 20 12).toNat⟩) ∧
    payloadBits s v = (segmentList s).flatMap (fun g =>
      bitsOf s.cfg.miW (miCodeOf g.mode) ++ bitsOf (cciWidthOf g.mode) g.len
        ++ dataBits s.cfg g.mode ((List.range g.len).map fun i => pbufByte s (g.start + i))) ∧
    (payloadBits s v).length = encodedLength s.cfg v (segmentList s) ∧
    encodedLength s.cfg v (segmentList s)
      = ((segmentList s).map fun g => s.cfg.miW + cciWidthOf g.mode + dataBitCount g.mode g.len).sum ∧
    State.reset.cfg.miNumeric = 1 ∧ State.reset.cfg.miAlphanumeric = 2 ∧ State.reset.cfg.miByte = 4

/-- R162: the data bits, field by field, most significant bit first: decimal groups of digits in 10, 7 and 4 bits, pairs
45·x + y in 11 bits and an odd last character in 6, bytes in 8; their number; and packing loses nothing: two byte
strings of one length, each encodable in a mode, with equal data bits are equal. The alphanumeric values are below 45, as
the rule's are, and for the last clause no two bytes have one value, which a configuration need not meet. -/
def Obligations.PackingLosesNothing : Prop :=
  ∀ c : Config, (∀ b u, alnumVal c b = some u → u < 45) →
    (∀ (m : Mode) (a : List Byte), (dataBits c m a).length =
      match m with
      | .numeric => 10 * (a.length / 3) + [0, 4, 7].getD (a.length % 3) 0
      | .alphanumeric => 11 * (a.length / 2) + 6 * (a.length % 2)
      | .byte => 8 * a.length) ∧
    (∀ (x y z : Byte) (rest : List Byte), (∀ d ∈ [x, y, z], 0x30 ≤ d.toNat ∧ d.toNat ≤ 0x39) →
      valueOf ((dataBits c .numeric (x :: y :: z :: rest)).take 10)
          = 100 * (x.toNat - 0x30) + 10 * (y.toNat - 0x30) + (z.toNat - 0x30)
        ∧ (dataBits c .numeric (x :: y :: z :: rest)).drop 10 = dataBits c .numeric rest
        ∧ valueOf (dataBits c .numeric [x, y]) = 10 * (x.toNat - 0x30) + (y.toNat - 0x30)
        ∧ valueOf (dataBits c .numeric [x]) = x.toNat - 0x30) ∧
    (∀ (x y : Byte) (u v : Nat) (rest : List Byte), alnumVal c x = some u → alnumVal c y = some v →
      valueOf ((dataBits c .alphanumeric (x :: y :: rest)).take 11) = 45 * u + v
        ∧ (dataBits c .alphanumeric (x :: y :: rest)).drop 11 = dataBits c .alphanumeric rest
        ∧ valueOf (dataBits c .alphanumeric [x]) = u) ∧
    (∀ (x : Byte) (rest : List Byte), valueOf ((dataBits c .byte (x :: rest)).take 8) = x.toNat
      ∧ (dataBits c .byte (x :: rest)).drop 8 = dataBits c .byte rest) ∧
    (∀ (m : Mode) (a b : List Byte), a.length = b.length →
      (m = .alphanumeric → ∀ x y u, alnumVal c x = some u → alnumVal c y = some u → x = y) →
      (∀ x ∈ a ++ b,
        (m = .numeric → 0x30 ≤ x.toNat ∧ x.toNat ≤ 0x39) ∧ (m = .alphanumeric → (alnumVal c x).isSome)) →
      dataBits c m a = dataBits c m b → a = b)

/-- R164: the stream is the payload's bits, the terminator cut to the room left, zeros to a codeword boundary, and PAD0
and PAD1 in turn up to the capacity exactly; the reference pad codewords. -/
def Obligations.StreamIsPaddedToTheCapacity : Prop :=
  ∀ (s : State) (v : Nat) (l : Ecl), (payloadBits s v).length ≤ capBitsOf s.cfg v l →
    ∃ fill pads,
      stream s v l = payloadBits s v
          ++ zeros (min s.cfg.miW (capBitsOf s.cfg v l - (payloadBits s v).length)) ++ zeros fill
          ++ (List.range pads).flatMap (fun i => bitsOf 8 (if i % 2 = 0 then s.cfg.pad0 else s.cfg.pad1).toNat)
        ∧ fill < 8
        ∧ ((payloadBits s v).length + min s.cfg.miW (capBitsOf s.cfg v l - (payloadBits s v).length) + fill) % 8 = 0
        ∧ (stream s v l).length = capBitsOf s.cfg v l
        ∧ State.reset.cfg.pad0 = 0xEC ∧ State.reset.cfg.pad1 = 0x11 ∧ State.reset.cfg.miW = 4

/-- R170: BUILD at the version the search selects. Codeword i holds bits 8i to 8i + 7 of the stream, most significant
first (20_memory.md R69), and the result registers describe the selection, their other bits reading 0 (R37, R39, R53).
Where a value does not fit its field of RES_VER
or RES_CW (W = 256, H = 32, REM above 7, more than 511 codewords), that the field holds its low bits is the model's
reading (log entry 12). -/
def Obligations.BuildWritesTheCodewords : Prop :=
  ∀ (s : State) (cand : List Nat) (v : Nat),
    let l := configEcl s
    s.error = false → s.stage = .segmented → levelSupported s.cfg l = true → candidates s l = .ok cand →
    cand.find? (fun u => fits s.cfg (segmentList s) u l) = some v →
    ∃ (t : State) (gs : List Group), exec .build s = .next t
      ∧ capOf s.cfg v l = some gs ∧ dcwOf s.cfg v l = (gs.map fun g => g.num * g.k).sum
      ∧ capBitsOf s.cfg v l = 8 * dcwOf s.cfg v l
      ∧ (∀ i < dcwOf s.cfg v l, ∀ j < 8, (cwByte t i).getLsbD (7 - j) = (stream s v l).getD (8 * i + j) false)
      ∧ (∀ i, dcwOf s.cfg v l ≤ i → cwByte t i = cwByte s i)
      ∧ t.viSel.toNat = v ∧ t.eclSel = l
      ∧ wordValue t .resVer = BitVec.ofNat 32 (v % 2 ^ 5 + heightOf s.cfg v % 2 ^ 5 * 2 ^ 8
        + widthOf s.cfg v % 2 ^ 8 * 2 ^ 16 + eclCode l * 2 ^ 24)
      ∧ [Ecl.low, .medium, .quartile, .high].map eclCode = [0, 1, 2, 3]
      ∧ wordValue t .resBits
        = BitVec.ofNat 32 (encodedLength s.cfg v (segmentList s) + capBitsOf s.cfg v l * 2 ^ 16)
      ∧ wordValue t .resCw = BitVec.ofNat 32 (dcwOf s.cfg v l % 2 ^ 9
        + (gs.map fun g => g.num * g.c).sum % 2 ^ 9 * 2 ^ 9 + s.cfg.rem.getD v 0 % 2 ^ 3 * 2 ^ 18
        + (gs.map Group.num).sum % 2 ^ 5 * 2 ^ 21)
      ∧ { t with cwbuf := s.cwbuf, cwFree := s.cwFree, viSel := s.viSel, eclSel := s.eclSel, resH := s.resH,
                 resW := s.resW, resBits := s.resBits, resCw := s.resCw } = completed { s with stage := .built }
      ∧ encodedAs .build 0x11000000 0

/-- R168, R169 and R171: which version BUILD selects, and which error it records when it selects none. CONFIG.ECL is
[1:0], FIXED is [2] and VERSION is [12:8] (R32). The reference levels are Medium and High. CAP(v, l) is
a row of the configuration for that pair, undefined when there is none; which of two rows is not said here (log entry
31). -/
def Obligations.BuildSelectsTheFirstFit : Prop :=
  (∀ s : State,
    s.config.extractLsb' 0 2 = (match configEcl s with | .low => 0 | .medium => 1 | .quartile => 2 | .high => 3)
      ∧ configFixed s = s.config.getLsbD 2 ∧ configVersion s = (s.config.extractLsb' 8 5).toNat) ∧
  [Ecl.low, .medium, .quartile, .high].map eclCode = [0, 1, 2, 3] ∧
  (∀ l : Ecl, (∃ code, (l, code) ∈ State.reset.cfg.levels) ↔ l = .medium ∨ l = .high) ∧
  (∀ (c : Config) (v : Nat) (l : Ecl),
    (∀ gs, capOf c v l = some gs → ⟨v, l, gs⟩ ∈ c.cap) ∧ (capOf c v l = none ↔ ∀ gs, ⟨v, l, gs⟩ ∉ c.cap)) ∧
  ∀ s : State, s.error = false → s.stage = .segmented →
    let l := configEcl s
    let offered := s.cfg.sizeOrder.filter fun v => (capOf s.cfg v l).isSome
    ∃ t : State, exec .build s = .next t ∧
    (¬(∃ code, (l, code) ∈ s.cfg.levels) → encodingError .invalidConfiguration 0x11 0 2 t) ∧
    ((∃ code, (l, code) ∈ s.cfg.levels) → configFixed s = true →
      (nv s.cfg ≤ configVersion s → encodingError .invalidConfiguration 0x11 0 3 t) ∧
      (configVersion s < nv s.cfg → capOf s.cfg (configVersion s) l = none →
        encodingError .invalidConfiguration 0x11 0 4 t) ∧
      (configVersion s < nv s.cfg → (capOf s.cfg (configVersion s) l).isSome →
        (fitsAt s (configVersion s) l → t.error = false ∧ t.viSel.toNat = configVersion s) ∧
        (¬fitsAt s (configVersion s) l → encodingError .capacityExceeded 0x11
          (capBitsOf s.cfg (configVersion s) l) (neededBits s (configVersion s)) t))) ∧
    ((∃ code, (l, code) ∈ s.cfg.levels) → configFixed s = false →
      (offered = [] → encodingError .invalidConfiguration 0x11 0 4 t) ∧
      (∀ before v after, offered = before ++ v :: after → fitsAt s v l → (∀ u ∈ before, ¬fitsAt s u l) →
        t.error = false ∧ t.viSel.toNat = v) ∧
      (∀ before last, offered = before ++ [last] → (∀ u ∈ offered, ¬fitsAt s u l) →
        encodingError .capacityExceeded 0x11 (capBitsOf s.cfg last l) (neededBits s last) t))

/-! ## Error Correction Coder (43_ecc.md) -/

/-- R190 and R193: the ROMs of the reference field: EXP follows the doubling recurrence, LOG is its inverse, every
nonzero byte stands exactly once in EXP[0..254], the two entries the field leaves free are 1 and 0, and ALPHA^n is
EXP[n mod 255] for every n. -/
def Obligations.FieldTablesOfTheReferenceField : Prop :=
  ∀ c : Config, referenceField c →
    expRom c 0 = 1 ∧ expRom c 255 = 1 ∧ logRom c 0 = 0 ∧
    (∀ i < 254, (expRom c (i + 1)).toNat =
      if 0x100 ≤ 2 * (expRom c i).toNat then (2 * (expRom c i).toNat) ^^^ 0x11D else 2 * (expRom c i).toNat) ∧
    (∀ i < 255, logRom c (expRom c i).toNat = BitVec.ofNat 8 i) ∧
    (∀ x : Byte, x ≠ 0 → ∃ i < 255, expRom c i = x ∧ ∀ j < 255, expRom c j = x → j = i) ∧
    (∀ n, BitVec.ofNat 8 (alphaPow c n) = expRom c (n % 255)) ∧ referenceField State.reset.cfg

/-- R191 and R192: gf_add is the exclusive or; gf_mul by the tables is commutative and associative, has identity 1, is
absorbed by 0 and distributes over gf_add. -/
def Obligations.GfMulIsAFieldProduct : Prop :=
  ∀ c : Config, referenceField c → ∀ x y z : Byte,
    (x ≠ 0 → y ≠ 0 → gfMul c x y = expRom c (((logRom c x.toNat).toNat + (logRom c y.toNat).toNat) % 255)) ∧
    gfMul c x y = gfMul c y x ∧ gfMul c (gfMul c x y) z = gfMul c x (gfMul c y z) ∧ gfMul c 1 x = x ∧
    gfMul c 0 x = 0 ∧ gfMul c x 0 = 0 ∧ gfMul c x (gfAdd y z) = gfAdd (gfMul c x y) (gfMul c x z) ∧
    gfAdd x y = x ^^^ y

/-- R210: GF_MUL leaves in GF_RESULT the product of its operands as polynomials over GF(2) modulo 0x11D, and by the
tables in any field. -/
def Obligations.GfMulMultiplies : Prop :=
  ∀ (s : State) (a b : Nat), s.error = false → a < 256 → b < 256 →
    ∃ r : Byte, exec (.gfMul a b) s = .next (completed { s with gfResult := r })
      ∧ r = gfMul s.cfg (BitVec.ofNat 8 a) (BitVec.ofNat 8 b)
      ∧ (referenceField s.cfg → ∃ q < 2 ^ 7, polyMul 8 a b = polyMul 7 q 0x11D ^^^ r.toNat)
      ∧ encodedAs (.gfMul a b) (BitVec.ofNat 32 (0x20000000 + a * 2 ^ 8 + b)) 0x0000FFFF

/-- R211: GF_EXP reads the antilog table; in the reference field the result is never 0 and n = 255 gives 1. -/
def Obligations.GfExpReadsTheTable : Prop :=
  ∀ (s : State) (n : Nat), s.error = false → n < 256 →
    exec (.gfExp n) s = .next (completed { s with gfResult := expRom s.cfg n })
      ∧ (referenceField s.cfg → expRom s.cfg n ≠ 0 ∧ (n = 255 → expRom s.cfg n = 1)
        ∧ (n < 255 → expRom s.cfg n = BitVec.ofNat 8 (alphaPow s.cfg n)))
      ∧ encodedAs (.gfExp n) (BitVec.ofNat 32 (0x21000000 + n)) 0x000000FF

/-- R212: GF_LOG gives the exponent of its operand, at most 254, and refuses 0. -/
def Obligations.GfLogInvertsGfExp : Prop :=
  ∀ (s : State) (a : Nat), s.error = false → a < 256 →
    (a ≠ 0 → exec (.gfLog a) s = .next (completed { s with gfResult := logRom s.cfg a })
      ∧ (referenceField s.cfg → (logRom s.cfg a).toNat ≤ 254
        ∧ expRom s.cfg (logRom s.cfg a).toNat = BitVec.ofNat 8 a)) ∧
    (a = 0 → exec (.gfLog a) s = .next (interfaceError .gfDomain 0x22 0 0x22000000 s)) ∧
    encodedAs (.gfLog a) (BitVec.ofNat 32 (0x22000000 + a)) 0x000000FF

/-- R213: GF_INV gives the multiplicative inverse and refuses 0. -/
def Obligations.GfInvInverts : Prop :=
  ∀ (s : State) (a : Nat), s.error = false → a < 256 →
    (a ≠ 0 → ∃ r : Byte, exec (.gfInv a) s = .next (completed { s with gfResult := r })
      ∧ r = gfInv s.cfg (BitVec.ofNat 8 a)
      ∧ (referenceField s.cfg → gfMul s.cfg (BitVec.ofNat 8 a) r = 1 ∧ gfInv s.cfg r = BitVec.ofNat 8 a)) ∧
    (a = 0 → exec (.gfInv a) s = .next (interfaceError .gfDomain 0x23 0 0x23000000 s)) ∧
    encodedAs (.gfInv a) (BitVec.ofNat 32 (0x23000000 + a)) 0x000000FF

/-- R196: data followed by its parity, as a polynomial, is divisible by the generator: it vanishes at each of its e
distinct roots. No data gives zero parity. -/
def Obligations.CodedBlockVanishesAtTheRoots : Prop :=
  ∀ (c : Config) (data : List Byte) (e : Nat), referenceField c → e ≤ 255 →
    (rsParity c data e).length = e
      ∧ (∀ i < e, evalAt c (data ++ rsParity c data e) (expRom c i) = 0)
      ∧ rsParity c [] e = List.replicate e 0

/-- R214: RS_BLOCK k, e writes the parity of CWBUF[0..k−1] behind it and sets STAGE to 0; with operands out of range it
raises BadOperand and changes nothing else. -/
def Obligations.RsBlockAppendsTheParity : Prop :=
  ∀ (s : State) (k e : Nat), s.error = false → k < 256 → e < 256 →
    (e ≠ 0 → k + e ≤ 255 → ∃ t : State, exec (.rsBlock k e) s = .next t
      ∧ cwBytes t k e = rsParity s.cfg (cwBytes s 0 k) e
      ∧ (∀ j, j < k ∨ k + e ≤ j → cwByte t j = cwByte s j)
      ∧ { t with cwbuf := s.cwbuf, cwFree := s.cwFree } = completed { s with stage := .none }) ∧
    (e = 0 ∨ 255 < k + e →
      exec (.rsBlock k e) s = .next (interfaceError .badOperand 0x24 0 (0x24000000 + k * 2 ^ 8 + e) s)) ∧
    encodedAs (.rsBlock k e) (BitVec.ofNat 32 (0x24000000 + k * 2 ^ 8 + e)) 0x0000FFFF

/-- R215 and R195: GEN_POLY e writes the generator's e + 1 coefficients, highest degree first, and sets STAGE to 0; in
the reference field they are monic with the roots ALPHA^0 to ALPHA^(e−1). e = 0 raises BadOperand. -/
def Obligations.GenPolyWritesTheGenerator : Prop :=
  ∀ (s : State) (e : Nat), s.error = false → e < 256 →
    (e ≠ 0 → ∃ t : State, exec (.genPoly e) s = .next t
      ∧ cwBytes t 0 (e + 1) = genPoly s.cfg e
      ∧ (referenceField s.cfg → cwByte t 0 = 1 ∧ ∀ i < e, evalAt s.cfg (cwBytes t 0 (e + 1)) (expRom s.cfg i) = 0)
      ∧ (∀ j, e + 1 ≤ j → cwByte t j = cwByte s j)
      ∧ { t with cwbuf := s.cwbuf, cwFree := s.cwFree } = completed { s with stage := .none }) ∧
    (e = 0 → exec (.genPoly e) s = .next (interfaceError .badOperand 0x25 0 0x25000000 s)) ∧
    encodedAs (.genPoly e) (BitVec.ofNat 32 (0x25000000 + e)) 0x000000FF

/-- R198: where each codeword goes: codeword i of list b stands at the index that counts the earlier positions of all
lists and this position of the earlier lists, and the stream holds nothing else. -/
def Obligations.InterleavingIsRoundRobin : Prop :=
  ∀ lists : List (List Byte),
    (roundRobin lists).length = (lists.map List.length).sum ∧
    ∀ b l i x, lists[b]? = some l → l[i]? = some x →
      (roundRobin lists)[roundRobinIndex (lists.map List.length) i b]? = some x

/-- R200 and R197: RSENC cuts CWBUF[0..DCW−1] into the blocks of the selected CAP entry, gives each its parity, and
writes data round-robin, then parity round-robin. -/
def Obligations.RsencWritesTheInterleavedBlocks : Prop :=
  ∀ s : State, s.error = false → s.stage = .built →
    let gs := groupsOf s.cfg s.viSel.toNat s.eclSel
    let shapes := gs.flatMap fun g => List.replicate g.num (g.k, g.c - g.k)
    let blocks := (List.range (blocksOf gs)).map (blockAt s.cfg shapes (cwBytes s 0 (dataOf gs)))
    ∃ t : State, exec .rsenc s = .next t
      ∧ cwBytes t 0 (totalOf gs) = roundRobin (blocks.map Prod.fst) ++ roundRobin (blocks.map Prod.snd)
      ∧ (∀ j, totalOf gs ≤ j → cwByte t j = cwByte s j)
      ∧ { t with cwbuf := s.cwbuf, cwFree := s.cwFree } = completed { s with stage := .coded }
      ∧ encodedAs .rsenc 0x12000000 0

/-! ## Matrix Builder (44_matrix.md) -/

/-- R254, R230 and R239: the height, the width, free(v), the number of Data cells of the layout, and REM of every version
of the reference configuration, and the stamped maps of versions 0, 10 and 16. -/
def Obligations.StampedMapsOfTheSpec : Prop :=
  let c := State.reset.cfg
  ((List.range 32).map fun v => (heightOf c v, widthOf c v, freeCells c v, c.rem.getD v 0)) =
    [(7, 43, 104, 0), (7, 59, 171, 3), (7, 77, 261, 5), (7, 99, 358, 6),
     (7, 139, 545, 1), (9, 43, 170, 2), (9, 59, 267, 3), (9, 77, 393, 1)] ++
    [(9, 99, 532, 4), (9, 139, 797, 5), (11, 27, 122, 2), (11, 43, 249, 1),
     (11, 59, 376, 0), (11, 77, 538, 2), (11, 99, 719, 7), (11, 139, 1062, 6)] ++
    [(13, 27, 172, 4), (13, 43, 329, 1), (13, 59, 486, 6), (13, 77, 684, 4),
     (13, 99, 907, 3), (13, 139, 1328, 0), (15, 43, 409, 1), (15, 59, 596, 4)] ++
    [(15, 77, 830, 6), (15, 99, 1095, 7), (15, 139, 1594, 2), (17, 43, 489, 1),
     (17, 59, 706, 2), (17, 77, 976, 0), (17, 99, 1283, 3), (17, 139, 1860, 4)] ∧
  (List.range 7).map (layoutRow c 0) =
    ["#######o#o#o#o#o#o#o###o#o#o#o#o#o#o#o#o###",
     "#ooooo#offff........#o#............ffffffo#",
     "#o###o#offff........###............fff#####",
     "#o###o#offff.........o.............fff#ooo#",
     "#o###o#offf.........###............fff#o#o#",
     "#ooooo#offf.........#o#............fff#ooo#",
     "#######o#o#o#o#o#o#o###o#o#o#o#o#o#o#o#####"] ∧
  (List.range 11).map (layoutRow c 10) =
    ["#######o#o#o#o#o#o#o#o#o###",
     "#ooooo#offff.............o#",
     "#o###o#offff..............#",
     "#o###o#offff..............o",
     "#o###o#offf...............#",
     "#ooooo#offf........ffffff.o",
     "#######o...........fff#####",
     "oooooooo...........fff#ooo#",
     "#..................fff#o#o#",
     "#o.................fff#ooo#",
     "###o#o#o#o#o#o#o#o#o#o#####"] ∧
  (List.range 13).map (layoutRow c 16) =
    ["#######o#o#o#o#o#o#o#o#o###",
     "#ooooo#offff.............o#",
     "#o###o#offff..............#",
     "#o###o#offff..............o",
     "#o###o#offf...............#",
     "#ooooo#offf...............o",
     "#######o..................#",
     "oooooooo...........ffffff.o",
     "#..................fff#####",
     "o..................fff#ooo#",
     "#..................fff#o#o#",
     "#o.................fff#ooo#",
     "###o#o#o#o#o#o#o#o#o#o#####"]

/-- R240: STAMP sets MDIM and every cell: inside the version's size the layout's tag and colour, Data cells Unset and
Format cells ReservedFormat; outside it Outside and Unset. -/
def Obligations.StampWritesTheLayout : Prop :=
  ∀ s : State, s.error = false → s.stage = .coded →
    let v := s.viSel.toNat
    ∃ t : State, exec .stamp s = .next t
      ∧ t.mdimH = heightOf s.cfg v ∧ t.mdimW = widthOf s.cfg v
      ∧ (∀ r c, r < 32 → c < 256 →
        cellAt t r c =
          if r < heightOf s.cfg v ∧ c < widthOf s.cfg v then
            match geomCell s.cfg v r c with
            | .data => ⟨.data, .unset⟩
            | .format => ⟨.format, .reservedFormat⟩
            | .dark => ⟨.structural, .dark⟩
            | .light => ⟨.structural, .light⟩
          else ⟨.outside, .unset⟩)
      ∧ { t with mdimH := s.mdimH, mdimW := s.mdimW, cells := s.cells } = completed { s with stage := .stamped }
      ∧ encodedAs .stamp 0x13000000 0

/-- R242: every Data cell of the layout is in the placement order exactly once, and nothing else is; and the order is the
zig-zag: column pairs from (W − 2, W − 3) leftward, the rows of a pair from the bottom in the first and every second
pair and from the top in the others, the right column of a row first. -/
def Obligations.PlacementOrderVisitsEveryDataCellOnce : Prop :=
  ∀ (p : Params) (v : Nat), v < nv p.config →
    let pair := fun (cell : Nat × Nat) => (widthOf p.config v - 2 - cell.2) / 2
    (placementOrder p.config v).Nodup ∧ (placementOrder p.config v).length = freeCells p.config v ∧
    (∀ r c, (r, c) ∈ placementOrder p.config v ↔
      r < heightOf p.config v ∧ c < widthOf p.config v ∧ geomCell p.config v r c = .data) ∧
    (placementOrder p.config v).Pairwise fun a b =>
      pair a < pair b ∨ (pair a = pair b ∧ (if pair a % 2 = 0 then b.1 < a.1 else a.1 < b.1))
        ∨ (pair a = pair b ∧ a.1 = b.1 ∧ b.2 < a.2)

/-- R250 and R252: PLACE colours the i-th cell of the placement order by bit i of the codewords, most significant bit
first, and the remainder cells Light; no tag and no other cell changes. That TCW and REM are those of the CAP entry of
VI_SEL and ECL_SEL, where R250 names RES_CW, is the model's reading (log entry 29). -/
def Obligations.PlaceColoursTheDataCells : Prop :=
  ∀ s : State, s.error = false → s.stage = .stamped →
    let v := s.viSel.toNat
    let tcw := totalOf (groupsOf s.cfg v s.eclSel)
    freeCells s.cfg v = 8 * tcw + s.cfg.rem.getD v 0 →
    ∃ t : State, exec .place s = .next t
      ∧ (v < nv s.cfg → ∀ i r c, (placementOrder s.cfg v)[i]? = some (r, c) →
        (cellAt t r c).colour =
          if i < 8 * tcw ∧ (cwByte s (i / 8)).getLsbD (7 - i % 8) = true then .dark else .light)
      ∧ (∀ r c, c < 256 → (cellAt t r c).tag = (cellAt s r c).tag)
      ∧ (∀ r c, c < 256 → (r, c) ∉ placementOrder s.cfg v → cellAt t r c = cellAt s r c)
      ∧ { t with cells := s.cells } = completed { s with stage := .placed }
      ∧ encodedAs .place 0x14000000 0

/-- R251 and R250: PLACE raises MatrixCapacityMismatch when the stream does not fill the Data cells exactly, with both
counts. That TCW and REM are those of the CAP entry of VI_SEL and ECL_SEL, where R250 names RES_CW, is the model's
reading (log entry 29). -/
def Obligations.PlaceReportsACapacityMismatch : Prop :=
  ∀ s : State, s.error = false → s.stage = .stamped →
    let v := s.viSel.toNat
    let bits := 8 * totalOf (groupsOf s.cfg v s.eclSel) + s.cfg.rem.getD v 0
    freeCells s.cfg v ≠ bits →
    ∃ t : State, exec .place s = .next t
      ∧ encodingError .matrixCapacityMismatch 0x14 (freeCells s.cfg v) bits t
      ∧ (∀ r c, c < 256 → (cellAt t r c).tag = (cellAt s r c).tag)
      ∧ (∀ r c, c < 256 → (cellAt s r c).tag ≠ .data → cellAt t r c = cellAt s r c)

/-! ## Mask Evaluator (45_mask.md) -/

/-- R273 to R277, for a grid of h rows of w cells. pen_a adds N1 + (k − 5) for every maximal run of k ≥ 5 equal cells of a
row or a column, pen_b N2 for every uniform 2×2 block, pen_c N3 for every window that equals P1 or P2, pen_d N4 for
every whole 5 % step by which the dark share deviates from one half, and the total is their sum. Each has the bound of
R277 when h and w are at most 256; with at most 32 rows the total is below 2^23 under the reference weights, which are
3, 3, 40 and 10, and below 2^32 under weights up to 1000. -/
def Obligations.PenaltiesAreBounded : Prop :=
  (∀ (c : Config) (h w : Nat) (grid : List (List Bool)), grid.length = h → (∀ row ∈ grid, row.length = w) →
    let value := gridAt grid
    (penaltyRuns c.n1 (linesOf w grid) = sumOverLines h w value (runScore c.n1) ∧
      penaltyBlocks c.n2 h w grid = c.n2 * uniformBlocks h w value ∧
      penaltyFinders c.n3 (linesOf w grid) = c.n3 * sumOverLines h w value finderWindows ∧
      penaltyBalance c.n4 (darkCells grid) (h * w) = c.n4 * balanceSteps (darkSum h w value) (h * w) ∧
      penaltyOf c h w grid = penaltyRuns c.n1 (linesOf w grid) + penaltyBlocks c.n2 h w grid
        + penaltyFinders c.n3 (linesOf w grid) + penaltyBalance c.n4 (darkCells grid) (h * w)) ∧
    (h ≤ 256 → w ≤ 256 →
      penaltyRuns c.n1 (linesOf w grid) ≤ (h + w) * 256 * (c.n1 + 1) ∧
      penaltyBlocks c.n2 h w grid ≤ c.n2 * (h * w) ∧
      penaltyFinders c.n3 (linesOf w grid) ≤ 2 * c.n3 * (h + w) * 256 ∧
      penaltyBalance c.n4 (darkCells grid) (h * w) ≤ 10 * c.n4 ∧
      (h ≤ 32 → c.n1 = 3 → c.n2 = 3 → c.n3 = 40 → c.n4 = 10 → penaltyOf c h w grid < 2 ^ 23) ∧
      (h ≤ 32 → c.n1 ≤ 1000 → c.n2 ≤ 1000 → c.n3 ≤ 1000 → c.n4 ≤ 1000 → penaltyOf c h w grid < 2 ^ 32))) ∧
  State.reset.cfg.n1 = 3 ∧ State.reset.cfg.n2 = 3 ∧ State.reset.cfg.n3 = 40 ∧ State.reset.cfg.n4 = 10

/-- R280, with R270 to R272 and R277. MASK scores candidate i on the trial matrix of mask i (Dark is 1, Light and
ReservedFormat 0), selects the first least one, flips the Data cells where its predicate is true, and writes PENALTY and
RES_MASK. The reference mask set is the one predicate of R270; the named predicates of other sets are those of
93_implementation_defined.md G22, and any other is its table (log entry 23). That PENALTY holds the low 32 bits of a
penalty that does not fit, which takes weights above 1000 (R277), is the model's reading (log entry 20). -/
def Obligations.MaskFlipsTheSelectedCells : Prop :=
  (∀ s : State, s.error = false → s.stage = .placed →
    let mask := fun (i : Nat) => s.cfg.masks.getD i .blocks
    let score := fun (i : Nat) => penaltyScore s.cfg s.mdimH s.mdimW (scoredValue s (mask i))
    ∃ (t : State) (best : Nat), exec .mask s = .next t
      ∧ t.resMask.toNat = best ∧ best < nm s.cfg
      ∧ (∀ j < nm s.cfg, score best ≤ score j)
      ∧ (∀ j < best, score best < score j)
      ∧ (∀ j < 8, wordValue t (.penalty j) = if j < nm s.cfg then BitVec.ofNat 32 (score j) else 0)
      ∧ (∀ r c, c < 256 → cellAt t r c =
        if (cellAt s r c).tag = .data ∧ maskAt (mask best) r c = true then
          { cellAt s r c with
            colour := match (cellAt s r c).colour with
              | .dark => .light
              | .light => .dark
              | other => other }
        else cellAt s r c)
      ∧ { t with cells := s.cells, penalty := s.penalty, resMask := s.resMask } = completed { s with stage := .masked }
      ∧ encodedAs .mask 0x15000000 0) ∧
  (∀ r c, (State.reset.cfg.masks.map fun m => maskAt m r c) = [decide ((r / 2 + c / 3) % 2 = 0)]) ∧
  (∀ r c, ([.checker, .rows, .columns, .diagonals, .blocks, .products, .productsEven, .mixedEven].map fun m =>
      maskAt m r c) =
    [decide ((r + c) % 2 = 0), decide (r % 2 = 0), decide (c % 3 = 0), decide ((r + c) % 3 = 0),
      decide ((r / 2 + c / 3) % 2 = 0), decide (r * c % 2 + r * c % 3 = 0), decide ((r * c % 2 + r * c % 3) % 2 = 0),
      decide (((r + c) % 2 + r * c % 3) % 2 = 0)]) ∧
  (∀ rows r c, maskAt (.table rows) r c = true ↔ ∃ row, rows[r]? = some row ∧ row[c]? = some true)

/-- R281: after MASK the selected candidate's PENALTY register is the least and the first of its value. The weights
are bounded so that no penalty exceeds its register (R277). -/
def Obligations.MaskSelectsTheLeastPenalty : Prop :=
  ∀ s t : State, s.error = false → s.stage = .placed → s.mdimH ≤ 32 → s.mdimW ≤ 256 →
    s.cfg.n1 ≤ 1000 → s.cfg.n2 ≤ 1000 → s.cfg.n3 ≤ 1000 → s.cfg.n4 ≤ 1000 → exec .mask s = .next t →
    (∀ j < nm s.cfg, wordValue t (.penalty t.resMask.toNat) ≤ wordValue t (.penalty j)) ∧
    (∀ j < t.resMask.toNat, wordValue t (.penalty t.resMask.toNat) < wordValue t (.penalty j))

/-! ## Format Encoder (46_format.md) -/

/-- R301: a format word is its data bits followed by fewer check bits than the generator's degree, and is a multiple of
the generator as a polynomial over GF(2). -/
def Obligations.FormatWordsAreMultiplesOfTheGenerator : Prop :=
  ∀ (c : Config) (d : Nat), 2 ^ c.fmtEcW ≤ c.fmtGen → c.fmtGen < 2 ^ (c.fmtEcW + 1) →
    c.fmtEcW ≤ fmtW c → d < 2 ^ (fmtW c - c.fmtEcW) →
    bch c d / 2 ^ c.fmtEcW = d
      ∧ ∃ q < 2 ^ (fmtW c - c.fmtEcW), bch c d = polyMul (fmtW c - c.fmtEcW) q c.fmtGen

/-- R304: the format words of versions 0 to 31 at level M and at level H in the reference configuration, and both masked
words of each. -/
def Obligations.FormatWordsOfTheSpec : Prop :=
  let c := State.reset.cfg
  let words := fun (l : Ecl) => (List.range 32).map fun v => bch c (fmtData c l 0 v)
  words .medium =
    [0x00000, 0x01F25, 0x0216F, 0x03E4A, 0x042DE, 0x05DFB, 0x063B1, 0x07C94] ++
    [0x085BC, 0x09A99, 0x0A4D3, 0x0BBF6, 0x0C762, 0x0D847, 0x0E60D, 0x0F928] ++
    [0x10B78, 0x1145D, 0x12A17, 0x13532, 0x149A6, 0x15683, 0x168C9, 0x177EC] ++
    [0x18EC4, 0x191E1, 0x1AFAB, 0x1B08E, 0x1CC1A, 0x1D33F, 0x1ED75, 0x1F250] ∧
  (words .medium).map (fun w => w ^^^ c.fmtMaskA) =
    [0x1FAB2, 0x1E597, 0x1DBDD, 0x1C4F8, 0x1B86C, 0x1A749, 0x19903, 0x18626] ++
    [0x17F0E, 0x1602B, 0x15E61, 0x14144, 0x13DD0, 0x122F5, 0x11CBF, 0x1039A] ++
    [0x0F1CA, 0x0EEEF, 0x0D0A5, 0x0CF80, 0x0B314, 0x0AC31, 0x0927B, 0x08D5E] ++
    [0x07476, 0x06B53, 0x05519, 0x04A3C, 0x036A8, 0x0298D, 0x017C7, 0x008E2] ∧
  (words .medium).map (fun w => w ^^^ c.fmtMaskB) =
    [0x20A7B, 0x2155E, 0x22B14, 0x23431, 0x248A5, 0x25780, 0x269CA, 0x276EF] ++
    [0x28FC7, 0x290E2, 0x2AEA8, 0x2B18D, 0x2CD19, 0x2D23C, 0x2EC76, 0x2F353] ++
    [0x30103, 0x31E26, 0x3206C, 0x33F49, 0x343DD, 0x35CF8, 0x362B2, 0x37D97] ++
    [0x384BF, 0x39B9A, 0x3A5D0, 0x3BAF5, 0x3C661, 0x3D944, 0x3E70E, 0x3F82B] ∧
  words .high =
    [0x209D5, 0x216F0, 0x228BA, 0x2379F, 0x24B0B, 0x2542E, 0x26A64, 0x27541] ++
    [0x28C69, 0x2934C, 0x2AD06, 0x2B223, 0x2CEB7, 0x2D192, 0x2EFD8, 0x2F0FD] ++
    [0x302AD, 0x31D88, 0x323C2, 0x33CE7, 0x34073, 0x35F56, 0x3611C, 0x37E39] ++
    [0x38711, 0x39834, 0x3A67E, 0x3B95B, 0x3C5CF, 0x3DAEA, 0x3E4A0, 0x3FB85] ∧
  (words .high).map (fun w => w ^^^ c.fmtMaskA) =
    [0x3F367, 0x3EC42, 0x3D208, 0x3CD2D, 0x3B1B9, 0x3AE9C, 0x390D6, 0x38FF3] ++
    [0x376DB, 0x369FE, 0x357B4, 0x34891, 0x33405, 0x32B20, 0x3156A, 0x30A4F] ++
    [0x2F81F, 0x2E73A, 0x2D970, 0x2C655, 0x2BAC1, 0x2A5E4, 0x29BAE, 0x2848B] ++
    [0x27DA3, 0x26286, 0x25CCC, 0x243E9, 0x23F7D, 0x22058, 0x21E12, 0x20137] ∧
  (words .high).map (fun w => w ^^^ c.fmtMaskB) =
    [0x003AE, 0x01C8B, 0x022C1, 0x03DE4, 0x04170, 0x05E55, 0x0601F, 0x07F3A] ++
    [0x08612, 0x09937, 0x0A77D, 0x0B858, 0x0C4CC, 0x0DBE9, 0x0E5A3, 0x0FA86] ++
    [0x108D6, 0x117F3, 0x129B9, 0x1369C, 0x14A08, 0x1552D, 0x16B67, 0x17442] ++
    [0x18D6A, 0x1924F, 0x1AC05, 0x1B320, 0x1CFB4, 0x1D091, 0x1EEDB, 0x1F1FE]

/-- R303, R302 and R300: FORMAT writes bit n of each masked word to position n of its list, Dark for 1 and Light for 0; no
tag and no other cell changes. The format word is that of ECL_CODE << (MW + VI_W) | RES_MASK << VI_W | VI_SEL, where MW is
the least width that counts the masks and FMT_W is ECL_W + MW + VI_W + FMT_EC_W (00_scope.md R7). In the reference
configuration position n of each list is that of 44_matrix.md R238. That RES_FMT_A and RES_FMT_B keep only bits FMT_W − 1
to 0 (10_state.md R41) of a masked word that is wider, and that fields of fmt_data which overlap and other generators run as
R300 and R301 are written, is the model's reading (log entry 30), and so is that the first of two codes of a level counts
(log entry 31); in the reference configuration every word has FMT_W = 18 bits. -/
def Obligations.FormatWritesTheFormatCells : Prop :=
  let reference := State.reset.cfg
  (∀ s : State, s.error = false → s.stage = .masked → s.viSel.toNat < nv s.cfg →
    let v := s.viSel.toNat
    let eclCodeOf := (s.cfg.levels.lookup s.eclSel).getD 0
    let w := bch s.cfg ((eclCodeOf <<< (mw s.cfg + s.cfg.viW)) ||| (s.resMask.toNat <<< s.cfg.viW) ||| v)
    ∃ t : State, exec .format s = .next t
      ∧ wordValue t .resFmtA = BitVec.ofNat 32 ((w ^^^ s.cfg.fmtMaskA) % 2 ^ fmtW s.cfg)
      ∧ wordValue t .resFmtB = BitVec.ofNat 32 ((w ^^^ s.cfg.fmtMaskB) % 2 ^ fmtW s.cfg)
      ∧ (∀ n r c, (fmtPosA s.cfg v)[n]? = some (r, c) →
        (cellAt t r c).colour = if (w ^^^ s.cfg.fmtMaskA).testBit n then .dark else .light)
      ∧ (∀ n r c, (fmtPosB s.cfg v)[n]? = some (r, c) →
        (cellAt t r c).colour = if (w ^^^ s.cfg.fmtMaskB).testBit n then .dark else .light)
      ∧ (∀ r c, c < 256 → (cellAt t r c).tag = (cellAt s r c).tag)
      ∧ (∀ r c, c < 256 → (r, c) ∉ fmtPosA s.cfg v ++ fmtPosB s.cfg v → cellAt t r c = cellAt s r c)
      ∧ { t with cells := s.cells, resFmtA := s.resFmtA, resFmtB := s.resFmtB }
        = completed { s with stage := .formatted }
      ∧ encodedAs .format 0x16000000 0) ∧
  (∀ c : Config, fmtW c = c.eclW + mw c + c.viW + c.fmtEcW) ∧
  (∀ p : Params, nm p.config ≤ 2 ^ mw p.config ∧ (1 ≤ mw p.config → 2 ^ (mw p.config - 1) < nm p.config)) ∧
  fmtW reference = 18 ∧
  ∀ v < 32,
    let h := heightOf reference v
    let w := widthOf reference v
    fmtPosA reference v = (List.range 15).map (fun n => (1 + n % 5, 8 + n / 5)) ++ [(1, 11), (2, 11), (3, 11)] ∧
    fmtPosB reference v = (List.range 15).map (fun n => (h - 6 + n % 5, w - 8 + n / 5))
      ++ [(h - 6, w - 5), (h - 6, w - 4), (h - 6, w - 3)]

/-! ## Errors (60_exceptions.md) -/

/-- R328 and R326: errors are precise. An interface error changes only the error registers and STATUS; an encoding error
leaves every element that its stage does not write: after SEGMENT all but the segment list, after BUILD all but the
results and the codewords some version could have taken, at most the most data codewords of any CAP entry (which these are
is the model's reading, log entry 9), after
PLACE all but the colours of the Data cells, and after ENCODE all but what the stages up to the failing one write. `draws`
counts the free values drawn for what the stage writes (log entry 8). -/
def Obligations.ErrorsArePrecise : Prop :=
  (∀ c : Config, (∀ row ∈ c.cap, dataOf row.groups ≤ mostDataCodewords c) ∧
    (mostDataCodewords c = 0 ∨ ∃ row ∈ c.cap, dataOf row.groups = mostDataCodewords c)) ∧
  ∀ (i : Instr) (s t : State), s.error = false → exec i s = .next t → t.error = true →
    (isEncodingError t.errKind = false →
      t = interfaceError t.errKind t.errOpc.toNat t.errExp.toNat t.errAct.toNat s) ∧
    (isEncodingError t.errKind = true →
      let record := { interfaceError t.errKind t.errOpc.toNat t.errExp.toNat t.errAct.toNat s with
        stage := .none, draws := t.draws }
      let sameSegments := fun (u : State) => { u with segtab := s.segtab, segFree := s.segFree, nseg := s.nseg }
      let sameBuild := fun (u : State) => { u with
        cwbuf := s.cwbuf, cwFree := s.cwFree, viSel := s.viSel, eclSel := s.eclSel, resH := s.resH, resW := s.resW,
        resBits := s.resBits, resCw := s.resCw }
      (i = .segment ∧ sameSegments t = record) ∨
      (i = .build ∧ sameBuild t = record ∧ ∀ j, mostDataCodewords s.cfg ≤ j → cwByte t j = cwByte s j) ∨
      (i = .place ∧ { t with cells := s.cells } = record
        ∧ (∀ r c, c < 256 → (cellAt t r c).tag = (cellAt s r c).tag)
        ∧ (∀ r c, c < 256 → (cellAt s r c).tag ≠ .data → cellAt t r c = cellAt s r c)) ∨
      (i = .encode
        ∧ { sameBuild (sameSegments t) with mdimH := s.mdimH, mdimW := s.mdimW, cells := s.cells } = record
        ∧ (t.errOpc = 0x10 → sameSegments t = record)
        ∧ (t.errOpc = 0x11 → sameBuild (sameSegments t) = record
          ∧ ∀ j, mostDataCodewords s.cfg ≤ j → cwByte t j = cwByte s j)))

/-- 10_state.md R24 to R49: what every word holds, bit by bit. The interrupt output is STATUS.IRQ (R335), STAGE has the
numbers of R31 and ERR_CODE the codes of 60_exceptions.md R320. That a value too wide for its field of PARAM0 gives its low
bits is the model's reading (log entry 12). -/
def Obligations.RegisterWordsAndInterruptOutput : Prop :=
  (∀ s : State,
    let w := wordValue s .status
    irq s = (s.config.getLsbD 3 && !s.pend.isSome && (s.done || s.error))
      ∧ w.getLsbD 0 = s.pend.isSome ∧ w.getLsbD 1 = s.done ∧ w.getLsbD 2 = s.error ∧ w.getLsbD 3 = s.busErr
      ∧ w.getLsbD 4 = s.wrBusy ∧ w.getLsbD 5 = irq s ∧ w.extractLsb' 6 2 = 0
      ∧ w.extractLsb' 8 3 = BitVec.ofNat 3 (stageCode s.stage) ∧ w.extractLsb' 11 21 = 0) ∧
  [Stage.none, .segmented, .built, .coded, .stamped, .placed, .masked, .formatted].map stageCode
    = [0, 1, 2, 3, 4, 5, 6, 7] ∧
  (∀ s : State,
    let w := wordValue s .errCode
    w.extractLsb' 0 8 = (match s.errKind with
        | .none => 0x00
        | .unsupportedCharacter => 0x01
        | .capacityExceeded => 0x02
        | .invalidConfiguration => 0x03
        | .matrixCapacityMismatch => 0x04
        | .illegalCommand => 0x10
        | .stageOrder => 0x11
        | .gfDomain => 0x12
        | .badOperand => 0x13)
      ∧ w.extractLsb' 8 8 = s.errOpc ∧ w.extractLsb' 16 16 = 0
      ∧ wordValue s .errExp = s.errExp ∧ wordValue s .errAct = s.errAct) ∧
  (∀ (s : State) (r c : Nat),
    let w := wordValue s (.cell r c)
    w.extractLsb' 0 2 = (match (cellAt s r c).colour with
        | .unset => 0
        | .dark => 1
        | .light => 2
        | .reservedFormat => 3)
      ∧ w.extractLsb' 2 2 = (match (cellAt s r c).tag with
        | .data => 0
        | .structural => 1
        | .format => 2
        | .outside => 3)
      ∧ w.getLsbD 4 = decide ((cellAt s r c).colour = .dark) ∧ w.extractLsb' 5 27 = 0) ∧
  (∀ s : State,
    let w := wordValue s .resVer
    w.extractLsb' 0 5 = s.viSel ∧ w.extractLsb' 5 3 = 0 ∧ w.extractLsb' 8 5 = s.resH ∧ w.extractLsb' 13 3 = 0
      ∧ w.extractLsb' 16 8 = s.resW
      ∧ w.extractLsb' 24 2 = (match s.eclSel with | .low => 0 | .medium => 1 | .quartile => 2 | .high => 3)
      ∧ w.extractLsb' 26 6 = 0) ∧
  (∀ (s : State) (i : Nat),
    let w := wordValue s (.segtab i)
    w.extractLsb' 0 2 = (segEntry s i).mode ∧ w.extractLsb' 2 6 = 0 ∧ w.extractLsb' 8 12 = (segEntry s i).start
      ∧ w.extractLsb' 20 12 = (segEntry s i).len) ∧
  (∀ s : State,
    wordValue s .param0 = BitVec.ofNat 32
        (nv s.cfg % 2 ^ 8 + nm s.cfg % 2 ^ 4 * 2 ^ 8 + s.cfg.miW % 2 ^ 4 * 2 ^ 12 + fmtW s.cfg % 2 ^ 5 * 2 ^ 16)
      ∧ wordValue s .param1 = BitVec.ofNat 32 (s.cfg.pmax + s.cfg.cwmax * 2 ^ 16)) ∧
  (∀ s : State,
    wordValue s .id = 0x524D5152 ∧ wordValue s .cmd = 0 ∧ wordValue s .config = s.config
      ∧ wordValue s .plen = s.plen.setWidth 32 ∧ wordValue s .resBits = s.resBits
      ∧ wordValue s .resCw = s.resCw.setWidth 32 ∧ wordValue s .resMask = s.resMask.setWidth 32
      ∧ wordValue s .resFmtA = s.resFmtA ∧ wordValue s .resFmtB = s.resFmtB
      ∧ wordValue s .gfResult = s.gfResult.setWidth 32 ∧ wordValue s .nseg = s.nseg.setWidth 32) ∧
  (∀ (s : State) (i : Nat),
    wordValue s (.penalty i) = s.penalty.getD i 0 ∧ wordValue s (.pbuf i) = (pbufByte s i).setWidth 32
      ∧ wordValue s (.cwbuf i) = (cwByte s i).setWidth 32 ∧ wordValue s (.exp i) = (expRom s.cfg i).setWidth 32
      ∧ wordValue s (.log i) = (logRom s.cfg i).setWidth 32)

/-! ## The bus (20_memory.md) -/

/-- R63 and R64: an aligned word access selects the word whose offset it is, and every other offset is unmapped. R60: an
address selects the offset from BASE, which is 4096-byte aligned, and addresses this core below BASE + 0x20000 only. -/
def Obligations.AddressMapSelectsEachWord : Prop :=
  (∀ (p : Params) (off : Nat) (w : BusWord),
    selectWord p.config off 4 = some w ↔ off = offsetOf w ∧ inRange p.config w) ∧
  ∀ (c : Config) (address off : Nat),
    baseAddress c % 4096 = 0 ∧
    (offsetOfAddress c address = some off ↔ address = baseAddress c + off ∧ off < 0x20000)

/-- R65: an illegal access while BUSY = 0 changes no state except BUS_ERR, and an illegal read returns 0. The core decodes
the offsets below 0x20000 only (R60): what an event beyond the window does is the model's choice (log entry 25). -/
def Obligations.IllegalAccessOnlySetsBusErr : Prop :=
  ∀ (s : State) (off width : Nat) (v : Word), off < 0x20000 →
    ((∀ w, inRange s.cfg w → ¬(width = 4 ∧ off = offsetOf w)) →
      readValue s off width = 0 ∧ coreOf (hostRead s off width) = coreOf { s with busErr := true }) ∧
    (s.pend = none → (∀ w, inRange s.cfg w → width = 4 → off = offsetOf w → writable w = false) →
      hostWrite s off width v = { s with busErr := true })

/-- R62: a read of a defined word returns its value and has no side effect: nothing of the core changes, and reading the
word again returns the same. `reads` is the model's record of what the host got (log entry 6). -/
def Obligations.ReadsHaveNoSideEffects : Prop :=
  ∀ (s : State) (w : BusWord), inRange s.cfg w → s.pend = none ∨ exactWhileBusy w = true →
    hostRead s (offsetOf w) 4 = { s with reads := wordValue s w :: s.reads } ∧
    readValue (hostRead s (offsetOf w) 4) (offsetOf w) 4 = readValue s (offsetOf w) 4

/-- R67: while BUSY = 1 a write changes nothing but the two sticky bits; ID, STATUS, PARAM0 and PARAM1 read their value
and CMD 0; any other defined word reads a free value, a new one at each read; an illegal read returns 0 and sets
BUS_ERR. No read changes anything else of the core. The core decodes the offsets below 0x20000 only (R60; log entry 25 for
an event beyond them). That the value comes from `Config.busyRead` and that the counter
`draws` makes each one new are the model's form of it (log entry 7). -/
def Obligations.AccessesWhileBusy : Prop :=
  ∀ (s : State) (v : Word), s.pend ≠ none →
    (∀ w, inRange s.cfg w →
      hostWrite s (offsetOf w) 4 v = { s with wrBusy := true, busErr := s.busErr || !writable w }) ∧
    (∀ off < 0x20000, ∀ width, (∀ w, inRange s.cfg w → ¬(width = 4 ∧ off = offsetOf w)) →
      hostWrite s off width v = { s with wrBusy := true, busErr := true }
        ∧ readValue s off width = 0 ∧ coreOf (hostRead s off width) = coreOf { s with busErr := true }) ∧
    (∀ w ∈ [BusWord.id, .status, .param0, .param1], readValue s (offsetOf w) 4 = wordValue s w) ∧
    readValue s (offsetOf .cmd) 4 = 0 ∧
    (∀ w, inRange s.cfg w → w ∉ [BusWord.id, .cmd, .status, .param0, .param1] →
      readValue s (offsetOf w) 4 = Config.busyRead s.draws ∧ (hostRead s (offsetOf w) 4).draws = s.draws + 1) ∧
    (∀ w, inRange s.cfg w → coreOf (hostRead s (offsetOf w) 4) = coreOf s)

/-- R66: a write to an input while BUSY = 0 stores the bits that exist, sets STAGE to 0, and changes no other word. The
words a host may write are CMD and the inputs CONFIG, PLEN, PBUF and CWBUF (R63). -/
def Obligations.InputWritesStoreAndRestartThePipeline : Prop :=
  (∀ w : BusWord, writable w = true ↔
    w = .cmd ∨ w = .config ∨ w = .plen ∨ (∃ i, w = .pbuf i) ∨ ∃ i, w = .cwbuf i) ∧
  ∀ (s : State) (w : BusWord) (v : Word), s.pend = none → inRange s.cfg w → writable w = true → w ≠ .cmd →
    let t := hostWrite s (offsetOf w) 4 v
    t.stage = .none
      ∧ wordValue t w = v &&& (match w with | .config => 0x00001F0F | .plen => 0x0000FFFF | _ => 0x000000FF)
      ∧ (∀ u, inRange s.cfg u → u ≠ w → u ≠ .status → wordValue t u = wordValue s u)
      ∧ { t with stage := s.stage, config := s.config, plen := s.plen, pbuf := s.pbuf, cwbuf := s.cwbuf,
                 cwFree := s.cwFree } = s

/-- R120: a write to CMD while BUSY = 0 issues the word and clears DONE, and changes nothing else; while BUSY = 1 it only
sets WR_BUSY. -/
def Obligations.CommandWriteIssues : Prop :=
  ∀ (s : State) (w : Word),
    (s.pend = none →
      hostWrite s 0x00004 4 w = { s with pend := some w, done := false } ∧
      (wordValue (hostWrite s 0x00004 4 w) .status).getLsbD 0 = true) ∧
    (s.pend ≠ none → hostWrite s 0x00004 4 w = { s with wrBusy := true })

/-! ## Reset and the invariants -/

/-- R55 and R33: what every defined word reads after reset, in any configuration, the elements no word shows, and the
two parameter registers of the reference configuration. -/
def Obligations.ResetValues : Prop :=
  ∀ (p : Params) (w : BusWord), inRange p.config w →
    let s := State.resetWith p
    readValue s (offsetOf w) 4 =
      (match w with
      | .id => 0x524D5152
      | .config => 0x00000001
      | .param0 => param0Word p.config
      | .param1 => param1Word p.config
      | .exp i => (expRom p.config i).setWidth 32
      | .log i => (logRom p.config i).setWidth 32
      | .cell _ _ => 0x0000000C
      | _ => 0x00000000)
    ∧ s.pend = none ∧ s.viSel = 0 ∧ eclCode s.eclSel = 0 ∧ s.mdimH = 0 ∧ s.mdimW = 0 ∧ irq s = false
    ∧ readValue State.reset 0x00060 4 = 0x00124120 ∧ readValue State.reset 0x00064 4 = 0x01000200

/-- R21: no step changes the configuration, so neither the ROMs nor the layout ever change. -/
def Obligations.ConfigurationNeverChanges : Prop := ∀ s t : State, step s = .next t → t.params = s.params

/-- The invariant holds at reset, in any configuration. -/
def Obligations.InvariantHoldsAtReset : Prop := (∀ p : Params, Inv (State.resetWith p)) ∧ Inv State.reset

/-- Every step of every agent keeps the invariant: flags and error registers agree, the memories keep their canonical
form and stay in their windows, the matrix memory is exactly the current matrix, STATUS.STAGE promises what R31,
R50 and R253 say of the results, and the bits of RES_FMT_A and RES_FMT_B from FMT_W on read 0 (R41). -/
def Obligations.EveryStepKeepsTheInvariant : Prop := ∀ s t : State, Inv s → step s = .next t → Inv t

/-- R253: no cell stays Unset. At stage 5 Data cells are Dark or Light, Structural cells too, and Format cells are
ReservedFormat; at stage 7 every in-range cell is Dark or Light; outside MDIM cells are Outside and Unset. -/
def Obligations.NoCellStaysUnset : Prop :=
  ∀ s : State, Inv s →
    (s.stage = .placed → ∀ r c, insideMatrix s r c →
      ((cellAt s r c).tag = .data ∨ (cellAt s r c).tag = .structural) ∧ darkOrLight (cellAt s r c).colour
        ∨ (cellAt s r c).tag = .format ∧ (cellAt s r c).colour = .reservedFormat) ∧
    (s.stage = .formatted → ∀ r c, insideMatrix s r c → darkOrLight (cellAt s r c).colour) ∧
    (∀ r c, c < 256 → ¬insideMatrix s r c → cellAt s r c = ⟨.outside, .unset⟩)
end

