-- ==== Sys2Proof/Laws/Memory.lean ====
section
/-! SUPPORT. The laws of the indexed memories: a read after a write, and that every operation keeps the
canonical form. -/

namespace Sys2Proof.Laws

open Sys2Proof.Machine

variable {α : Type}

theorem memory_find_insert (m : List (Nat × α)) (a b : Nat) (v : α) :
    Memory.find (Memory.insert m a v) b = if b = a then some v else Memory.find m b := by
  induction m with
  | nil => simp [Memory.insert, Memory.find]
  | cons p m ih =>
    obtain ⟨k, w⟩ := p
    simp only [Memory.insert]
    split
    · simp [Memory.find]
    · split
      · next h => subst h; simp only [Memory.find]; split <;> simp_all
      · simp only [Memory.find, ih]
        split <;> split <;> simp_all

theorem memory_find_filter (m : List (Nat × α)) (q : Nat → Bool) (b : Nat) :
    Memory.find (m.filter fun p => q p.1) b = if q b then Memory.find m b else none := by
  induction m with
  | nil => simp [Memory.find]
  | cons p m ih =>
    obtain ⟨k, w⟩ := p
    by_cases hb : b = k
    · subst hb
      cases hq : q b <;> simp_all [Memory.find]
    · cases hk : q k <;> simp [hk, Memory.find, hb, ih]

theorem memory_find_erase (m : List (Nat × α)) (a b : Nat) :
    Memory.find (Memory.erase m a) b = if b = a then none else Memory.find m b := by
  rw [Memory.erase, memory_find_filter m (fun k => k != a) b]
  by_cases h : b = a <;> simp [h]

theorem memory_find_append (m n : List (Nat × α)) (b : Nat) :
    Memory.find (m ++ n) b = (Memory.find m b).or (Memory.find n b) := by
  induction m with
  | nil => simp [Memory.find]
  | cons p m ih =>
    obtain ⟨k, w⟩ := p
    simp only [List.cons_append, Memory.find, ih]
    split <;> simp

/-- A read after a write gives the value written there, and what was there before elsewhere. -/
theorem memory_read_write [DecidableEq α] (d : α) (m : List (Nat × α)) (a b : Nat) (v : α) :
    Memory.read d (Memory.write d m a v) b = if b = a then v else Memory.read d m b := by
  simp only [Memory.read, Memory.write]
  split
  · next h => rw [memory_find_erase]; split <;> simp_all
  · rw [memory_find_insert]; split <;> simp

theorem memory_sorted_cons (k : Nat) (v : α) (m : List (Nat × α)) :
    Memory.sorted ((k, v) :: m) = true ↔ (∀ p ∈ m, k < p.1) ∧ Memory.sorted m = true := by
  simp [Memory.sorted, List.all_eq_true]

theorem memory_sorted_filter (m : List (Nat × α)) (q : Nat × α → Bool) (h : Memory.sorted m = true) :
    Memory.sorted (m.filter q) = true := by
  induction m with
  | nil => exact h
  | cons p m ih =>
    obtain ⟨k, v⟩ := p
    rw [memory_sorted_cons] at h
    rw [List.filter_cons]
    split
    · exact (memory_sorted_cons _ _ _).mpr ⟨fun p hp => h.1 p (List.mem_of_mem_filter hp), ih h.2⟩
    · exact ih h.2

theorem memory_mem_insert {m : List (Nat × α)} {a : Nat} {v : α} {p : Nat × α} (h : p ∈ Memory.insert m a v) :
    p = (a, v) ∨ p ∈ m := by
  induction m with
  | nil => simpa [Memory.insert] using h
  | cons q m ih =>
    obtain ⟨k, w⟩ := q
    simp only [Memory.insert] at h
    split at h
    · simpa using h
    · split at h
      · simp only [List.mem_cons] at h ⊢; tauto
      · rcases List.mem_cons.mp h with h | h
        · simp [h]
        · rcases ih h with h | h <;> simp [h]

theorem memory_sorted_insert (m : List (Nat × α)) (a : Nat) (v : α) (h : Memory.sorted m = true) :
    Memory.sorted (Memory.insert m a v) = true := by
  induction m with
  | nil => rfl
  | cons q m ih =>
    obtain ⟨k, w⟩ := q
    rw [memory_sorted_cons] at h
    simp only [Memory.insert]
    split
    · next hk =>
      refine (memory_sorted_cons _ _ _).mpr ⟨fun p hp => ?_, (memory_sorted_cons _ _ _).mpr h⟩
      rcases List.mem_cons.mp hp with rfl | hp
      · exact hk
      · exact hk.trans (h.1 p hp)
    · split
      · next hk => subst hk; exact (memory_sorted_cons _ _ _).mpr h
      · refine (memory_sorted_cons _ _ _).mpr ⟨fun p hp => ?_, ih h.2⟩
        rcases memory_mem_insert hp with rfl | hp
        · show k < a; omega
        · exact h.1 p hp

theorem memory_wf_iff [DecidableEq α] (d : α) (m : List (Nat × α)) :
    Memory.wf d m = true ↔ Memory.sorted m = true ∧ ∀ p ∈ m, p.2 ≠ d := by
  simp [Memory.wf, List.all_eq_true]

/-- A write keeps the canonical form. -/
theorem memory_wf_write [DecidableEq α] (d : α) (m : List (Nat × α)) (a : Nat) (v : α) (h : Memory.wf d m = true) :
    Memory.wf d (Memory.write d m a v) = true := by
  rw [memory_wf_iff] at h ⊢
  rw [Memory.write]
  split
  · exact ⟨memory_sorted_filter _ _ h.1, fun p hp => h.2 p (List.mem_of_mem_filter hp)⟩
  · next hv =>
    refine ⟨memory_sorted_insert _ _ _ h.1, fun p hp => ?_⟩
    rcases memory_mem_insert hp with rfl | hp
    · exact hv
    · exact h.2 p hp

/-- Dropping entries keeps the canonical form. -/
theorem memory_wf_filter [DecidableEq α] (d : α) (m : List (Nat × α)) (q : Nat × α → Bool)
    (h : Memory.wf d m = true) : Memory.wf d (m.filter q) = true := by
  rw [memory_wf_iff] at h ⊢
  exact ⟨memory_sorted_filter _ _ h.1, fun p hp => h.2 p (List.mem_of_mem_filter hp)⟩

theorem memory_find_none {m : List (Nat × α)} {a : Nat} (h : ∀ p ∈ m, p.1 ≠ a) : Memory.find m a = none := by
  induction m with
  | nil => rfl
  | cons p m ih =>
    obtain ⟨k, v⟩ := p
    have hk : a ≠ k := fun e => h (k, v) (by simp) e.symm
    simp only [Memory.find, hk, if_false]
    exact ih fun p hp => h p (List.mem_cons_of_mem _ hp)

theorem memory_find_mem {m : List (Nat × α)} {a : Nat} {v : α} (h : Memory.find m a = some v) : (a, v) ∈ m := by
  induction m with
  | nil => simp [Memory.find] at h
  | cons p m ih =>
    obtain ⟨k, w⟩ := p
    simp only [Memory.find] at h
    split at h
    · next hk => simp_all
    · exact List.mem_cons_of_mem _ (ih h)

/-- In a canonical memory every entry is what a read finds. -/
theorem memory_find_of_mem {m : List (Nat × α)} {a : Nat} {v : α} (hs : Memory.sorted m = true) (h : (a, v) ∈ m) :
    Memory.find m a = some v := by
  induction m with
  | nil => simp at h
  | cons p m ih =>
    obtain ⟨k, w⟩ := p
    rw [memory_sorted_cons] at hs
    rcases List.mem_cons.mp h with h | h
    · simp only [Prod.mk.injEq] at h
      simp [Memory.find, h]
    · have hk : k < a := hs.1 _ h
      simp only [Memory.find, show a ≠ k by omega, if_false]
      exact ih hs.2 h

/-- Two canonical memories that read the same everywhere are the same list. -/
theorem memory_ext [DecidableEq α] (d : α) {m n : List (Nat × α)} (hm : Memory.wf d m = true)
    (hn : Memory.wf d n = true) (h : ∀ a, Memory.read d m a = Memory.read d n a) : m = n := by
  induction m generalizing n with
  | nil =>
    cases n with
    | nil => rfl
    | cons p n =>
      rw [memory_wf_iff] at hn
      have := h p.1
      simp [Memory.read, Memory.find] at this
      exact absurd this.symm (hn.2 p (by simp))
  | cons p m ih =>
    cases n with
    | nil =>
      rw [memory_wf_iff] at hm
      have := h p.1
      simp [Memory.read, Memory.find] at this
      exact absurd this (hm.2 p (by simp))
    | cons q n =>
      obtain ⟨k, v⟩ := p
      obtain ⟨l, w⟩ := q
      rw [memory_wf_iff] at hm hn
      rw [memory_sorted_cons] at hm hn
      have key : ∀ {k l : Nat} {v w : α} {m n : List (Nat × α)}, v ≠ d → (∀ p ∈ n, l < p.1) →
          Memory.read d ((k, v) :: m) k = Memory.read d ((l, w) :: n) k → ¬ k < l := by
        intro k l v w m n hv hn he hlt
        have hnone : Memory.find n k = none := memory_find_none fun p hp => by have := hn p hp; omega
        simp [Memory.read, Memory.find, show k ≠ l by omega, hnone] at he
        exact hv he
      have h1 := key (hm.2 (k, v) (by simp)) hn.1.1 (h k)
      have h2 := key (hn.2 (l, w) (by simp)) hm.1.1 (h l).symm
      have hkl : k = l := by omega
      subst hkl
      have hvw : v = w := by simpa [Memory.read, Memory.find] using h k
      subst hvw
      congr 1
      refine ih ?_ ?_ ?_
      · exact (memory_wf_iff d m).mpr ⟨hm.1.2, fun p hp => hm.2 p (List.mem_cons_of_mem _ hp)⟩
      · exact (memory_wf_iff d n).mpr ⟨hn.1.2, fun p hp => hn.2 p (List.mem_cons_of_mem _ hp)⟩
      · intro a
        by_cases ha : a = k
        · subst ha
          have e1 : Memory.find m a = none := memory_find_none fun p hp => by have := hm.1.1 p hp; omega
          have e2 : Memory.find n a = none := memory_find_none fun p hp => by have := hn.1.1 p hp; omega
          simp [Memory.read, e1, e2]
        · simpa [Memory.read, Memory.find, ha] using h a

end Sys2Proof.Laws
end

