-- ==== Sys2Proof/Laws/State.lean ====
section
/-! SUPPORT. One lemma per field per state update: what each named update changes of the state and what it leaves.
No later proof unfolds a record update. -/

namespace Sys2Proof.Laws

open Sys2Proof.Machine

variable (s : State)

@[simp] theorem setCwByte_params (i : Nat) (v : Byte) : (setCwByte s i v).params = s.params := rfl
@[simp] theorem setCwByte_pend (i : Nat) (v : Byte) : (setCwByte s i v).pend = s.pend := rfl
@[simp] theorem setCwByte_done (i : Nat) (v : Byte) : (setCwByte s i v).done = s.done := rfl
@[simp] theorem setCwByte_error (i : Nat) (v : Byte) : (setCwByte s i v).error = s.error := rfl
@[simp] theorem setCwByte_busErr (i : Nat) (v : Byte) : (setCwByte s i v).busErr = s.busErr := rfl
@[simp] theorem setCwByte_wrBusy (i : Nat) (v : Byte) : (setCwByte s i v).wrBusy = s.wrBusy := rfl
@[simp] theorem setCwByte_stage (i : Nat) (v : Byte) : (setCwByte s i v).stage = s.stage := rfl
@[simp] theorem setCwByte_config (i : Nat) (v : Byte) : (setCwByte s i v).config = s.config := rfl
@[simp] theorem setCwByte_plen (i : Nat) (v : Byte) : (setCwByte s i v).plen = s.plen := rfl
@[simp] theorem setCwByte_errKind (i : Nat) (v : Byte) : (setCwByte s i v).errKind = s.errKind := rfl
@[simp] theorem setCwByte_errOpc (i : Nat) (v : Byte) : (setCwByte s i v).errOpc = s.errOpc := rfl
@[simp] theorem setCwByte_errExp (i : Nat) (v : Byte) : (setCwByte s i v).errExp = s.errExp := rfl
@[simp] theorem setCwByte_errAct (i : Nat) (v : Byte) : (setCwByte s i v).errAct = s.errAct := rfl
@[simp] theorem setCwByte_viSel (i : Nat) (v : Byte) : (setCwByte s i v).viSel = s.viSel := rfl
@[simp] theorem setCwByte_eclSel (i : Nat) (v : Byte) : (setCwByte s i v).eclSel = s.eclSel := rfl
@[simp] theorem setCwByte_resH (i : Nat) (v : Byte) : (setCwByte s i v).resH = s.resH := rfl
@[simp] theorem setCwByte_resW (i : Nat) (v : Byte) : (setCwByte s i v).resW = s.resW := rfl
@[simp] theorem setCwByte_resBits (i : Nat) (v : Byte) : (setCwByte s i v).resBits = s.resBits := rfl
@[simp] theorem setCwByte_resCw (i : Nat) (v : Byte) : (setCwByte s i v).resCw = s.resCw := rfl
@[simp] theorem setCwByte_resMask (i : Nat) (v : Byte) : (setCwByte s i v).resMask = s.resMask := rfl
@[simp] theorem setCwByte_resFmtA (i : Nat) (v : Byte) : (setCwByte s i v).resFmtA = s.resFmtA := rfl
@[simp] theorem setCwByte_resFmtB (i : Nat) (v : Byte) : (setCwByte s i v).resFmtB = s.resFmtB := rfl
@[simp] theorem setCwByte_gfResult (i : Nat) (v : Byte) : (setCwByte s i v).gfResult = s.gfResult := rfl
@[simp] theorem setCwByte_nseg (i : Nat) (v : Byte) : (setCwByte s i v).nseg = s.nseg := rfl
@[simp] theorem setCwByte_penalty (i : Nat) (v : Byte) : (setCwByte s i v).penalty = s.penalty := rfl
@[simp] theorem setCwByte_segtab (i : Nat) (v : Byte) : (setCwByte s i v).segtab = s.segtab := rfl
@[simp] theorem setCwByte_segFree (i : Nat) (v : Byte) : (setCwByte s i v).segFree = s.segFree := rfl
@[simp] theorem setCwByte_pbuf (i : Nat) (v : Byte) : (setCwByte s i v).pbuf = s.pbuf := rfl
@[simp] theorem setCwByte_cells (i : Nat) (v : Byte) : (setCwByte s i v).cells = s.cells := rfl
@[simp] theorem setCwByte_mdimH (i : Nat) (v : Byte) : (setCwByte s i v).mdimH = s.mdimH := rfl
@[simp] theorem setCwByte_mdimW (i : Nat) (v : Byte) : (setCwByte s i v).mdimW = s.mdimW := rfl
@[simp] theorem setCwByte_host (i : Nat) (v : Byte) : (setCwByte s i v).host = s.host := rfl
@[simp] theorem setCwByte_reads (i : Nat) (v : Byte) : (setCwByte s i v).reads = s.reads := rfl
@[simp] theorem setCwByte_turns (i : Nat) (v : Byte) : (setCwByte s i v).turns = s.turns := rfl
@[simp] theorem setCwByte_draws (i : Nat) (v : Byte) : (setCwByte s i v).draws = s.draws := rfl

@[simp] theorem setSegEntry_params (i : Nat) (e : SegEntry) : (setSegEntry s i e).params = s.params := rfl
@[simp] theorem setSegEntry_pend (i : Nat) (e : SegEntry) : (setSegEntry s i e).pend = s.pend := rfl
@[simp] theorem setSegEntry_done (i : Nat) (e : SegEntry) : (setSegEntry s i e).done = s.done := rfl
@[simp] theorem setSegEntry_error (i : Nat) (e : SegEntry) : (setSegEntry s i e).error = s.error := rfl
@[simp] theorem setSegEntry_busErr (i : Nat) (e : SegEntry) : (setSegEntry s i e).busErr = s.busErr := rfl
@[simp] theorem setSegEntry_wrBusy (i : Nat) (e : SegEntry) : (setSegEntry s i e).wrBusy = s.wrBusy := rfl
@[simp] theorem setSegEntry_stage (i : Nat) (e : SegEntry) : (setSegEntry s i e).stage = s.stage := rfl
@[simp] theorem setSegEntry_config (i : Nat) (e : SegEntry) : (setSegEntry s i e).config = s.config := rfl
@[simp] theorem setSegEntry_plen (i : Nat) (e : SegEntry) : (setSegEntry s i e).plen = s.plen := rfl
@[simp] theorem setSegEntry_errKind (i : Nat) (e : SegEntry) : (setSegEntry s i e).errKind = s.errKind := rfl
@[simp] theorem setSegEntry_errOpc (i : Nat) (e : SegEntry) : (setSegEntry s i e).errOpc = s.errOpc := rfl
@[simp] theorem setSegEntry_errExp (i : Nat) (e : SegEntry) : (setSegEntry s i e).errExp = s.errExp := rfl
@[simp] theorem setSegEntry_errAct (i : Nat) (e : SegEntry) : (setSegEntry s i e).errAct = s.errAct := rfl
@[simp] theorem setSegEntry_viSel (i : Nat) (e : SegEntry) : (setSegEntry s i e).viSel = s.viSel := rfl
@[simp] theorem setSegEntry_eclSel (i : Nat) (e : SegEntry) : (setSegEntry s i e).eclSel = s.eclSel := rfl
@[simp] theorem setSegEntry_resH (i : Nat) (e : SegEntry) : (setSegEntry s i e).resH = s.resH := rfl
@[simp] theorem setSegEntry_resW (i : Nat) (e : SegEntry) : (setSegEntry s i e).resW = s.resW := rfl
@[simp] theorem setSegEntry_resBits (i : Nat) (e : SegEntry) : (setSegEntry s i e).resBits = s.resBits := rfl
@[simp] theorem setSegEntry_resCw (i : Nat) (e : SegEntry) : (setSegEntry s i e).resCw = s.resCw := rfl
@[simp] theorem setSegEntry_resMask (i : Nat) (e : SegEntry) : (setSegEntry s i e).resMask = s.resMask := rfl
@[simp] theorem setSegEntry_resFmtA (i : Nat) (e : SegEntry) : (setSegEntry s i e).resFmtA = s.resFmtA := rfl
@[simp] theorem setSegEntry_resFmtB (i : Nat) (e : SegEntry) : (setSegEntry s i e).resFmtB = s.resFmtB := rfl
@[simp] theorem setSegEntry_gfResult (i : Nat) (e : SegEntry) : (setSegEntry s i e).gfResult = s.gfResult := rfl
@[simp] theorem setSegEntry_nseg (i : Nat) (e : SegEntry) : (setSegEntry s i e).nseg = s.nseg := rfl
@[simp] theorem setSegEntry_penalty (i : Nat) (e : SegEntry) : (setSegEntry s i e).penalty = s.penalty := rfl
@[simp] theorem setSegEntry_pbuf (i : Nat) (e : SegEntry) : (setSegEntry s i e).pbuf = s.pbuf := rfl
@[simp] theorem setSegEntry_cwbuf (i : Nat) (e : SegEntry) : (setSegEntry s i e).cwbuf = s.cwbuf := rfl
@[simp] theorem setSegEntry_cwFree (i : Nat) (e : SegEntry) : (setSegEntry s i e).cwFree = s.cwFree := rfl
@[simp] theorem setSegEntry_cells (i : Nat) (e : SegEntry) : (setSegEntry s i e).cells = s.cells := rfl
@[simp] theorem setSegEntry_mdimH (i : Nat) (e : SegEntry) : (setSegEntry s i e).mdimH = s.mdimH := rfl
@[simp] theorem setSegEntry_mdimW (i : Nat) (e : SegEntry) : (setSegEntry s i e).mdimW = s.mdimW := rfl
@[simp] theorem setSegEntry_host (i : Nat) (e : SegEntry) : (setSegEntry s i e).host = s.host := rfl
@[simp] theorem setSegEntry_reads (i : Nat) (e : SegEntry) : (setSegEntry s i e).reads = s.reads := rfl
@[simp] theorem setSegEntry_turns (i : Nat) (e : SegEntry) : (setSegEntry s i e).turns = s.turns := rfl
@[simp] theorem setSegEntry_draws (i : Nat) (e : SegEntry) : (setSegEntry s i e).draws = s.draws := rfl

@[simp] theorem setColour_params (r c : Nat) (k : Colour) : (setColour s r c k).params = s.params := rfl
@[simp] theorem setColour_pend (r c : Nat) (k : Colour) : (setColour s r c k).pend = s.pend := rfl
@[simp] theorem setColour_done (r c : Nat) (k : Colour) : (setColour s r c k).done = s.done := rfl
@[simp] theorem setColour_error (r c : Nat) (k : Colour) : (setColour s r c k).error = s.error := rfl
@[simp] theorem setColour_busErr (r c : Nat) (k : Colour) : (setColour s r c k).busErr = s.busErr := rfl
@[simp] theorem setColour_wrBusy (r c : Nat) (k : Colour) : (setColour s r c k).wrBusy = s.wrBusy := rfl
@[simp] theorem setColour_stage (r c : Nat) (k : Colour) : (setColour s r c k).stage = s.stage := rfl
@[simp] theorem setColour_config (r c : Nat) (k : Colour) : (setColour s r c k).config = s.config := rfl
@[simp] theorem setColour_plen (r c : Nat) (k : Colour) : (setColour s r c k).plen = s.plen := rfl
@[simp] theorem setColour_errKind (r c : Nat) (k : Colour) : (setColour s r c k).errKind = s.errKind := rfl
@[simp] theorem setColour_errOpc (r c : Nat) (k : Colour) : (setColour s r c k).errOpc = s.errOpc := rfl
@[simp] theorem setColour_errExp (r c : Nat) (k : Colour) : (setColour s r c k).errExp = s.errExp := rfl
@[simp] theorem setColour_errAct (r c : Nat) (k : Colour) : (setColour s r c k).errAct = s.errAct := rfl
@[simp] theorem setColour_viSel (r c : Nat) (k : Colour) : (setColour s r c k).viSel = s.viSel := rfl
@[simp] theorem setColour_eclSel (r c : Nat) (k : Colour) : (setColour s r c k).eclSel = s.eclSel := rfl
@[simp] theorem setColour_resH (r c : Nat) (k : Colour) : (setColour s r c k).resH = s.resH := rfl
@[simp] theorem setColour_resW (r c : Nat) (k : Colour) : (setColour s r c k).resW = s.resW := rfl
@[simp] theorem setColour_resBits (r c : Nat) (k : Colour) : (setColour s r c k).resBits = s.resBits := rfl
@[simp] theorem setColour_resCw (r c : Nat) (k : Colour) : (setColour s r c k).resCw = s.resCw := rfl
@[simp] theorem setColour_resMask (r c : Nat) (k : Colour) : (setColour s r c k).resMask = s.resMask := rfl
@[simp] theorem setColour_resFmtA (r c : Nat) (k : Colour) : (setColour s r c k).resFmtA = s.resFmtA := rfl
@[simp] theorem setColour_resFmtB (r c : Nat) (k : Colour) : (setColour s r c k).resFmtB = s.resFmtB := rfl
@[simp] theorem setColour_gfResult (r c : Nat) (k : Colour) : (setColour s r c k).gfResult = s.gfResult := rfl
@[simp] theorem setColour_nseg (r c : Nat) (k : Colour) : (setColour s r c k).nseg = s.nseg := rfl
@[simp] theorem setColour_penalty (r c : Nat) (k : Colour) : (setColour s r c k).penalty = s.penalty := rfl
@[simp] theorem setColour_segtab (r c : Nat) (k : Colour) : (setColour s r c k).segtab = s.segtab := rfl
@[simp] theorem setColour_segFree (r c : Nat) (k : Colour) : (setColour s r c k).segFree = s.segFree := rfl
@[simp] theorem setColour_pbuf (r c : Nat) (k : Colour) : (setColour s r c k).pbuf = s.pbuf := rfl
@[simp] theorem setColour_cwbuf (r c : Nat) (k : Colour) : (setColour s r c k).cwbuf = s.cwbuf := rfl
@[simp] theorem setColour_cwFree (r c : Nat) (k : Colour) : (setColour s r c k).cwFree = s.cwFree := rfl
@[simp] theorem setColour_mdimH (r c : Nat) (k : Colour) : (setColour s r c k).mdimH = s.mdimH := rfl
@[simp] theorem setColour_mdimW (r c : Nat) (k : Colour) : (setColour s r c k).mdimW = s.mdimW := rfl
@[simp] theorem setColour_host (r c : Nat) (k : Colour) : (setColour s r c k).host = s.host := rfl
@[simp] theorem setColour_reads (r c : Nat) (k : Colour) : (setColour s r c k).reads = s.reads := rfl
@[simp] theorem setColour_turns (r c : Nat) (k : Colour) : (setColour s r c k).turns = s.turns := rfl
@[simp] theorem setColour_draws (r c : Nat) (k : Colour) : (setColour s r c k).draws = s.draws := rfl

@[simp] theorem retire_params : (retire s).params = s.params := rfl
@[simp] theorem retire_pend : (retire s).pend = none := rfl
@[simp] theorem retire_done : (retire s).done = s.done := rfl
@[simp] theorem retire_error : (retire s).error = s.error := rfl
@[simp] theorem retire_busErr : (retire s).busErr = s.busErr := rfl
@[simp] theorem retire_wrBusy : (retire s).wrBusy = s.wrBusy := rfl
@[simp] theorem retire_stage : (retire s).stage = s.stage := rfl
@[simp] theorem retire_config : (retire s).config = s.config := rfl
@[simp] theorem retire_plen : (retire s).plen = s.plen := rfl
@[simp] theorem retire_errKind : (retire s).errKind = s.errKind := rfl
@[simp] theorem retire_errOpc : (retire s).errOpc = s.errOpc := rfl
@[simp] theorem retire_errExp : (retire s).errExp = s.errExp := rfl
@[simp] theorem retire_errAct : (retire s).errAct = s.errAct := rfl
@[simp] theorem retire_viSel : (retire s).viSel = s.viSel := rfl
@[simp] theorem retire_eclSel : (retire s).eclSel = s.eclSel := rfl
@[simp] theorem retire_resH : (retire s).resH = s.resH := rfl
@[simp] theorem retire_resW : (retire s).resW = s.resW := rfl
@[simp] theorem retire_resBits : (retire s).resBits = s.resBits := rfl
@[simp] theorem retire_resCw : (retire s).resCw = s.resCw := rfl
@[simp] theorem retire_resMask : (retire s).resMask = s.resMask := rfl
@[simp] theorem retire_resFmtA : (retire s).resFmtA = s.resFmtA := rfl
@[simp] theorem retire_resFmtB : (retire s).resFmtB = s.resFmtB := rfl
@[simp] theorem retire_gfResult : (retire s).gfResult = s.gfResult := rfl
@[simp] theorem retire_nseg : (retire s).nseg = s.nseg := rfl
@[simp] theorem retire_penalty : (retire s).penalty = s.penalty := rfl
@[simp] theorem retire_segtab : (retire s).segtab = s.segtab := rfl
@[simp] theorem retire_segFree : (retire s).segFree = s.segFree := rfl
@[simp] theorem retire_pbuf : (retire s).pbuf = s.pbuf := rfl
@[simp] theorem retire_cwbuf : (retire s).cwbuf = s.cwbuf := rfl
@[simp] theorem retire_cwFree : (retire s).cwFree = s.cwFree := rfl
@[simp] theorem retire_cells : (retire s).cells = s.cells := rfl
@[simp] theorem retire_mdimH : (retire s).mdimH = s.mdimH := rfl
@[simp] theorem retire_mdimW : (retire s).mdimW = s.mdimW := rfl
@[simp] theorem retire_host : (retire s).host = s.host := rfl
@[simp] theorem retire_reads : (retire s).reads = s.reads := rfl
@[simp] theorem retire_turns : (retire s).turns = s.turns := rfl
@[simp] theorem retire_draws : (retire s).draws = s.draws := rfl

@[simp] theorem succeed_params : (succeed s).params = s.params := rfl
@[simp] theorem succeed_pend : (succeed s).pend = none := rfl
@[simp] theorem succeed_done : (succeed s).done = true := rfl
@[simp] theorem succeed_error : (succeed s).error = s.error := rfl
@[simp] theorem succeed_busErr : (succeed s).busErr = s.busErr := rfl
@[simp] theorem succeed_wrBusy : (succeed s).wrBusy = s.wrBusy := rfl
@[simp] theorem succeed_stage : (succeed s).stage = s.stage := rfl
@[simp] theorem succeed_config : (succeed s).config = s.config := rfl
@[simp] theorem succeed_plen : (succeed s).plen = s.plen := rfl
@[simp] theorem succeed_errKind : (succeed s).errKind = s.errKind := rfl
@[simp] theorem succeed_errOpc : (succeed s).errOpc = s.errOpc := rfl
@[simp] theorem succeed_errExp : (succeed s).errExp = s.errExp := rfl
@[simp] theorem succeed_errAct : (succeed s).errAct = s.errAct := rfl
@[simp] theorem succeed_viSel : (succeed s).viSel = s.viSel := rfl
@[simp] theorem succeed_eclSel : (succeed s).eclSel = s.eclSel := rfl
@[simp] theorem succeed_resH : (succeed s).resH = s.resH := rfl
@[simp] theorem succeed_resW : (succeed s).resW = s.resW := rfl
@[simp] theorem succeed_resBits : (succeed s).resBits = s.resBits := rfl
@[simp] theorem succeed_resCw : (succeed s).resCw = s.resCw := rfl
@[simp] theorem succeed_resMask : (succeed s).resMask = s.resMask := rfl
@[simp] theorem succeed_resFmtA : (succeed s).resFmtA = s.resFmtA := rfl
@[simp] theorem succeed_resFmtB : (succeed s).resFmtB = s.resFmtB := rfl
@[simp] theorem succeed_gfResult : (succeed s).gfResult = s.gfResult := rfl
@[simp] theorem succeed_nseg : (succeed s).nseg = s.nseg := rfl
@[simp] theorem succeed_penalty : (succeed s).penalty = s.penalty := rfl
@[simp] theorem succeed_segtab : (succeed s).segtab = s.segtab := rfl
@[simp] theorem succeed_segFree : (succeed s).segFree = s.segFree := rfl
@[simp] theorem succeed_pbuf : (succeed s).pbuf = s.pbuf := rfl
@[simp] theorem succeed_cwbuf : (succeed s).cwbuf = s.cwbuf := rfl
@[simp] theorem succeed_cwFree : (succeed s).cwFree = s.cwFree := rfl
@[simp] theorem succeed_cells : (succeed s).cells = s.cells := rfl
@[simp] theorem succeed_mdimH : (succeed s).mdimH = s.mdimH := rfl
@[simp] theorem succeed_mdimW : (succeed s).mdimW = s.mdimW := rfl
@[simp] theorem succeed_host : (succeed s).host = s.host := rfl
@[simp] theorem succeed_reads : (succeed s).reads = s.reads := rfl
@[simp] theorem succeed_turns : (succeed s).turns = s.turns := rfl
@[simp] theorem succeed_draws : (succeed s).draws = s.draws := rfl

@[simp] theorem issue_params (w : Word) : (issue w s).params = s.params := rfl
@[simp] theorem issue_pend (w : Word) : (issue w s).pend = some w := rfl
@[simp] theorem issue_done (w : Word) : (issue w s).done = false := rfl
@[simp] theorem issue_error (w : Word) : (issue w s).error = s.error := rfl
@[simp] theorem issue_busErr (w : Word) : (issue w s).busErr = s.busErr := rfl
@[simp] theorem issue_wrBusy (w : Word) : (issue w s).wrBusy = s.wrBusy := rfl
@[simp] theorem issue_stage (w : Word) : (issue w s).stage = s.stage := rfl
@[simp] theorem issue_config (w : Word) : (issue w s).config = s.config := rfl
@[simp] theorem issue_plen (w : Word) : (issue w s).plen = s.plen := rfl
@[simp] theorem issue_errKind (w : Word) : (issue w s).errKind = s.errKind := rfl
@[simp] theorem issue_errOpc (w : Word) : (issue w s).errOpc = s.errOpc := rfl
@[simp] theorem issue_errExp (w : Word) : (issue w s).errExp = s.errExp := rfl
@[simp] theorem issue_errAct (w : Word) : (issue w s).errAct = s.errAct := rfl
@[simp] theorem issue_viSel (w : Word) : (issue w s).viSel = s.viSel := rfl
@[simp] theorem issue_eclSel (w : Word) : (issue w s).eclSel = s.eclSel := rfl
@[simp] theorem issue_resH (w : Word) : (issue w s).resH = s.resH := rfl
@[simp] theorem issue_resW (w : Word) : (issue w s).resW = s.resW := rfl
@[simp] theorem issue_resBits (w : Word) : (issue w s).resBits = s.resBits := rfl
@[simp] theorem issue_resCw (w : Word) : (issue w s).resCw = s.resCw := rfl
@[simp] theorem issue_resMask (w : Word) : (issue w s).resMask = s.resMask := rfl
@[simp] theorem issue_resFmtA (w : Word) : (issue w s).resFmtA = s.resFmtA := rfl
@[simp] theorem issue_resFmtB (w : Word) : (issue w s).resFmtB = s.resFmtB := rfl
@[simp] theorem issue_gfResult (w : Word) : (issue w s).gfResult = s.gfResult := rfl
@[simp] theorem issue_nseg (w : Word) : (issue w s).nseg = s.nseg := rfl
@[simp] theorem issue_penalty (w : Word) : (issue w s).penalty = s.penalty := rfl
@[simp] theorem issue_segtab (w : Word) : (issue w s).segtab = s.segtab := rfl
@[simp] theorem issue_segFree (w : Word) : (issue w s).segFree = s.segFree := rfl
@[simp] theorem issue_pbuf (w : Word) : (issue w s).pbuf = s.pbuf := rfl
@[simp] theorem issue_cwbuf (w : Word) : (issue w s).cwbuf = s.cwbuf := rfl
@[simp] theorem issue_cwFree (w : Word) : (issue w s).cwFree = s.cwFree := rfl
@[simp] theorem issue_cells (w : Word) : (issue w s).cells = s.cells := rfl
@[simp] theorem issue_mdimH (w : Word) : (issue w s).mdimH = s.mdimH := rfl
@[simp] theorem issue_mdimW (w : Word) : (issue w s).mdimW = s.mdimW := rfl
@[simp] theorem issue_host (w : Word) : (issue w s).host = s.host := rfl
@[simp] theorem issue_reads (w : Word) : (issue w s).reads = s.reads := rfl
@[simp] theorem issue_turns (w : Word) : (issue w s).turns = s.turns := rfl
@[simp] theorem issue_draws (w : Word) : (issue w s).draws = s.draws := rfl

@[simp] theorem useTurn_params : (useTurn s).params = s.params := rfl
@[simp] theorem useTurn_pend : (useTurn s).pend = s.pend := rfl
@[simp] theorem useTurn_done : (useTurn s).done = s.done := rfl
@[simp] theorem useTurn_error : (useTurn s).error = s.error := rfl
@[simp] theorem useTurn_busErr : (useTurn s).busErr = s.busErr := rfl
@[simp] theorem useTurn_wrBusy : (useTurn s).wrBusy = s.wrBusy := rfl
@[simp] theorem useTurn_stage : (useTurn s).stage = s.stage := rfl
@[simp] theorem useTurn_config : (useTurn s).config = s.config := rfl
@[simp] theorem useTurn_plen : (useTurn s).plen = s.plen := rfl
@[simp] theorem useTurn_errKind : (useTurn s).errKind = s.errKind := rfl
@[simp] theorem useTurn_errOpc : (useTurn s).errOpc = s.errOpc := rfl
@[simp] theorem useTurn_errExp : (useTurn s).errExp = s.errExp := rfl
@[simp] theorem useTurn_errAct : (useTurn s).errAct = s.errAct := rfl
@[simp] theorem useTurn_viSel : (useTurn s).viSel = s.viSel := rfl
@[simp] theorem useTurn_eclSel : (useTurn s).eclSel = s.eclSel := rfl
@[simp] theorem useTurn_resH : (useTurn s).resH = s.resH := rfl
@[simp] theorem useTurn_resW : (useTurn s).resW = s.resW := rfl
@[simp] theorem useTurn_resBits : (useTurn s).resBits = s.resBits := rfl
@[simp] theorem useTurn_resCw : (useTurn s).resCw = s.resCw := rfl
@[simp] theorem useTurn_resMask : (useTurn s).resMask = s.resMask := rfl
@[simp] theorem useTurn_resFmtA : (useTurn s).resFmtA = s.resFmtA := rfl
@[simp] theorem useTurn_resFmtB : (useTurn s).resFmtB = s.resFmtB := rfl
@[simp] theorem useTurn_gfResult : (useTurn s).gfResult = s.gfResult := rfl
@[simp] theorem useTurn_nseg : (useTurn s).nseg = s.nseg := rfl
@[simp] theorem useTurn_penalty : (useTurn s).penalty = s.penalty := rfl
@[simp] theorem useTurn_segtab : (useTurn s).segtab = s.segtab := rfl
@[simp] theorem useTurn_segFree : (useTurn s).segFree = s.segFree := rfl
@[simp] theorem useTurn_pbuf : (useTurn s).pbuf = s.pbuf := rfl
@[simp] theorem useTurn_cwbuf : (useTurn s).cwbuf = s.cwbuf := rfl
@[simp] theorem useTurn_cwFree : (useTurn s).cwFree = s.cwFree := rfl
@[simp] theorem useTurn_cells : (useTurn s).cells = s.cells := rfl
@[simp] theorem useTurn_mdimH : (useTurn s).mdimH = s.mdimH := rfl
@[simp] theorem useTurn_mdimW : (useTurn s).mdimW = s.mdimW := rfl
@[simp] theorem useTurn_host : (useTurn s).host = s.host := rfl
@[simp] theorem useTurn_reads : (useTurn s).reads = s.reads := rfl
@[simp] theorem useTurn_turns : (useTurn s).turns = s.turns.tail := rfl
@[simp] theorem useTurn_draws : (useTurn s).draws = s.draws := rfl

@[simp] theorem freeCwBytes_params (n : Nat) : (freeCwBytes s n).params = s.params := rfl
@[simp] theorem freeCwBytes_pend (n : Nat) : (freeCwBytes s n).pend = s.pend := rfl
@[simp] theorem freeCwBytes_done (n : Nat) : (freeCwBytes s n).done = s.done := rfl
@[simp] theorem freeCwBytes_error (n : Nat) : (freeCwBytes s n).error = s.error := rfl
@[simp] theorem freeCwBytes_busErr (n : Nat) : (freeCwBytes s n).busErr = s.busErr := rfl
@[simp] theorem freeCwBytes_wrBusy (n : Nat) : (freeCwBytes s n).wrBusy = s.wrBusy := rfl
@[simp] theorem freeCwBytes_stage (n : Nat) : (freeCwBytes s n).stage = s.stage := rfl
@[simp] theorem freeCwBytes_config (n : Nat) : (freeCwBytes s n).config = s.config := rfl
@[simp] theorem freeCwBytes_plen (n : Nat) : (freeCwBytes s n).plen = s.plen := rfl
@[simp] theorem freeCwBytes_errKind (n : Nat) : (freeCwBytes s n).errKind = s.errKind := rfl
@[simp] theorem freeCwBytes_errOpc (n : Nat) : (freeCwBytes s n).errOpc = s.errOpc := rfl
@[simp] theorem freeCwBytes_errExp (n : Nat) : (freeCwBytes s n).errExp = s.errExp := rfl
@[simp] theorem freeCwBytes_errAct (n : Nat) : (freeCwBytes s n).errAct = s.errAct := rfl
@[simp] theorem freeCwBytes_viSel (n : Nat) : (freeCwBytes s n).viSel = s.viSel := rfl
@[simp] theorem freeCwBytes_eclSel (n : Nat) : (freeCwBytes s n).eclSel = s.eclSel := rfl
@[simp] theorem freeCwBytes_resH (n : Nat) : (freeCwBytes s n).resH = s.resH := rfl
@[simp] theorem freeCwBytes_resW (n : Nat) : (freeCwBytes s n).resW = s.resW := rfl
@[simp] theorem freeCwBytes_resBits (n : Nat) : (freeCwBytes s n).resBits = s.resBits := rfl
@[simp] theorem freeCwBytes_resCw (n : Nat) : (freeCwBytes s n).resCw = s.resCw := rfl
@[simp] theorem freeCwBytes_resMask (n : Nat) : (freeCwBytes s n).resMask = s.resMask := rfl
@[simp] theorem freeCwBytes_resFmtA (n : Nat) : (freeCwBytes s n).resFmtA = s.resFmtA := rfl
@[simp] theorem freeCwBytes_resFmtB (n : Nat) : (freeCwBytes s n).resFmtB = s.resFmtB := rfl
@[simp] theorem freeCwBytes_gfResult (n : Nat) : (freeCwBytes s n).gfResult = s.gfResult := rfl
@[simp] theorem freeCwBytes_nseg (n : Nat) : (freeCwBytes s n).nseg = s.nseg := rfl
@[simp] theorem freeCwBytes_penalty (n : Nat) : (freeCwBytes s n).penalty = s.penalty := rfl
@[simp] theorem freeCwBytes_segtab (n : Nat) : (freeCwBytes s n).segtab = s.segtab := rfl
@[simp] theorem freeCwBytes_segFree (n : Nat) : (freeCwBytes s n).segFree = s.segFree := rfl
@[simp] theorem freeCwBytes_pbuf (n : Nat) : (freeCwBytes s n).pbuf = s.pbuf := rfl
@[simp] theorem freeCwBytes_cells (n : Nat) : (freeCwBytes s n).cells = s.cells := rfl
@[simp] theorem freeCwBytes_mdimH (n : Nat) : (freeCwBytes s n).mdimH = s.mdimH := rfl
@[simp] theorem freeCwBytes_mdimW (n : Nat) : (freeCwBytes s n).mdimW = s.mdimW := rfl
@[simp] theorem freeCwBytes_host (n : Nat) : (freeCwBytes s n).host = s.host := rfl
@[simp] theorem freeCwBytes_reads (n : Nat) : (freeCwBytes s n).reads = s.reads := rfl
@[simp] theorem freeCwBytes_turns (n : Nat) : (freeCwBytes s n).turns = s.turns := rfl
@[simp] theorem freeCwBytes_draws (n : Nat) : (freeCwBytes s n).draws = s.draws := rfl

@[simp] theorem freeSegEntries_params (n : Nat) : (freeSegEntries s n).params = s.params := rfl
@[simp] theorem freeSegEntries_pend (n : Nat) : (freeSegEntries s n).pend = s.pend := rfl
@[simp] theorem freeSegEntries_done (n : Nat) : (freeSegEntries s n).done = s.done := rfl
@[simp] theorem freeSegEntries_error (n : Nat) : (freeSegEntries s n).error = s.error := rfl
@[simp] theorem freeSegEntries_busErr (n : Nat) : (freeSegEntries s n).busErr = s.busErr := rfl
@[simp] theorem freeSegEntries_wrBusy (n : Nat) : (freeSegEntries s n).wrBusy = s.wrBusy := rfl
@[simp] theorem freeSegEntries_stage (n : Nat) : (freeSegEntries s n).stage = s.stage := rfl
@[simp] theorem freeSegEntries_config (n : Nat) : (freeSegEntries s n).config = s.config := rfl
@[simp] theorem freeSegEntries_plen (n : Nat) : (freeSegEntries s n).plen = s.plen := rfl
@[simp] theorem freeSegEntries_errKind (n : Nat) : (freeSegEntries s n).errKind = s.errKind := rfl
@[simp] theorem freeSegEntries_errOpc (n : Nat) : (freeSegEntries s n).errOpc = s.errOpc := rfl
@[simp] theorem freeSegEntries_errExp (n : Nat) : (freeSegEntries s n).errExp = s.errExp := rfl
@[simp] theorem freeSegEntries_errAct (n : Nat) : (freeSegEntries s n).errAct = s.errAct := rfl
@[simp] theorem freeSegEntries_viSel (n : Nat) : (freeSegEntries s n).viSel = s.viSel := rfl
@[simp] theorem freeSegEntries_eclSel (n : Nat) : (freeSegEntries s n).eclSel = s.eclSel := rfl
@[simp] theorem freeSegEntries_resH (n : Nat) : (freeSegEntries s n).resH = s.resH := rfl
@[simp] theorem freeSegEntries_resW (n : Nat) : (freeSegEntries s n).resW = s.resW := rfl
@[simp] theorem freeSegEntries_resBits (n : Nat) : (freeSegEntries s n).resBits = s.resBits := rfl
@[simp] theorem freeSegEntries_resCw (n : Nat) : (freeSegEntries s n).resCw = s.resCw := rfl
@[simp] theorem freeSegEntries_resMask (n : Nat) : (freeSegEntries s n).resMask = s.resMask := rfl
@[simp] theorem freeSegEntries_resFmtA (n : Nat) : (freeSegEntries s n).resFmtA = s.resFmtA := rfl
@[simp] theorem freeSegEntries_resFmtB (n : Nat) : (freeSegEntries s n).resFmtB = s.resFmtB := rfl
@[simp] theorem freeSegEntries_gfResult (n : Nat) : (freeSegEntries s n).gfResult = s.gfResult := rfl
@[simp] theorem freeSegEntries_nseg (n : Nat) : (freeSegEntries s n).nseg = s.nseg := rfl
@[simp] theorem freeSegEntries_penalty (n : Nat) : (freeSegEntries s n).penalty = s.penalty := rfl
@[simp] theorem freeSegEntries_pbuf (n : Nat) : (freeSegEntries s n).pbuf = s.pbuf := rfl
@[simp] theorem freeSegEntries_cwbuf (n : Nat) : (freeSegEntries s n).cwbuf = s.cwbuf := rfl
@[simp] theorem freeSegEntries_cwFree (n : Nat) : (freeSegEntries s n).cwFree = s.cwFree := rfl
@[simp] theorem freeSegEntries_cells (n : Nat) : (freeSegEntries s n).cells = s.cells := rfl
@[simp] theorem freeSegEntries_mdimH (n : Nat) : (freeSegEntries s n).mdimH = s.mdimH := rfl
@[simp] theorem freeSegEntries_mdimW (n : Nat) : (freeSegEntries s n).mdimW = s.mdimW := rfl
@[simp] theorem freeSegEntries_host (n : Nat) : (freeSegEntries s n).host = s.host := rfl
@[simp] theorem freeSegEntries_reads (n : Nat) : (freeSegEntries s n).reads = s.reads := rfl
@[simp] theorem freeSegEntries_turns (n : Nat) : (freeSegEntries s n).turns = s.turns := rfl
@[simp] theorem freeSegEntries_draws (n : Nat) : (freeSegEntries s n).draws = s.draws := rfl

@[simp] theorem clearError_params : (clearError s).params = s.params := rfl
@[simp] theorem clearError_pend : (clearError s).pend = s.pend := rfl
@[simp] theorem clearError_done : (clearError s).done = false := rfl
@[simp] theorem clearError_error : (clearError s).error = false := rfl
@[simp] theorem clearError_busErr : (clearError s).busErr = false := rfl
@[simp] theorem clearError_wrBusy : (clearError s).wrBusy = false := rfl
@[simp] theorem clearError_stage : (clearError s).stage = s.stage := rfl
@[simp] theorem clearError_config : (clearError s).config = s.config := rfl
@[simp] theorem clearError_plen : (clearError s).plen = s.plen := rfl
@[simp] theorem clearError_errKind : (clearError s).errKind = .none := rfl
@[simp] theorem clearError_errOpc : (clearError s).errOpc = 0 := rfl
@[simp] theorem clearError_errExp : (clearError s).errExp = 0 := rfl
@[simp] theorem clearError_errAct : (clearError s).errAct = 0 := rfl
@[simp] theorem clearError_viSel : (clearError s).viSel = s.viSel := rfl
@[simp] theorem clearError_eclSel : (clearError s).eclSel = s.eclSel := rfl
@[simp] theorem clearError_resH : (clearError s).resH = s.resH := rfl
@[simp] theorem clearError_resW : (clearError s).resW = s.resW := rfl
@[simp] theorem clearError_resBits : (clearError s).resBits = s.resBits := rfl
@[simp] theorem clearError_resCw : (clearError s).resCw = s.resCw := rfl
@[simp] theorem clearError_resMask : (clearError s).resMask = s.resMask := rfl
@[simp] theorem clearError_resFmtA : (clearError s).resFmtA = s.resFmtA := rfl
@[simp] theorem clearError_resFmtB : (clearError s).resFmtB = s.resFmtB := rfl
@[simp] theorem clearError_gfResult : (clearError s).gfResult = s.gfResult := rfl
@[simp] theorem clearError_nseg : (clearError s).nseg = s.nseg := rfl
@[simp] theorem clearError_penalty : (clearError s).penalty = s.penalty := rfl
@[simp] theorem clearError_segtab : (clearError s).segtab = s.segtab := rfl
@[simp] theorem clearError_segFree : (clearError s).segFree = s.segFree := rfl
@[simp] theorem clearError_pbuf : (clearError s).pbuf = s.pbuf := rfl
@[simp] theorem clearError_cwbuf : (clearError s).cwbuf = s.cwbuf := rfl
@[simp] theorem clearError_cwFree : (clearError s).cwFree = s.cwFree := rfl
@[simp] theorem clearError_cells : (clearError s).cells = s.cells := rfl
@[simp] theorem clearError_mdimH : (clearError s).mdimH = s.mdimH := rfl
@[simp] theorem clearError_mdimW : (clearError s).mdimW = s.mdimW := rfl
@[simp] theorem clearError_host : (clearError s).host = s.host := rfl
@[simp] theorem clearError_reads : (clearError s).reads = s.reads := rfl
@[simp] theorem clearError_turns : (clearError s).turns = s.turns := rfl
@[simp] theorem clearError_draws : (clearError s).draws = s.draws := rfl

@[simp] theorem setCwBytes_params (base : Nat) (vs : List Byte) : (setCwBytes s base vs).params = s.params := by
  induction vs generalizing s base with
  | nil => rfl
  | cons v vs ih => rw [setCwBytes, ih, setCwByte_params]
@[simp] theorem setCwBytes_pend (base : Nat) (vs : List Byte) : (setCwBytes s base vs).pend = s.pend := by
  induction vs generalizing s base with
  | nil => rfl
  | cons v vs ih => rw [setCwBytes, ih, setCwByte_pend]
@[simp] theorem setCwBytes_done (base : Nat) (vs : List Byte) : (setCwBytes s base vs).done = s.done := by
  induction vs generalizing s base with
  | nil => rfl
  | cons v vs ih => rw [setCwBytes, ih, setCwByte_done]
@[simp] theorem setCwBytes_error (base : Nat) (vs : List Byte) : (setCwBytes s base vs).error = s.error := by
  induction vs generalizing s base with
  | nil => rfl
  | cons v vs ih => rw [setCwBytes, ih, setCwByte_error]
@[simp] theorem setCwBytes_busErr (base : Nat) (vs : List Byte) : (setCwBytes s base vs).busErr = s.busErr := by
  induction vs generalizing s base with
  | nil => rfl
  | cons v vs ih => rw [setCwBytes, ih, setCwByte_busErr]
@[simp] theorem setCwBytes_wrBusy (base : Nat) (vs : List Byte) : (setCwBytes s base vs).wrBusy = s.wrBusy := by
  induction vs generalizing s base with
  | nil => rfl
  | cons v vs ih => rw [setCwBytes, ih, setCwByte_wrBusy]
@[simp] theorem setCwBytes_stage (base : Nat) (vs : List Byte) : (setCwBytes s base vs).stage = s.stage := by
  induction vs generalizing s base with
  | nil => rfl
  | cons v vs ih => rw [setCwBytes, ih, setCwByte_stage]
@[simp] theorem setCwBytes_config (base : Nat) (vs : List Byte) : (setCwBytes s base vs).config = s.config := by
  induction vs generalizing s base with
  | nil => rfl
  | cons v vs ih => rw [setCwBytes, ih, setCwByte_config]
@[simp] theorem setCwBytes_plen (base : Nat) (vs : List Byte) : (setCwBytes s base vs).plen = s.plen := by
  induction vs generalizing s base with
  | nil => rfl
  | cons v vs ih => rw [setCwBytes, ih, setCwByte_plen]
@[simp] theorem setCwBytes_errKind (base : Nat) (vs : List Byte) : (setCwBytes s base vs).errKind = s.errKind := by
  induction vs generalizing s base with
  | nil => rfl
  | cons v vs ih => rw [setCwBytes, ih, setCwByte_errKind]
@[simp] theorem setCwBytes_errOpc (base : Nat) (vs : List Byte) : (setCwBytes s base vs).errOpc = s.errOpc := by
  induction vs generalizing s base with
  | nil => rfl
  | cons v vs ih => rw [setCwBytes, ih, setCwByte_errOpc]
@[simp] theorem setCwBytes_errExp (base : Nat) (vs : List Byte) : (setCwBytes s base vs).errExp = s.errExp := by
  induction vs generalizing s base with
  | nil => rfl
  | cons v vs ih => rw [setCwBytes, ih, setCwByte_errExp]
@[simp] theorem setCwBytes_errAct (base : Nat) (vs : List Byte) : (setCwBytes s base vs).errAct = s.errAct := by
  induction vs generalizing s base with
  | nil => rfl
  | cons v vs ih => rw [setCwBytes, ih, setCwByte_errAct]
@[simp] theorem setCwBytes_viSel (base : Nat) (vs : List Byte) : (setCwBytes s base vs).viSel = s.viSel := by
  induction vs generalizing s base with
  | nil => rfl
  | cons v vs ih => rw [setCwBytes, ih, setCwByte_viSel]
@[simp] theorem setCwBytes_eclSel (base : Nat) (vs : List Byte) : (setCwBytes s base vs).eclSel = s.eclSel := by
  induction vs generalizing s base with
  | nil => rfl
  | cons v vs ih => rw [setCwBytes, ih, setCwByte_eclSel]
@[simp] theorem setCwBytes_resH (base : Nat) (vs : List Byte) : (setCwBytes s base vs).resH = s.resH := by
  induction vs generalizing s base with
  | nil => rfl
  | cons v vs ih => rw [setCwBytes, ih, setCwByte_resH]
@[simp] theorem setCwBytes_resW (base : Nat) (vs : List Byte) : (setCwBytes s base vs).resW = s.resW := by
  induction vs generalizing s base with
  | nil => rfl
  | cons v vs ih => rw [setCwBytes, ih, setCwByte_resW]
@[simp] theorem setCwBytes_resBits (base : Nat) (vs : List Byte) : (setCwBytes s base vs).resBits = s.resBits := by
  induction vs generalizing s base with
  | nil => rfl
  | cons v vs ih => rw [setCwBytes, ih, setCwByte_resBits]
@[simp] theorem setCwBytes_resCw (base : Nat) (vs : List Byte) : (setCwBytes s base vs).resCw = s.resCw := by
  induction vs generalizing s base with
  | nil => rfl
  | cons v vs ih => rw [setCwBytes, ih, setCwByte_resCw]
@[simp] theorem setCwBytes_resMask (base : Nat) (vs : List Byte) : (setCwBytes s base vs).resMask = s.resMask := by
  induction vs generalizing s base with
  | nil => rfl
  | cons v vs ih => rw [setCwBytes, ih, setCwByte_resMask]
@[simp] theorem setCwBytes_resFmtA (base : Nat) (vs : List Byte) : (setCwBytes s base vs).resFmtA = s.resFmtA := by
  induction vs generalizing s base with
  | nil => rfl
  | cons v vs ih => rw [setCwBytes, ih, setCwByte_resFmtA]
@[simp] theorem setCwBytes_resFmtB (base : Nat) (vs : List Byte) : (setCwBytes s base vs).resFmtB = s.resFmtB := by
  induction vs generalizing s base with
  | nil => rfl
  | cons v vs ih => rw [setCwBytes, ih, setCwByte_resFmtB]
@[simp] theorem setCwBytes_gfResult (base : Nat) (vs : List Byte) : (setCwBytes s base vs).gfResult = s.gfResult := by
  induction vs generalizing s base with
  | nil => rfl
  | cons v vs ih => rw [setCwBytes, ih, setCwByte_gfResult]
@[simp] theorem setCwBytes_nseg (base : Nat) (vs : List Byte) : (setCwBytes s base vs).nseg = s.nseg := by
  induction vs generalizing s base with
  | nil => rfl
  | cons v vs ih => rw [setCwBytes, ih, setCwByte_nseg]
@[simp] theorem setCwBytes_penalty (base : Nat) (vs : List Byte) : (setCwBytes s base vs).penalty = s.penalty := by
  induction vs generalizing s base with
  | nil => rfl
  | cons v vs ih => rw [setCwBytes, ih, setCwByte_penalty]
@[simp] theorem setCwBytes_segtab (base : Nat) (vs : List Byte) : (setCwBytes s base vs).segtab = s.segtab := by
  induction vs generalizing s base with
  | nil => rfl
  | cons v vs ih => rw [setCwBytes, ih, setCwByte_segtab]
@[simp] theorem setCwBytes_segFree (base : Nat) (vs : List Byte) : (setCwBytes s base vs).segFree = s.segFree := by
  induction vs generalizing s base with
  | nil => rfl
  | cons v vs ih => rw [setCwBytes, ih, setCwByte_segFree]
@[simp] theorem setCwBytes_pbuf (base : Nat) (vs : List Byte) : (setCwBytes s base vs).pbuf = s.pbuf := by
  induction vs generalizing s base with
  | nil => rfl
  | cons v vs ih => rw [setCwBytes, ih, setCwByte_pbuf]
@[simp] theorem setCwBytes_cells (base : Nat) (vs : List Byte) : (setCwBytes s base vs).cells = s.cells := by
  induction vs generalizing s base with
  | nil => rfl
  | cons v vs ih => rw [setCwBytes, ih, setCwByte_cells]
@[simp] theorem setCwBytes_mdimH (base : Nat) (vs : List Byte) : (setCwBytes s base vs).mdimH = s.mdimH := by
  induction vs generalizing s base with
  | nil => rfl
  | cons v vs ih => rw [setCwBytes, ih, setCwByte_mdimH]
@[simp] theorem setCwBytes_mdimW (base : Nat) (vs : List Byte) : (setCwBytes s base vs).mdimW = s.mdimW := by
  induction vs generalizing s base with
  | nil => rfl
  | cons v vs ih => rw [setCwBytes, ih, setCwByte_mdimW]
@[simp] theorem setCwBytes_host (base : Nat) (vs : List Byte) : (setCwBytes s base vs).host = s.host := by
  induction vs generalizing s base with
  | nil => rfl
  | cons v vs ih => rw [setCwBytes, ih, setCwByte_host]
@[simp] theorem setCwBytes_reads (base : Nat) (vs : List Byte) : (setCwBytes s base vs).reads = s.reads := by
  induction vs generalizing s base with
  | nil => rfl
  | cons v vs ih => rw [setCwBytes, ih, setCwByte_reads]
@[simp] theorem setCwBytes_turns (base : Nat) (vs : List Byte) : (setCwBytes s base vs).turns = s.turns := by
  induction vs generalizing s base with
  | nil => rfl
  | cons v vs ih => rw [setCwBytes, ih, setCwByte_turns]
@[simp] theorem setCwBytes_draws (base : Nat) (vs : List Byte) : (setCwBytes s base vs).draws = s.draws := by
  induction vs generalizing s base with
  | nil => rfl
  | cons v vs ih => rw [setCwBytes, ih, setCwByte_draws]

@[simp] theorem setSegEntries_params (base : Nat) (es : List SegEntry) : (setSegEntries s base es).params = s.params := by
  induction es generalizing s base with
  | nil => rfl
  | cons v vs ih => rw [setSegEntries, ih, setSegEntry_params]
@[simp] theorem setSegEntries_pend (base : Nat) (es : List SegEntry) : (setSegEntries s base es).pend = s.pend := by
  induction es generalizing s base with
  | nil => rfl
  | cons v vs ih => rw [setSegEntries, ih, setSegEntry_pend]
@[simp] theorem setSegEntries_done (base : Nat) (es : List SegEntry) : (setSegEntries s base es).done = s.done := by
  induction es generalizing s base with
  | nil => rfl
  | cons v vs ih => rw [setSegEntries, ih, setSegEntry_done]
@[simp] theorem setSegEntries_error (base : Nat) (es : List SegEntry) : (setSegEntries s base es).error = s.error := by
  induction es generalizing s base with
  | nil => rfl
  | cons v vs ih => rw [setSegEntries, ih, setSegEntry_error]
@[simp] theorem setSegEntries_busErr (base : Nat) (es : List SegEntry) : (setSegEntries s base es).busErr = s.busErr := by
  induction es generalizing s base with
  | nil => rfl
  | cons v vs ih => rw [setSegEntries, ih, setSegEntry_busErr]
@[simp] theorem setSegEntries_wrBusy (base : Nat) (es : List SegEntry) : (setSegEntries s base es).wrBusy = s.wrBusy := by
  induction es generalizing s base with
  | nil => rfl
  | cons v vs ih => rw [setSegEntries, ih, setSegEntry_wrBusy]
@[simp] theorem setSegEntries_stage (base : Nat) (es : List SegEntry) : (setSegEntries s base es).stage = s.stage := by
  induction es generalizing s base with
  | nil => rfl
  | cons v vs ih => rw [setSegEntries, ih, setSegEntry_stage]
@[simp] theorem setSegEntries_config (base : Nat) (es : List SegEntry) : (setSegEntries s base es).config = s.config := by
  induction es generalizing s base with
  | nil => rfl
  | cons v vs ih => rw [setSegEntries, ih, setSegEntry_config]
@[simp] theorem setSegEntries_plen (base : Nat) (es : List SegEntry) : (setSegEntries s base es).plen = s.plen := by
  induction es generalizing s base with
  | nil => rfl
  | cons v vs ih => rw [setSegEntries, ih, setSegEntry_plen]
@[simp] theorem setSegEntries_errKind (base : Nat) (es : List SegEntry) : (setSegEntries s base es).errKind = s.errKind := by
  induction es generalizing s base with
  | nil => rfl
  | cons v vs ih => rw [setSegEntries, ih, setSegEntry_errKind]
@[simp] theorem setSegEntries_errOpc (base : Nat) (es : List SegEntry) : (setSegEntries s base es).errOpc = s.errOpc := by
  induction es generalizing s base with
  | nil => rfl
  | cons v vs ih => rw [setSegEntries, ih, setSegEntry_errOpc]
@[simp] theorem setSegEntries_errExp (base : Nat) (es : List SegEntry) : (setSegEntries s base es).errExp = s.errExp := by
  induction es generalizing s base with
  | nil => rfl
  | cons v vs ih => rw [setSegEntries, ih, setSegEntry_errExp]
@[simp] theorem setSegEntries_errAct (base : Nat) (es : List SegEntry) : (setSegEntries s base es).errAct = s.errAct := by
  induction es generalizing s base with
  | nil => rfl
  | cons v vs ih => rw [setSegEntries, ih, setSegEntry_errAct]
@[simp] theorem setSegEntries_viSel (base : Nat) (es : List SegEntry) : (setSegEntries s base es).viSel = s.viSel := by
  induction es generalizing s base with
  | nil => rfl
  | cons v vs ih => rw [setSegEntries, ih, setSegEntry_viSel]
@[simp] theorem setSegEntries_eclSel (base : Nat) (es : List SegEntry) : (setSegEntries s base es).eclSel = s.eclSel := by
  induction es generalizing s base with
  | nil => rfl
  | cons v vs ih => rw [setSegEntries, ih, setSegEntry_eclSel]
@[simp] theorem setSegEntries_resH (base : Nat) (es : List SegEntry) : (setSegEntries s base es).resH = s.resH := by
  induction es generalizing s base with
  | nil => rfl
  | cons v vs ih => rw [setSegEntries, ih, setSegEntry_resH]
@[simp] theorem setSegEntries_resW (base : Nat) (es : List SegEntry) : (setSegEntries s base es).resW = s.resW := by
  induction es generalizing s base with
  | nil => rfl
  | cons v vs ih => rw [setSegEntries, ih, setSegEntry_resW]
@[simp] theorem setSegEntries_resBits (base : Nat) (es : List SegEntry) : (setSegEntries s base es).resBits = s.resBits := by
  induction es generalizing s base with
  | nil => rfl
  | cons v vs ih => rw [setSegEntries, ih, setSegEntry_resBits]
@[simp] theorem setSegEntries_resCw (base : Nat) (es : List SegEntry) : (setSegEntries s base es).resCw = s.resCw := by
  induction es generalizing s base with
  | nil => rfl
  | cons v vs ih => rw [setSegEntries, ih, setSegEntry_resCw]
@[simp] theorem setSegEntries_resMask (base : Nat) (es : List SegEntry) : (setSegEntries s base es).resMask = s.resMask := by
  induction es generalizing s base with
  | nil => rfl
  | cons v vs ih => rw [setSegEntries, ih, setSegEntry_resMask]
@[simp] theorem setSegEntries_resFmtA (base : Nat) (es : List SegEntry) : (setSegEntries s base es).resFmtA = s.resFmtA := by
  induction es generalizing s base with
  | nil => rfl
  | cons v vs ih => rw [setSegEntries, ih, setSegEntry_resFmtA]
@[simp] theorem setSegEntries_resFmtB (base : Nat) (es : List SegEntry) : (setSegEntries s base es).resFmtB = s.resFmtB := by
  induction es generalizing s base with
  | nil => rfl
  | cons v vs ih => rw [setSegEntries, ih, setSegEntry_resFmtB]
@[simp] theorem setSegEntries_gfResult (base : Nat) (es : List SegEntry) : (setSegEntries s base es).gfResult = s.gfResult := by
  induction es generalizing s base with
  | nil => rfl
  | cons v vs ih => rw [setSegEntries, ih, setSegEntry_gfResult]
@[simp] theorem setSegEntries_nseg (base : Nat) (es : List SegEntry) : (setSegEntries s base es).nseg = s.nseg := by
  induction es generalizing s base with
  | nil => rfl
  | cons v vs ih => rw [setSegEntries, ih, setSegEntry_nseg]
@[simp] theorem setSegEntries_penalty (base : Nat) (es : List SegEntry) : (setSegEntries s base es).penalty = s.penalty := by
  induction es generalizing s base with
  | nil => rfl
  | cons v vs ih => rw [setSegEntries, ih, setSegEntry_penalty]
@[simp] theorem setSegEntries_pbuf (base : Nat) (es : List SegEntry) : (setSegEntries s base es).pbuf = s.pbuf := by
  induction es generalizing s base with
  | nil => rfl
  | cons v vs ih => rw [setSegEntries, ih, setSegEntry_pbuf]
@[simp] theorem setSegEntries_cwbuf (base : Nat) (es : List SegEntry) : (setSegEntries s base es).cwbuf = s.cwbuf := by
  induction es generalizing s base with
  | nil => rfl
  | cons v vs ih => rw [setSegEntries, ih, setSegEntry_cwbuf]
@[simp] theorem setSegEntries_cwFree (base : Nat) (es : List SegEntry) : (setSegEntries s base es).cwFree = s.cwFree := by
  induction es generalizing s base with
  | nil => rfl
  | cons v vs ih => rw [setSegEntries, ih, setSegEntry_cwFree]
@[simp] theorem setSegEntries_cells (base : Nat) (es : List SegEntry) : (setSegEntries s base es).cells = s.cells := by
  induction es generalizing s base with
  | nil => rfl
  | cons v vs ih => rw [setSegEntries, ih, setSegEntry_cells]
@[simp] theorem setSegEntries_mdimH (base : Nat) (es : List SegEntry) : (setSegEntries s base es).mdimH = s.mdimH := by
  induction es generalizing s base with
  | nil => rfl
  | cons v vs ih => rw [setSegEntries, ih, setSegEntry_mdimH]
@[simp] theorem setSegEntries_mdimW (base : Nat) (es : List SegEntry) : (setSegEntries s base es).mdimW = s.mdimW := by
  induction es generalizing s base with
  | nil => rfl
  | cons v vs ih => rw [setSegEntries, ih, setSegEntry_mdimW]
@[simp] theorem setSegEntries_host (base : Nat) (es : List SegEntry) : (setSegEntries s base es).host = s.host := by
  induction es generalizing s base with
  | nil => rfl
  | cons v vs ih => rw [setSegEntries, ih, setSegEntry_host]
@[simp] theorem setSegEntries_reads (base : Nat) (es : List SegEntry) : (setSegEntries s base es).reads = s.reads := by
  induction es generalizing s base with
  | nil => rfl
  | cons v vs ih => rw [setSegEntries, ih, setSegEntry_reads]
@[simp] theorem setSegEntries_turns (base : Nat) (es : List SegEntry) : (setSegEntries s base es).turns = s.turns := by
  induction es generalizing s base with
  | nil => rfl
  | cons v vs ih => rw [setSegEntries, ih, setSegEntry_turns]
@[simp] theorem setSegEntries_draws (base : Nat) (es : List SegEntry) : (setSegEntries s base es).draws = s.draws := by
  induction es generalizing s base with
  | nil => rfl
  | cons v vs ih => rw [setSegEntries, ih, setSegEntry_draws]

@[simp] theorem setColours_params (ps : List (Nat × Nat)) (ks : List Colour) : (setColours s ps ks).params = s.params := by
  induction ps generalizing s ks with
  | nil => cases ks <;> rfl
  | cons p ps ih =>
    cases ks with
    | nil => rfl
    | cons k ks => rw [setColours, ih, setColour_params]
@[simp] theorem setColours_pend (ps : List (Nat × Nat)) (ks : List Colour) : (setColours s ps ks).pend = s.pend := by
  induction ps generalizing s ks with
  | nil => cases ks <;> rfl
  | cons p ps ih =>
    cases ks with
    | nil => rfl
    | cons k ks => rw [setColours, ih, setColour_pend]
@[simp] theorem setColours_done (ps : List (Nat × Nat)) (ks : List Colour) : (setColours s ps ks).done = s.done := by
  induction ps generalizing s ks with
  | nil => cases ks <;> rfl
  | cons p ps ih =>
    cases ks with
    | nil => rfl
    | cons k ks => rw [setColours, ih, setColour_done]
@[simp] theorem setColours_error (ps : List (Nat × Nat)) (ks : List Colour) : (setColours s ps ks).error = s.error := by
  induction ps generalizing s ks with
  | nil => cases ks <;> rfl
  | cons p ps ih =>
    cases ks with
    | nil => rfl
    | cons k ks => rw [setColours, ih, setColour_error]
@[simp] theorem setColours_busErr (ps : List (Nat × Nat)) (ks : List Colour) : (setColours s ps ks).busErr = s.busErr := by
  induction ps generalizing s ks with
  | nil => cases ks <;> rfl
  | cons p ps ih =>
    cases ks with
    | nil => rfl
    | cons k ks => rw [setColours, ih, setColour_busErr]
@[simp] theorem setColours_wrBusy (ps : List (Nat × Nat)) (ks : List Colour) : (setColours s ps ks).wrBusy = s.wrBusy := by
  induction ps generalizing s ks with
  | nil => cases ks <;> rfl
  | cons p ps ih =>
    cases ks with
    | nil => rfl
    | cons k ks => rw [setColours, ih, setColour_wrBusy]
@[simp] theorem setColours_stage (ps : List (Nat × Nat)) (ks : List Colour) : (setColours s ps ks).stage = s.stage := by
  induction ps generalizing s ks with
  | nil => cases ks <;> rfl
  | cons p ps ih =>
    cases ks with
    | nil => rfl
    | cons k ks => rw [setColours, ih, setColour_stage]
@[simp] theorem setColours_config (ps : List (Nat × Nat)) (ks : List Colour) : (setColours s ps ks).config = s.config := by
  induction ps generalizing s ks with
  | nil => cases ks <;> rfl
  | cons p ps ih =>
    cases ks with
    | nil => rfl
    | cons k ks => rw [setColours, ih, setColour_config]
@[simp] theorem setColours_plen (ps : List (Nat × Nat)) (ks : List Colour) : (setColours s ps ks).plen = s.plen := by
  induction ps generalizing s ks with
  | nil => cases ks <;> rfl
  | cons p ps ih =>
    cases ks with
    | nil => rfl
    | cons k ks => rw [setColours, ih, setColour_plen]
@[simp] theorem setColours_errKind (ps : List (Nat × Nat)) (ks : List Colour) : (setColours s ps ks).errKind = s.errKind := by
  induction ps generalizing s ks with
  | nil => cases ks <;> rfl
  | cons p ps ih =>
    cases ks with
    | nil => rfl
    | cons k ks => rw [setColours, ih, setColour_errKind]
@[simp] theorem setColours_errOpc (ps : List (Nat × Nat)) (ks : List Colour) : (setColours s ps ks).errOpc = s.errOpc := by
  induction ps generalizing s ks with
  | nil => cases ks <;> rfl
  | cons p ps ih =>
    cases ks with
    | nil => rfl
    | cons k ks => rw [setColours, ih, setColour_errOpc]
@[simp] theorem setColours_errExp (ps : List (Nat × Nat)) (ks : List Colour) : (setColours s ps ks).errExp = s.errExp := by
  induction ps generalizing s ks with
  | nil => cases ks <;> rfl
  | cons p ps ih =>
    cases ks with
    | nil => rfl
    | cons k ks => rw [setColours, ih, setColour_errExp]
@[simp] theorem setColours_errAct (ps : List (Nat × Nat)) (ks : List Colour) : (setColours s ps ks).errAct = s.errAct := by
  induction ps generalizing s ks with
  | nil => cases ks <;> rfl
  | cons p ps ih =>
    cases ks with
    | nil => rfl
    | cons k ks => rw [setColours, ih, setColour_errAct]
@[simp] theorem setColours_viSel (ps : List (Nat × Nat)) (ks : List Colour) : (setColours s ps ks).viSel = s.viSel := by
  induction ps generalizing s ks with
  | nil => cases ks <;> rfl
  | cons p ps ih =>
    cases ks with
    | nil => rfl
    | cons k ks => rw [setColours, ih, setColour_viSel]
@[simp] theorem setColours_eclSel (ps : List (Nat × Nat)) (ks : List Colour) : (setColours s ps ks).eclSel = s.eclSel := by
  induction ps generalizing s ks with
  | nil => cases ks <;> rfl
  | cons p ps ih =>
    cases ks with
    | nil => rfl
    | cons k ks => rw [setColours, ih, setColour_eclSel]
@[simp] theorem setColours_resH (ps : List (Nat × Nat)) (ks : List Colour) : (setColours s ps ks).resH = s.resH := by
  induction ps generalizing s ks with
  | nil => cases ks <;> rfl
  | cons p ps ih =>
    cases ks with
    | nil => rfl
    | cons k ks => rw [setColours, ih, setColour_resH]
@[simp] theorem setColours_resW (ps : List (Nat × Nat)) (ks : List Colour) : (setColours s ps ks).resW = s.resW := by
  induction ps generalizing s ks with
  | nil => cases ks <;> rfl
  | cons p ps ih =>
    cases ks with
    | nil => rfl
    | cons k ks => rw [setColours, ih, setColour_resW]
@[simp] theorem setColours_resBits (ps : List (Nat × Nat)) (ks : List Colour) : (setColours s ps ks).resBits = s.resBits := by
  induction ps generalizing s ks with
  | nil => cases ks <;> rfl
  | cons p ps ih =>
    cases ks with
    | nil => rfl
    | cons k ks => rw [setColours, ih, setColour_resBits]
@[simp] theorem setColours_resCw (ps : List (Nat × Nat)) (ks : List Colour) : (setColours s ps ks).resCw = s.resCw := by
  induction ps generalizing s ks with
  | nil => cases ks <;> rfl
  | cons p ps ih =>
    cases ks with
    | nil => rfl
    | cons k ks => rw [setColours, ih, setColour_resCw]
@[simp] theorem setColours_resMask (ps : List (Nat × Nat)) (ks : List Colour) : (setColours s ps ks).resMask = s.resMask := by
  induction ps generalizing s ks with
  | nil => cases ks <;> rfl
  | cons p ps ih =>
    cases ks with
    | nil => rfl
    | cons k ks => rw [setColours, ih, setColour_resMask]
@[simp] theorem setColours_resFmtA (ps : List (Nat × Nat)) (ks : List Colour) : (setColours s ps ks).resFmtA = s.resFmtA := by
  induction ps generalizing s ks with
  | nil => cases ks <;> rfl
  | cons p ps ih =>
    cases ks with
    | nil => rfl
    | cons k ks => rw [setColours, ih, setColour_resFmtA]
@[simp] theorem setColours_resFmtB (ps : List (Nat × Nat)) (ks : List Colour) : (setColours s ps ks).resFmtB = s.resFmtB := by
  induction ps generalizing s ks with
  | nil => cases ks <;> rfl
  | cons p ps ih =>
    cases ks with
    | nil => rfl
    | cons k ks => rw [setColours, ih, setColour_resFmtB]
@[simp] theorem setColours_gfResult (ps : List (Nat × Nat)) (ks : List Colour) : (setColours s ps ks).gfResult = s.gfResult := by
  induction ps generalizing s ks with
  | nil => cases ks <;> rfl
  | cons p ps ih =>
    cases ks with
    | nil => rfl
    | cons k ks => rw [setColours, ih, setColour_gfResult]
@[simp] theorem setColours_nseg (ps : List (Nat × Nat)) (ks : List Colour) : (setColours s ps ks).nseg = s.nseg := by
  induction ps generalizing s ks with
  | nil => cases ks <;> rfl
  | cons p ps ih =>
    cases ks with
    | nil => rfl
    | cons k ks => rw [setColours, ih, setColour_nseg]
@[simp] theorem setColours_penalty (ps : List (Nat × Nat)) (ks : List Colour) : (setColours s ps ks).penalty = s.penalty := by
  induction ps generalizing s ks with
  | nil => cases ks <;> rfl
  | cons p ps ih =>
    cases ks with
    | nil => rfl
    | cons k ks => rw [setColours, ih, setColour_penalty]
@[simp] theorem setColours_segtab (ps : List (Nat × Nat)) (ks : List Colour) : (setColours s ps ks).segtab = s.segtab := by
  induction ps generalizing s ks with
  | nil => cases ks <;> rfl
  | cons p ps ih =>
    cases ks with
    | nil => rfl
    | cons k ks => rw [setColours, ih, setColour_segtab]
@[simp] theorem setColours_segFree (ps : List (Nat × Nat)) (ks : List Colour) : (setColours s ps ks).segFree = s.segFree := by
  induction ps generalizing s ks with
  | nil => cases ks <;> rfl
  | cons p ps ih =>
    cases ks with
    | nil => rfl
    | cons k ks => rw [setColours, ih, setColour_segFree]
@[simp] theorem setColours_pbuf (ps : List (Nat × Nat)) (ks : List Colour) : (setColours s ps ks).pbuf = s.pbuf := by
  induction ps generalizing s ks with
  | nil => cases ks <;> rfl
  | cons p ps ih =>
    cases ks with
    | nil => rfl
    | cons k ks => rw [setColours, ih, setColour_pbuf]
@[simp] theorem setColours_cwbuf (ps : List (Nat × Nat)) (ks : List Colour) : (setColours s ps ks).cwbuf = s.cwbuf := by
  induction ps generalizing s ks with
  | nil => cases ks <;> rfl
  | cons p ps ih =>
    cases ks with
    | nil => rfl
    | cons k ks => rw [setColours, ih, setColour_cwbuf]
@[simp] theorem setColours_cwFree (ps : List (Nat × Nat)) (ks : List Colour) : (setColours s ps ks).cwFree = s.cwFree := by
  induction ps generalizing s ks with
  | nil => cases ks <;> rfl
  | cons p ps ih =>
    cases ks with
    | nil => rfl
    | cons k ks => rw [setColours, ih, setColour_cwFree]
@[simp] theorem setColours_mdimH (ps : List (Nat × Nat)) (ks : List Colour) : (setColours s ps ks).mdimH = s.mdimH := by
  induction ps generalizing s ks with
  | nil => cases ks <;> rfl
  | cons p ps ih =>
    cases ks with
    | nil => rfl
    | cons k ks => rw [setColours, ih, setColour_mdimH]
@[simp] theorem setColours_mdimW (ps : List (Nat × Nat)) (ks : List Colour) : (setColours s ps ks).mdimW = s.mdimW := by
  induction ps generalizing s ks with
  | nil => cases ks <;> rfl
  | cons p ps ih =>
    cases ks with
    | nil => rfl
    | cons k ks => rw [setColours, ih, setColour_mdimW]
@[simp] theorem setColours_host (ps : List (Nat × Nat)) (ks : List Colour) : (setColours s ps ks).host = s.host := by
  induction ps generalizing s ks with
  | nil => cases ks <;> rfl
  | cons p ps ih =>
    cases ks with
    | nil => rfl
    | cons k ks => rw [setColours, ih, setColour_host]
@[simp] theorem setColours_reads (ps : List (Nat × Nat)) (ks : List Colour) : (setColours s ps ks).reads = s.reads := by
  induction ps generalizing s ks with
  | nil => cases ks <;> rfl
  | cons p ps ih =>
    cases ks with
    | nil => rfl
    | cons k ks => rw [setColours, ih, setColour_reads]
@[simp] theorem setColours_turns (ps : List (Nat × Nat)) (ks : List Colour) : (setColours s ps ks).turns = s.turns := by
  induction ps generalizing s ks with
  | nil => cases ks <;> rfl
  | cons p ps ih =>
    cases ks with
    | nil => rfl
    | cons k ks => rw [setColours, ih, setColour_turns]
@[simp] theorem setColours_draws (ps : List (Nat × Nat)) (ks : List Colour) : (setColours s ps ks).draws = s.draws := by
  induction ps generalizing s ks with
  | nil => cases ks <;> rfl
  | cons p ps ih =>
    cases ks with
    | nil => rfl
    | cons k ks => rw [setColours, ih, setColour_draws]

end Sys2Proof.Laws
end

