-- ==== Sys2Proof/Laws/Ops.lean ====
section
/-! SUPPORT. What the shared operations do, said once: the buffers and the matrix read after a write, the end of a
command, error entry, and the stage check. -/

namespace Sys2Proof.Laws

open Sys2Proof.Machine

/-! ## CWBUF -/

theorem cwByte_setCwByte (s : State) (i j : Nat) (v : Byte) :
    cwByte (setCwByte s i v) j = if j = i then v else cwByte s j := by
  simp only [cwByte, setCwByte, memory_find_erase, memory_read_write]
  by_cases h : j = i
  · simp [h]
  · simp only [h, if_false]

theorem cwByte_setCwBytes (s : State) (base : Nat) (vs : List Byte) (j : Nat) :
    cwByte (setCwBytes s base vs) j =
      if base ≤ j ∧ j < base + vs.length then vs.getD (j - base) 0 else cwByte s j := by
  induction vs generalizing s base with
  | nil =>
    have h : ¬(base ≤ j ∧ j < base + ([] : List Byte).length) := by simp
    rw [setCwBytes, if_neg h]
  | cons v vs ih =>
    rw [setCwBytes, ih, cwByte_setCwByte]
    by_cases hj : j = base
    · subst hj
      simp
    · by_cases hr : base + 1 ≤ j ∧ j < base + 1 + vs.length
      · have e : j - base = (j - (base + 1)) + 1 := by omega
        rw [if_pos hr, if_pos (by simp only [List.length_cons]; omega), e, List.getD_cons_succ]
      · rw [if_neg hr, if_neg hj, if_neg (by simp only [List.length_cons]; omega)]

/-- CWBUF outside the written range reads as before. -/
theorem cwByte_setCwBytes_frame {s : State} {base : Nat} {vs : List Byte} {j : Nat}
    (h : j < base ∨ base + vs.length ≤ j) : cwByte (setCwBytes s base vs) j = cwByte s j := by
  rw [cwByte_setCwBytes, if_neg (by omega)]

theorem memory_sorted_cwFree (s : State) (base : Nat) (vs : List Byte) (h : Memory.sorted s.cwFree = true) :
    Memory.sorted (setCwBytes s base vs).cwFree = true := by
  induction vs generalizing s base with
  | nil => exact h
  | cons v vs ih => exact ih _ _ (memory_sorted_filter _ _ h)

theorem memory_wf_cwbuf (s : State) (base : Nat) (vs : List Byte) (h : Memory.wf 0 s.cwbuf = true) :
    Memory.wf 0 (setCwBytes s base vs).cwbuf = true := by
  induction vs generalizing s base with
  | nil => exact h
  | cons v vs ih => exact ih _ _ (memory_wf_write _ _ _ _ h)

theorem memory_mem_write {α : Type} [DecidableEq α] {d : α} {m : List (Nat × α)} {a : Nat} {v : α} {p : Nat × α}
    (h : p ∈ Memory.write d m a v) : p.1 = a ∨ p ∈ m := by
  rw [Memory.write] at h
  split at h
  · exact .inr (List.mem_of_mem_filter h)
  · rcases memory_mem_insert h with rfl | h
    · exact .inl rfl
    · exact .inr h

/-- A run of CWBUF writes lists no index but those written and those listed before. -/
theorem memory_mem_cwbuf {s : State} {base : Nat} {vs : List Byte} {p : Nat × Byte}
    (h : p ∈ (setCwBytes s base vs).cwbuf) : (base ≤ p.1 ∧ p.1 < base + vs.length) ∨ p ∈ s.cwbuf := by
  induction vs generalizing s base with
  | nil => exact .inr h
  | cons v vs ih =>
    simp only [List.length_cons]
    rcases ih h with h | h
    · left; omega
    · rcases memory_mem_write h with h | h
      · left; omega
      · exact .inr h

theorem memory_mem_cwFree {s : State} {base : Nat} {vs : List Byte} {p : Nat × Nat}
    (h : p ∈ (setCwBytes s base vs).cwFree) : p ∈ s.cwFree := by
  induction vs generalizing s base with
  | nil => exact h
  | cons v vs ih => exact List.mem_of_mem_filter (ih h)

theorem cwBytes_length (s : State) (base n : Nat) : (cwBytes s base n).length = n := by simp [cwBytes]

theorem cwBytes_getElem {s : State} {base n i : Nat} (h : i < (cwBytes s base n).length) :
    (cwBytes s base n)[i] = cwByte s (base + i) := by simp [cwBytes]

/-- Entries from n on are untouched when CWBUF[0 .. n−1] become unspecified. -/
theorem cwByte_freeCwBytes_frame {s : State} {n j : Nat} (h : n ≤ j) : cwByte (freeCwBytes s n) j = cwByte s j := by
  have h1 : Memory.find ((List.range n).map fun i => (i, s.draws)) j = none :=
    memory_find_none fun p hp => by
      simp only [List.mem_map, List.mem_range] at hp
      obtain ⟨i, hi, rfl⟩ := hp
      show i ≠ j
      omega
  simp only [cwByte, freeCwBytes, memory_find_append, h1, Memory.read,
    memory_find_filter _ (fun k => decide (n ≤ k)), h, decide_true, if_true, Option.none_or]

/-! ## SEGTAB -/

theorem segEntry_setSegEntry (s : State) (i j : Nat) (e : SegEntry) :
    segEntry (setSegEntry s i e) j = if j = i then e else segEntry s j := by
  simp only [segEntry, setSegEntry, memory_find_erase, memory_read_write]
  by_cases h : j = i
  · simp [h]
  · simp only [h, if_false]

theorem segEntry_setSegEntries (s : State) (base : Nat) (es : List SegEntry) (j : Nat) :
    segEntry (setSegEntries s base es) j =
      if base ≤ j ∧ j < base + es.length then es.getD (j - base) zeroEntry else segEntry s j := by
  induction es generalizing s base with
  | nil =>
    have h : ¬(base ≤ j ∧ j < base + ([] : List SegEntry).length) := by simp
    rw [setSegEntries, if_neg h]
  | cons v vs ih =>
    rw [setSegEntries, ih, segEntry_setSegEntry]
    by_cases hj : j = base
    · subst hj
      simp
    · by_cases hr : base + 1 ≤ j ∧ j < base + 1 + vs.length
      · have e : j - base = (j - (base + 1)) + 1 := by omega
        rw [if_pos hr, if_pos (by simp only [List.length_cons]; omega), e, List.getD_cons_succ]
      · rw [if_neg hr, if_neg hj, if_neg (by simp only [List.length_cons]; omega)]

theorem memory_wf_segtab (s : State) (base : Nat) (es : List SegEntry) (h : Memory.wf zeroEntry s.segtab = true) :
    Memory.wf zeroEntry (setSegEntries s base es).segtab = true := by
  induction es generalizing s base with
  | nil => exact h
  | cons v vs ih => exact ih _ _ (memory_wf_write _ _ _ _ h)

theorem memory_sorted_segFree (s : State) (base : Nat) (es : List SegEntry) (h : Memory.sorted s.segFree = true) :
    Memory.sorted (setSegEntries s base es).segFree = true := by
  induction es generalizing s base with
  | nil => exact h
  | cons v vs ih => exact ih _ _ (memory_sorted_filter _ _ h)

theorem memory_mem_segtab {s : State} {base : Nat} {es : List SegEntry} {p : Nat × SegEntry}
    (h : p ∈ (setSegEntries s base es).segtab) : (base ≤ p.1 ∧ p.1 < base + es.length) ∨ p ∈ s.segtab := by
  induction es generalizing s base with
  | nil => exact .inr h
  | cons v vs ih =>
    simp only [List.length_cons]
    rcases ih h with h | h
    · left; omega
    · rcases memory_mem_write h with h | h
      · left; omega
      · exact .inr h

theorem memory_mem_segFree {s : State} {base : Nat} {es : List SegEntry} {p : Nat × Nat}
    (h : p ∈ (setSegEntries s base es).segFree) : p ∈ s.segFree := by
  induction es generalizing s base with
  | nil => exact h
  | cons v vs ih => exact List.mem_of_mem_filter (ih h)

/-! ## The matrix -/

theorem cellIndex_inj {r c r' c' : Nat} (hc : c < 256) (hc' : c' < 256) :
    cellIndex r c = cellIndex r' c' ↔ r = r' ∧ c = c' := by
  simp only [cellIndex]
  omega

/-- What a cell reads as after one cell's colour is set. -/
theorem cellAt_setColour (s : State) {r c r' c' : Nat} (k : Colour) (hc : c < 256) (hc' : c' < 256) :
    cellAt (setColour s r c k) r' c' =
      if r' = r ∧ c' = c then { cellAt s r c with colour := k } else cellAt s r' c' := by
  simp only [cellAt, setColour, memory_read_write, cellIndex_inj hc' hc]

/-- Setting colours leaves every tag. -/
theorem cellAt_setColour_tag (s : State) {r c r' c' : Nat} (k : Colour) (hc : c < 256) (hc' : c' < 256) :
    (cellAt (setColour s r c k) r' c').tag = (cellAt s r' c').tag := by
  rw [cellAt_setColour s k hc hc']
  split
  · next h => obtain ⟨rfl, rfl⟩ := h; rfl
  · rfl

theorem cellAt_setColours_tag (s : State) (ps : List (Nat × Nat)) (ks : List Colour) {r c : Nat} (hc : c < 256)
    (hps : ∀ p ∈ ps, p.2 < 256) : (cellAt (setColours s ps ks) r c).tag = (cellAt s r c).tag := by
  induction ps generalizing s ks with
  | nil => cases ks <;> rfl
  | cons p ps ih =>
    cases ks with
    | nil => rfl
    | cons k ks =>
      rw [setColours, ih _ _ (fun q hq => hps q (List.mem_cons_of_mem _ hq)),
        cellAt_setColour_tag s k (hps p (by simp)) hc]

/-- A cell that is on no list position keeps its colour. -/
theorem cellAt_setColours_notMem (s : State) (ps : List (Nat × Nat)) (ks : List Colour) {r c : Nat} (hc : c < 256)
    (hps : ∀ p ∈ ps, p.2 < 256) (h : (r, c) ∉ ps) : cellAt (setColours s ps ks) r c = cellAt s r c := by
  induction ps generalizing s ks with
  | nil => cases ks <;> rfl
  | cons p ps ih =>
    cases ks with
    | nil => rfl
    | cons k ks =>
      simp only [List.mem_cons, not_or] at h
      rw [setColours, ih _ _ (fun q hq => hps q (List.mem_cons_of_mem _ hq)) h.2,
        cellAt_setColour s k (hps p (by simp)) hc, if_neg]
      rintro ⟨h1, h2⟩
      exact h.1 (Prod.ext h1 h2)

/-- The i-th cell of a list without repeats gets the i-th colour. -/
theorem cellAt_setColours_getElem (s : State) (ps : List (Nat × Nat)) (ks : List Colour) (hps : ∀ p ∈ ps, p.2 < 256)
    (hn : ps.Nodup) {i : Nat} (hi : i < ps.length) (hk : i < ks.length) :
    cellAt (setColours s ps ks) ps[i].1 ps[i].2 = { cellAt s ps[i].1 ps[i].2 with colour := ks[i] } := by
  induction ps generalizing s ks i with
  | nil => simp at hi
  | cons p ps ih =>
    cases ks with
    | nil => simp at hk
    | cons k ks =>
      rw [List.nodup_cons] at hn
      have hps' : ∀ q ∈ ps, q.2 < 256 := fun q hq => hps q (List.mem_cons_of_mem _ hq)
      have hp : p.2 < 256 := hps p (by simp)
      cases i with
      | zero =>
        simp only [List.getElem_cons_zero, setColours]
        rw [cellAt_setColours_notMem _ _ _ hp hps' hn.1, cellAt_setColour s k hp hp]
        simp
      | succ i =>
        simp only [List.getElem_cons_succ, setColours]
        simp only [List.length_cons, Nat.add_lt_add_iff_right] at hi hk
        have hq : ps[i].2 < 256 := hps' _ (List.getElem_mem _)
        rw [ih _ _ hps' hn.2 hi hk, cellAt_setColour s k hp hq, if_neg]
        rintro ⟨h1, h2⟩
        exact hn.1 (by rw [show p = ps[i] from Prod.ext h1.symm h2.symm]; exact List.getElem_mem _)

/-! ## The end of a command -/

/-- Error entry while an error is recorded changes nothing but PEND (60_exceptions.md R327). -/
theorem raiseError_recorded {f : Failure} {s : State} (h : s.error = true) : raiseError f s = { s with pend := none } := by
  simp [raiseError, h]

/-- A command refused by R123. -/
theorem runRule_refused {rule : State → RuleEnd} {s : State} (h : s.error = true) : runRule rule s = retire s := by
  simp [runRule, h]

theorem runRule_ready {rule : State → RuleEnd} {s : State} (h : s.error = false) :
    runRule rule s = finish (rule s) := by
  simp [runRule, h]

theorem requireStage_at {required : Stage} {opc : Nat} {rule : State → RuleEnd} {s : State} (h : s.stage = required) :
    requireStage required opc rule s = rule s := by
  simp [requireStage, h]

theorem requireStage_not {required : Stage} {opc : Nat} {rule : State → RuleEnd} {s : State} (h : s.stage ≠ required) :
    requireStage required opc rule s = .failed ⟨.stageOrder, opc, stageCode required, stageCode s.stage⟩ s := by
  simp [requireStage, h]

/-- A command's end leaves nothing pending. -/
theorem finish_pend (r : RuleEnd) : (finish r).pend = none := by
  cases r with
  | success s => rfl
  | failed f s => simp only [finish, raiseError]; split <;> rfl

theorem runRule_pend (rule : State → RuleEnd) (s : State) : (runRule rule s).pend = none := by
  rw [runRule]
  split
  · rfl
  · exact finish_pend _

/-- Every command completes: exec answers a next state with nothing pending (40_control.md R121, R361). -/
theorem exec_next (i : Instr) (s : State) : ∃ t, exec i s = .next t ∧ t.pend = none := by
  cases i with
  | nop => refine ⟨_, rfl, ?_⟩; split <;> rfl
  | clear => exact ⟨_, rfl, rfl⟩
  | softReset => exact ⟨_, rfl, rfl⟩
  | _ => exact ⟨_, rfl, runRule_pend _ _⟩

/-- The core's step with a command pending answers a next state with nothing pending. -/
theorem execute_next (w : Word) (s : State) : ∃ t, execute w s = .next t ∧ t.pend = none := by
  rw [execute]
  split
  · exact ⟨_, rfl, rfl⟩
  · split
    · exact ⟨_, rfl, finish_pend (.failed _ _)⟩
    · exact exec_next _ _

end Sys2Proof.Laws
end

