-- ==== Sys2Proof/Laws/Bits.lean ====
section
/-! SUPPORT. Bit strings and codewords: lengths, the bits of a value, the value of a bit string. -/

namespace Sys2Proof.Laws

open Sys2Proof.Machine

theorem bitsOf_length (n v : Nat) : (bitsOf n v).length = n := by simp [bitsOf]

theorem bitsOf_getElem? (n v i : Nat) : (bitsOf n v)[i]? = if i < n then some (v.testBit (n - 1 - i)) else none := by
  simp only [bitsOf, List.getElem?_map]
  split <;> simp_all

theorem bitsOf_injective {n a b : Nat} (ha : a < 2 ^ n) (hb : b < 2 ^ n) (h : bitsOf n a = bitsOf n b) : a = b := by
  apply Nat.eq_of_testBit_eq
  intro i
  by_cases hi : i < n
  · have := congrArg (fun l => l[n - 1 - i]?) h
    simp only [bitsOf_getElem?] at this
    rw [if_pos (by omega), if_pos (by omega)] at this
    simpa [show n - 1 - (n - 1 - i) = i by omega] using this
  · have le : 2 ^ n ≤ 2 ^ i := Nat.pow_le_pow_right (by omega) (by omega)
    rw [Nat.testBit_lt_two_pow (lt_of_lt_of_le ha le), Nat.testBit_lt_two_pow (lt_of_lt_of_le hb le)]

theorem bitsOfBytes_length (bs : List Byte) : (bitsOfBytes bs).length = 8 * bs.length := by
  induction bs with
  | nil => rfl
  | cons b bs ih =>
    simp [bitsOfBytes, bitsOf_length] at *
    omega

theorem bytesOfBits_length (n : Nat) (bits : List Bool) : (bytesOfBits n bits).length = n := by simp [bytesOfBits]

theorem bitsOfBytes_getElem? (bs : List Byte) (i : Nat) (h : i < 8 * bs.length) :
    (bitsOfBytes bs)[i]? = some ((bs.getD (i / 8) 0).getLsbD (7 - i % 8)) := by
  induction bs generalizing i with
  | nil => simp at h
  | cons b bs ih =>
    simp only [bitsOfBytes, List.flatMap_cons]
    by_cases hi : i < 8
    · rw [List.getElem?_append_left (by simpa [bitsOf_length]), bitsOf_getElem?, if_pos hi]
      simp [show i / 8 = 0 by omega, show i % 8 = i by omega, BitVec.getLsbD]
    · rw [List.getElem?_append_right (by simp [bitsOf_length]; omega), bitsOf_length]
      have := ih (i - 8) (by simp at h; omega)
      rw [bitsOfBytes] at this
      rw [this, show i / 8 = (i - 8) / 8 + 1 by omega, show (i - 8) % 8 = i % 8 by omega, List.getD_cons_succ]

theorem valueOf_append (a b : List Bool) : valueOf (a ++ b) = valueOf a * 2 ^ b.length + valueOf b := by
  have key : ∀ (b : List Bool) (x : Nat),
      b.foldl (fun acc b => 2 * acc + b.toNat) x
        = x * 2 ^ b.length + b.foldl (fun acc b => 2 * acc + b.toNat) 0 := by
    intro b
    induction b with
    | nil => intro x; simp
    | cons b bs ih =>
      intro x
      simp only [List.foldl_cons, List.length_cons]
      rw [ih, ih (2 * 0 + b.toNat)]
      ring
  simp only [valueOf, List.foldl_append]
  exact key b _

theorem valueOf_lt (a : List Bool) : valueOf a < 2 ^ a.length := by
  induction a using List.reverseRecOn with
  | nil => simp [valueOf]
  | append_singleton a b ih =>
    have : valueOf [b] ≤ 1 := by cases b <;> simp [valueOf]
    rw [valueOf_append, List.length_append, show a.length + [b].length = a.length + 1 from rfl, pow_succ]
    simp
    omega

/-- Bit j from the front of a bit string is bit (length − 1 − j) of its value. -/
theorem valueOf_testBit (a : List Bool) (j : Nat) (hj : j < a.length) :
    (valueOf a).testBit (a.length - 1 - j) = a[j] := by
  induction a using List.reverseRecOn with
  | nil => simp at hj
  | append_singleton a b ih =>
    rw [valueOf_append]
    simp only [List.length_append, List.length_cons, List.length_nil, Nat.zero_add, Nat.add_sub_cancel]
    rw [show valueOf [b] = b.toNat by cases b <;> rfl]
    by_cases h : j = a.length
    · subst h
      simp [Nat.testBit_zero]
      cases b <;> simp
    · have h2 : j < a.length := by simp at hj; omega
      obtain ⟨k, hk⟩ : ∃ k, a.length - j = k + 1 := ⟨a.length - j - 1, by omega⟩
      rw [hk, Nat.testBit_succ, List.getElem_append_left h2, ← ih h2,
        show (valueOf a * 2 ^ 1 + b.toNat) / 2 = valueOf a by cases b <;> simp; omega]
      congr 1
      omega

/-- A value that fits is the value of its bit string (R11). -/
theorem valueOf_bitsOf {n v : Nat} (h : v < 2 ^ n) : valueOf (bitsOf n v) = v := by
  have hl := valueOf_lt (bitsOf n v)
  rw [bitsOf_length] at hl
  apply bitsOf_injective hl h
  apply List.ext_getElem (by simp [bitsOf_length])
  intro i h1 h2
  have hi : i < n := by simpa [bitsOf_length] using h2
  have := valueOf_testBit (bitsOf n v) i h2
  rw [bitsOf_length] at this
  rw [← this]
  simp [bitsOf]

/-- Codeword i holds bits 8i to 8i + 7, most significant first. -/
theorem bytesOfBits_bit {bits : List Bool} {n i j : Nat} (hl : bits.length = 8 * n) (hi : i < n) (hj : j < 8) :
    ((bytesOfBits n bits).getD i 0).getLsbD (7 - j) = bits.getD (8 * i + j) false := by
  have hb : (bytesOfBits n bits).getD i 0 = BitVec.ofNat 8 (valueOf ((bits.drop (8 * i)).take 8)) := by
    simp [bytesOfBits, List.getD_eq_getElem?_getD, hi]
  have hlen : ((bits.drop (8 * i)).take 8).length = 8 := by simp; omega
  have key := valueOf_testBit ((bits.drop (8 * i)).take 8) j (by omega)
  simp only [show ((bits.drop (8 * i)).take 8).length - 1 - j = 7 - j by omega] at key
  rw [hb, BitVec.getLsbD_ofNat, key]
  simp [List.getD_eq_getElem?_getD]
  rw [List.getElem?_eq_getElem (by omega)]
  simp
  omega

theorem numericBits_length (bs : List Byte) : (numericBits bs).length = dataLength .numeric bs.length := by
  induction bs using numericBits.induct with
  | case1 x y z rest ih =>
    simp only [numericBits, List.length_append, bitsOf_length, ih, dataLength, List.length_cons]
    rw [show (rest.length + 1 + 1 + 1) % 3 = rest.length % 3 by omega]
    omega
  | case2 x y => simp [numericBits, bitsOf_length, dataLength]
  | case3 x => simp [numericBits, bitsOf_length, dataLength]
  | case4 => rfl

theorem alnumBits_length (c : Config) (bs : List Byte) :
    (alnumBits c bs).length = dataLength .alphanumeric bs.length := by
  induction bs using alnumBits.induct with
  | case1 x y rest ih =>
    simp [alnumBits, bitsOf_length, dataLength] at *
    omega
  | case2 x => simp [alnumBits, bitsOf_length, dataLength]
  | case3 => rfl

/-- D(mode, n) is the number of data bits of n bytes. -/
theorem dataBits_length (c : Config) (m : Mode) (bs : List Byte) : (dataBits c m bs).length = dataLength m bs.length := by
  cases m
  · exact numericBits_length bs
  · exact alnumBits_length c bs
  · exact bitsOfBytes_length bs

end Sys2Proof.Laws
end

