-- ==== Sys2Proof/Laws/Codes.lean ====
section
/-! SUPPORT. The Error Correction Coder's lists: the lengths of generator, parity, blocks and interleaved stream; and the
bounds on the entries of CAP. -/

namespace Sys2Proof.Laws

open Sys2Proof.Machine

theorem genStep_length (c : Config) (g : List Byte) (i : Nat) : (genStep c g i).length = g.length + 1 := by
  simp [genStep]

theorem genPoly_length (c : Config) (e : Nat) : (genPoly c e).length = e + 1 := by
  have key : ∀ (l : List Nat) (g : List Byte), (l.foldl (genStep c) g).length = g.length + l.length := by
    intro l
    induction l with
    | nil => simp
    | cons a l ih => intro g; simp [ih, genStep_length]; omega
  rw [genPoly, key]
  simp
  omega

theorem parityStep_length (c : Config) (g r : List Byte) (d : Byte) (h : g.length = r.length + 1) :
    (parityStep c g r d).length = r.length := by
  cases r with
  | nil =>
    cases g with
    | nil => simp at h
    | cons a g => simp at h; subst h; simp [parityStep]
  | cons x r => simp [parityStep, h]

theorem rsParity_length (c : Config) (data : List Byte) (e : Nat) : (rsParity c data e).length = e := by
  have key : ∀ l r : List Byte, r.length = e → (l.foldl (parityStep c (genPoly c e)) r).length = e := by
    intro l
    induction l with
    | nil => intro r h; exact h
    | cons a l ih => intro r h; exact ih _ (by rw [parityStep_length _ _ _ _ (by rw [genPoly_length, h]), h])
  exact key _ _ (by simp)

/-- The blocks' data and parity codewords, when the data fill the blocks. -/
theorem codeBlocks_sums (c : Config) (shapes : List (Nat × Nat)) (data : List Byte)
    (h : (shapes.map Prod.fst).sum ≤ data.length) :
    (((codeBlocks c shapes data).map Prod.fst).map List.length).sum = (shapes.map Prod.fst).sum ∧
    (((codeBlocks c shapes data).map Prod.snd).map List.length).sum = (shapes.map Prod.snd).sum := by
  induction shapes generalizing data with
  | nil => simp [codeBlocks]
  | cons x shapes ih =>
    obtain ⟨k, e⟩ := x
    simp only [List.map_cons, List.sum_cons] at h
    obtain ⟨i1, i2⟩ := ih (data.drop k) (by simp; omega)
    simp only [codeBlocks, List.map_cons, List.sum_cons, rsParity_length, List.length_take]
    constructor
    · rw [i1]; omega
    · rw [i2]

theorem blockShapes_sums (gs : List Group) (h : ∀ g ∈ gs, g.k ≤ g.c) :
    ((blockShapes gs).map Prod.fst).sum = dataOf gs ∧
    ((blockShapes gs).map Prod.fst).sum + ((blockShapes gs).map Prod.snd).sum = totalOf gs := by
  induction gs with
  | nil => simp [blockShapes, dataOf, totalOf]
  | cons g gs ih =>
    obtain ⟨i1, i2⟩ := ih fun x hx => h x (List.mem_cons_of_mem _ hx)
    have hg := h g (by simp)
    simp only [blockShapes, List.flatMap_cons, List.map_append, List.sum_append, List.map_replicate,
      List.sum_replicate, dataOf, totalOf, List.map_cons, List.sum_cons, smul_eq_mul] at *
    rw [i1] at i2 ⊢
    refine ⟨rfl, ?_⟩
    have : g.num * g.k + g.num * (g.c - g.k) = g.num * g.c := by
      rw [← Nat.mul_add]
      congr 1
      omega
    omega

/-- The block groups of any version and level of a configuration R8 admits. -/
theorem groupsOf_bounds (p : Params) (v : Nat) (l : Ecl) :
    (∀ g ∈ groupsOf p.config v l, 1 ≤ g.num ∧ 1 ≤ g.k ∧ g.k < g.c ∧ g.c ≤ 255) ∧
    totalOf (groupsOf p.config v l) ≤ p.config.cwmax := by
  have ok := p.ok
  simp only [configWf, wfCap, Bool.and_eq_true, List.all_eq_true] at ok
  have key : wfGroups p.config.cwmax (groupsOf p.config v l) = true := by
    rw [groupsOf, capOf]
    cases hf : p.config.cap.find? fun row => row.version == v && row.level == l with
    | none => simp [wfGroups, totalOf, blocksOf]
    | some row => simpa using ok.1.1.1.1.2 row (List.mem_of_find?_eq_some hf)
  simp only [wfGroups, Bool.and_eq_true, List.all_eq_true, decide_eq_true_eq] at key
  exact key.1

theorem dataOf_le_totalOf (gs : List Group) (h : ∀ g ∈ gs, g.k ≤ g.c) : dataOf gs ≤ totalOf gs := by
  have := blockShapes_sums gs h
  omega

/-- No version has more data codewords than the largest CAP entry. -/
theorem dcwOf_le_most (c : Config) (v : Nat) (l : Ecl) : dcwOf c v l ≤ mostDataCodewords c := by
  rw [dcwOf, groupsOf, capOf]
  cases hf : c.cap.find? fun row => row.version == v && row.level == l with
  | none => simp [dataOf]
  | some row =>
    have hm : dataOf row.groups ∈ c.cap.map fun r => dataOf r.groups :=
      List.mem_map_of_mem (f := fun r : CapRow => dataOf r.groups) (List.mem_of_find?_eq_some hf)
    rw [mostDataCodewords]
    cases hx : (c.cap.map fun r => dataOf r.groups).max? with
    | none => simp [List.max?_eq_none_iff.mp hx] at hm
    | some x => exact (List.max?_eq_some_iff.mp hx).2 _ hm

/-- Nor has any of the versions a failed search tried. -/
theorem mostDataCodewordsOf_le (c : Config) (l : Ecl) (cand : List Nat) :
    mostDataCodewordsOf c l cand ≤ mostDataCodewords c := by
  rw [mostDataCodewordsOf]
  cases hx : (cand.map fun v => dcwOf c v l).max? with
  | none => simp
  | some x =>
    obtain ⟨v, -, rfl⟩ := List.mem_map.mp (List.max?_mem hx)
    exact dcwOf_le_most c v l

end Sys2Proof.Laws
end

