-- ==== Sys2Proof/Laws/Matrix.lean ====
section
/-! SUPPORT. The matrix: bounds of a version's size, the cells a layout names, and what STAMP, PLACE's failure and MASK leave
at each cell. -/

namespace Sys2Proof.Laws

open Sys2Proof.Machine

theorem sizes_bounded (p : Params) (v : Nat) : heightOf p.config v ≤ 32 ∧ widthOf p.config v ≤ 256 := by
  have ok := p.ok
  simp only [configWf, wfVersions, Bool.and_eq_true, List.all_eq_true, decide_eq_true_eq] at ok
  simp only [heightOf, widthOf, List.getD_eq_getElem?_getD]
  cases hv : p.config.vtab[v]? with
  | none => simp
  | some x =>
    have := ok.1.1.1.1.1.2.2 x (List.mem_of_getElem? hv)
    simp
    omega

theorem nm_bounded (p : Params) : 1 ≤ nm p.config ∧ nm p.config ≤ 8 := by
  have ok := p.ok
  simp only [configWf, wfFormat, Bool.and_eq_true, decide_eq_true_eq] at ok
  exact ok.1.1.2.1

theorem mem_cellsOf (c : Config) (v r col : Nat) : (r, col) ∈ cellsOf c v ↔ r < heightOf c v ∧ col < widthOf c v := by
  simp only [cellsOf, List.mem_flatMap, List.mem_range, List.mem_map]
  constructor
  · rintro ⟨a, h1, b, h2, e⟩
    cases e
    exact ⟨h1, h2⟩
  · rintro ⟨h1, h2⟩
    exact ⟨r, h1, col, h2, rfl⟩

theorem cellsOf_nodup (c : Config) (v : Nat) : (cellsOf c v).Nodup := by
  rw [cellsOf, List.nodup_flatMap]
  refine ⟨fun r _ => List.nodup_range.map fun a b e => by cases e; rfl, ?_⟩
  refine List.nodup_range.imp fun {a b} hab => ?_
  rintro ⟨x, y⟩ h1 h2
  simp at h1 h2
  exact hab (h1.2 ▸ h2.2 ▸ rfl)

theorem memory_sorted_of_pairwise {α : Type} (m : List (Nat × α)) (h : m.Pairwise fun a b => a.1 < b.1) :
    Memory.sorted m = true := by
  induction m with
  | nil => rfl
  | cons x m ih =>
    rw [List.pairwise_cons] at h
    obtain ⟨k, v⟩ := x
    simp only [Memory.sorted, Bool.and_eq_true, List.all_eq_true, decide_eq_true_eq]
    exact ⟨h.1, ih h.2⟩

theorem stampedCells_sorted (p : Params) (v : Nat) : Memory.sorted (stampedCells p.config v) = true := by
  have hw := (sizes_bounded p v).2
  apply memory_sorted_of_pairwise
  rw [stampedCells, List.pairwise_map, cellsOf, List.pairwise_flatMap]
  refine ⟨fun r _ => ?_, ?_⟩
  · rw [List.pairwise_map]
    exact List.pairwise_lt_range.imp fun h => by simp only [cellIndex]; omega
  · refine List.pairwise_lt_range.imp fun {a b} hab => ?_
    rintro ⟨r, x⟩ h1 ⟨r', y⟩ h2
    simp only [List.mem_map, List.mem_range] at h1 h2
    obtain ⟨_, h1, e⟩ := h1
    cases e
    obtain ⟨_, h2, e⟩ := h2
    cases e
    simp only [cellIndex]
    omega

theorem stampedCells_wf (p : Params) (v : Nat) : Memory.wf outsideCell (stampedCells p.config v) = true := by
  simp only [Memory.wf, stampedCells_sorted, Bool.true_and, List.all_eq_true, decide_eq_true_eq]
  intro q hq
  simp only [stampedCells, List.mem_map] at hq
  obtain ⟨x, _, rfl⟩ := hq
  show cellOfLayout (geomCell p.config v x.1 x.2) ≠ outsideCell
  cases geomCell p.config v x.1 x.2 <;> decide

theorem stampedCells_read (p : Params) (v r c : Nat) (hc : c < 256) :
    Memory.read outsideCell (stampedCells p.config v) (cellIndex r c) =
      if r < heightOf p.config v ∧ c < widthOf p.config v then cellOfLayout (geomCell p.config v r c)
      else outsideCell := by
  have hb := sizes_bounded p v
  split
  · next h =>
    rw [Memory.read, memory_find_of_mem (stampedCells_sorted p v) (v := cellOfLayout (geomCell p.config v r c))]
    · rfl
    · simp only [stampedCells, List.mem_map]
      exact ⟨(r, c), (mem_cellsOf _ _ _ _).2 h, rfl⟩
  · next h =>
    rw [Memory.read, memory_find_none]
    · rfl
    · rintro ⟨k, x⟩ hq e
      simp only [stampedCells, List.mem_map] at hq
      obtain ⟨⟨r', c'⟩, hm, e'⟩ := hq
      rw [mem_cellsOf] at hm
      cases e'
      rw [cellIndex_inj (by omega) hc] at e
      exact h (e.1 ▸ e.2 ▸ hm)

/-- A listing whose values are mapped by a function of index and value. -/
theorem memory_find_map (m : List (Nat × Cell)) (f : Nat → Cell → Cell) (k : Nat) :
    Memory.find (m.map fun p => (p.1, f p.1 p.2)) k = (Memory.find m k).map (f k) := by
  induction m with
  | nil => rfl
  | cons p m ih =>
    obtain ⟨a, x⟩ := p
    simp only [List.map_cons, Memory.find]
    split
    · next h => subst h; rfl
    · exact ih

theorem cell_getD_map (f : Cell → Cell) (hf : f outsideCell = outsideCell) (o : Option Cell) :
    (o.map f).getD outsideCell = f (o.getD outsideCell) := by
  cases o <;> simp [hf]

theorem cellAt_freePlaceOutputs (s : State) (r c : Nat) :
    cellAt (freePlaceOutputs s) r c =
      if (cellAt s r c).tag = .data then
        { cellAt s r c with colour := colourOfWord (Config.unspecified s.draws (cellIndex r c)) }
      else cellAt s r c := by
  have hcells : (freePlaceOutputs s).cells = s.cells.map fun p => (p.1,
      (fun k (x : Cell) => if x.tag = .data then { x with colour := colourOfWord (Config.unspecified s.draws k) }
        else x) p.1 p.2) := by
    simp only [freePlaceOutputs]
    apply List.map_congr_left
    intro p _
    split <;> simp_all
  simp only [cellAt, hcells, Memory.read]
  rw [memory_find_map s.cells
    (fun k x => if x.tag = .data then { x with colour := colourOfWord (Config.unspecified s.draws k) } else x)]
  exact cell_getD_map (fun x => if x.tag = .data then
    { x with colour := colourOfWord (Config.unspecified s.draws (cellIndex r c)) } else x) rfl _

theorem cellAt_maskedCells {s t : State} {m : MaskFn} {r c : Nat} (hc : c < 256) (ht : t.cells = maskedCells m s.cells) :
    cellAt t r c = maskCell m r c (cellAt s r c) := by
  simp only [cellAt, ht, maskedCells, Memory.read]
  rw [memory_find_map _ (fun k x => maskCell m (cellRow k) (cellCol k) x),
    show cellRow (cellIndex r c) = r by simp only [cellRow, cellIndex]; omega,
    show cellCol (cellIndex r c) = c by simp only [cellCol, cellIndex]; omega]
  cases Memory.find s.cells (cellIndex r c) with
  | none => simp [outsideCell, maskCell]
  | some x => simp

/-- Setting colours keeps the canonical form of the matrix memory. -/
theorem memory_wf_setColours (s : State) (ps : List (Nat × Nat)) (ks : List Colour)
    (h : Memory.wf outsideCell s.cells = true) : Memory.wf outsideCell (setColours s ps ks).cells = true := by
  induction ps generalizing s ks with
  | nil => cases ks <;> exact h
  | cons p ps ih =>
    cases ks with
    | nil => exact h
    | cons k ks => exact ih _ _ (memory_wf_write _ _ _ _ h)

/-- The format positions of a version: two lists of FMT_W cells, no cell twice, exactly the Format cells (R8). -/
theorem formatCells_spec (p : Params) (v : Nat) (hv : v < nv p.config) :
    (fmtPosA p.config v).length = fmtW p.config ∧ (fmtPosB p.config v).length = fmtW p.config ∧
    (fmtPosA p.config v ++ fmtPosB p.config v).Nodup ∧
    (∀ r c, (r, c) ∈ fmtPosA p.config v ++ fmtPosB p.config v ↔
      r < heightOf p.config v ∧ c < widthOf p.config v ∧ geomCell p.config v r c = .format) := by
  have ok := p.ok
  simp only [configWf, wfFormat, wfFormatCells, Bool.and_eq_true, List.all_eq_true, List.mem_range] at ok
  obtain ⟨⟨⟨⟨h1, h2⟩, h3⟩, h4⟩, h5⟩ := ok.1.1.2.2 v hv
  simp only [decide_eq_true_eq, beq_iff_eq, Bool.or_eq_true, bne_iff_ne, List.contains_iff_mem]
    at h1 h2 h3 h4 h5
  refine ⟨h1, h2, h3, fun r c => ⟨fun h => ?_, fun h => ?_⟩⟩
  · have := h4 _ h
    exact ⟨this.1.1, this.1.2, this.2⟩
  · have := h5 (r, c) ((mem_cellsOf _ _ _ _).2 ⟨h.1, h.2.1⟩)
    exact this.resolve_left (by simpa using h.2.2)

/-- A format register has no bit from FMT_W on (10_state.md R41). -/
theorem fmtRegister_lt (c : Config) (w : Nat) : (fmtRegister c w).toNat < 2 ^ fmtW c := by
  rw [fmtRegister, BitVec.toNat_ofNat, field, Nat.pow_zero, Nat.mul_one]
  exact lt_of_le_of_lt (Nat.mod_le _ _) (Nat.mod_lt _ (Nat.two_pow_pos _))

/-- The least index of a nonempty list of penalties. -/
theorem leastIndex_spec (ps : List Nat) (hne : ps ≠ []) :
    leastIndex ps < ps.length ∧ (∀ q ∈ ps, ps.getD (leastIndex ps) 0 ≤ q) ∧
    ∀ j < leastIndex ps, ps.getD (leastIndex ps) 0 < ps.getD j 0 := by
  have hex : ∃ x ∈ ps, (ps.all fun q => decide (x ≤ q)) = true := by
    cases h : ps.min? with
    | none => simp at h; exact absurd h hne
    | some m => exact ⟨m, List.min?_mem h, by simpa using fun q hq => (List.le_min?_iff h).1 (le_refl m) q hq⟩
  have h1 : leastIndex ps < ps.length := List.findIdx_lt_length.2 hex
  have e : ps.getD (leastIndex ps) 0 = ps[leastIndex ps] := by simp [List.getD_eq_getElem?_getD, h1]
  have h2 : ∀ q ∈ ps, ps[leastIndex ps] ≤ q := by
    have : (ps.all fun q => decide (ps[leastIndex ps] ≤ q)) = true := List.findIdx_getElem (w := h1)
    simpa using this
  refine ⟨h1, fun q hq => by rw [e]; exact h2 q hq, fun j hj => ?_⟩
  have ej : ps.getD j 0 = ps[j] := by simp [List.getD_eq_getElem?_getD, show j < ps.length by omega]
  rw [e, ej]
  by_contra hc
  have h3 : (ps.all fun q => decide (ps[j] ≤ q)) = false := by simpa using List.not_of_lt_findIdx hj
  have h4 : (ps.all fun q => decide (ps[j] ≤ q)) = true := by
    simp only [List.all_eq_true, decide_eq_true_eq]
    intro q hq
    have := h2 q hq
    omega
  rw [h4] at h3
  cases h3

end Sys2Proof.Laws
end

