-- ==== Sys2Proof/Laws/PerInstr.lean ====
section
/-! SUPPORT. The family EncodeShape: the fields of every well-formed command's word, one lemma per constructor. -/

namespace Sys2Proof.Laws

/-- The four fields of a word put together from an opcode and two operands below 256. -/
theorem fields_of_word (opc a b : Nat) (ho : opc < 256) (ha : a < 256) (hb : b < 256) :
    opcField (BitVec.ofNat 32 (opc * 2 ^ 24 + a * 2 ^ 8 + b)) = opc ∧
    f2Field (BitVec.ofNat 32 (opc * 2 ^ 24 + a * 2 ^ 8 + b)) = 0 ∧
    f1Field (BitVec.ofNat 32 (opc * 2 ^ 24 + a * 2 ^ 8 + b)) = a ∧
    f0Field (BitVec.ofNat 32 (opc * 2 ^ 24 + a * 2 ^ 8 + b)) = b := by
  simp only [opcField, f2Field, f1Field, f0Field, BitVec.toNat_ofNat]
  refine ⟨?_, ?_, ?_, ?_⟩ <;> omega

/-- R92 and R93: the opcode stands in bits 31 to 24, the reserved field holds 0, the operands stand in bits 15 to 8 and
7 to 0. -/
def EncodeShape.Statement (i : Instr) : Prop :=
  i.wf = true → opcField (encode i) = opcode i ∧ f2Field (encode i) = 0 ∧ f1Field (encode i) = operandF1 i
    ∧ f0Field (encode i) = operandF0 i

theorem EncodeShape.nop : EncodeShape.Statement .nop := fun _ => fields_of_word _ _ _ (by decide) (by decide) (by decide)

theorem EncodeShape.clear : EncodeShape.Statement .clear := fun _ => fields_of_word _ _ _ (by decide) (by decide) (by decide)

theorem EncodeShape.softReset : EncodeShape.Statement .softReset :=
  fun _ => fields_of_word _ _ _ (by decide) (by decide) (by decide)

theorem EncodeShape.segment : EncodeShape.Statement .segment :=
  fun _ => fields_of_word _ _ _ (by decide) (by decide) (by decide)

theorem EncodeShape.build : EncodeShape.Statement .build := fun _ => fields_of_word _ _ _ (by decide) (by decide) (by decide)

theorem EncodeShape.rsenc : EncodeShape.Statement .rsenc := fun _ => fields_of_word _ _ _ (by decide) (by decide) (by decide)

theorem EncodeShape.stamp : EncodeShape.Statement .stamp := fun _ => fields_of_word _ _ _ (by decide) (by decide) (by decide)

theorem EncodeShape.place : EncodeShape.Statement .place := fun _ => fields_of_word _ _ _ (by decide) (by decide) (by decide)

theorem EncodeShape.mask : EncodeShape.Statement .mask := fun _ => fields_of_word _ _ _ (by decide) (by decide) (by decide)

theorem EncodeShape.format : EncodeShape.Statement .format := fun _ => fields_of_word _ _ _ (by decide) (by decide) (by decide)

theorem EncodeShape.encode : EncodeShape.Statement .encode := fun _ => fields_of_word _ _ _ (by decide) (by decide) (by decide)

theorem EncodeShape.gfMul (a b : Nat) : EncodeShape.Statement (.gfMul a b) := fun h => by
  simp only [Instr.wf, fitsField, Bool.and_eq_true, decide_eq_true_eq] at h
  exact fields_of_word 0x20 a _ (by decide) h.1 h.2

theorem EncodeShape.gfExp (n : Nat) : EncodeShape.Statement (.gfExp n) := fun h => by
  simp only [Instr.wf, fitsField, decide_eq_true_eq] at h
  exact fields_of_word 0x21 0 _ (by decide) (by decide) h

theorem EncodeShape.gfLog (a : Nat) : EncodeShape.Statement (.gfLog a) := fun h => by
  simp only [Instr.wf, fitsField, decide_eq_true_eq] at h
  exact fields_of_word 0x22 0 _ (by decide) (by decide) h

theorem EncodeShape.gfInv (a : Nat) : EncodeShape.Statement (.gfInv a) := fun h => by
  simp only [Instr.wf, fitsField, decide_eq_true_eq] at h
  exact fields_of_word 0x23 0 _ (by decide) (by decide) h

theorem EncodeShape.rsBlock (k e : Nat) : EncodeShape.Statement (.rsBlock k e) := fun h => by
  simp only [Instr.wf, fitsField, Bool.and_eq_true, decide_eq_true_eq] at h
  exact fields_of_word 0x24 k _ (by decide) h.1 h.2

theorem EncodeShape.genPoly (e : Nat) : EncodeShape.Statement (.genPoly e) := fun h => by
  simp only [Instr.wf, fitsField, decide_eq_true_eq] at h
  exact fields_of_word 0x25 0 _ (by decide) (by decide) h

end Sys2Proof.Laws
end

