-- ==== Sys2Proof/Laws/Reference.lean ====
section
/-! SUPPORT. The reference configuration shows 00_scope.md R8 condition 3, whatever its OPEN capacity table is; and its
Data cells counted row by row on bit masks, a form of free(v) that evaluates fast. -/

namespace Sys2Proof.Laws

open Sys2Proof.Machine

/-- An entry of the capacity table the OPEN parameter gives fills the Data cells of its version (R8 condition 3). -/
theorem capOfOpen_matches {basePage : Nat} {rows : List CapRow} {cciW : List CountWidths} {bad : List Byte} {v : Nat}
    {l : Ecl} {gs : List Group} (h : capOf (refWith basePage (capOfOpen rows) cciW bad) v l = some gs) :
    v < 32 ∧ freeCells (refWith basePage (capOfOpen rows) cciW bad) v = 8 * totalOf gs + refRem.getD v 0 := by
  rw [capOf, Option.map_eq_some_iff] at h
  obtain ⟨row, hrow, rfl⟩ := h
  have hv := List.find?_some hrow
  have hm := (List.mem_filter.mp (List.mem_of_find?_eq_some hrow)).2
  simp only [Bool.and_eq_true, beq_iff_eq, decide_eq_true_eq] at hv hm
  obtain ⟨rfl, -⟩ := hv
  exact ⟨hm.1.1, eq_of_beq hm.2⟩

/-- The reference TCW(v, l) is ⌊free(v)/8⌋ (42_bitstream.md R160). -/
theorem capOfOpen_total {basePage : Nat} {rows : List CapRow} {cciW : List CountWidths} {bad : List Byte} {v : Nat}
    {l : Ecl} {gs : List Group} (h : capOf (refWith basePage (capOfOpen rows) cciW bad) v l = some gs) :
    totalOf gs = freeCells (refWith basePage (capOfOpen rows) cciW bad) v / 8 := by
  obtain ⟨hv, hf⟩ := capOfOpen_matches h
  have hr : ∀ v < 32, refRem.getD v 0 < 8 := by decide
  have := hr v hv
  omega

/-- In the reference configuration PLACE of a selection with a CAP entry never reports a mismatch (R251). -/
theorem placeRule_reference {s : State} (hp : s.params = referenceParams)
    (h : (capOf s.cfg s.viSel.toNat s.eclSel).isSome) : ∃ t, placeRule s = .success t := by
  obtain ⟨gs, hg⟩ := Option.isSome_iff_exists.mp h
  have hm : freeCells s.cfg s.viSel.toNat
      = 8 * totalOf (selectedGroups s) + s.cfg.rem.getD s.viSel.toNat 0 := by
    rw [selectedGroups, groupsOf, hg, Option.getD_some]
    rw [State.cfg, hp] at hg ⊢
    exact (capOfOpen_matches hg).2
  exact ⟨_, by rw [placeRule, if_neg (not_not_intro hm)]⟩

/-! ## free(v) of a reference layout (44_matrix.md R239), evaluated fast -/

/-- The bits [lo, hi) when `on` holds. -/
def bitsIf (on : Bool) (lo hi : Nat) : Nat := bif on then (2 ^ (hi - lo) - 1) <<< lo else 0

theorem testBit_bitsIf (on : Bool) (lo hi c : Nat) :
    (bitsIf on lo hi).testBit c = true ↔ on = true ∧ lo ≤ c ∧ c < hi := by
  cases on
  · simp [bitsIf]
  · simp only [bitsIf, cond_true, Nat.testBit_shiftLeft, Nat.testBit_two_pow_sub_one, Bool.and_eq_true,
      decide_eq_true_eq, true_and, ge_iff_le]
    omega

/-- The columns of row r that are no Data cells, as the bits of a number, from the alignment columns on. -/
def alignMask (edge : Bool) : List Nat → Nat
  | [] => 0
  | cx :: rest => bitsIf true cx (cx + 1) ||| bitsIf edge (cx - 1) (cx + 2) ||| alignMask edge rest

theorem testBit_alignMask (edge : Bool) (cols : List Nat) (c : Nat) :
    (alignMask edge cols).testBit c = true ↔ ∃ cx ∈ cols, c = cx ∨ edge = true ∧ Machine.dist c cx ≤ 1 := by
  induction cols with
  | nil => simp [alignMask]
  | cons cx rest ih =>
    simp only [alignMask, Nat.testBit_or, Bool.or_eq_true, testBit_bitsIf, ih, List.mem_cons, exists_eq_or_imp, true_and]
    refine or_congr_left ?_
    simp only [Machine.dist]
    cases edge <;> simp <;> omega

/-- The columns of row r of a reference layout that are no Data cells (44_matrix.md R231 to R238). -/
def fixedMask (cols : List Nat) (h w r : Nat) : Nat :=
  bitsIf (Nat.ble 1 r && Nat.ble r 5) 8 11 ||| bitsIf (Nat.ble 1 r && Nat.ble r 3) 11 12 |||
  bitsIf (Nat.ble h (r + 6) && Nat.ble (r + 2) h) (w - 8) (w - 5) ||| bitsIf (Nat.beq (r + 6) h) (w - 5) (w - 2) |||
  bitsIf (Nat.ble r 6) 0 7 ||| bitsIf (Nat.ble r 7) 7 8 ||| bitsIf (Nat.ble 9 h && Nat.beq r 7) 0 8 |||
  bitsIf (Nat.ble h (r + 5)) (w - 5) w ||| bitsIf (Nat.beq r 1) (w - 2) w |||
  bitsIf (Nat.ble 11 h && Nat.beq (r + 2) h) 0 2 ||| bitsIf (Nat.beq r 0 || Nat.beq (r + 1) h) 0 w |||
  bitsIf true 0 1 ||| bitsIf true (w - 1) w ||| alignMask (Nat.ble r 2 || Nat.ble h (r + 3)) cols

theorem orElse_eq_none {x y : Option Layout} : (x <|> y) = none ↔ x = none ∧ y = none := by cases x <;> simp

theorem rmqrCell_eq_data {align : List (Nat × List Nat)} {h w r c : Nat} :
    rmqrCell align h w r c = .data ↔
      inPosA r c = false ∧ inPosB h w r c = false ∧ structuralCell (alignColumns align w) h w r c = none := by
  rw [rmqrCell]
  have hd := structuralCell_ne_data (alignColumns align w) h w r c
  cases inPosA r c <;> cases inPosB h w r c <;> cases hs : structuralCell (alignColumns align w) h w r c <;> simp_all

theorem alignmentCell_eq_none {cols : List Nat} {h r c : Nat} :
    alignmentCell cols h r c = none ↔ ¬∃ cx ∈ cols, (r ≤ 2 ∨ h ≤ r + 3) ∧ Machine.dist c cx ≤ 1 := by
  rw [alignmentCell]
  split
  · next cx hf =>
    have hm := List.mem_of_find?_eq_some hf
    have hc : Machine.dist c cx ≤ 1 := by simpa using List.find?_some hf
    have he : (∃ cx ∈ cols, (r ≤ 2 ∨ h ≤ r + 3) ∧ Machine.dist c cx ≤ 1) ↔ (r ≤ 2 ∨ h ≤ r + 3) :=
      ⟨fun ⟨_, _, h, _⟩ => h, fun h => ⟨cx, hm, h, hc⟩⟩
    rw [he]
    split
    · simp_all
    · split <;> simp_all
  · next hf =>
    simp only [List.find?_eq_none, decide_eq_true_eq] at hf
    simp only [true_iff]
    rintro ⟨cx, hm, -, hc⟩
    exact hf cx hm hc

theorem timingCell_eq_none {cols : List Nat} {h w r c : Nat} :
    timingCell cols h w r c = none ↔ ¬(r = 0 ∨ r + 1 = h) ∧ ¬(c = 0 ∨ c + 1 = w) ∧ c ∉ cols := by
  rw [timingCell]
  split <;> [skip; split] <;> (simp_all; try tauto)

/-- The cells of a reference row that `fixedMask` leaves out are its Data cells. -/
theorem rmqrCell_data_iff {align : List (Nat × List Nat)} {h w r c : Nat} (hh : 7 ≤ h) (hw : 27 ≤ w) (hr : r < h)
    (hc : c < w) : rmqrCell align h w r c = .data ↔ ¬(fixedMask (alignColumns align w) h w r).testBit c = true := by
  rw [rmqrCell_eq_data]
  simp only [structuralCell, orElse_eq_none, alignmentCell_eq_none, timingCell_eq_none, fixedMask, Nat.testBit_or,
    Bool.or_eq_true, testBit_bitsIf, testBit_alignMask, Bool.and_eq_true, Nat.ble_eq, Nat.beq_eq, true_and]
  have hA : inPosA r c = false ↔ ¬((1 ≤ r ∧ r ≤ 5) ∧ 8 ≤ c ∧ c < 11 ∨ (1 ≤ r ∧ r ≤ 3) ∧ 11 ≤ c ∧ c < 12) := by
    rw [← Bool.not_eq_true]
    simp only [inPosA, Bool.and_eq_true, Bool.or_eq_true, decide_eq_true_eq, beq_iff_eq]; omega
  have hB : inPosB h w r c = false ↔
      ¬((h ≤ r + 6 ∧ r + 2 ≤ h) ∧ w - 8 ≤ c ∧ c < w - 5 ∨ r + 6 = h ∧ w - 5 ≤ c ∧ c < w - 2) := by
    rw [← Bool.not_eq_true]
    simp only [inPosB, Bool.and_eq_true, Bool.or_eq_true, decide_eq_true_eq, beq_iff_eq]; omega
  have hF : finderCell r c = none ↔ ¬(r ≤ 6 ∧ 0 ≤ c ∧ c < 7) := by simp only [finderCell]; split <;> simp <;> omega
  have hS : separatorCell h r c = none ↔ ¬(r ≤ 7 ∧ 7 ≤ c ∧ c < 8 ∨ (9 ≤ h ∧ r = 7) ∧ 0 ≤ c ∧ c < 8) := by
    simp only [separatorCell]; split <;> simp <;> omega
  have hU : subfinderCell h w r c = none ↔ ¬(h ≤ r + 5 ∧ w - 5 ≤ c ∧ c < w) := by
    simp only [subfinderCell]; split <;> simp <;> omega
  have hC : cornerCell h w r c = none ↔ ¬((r = 0 ∧ w ≤ c + 2) ∨ (r = 1 ∧ w ≤ c + 2) ∨ (r + 1 = h ∧ c ≤ 2)
      ∨ (11 ≤ h ∧ r + 2 = h ∧ c ≤ 1)) := by
    simp only [cornerCell]; split_ifs <;> simp <;> omega
  have hl : (∃ cx ∈ alignColumns align w, c = cx ∨ (r ≤ 2 ∨ h ≤ r + 3) ∧ Machine.dist c cx ≤ 1) ↔
      c ∈ alignColumns align w ∨ ∃ cx ∈ alignColumns align w, (r ≤ 2 ∨ h ≤ r + 3) ∧ Machine.dist c cx ≤ 1 := by
    constructor
    · rintro ⟨cx, hm, rfl | h⟩
      · exact .inl hm
      · exact .inr ⟨cx, hm, h⟩
    · rintro (h | ⟨cx, hm, h⟩)
      · exact ⟨c, h, .inl rfl⟩
      · exact ⟨cx, hm, .inr h⟩
  have hr1 : (r = 1 ∧ w - 2 ≤ c ∧ c < w) ↔ r = 1 ∧ w ≤ c + 2 := by omega
  have hr2 : ((11 ≤ h ∧ r + 2 = h) ∧ 0 ≤ c ∧ c < 2) ↔ 11 ≤ h ∧ r + 2 = h ∧ c ≤ 1 := by omega
  have he : ((r = 0 ∨ r + 1 = h) ∧ 0 ≤ c ∧ c < w) ↔ r = 0 ∨ r + 1 = h := by omega
  have hc0 : (0 ≤ c ∧ c < 1) ↔ c = 0 := by omega
  have hc1 : (w - 1 ≤ c ∧ c < w) ↔ c + 1 = w := by omega
  rw [hA, hB, hF, hS, hU, hC, hl, hr1, hr2, he, hc0, hc1]
  clear hA hB hF hS hU hC hl hr1 hr2 he hc0 hc1
  simp only [not_or, and_assoc]
  exact ⟨fun ⟨a, b, d, e, f, g, i, j, _, k, _, l, q, r0, r1, c0, c1, p⟩ =>
      ⟨a, b, d, e, f, g, i, j, k, l, r0, r1, c0, c1, p, q⟩,
    fun ⟨a, b, d, e, f, g, i, j, k, l, r0, r1, c0, c1, p, q⟩ =>
      ⟨a, b, d, e, f, g, i, j, fun x => r0 x.1, k, fun x => r1 x.1, l, q, r0, r1, c0, c1, p⟩⟩

/-- The 1 bits among the low n bits of a number. -/
def onesBelow : Nat → Nat → Nat
  | 0, _ => 0
  | n + 1, m => m % 2 + onesBelow n (m / 2)

/-- The number of 0 bits below n, as a count over the bits. -/
theorem countP_testBit (n m : Nat) : ((List.range n).countP fun c => m.testBit c == false) = n - onesBelow n m := by
  have hle : ∀ n m, onesBelow n m ≤ n := by
    intro n
    induction n with
    | zero => exact fun _ => Nat.le_refl 0
    | succ n ih => intro m; have := ih (m / 2); simp only [onesBelow]; omega
  induction n generalizing m with
  | zero => rfl
  | succ n ih =>
    rw [List.range_succ_eq_map, List.countP_cons, List.countP_map]
    have e : ((fun c => m.testBit c == false) ∘ Nat.succ) = fun c => (m / 2).testBit c == false := by
      funext c; simp [Nat.testBit_succ]
    have := hle n (m / 2)
    have hm := Nat.mod_two_eq_zero_or_one m
    rw [e, ih]
    simp only [onesBelow, Nat.testBit_zero]
    rcases hm with hm | hm <;> simp [hm] <;> omega

/-- The Data cells of a reference layout, counted row by row on the bits of `fixedMask`. -/
def dataCells (cols : List Nat) (h w : Nat) : Nat :=
  ((List.range h).map fun r => w - onesBelow w (fixedMask cols h w r)).sum

/-- free(v) of the reference configuration in a form that evaluates fast. -/
theorem freeCells_reference {basePage : Nat} {cap : List CapRow} {cciW : List CountWidths} {bad : List Byte} {v : Nat}
    (hv : v < 32) : freeCells (refWith basePage cap cciW bad) v =
      dataCells (alignColumns refAlign (refVtab.getD v (0, 0)).2) (refVtab.getD v (0, 0)).1 (refVtab.getD v (0, 0)).2 := by
  obtain ⟨hh, hw⟩ := refVtab_getD hv
  have eC : ∀ r c, geomCell (refWith basePage cap cciW bad) v r c =
      rmqrCell refAlign (refVtab.getD v (0, 0)).1 (refVtab.getD v (0, 0)).2 r c := fun _ _ => rfl
  have eL : cellsOf (refWith basePage cap cciW bad) v = (List.range (refVtab.getD v (0, 0)).1).flatMap fun r =>
      (List.range (refVtab.getD v (0, 0)).2).map fun col => (r, col) := rfl
  rw [freeCells, eL, dataCells, ← List.countP_eq_length_filter, List.countP_flatMap]
  simp only [eC]
  generalize refVtab.getD v (0, 0) = s at hh hw
  obtain ⟨h, w⟩ := s
  refine congrArg List.sum (List.map_congr_left fun r hr => ?_)
  rw [Function.comp, List.countP_map, ← countP_testBit]
  refine List.countP_congr fun c hc => ?_
  simp only [Function.comp, beq_iff_eq]
  rw [← Bool.not_eq_true]
  exact rmqrCell_data_iff (by simp at hh; omega) (by simpa using hw) (List.mem_range.mp hr) (List.mem_range.mp hc)

end Sys2Proof.Laws
end

