-- ==== Sys2Proof/Laws/Rules.lean ====
section
/-! SUPPORT. What each command's rule can end in, said once, with its frame: `{ t with f := s.f } = …` says that no field
of t but those named differs. -/

namespace Sys2Proof.Laws

open Sys2Proof.Machine

/-! ## Frames of the shared writes -/

theorem setCwBytes_frame (s : State) (base : Nat) (vs : List Byte) :
    { setCwBytes s base vs with cwbuf := s.cwbuf, cwFree := s.cwFree } = s := by
  induction vs generalizing s base with
  | nil => rfl
  | cons v vs ih =>
    rw [setCwBytes]
    exact congrArg (fun t : State => { t with cwbuf := s.cwbuf, cwFree := s.cwFree }) (ih (setCwByte s base v) (base + 1))

theorem setSegEntries_frame (s : State) (base : Nat) (es : List SegEntry) :
    { setSegEntries s base es with segtab := s.segtab, segFree := s.segFree } = s := by
  induction es generalizing s base with
  | nil => rfl
  | cons e es ih =>
    rw [setSegEntries]
    exact congrArg (fun t : State => { t with segtab := s.segtab, segFree := s.segFree })
      (ih (setSegEntry s base e) (base + 1))

theorem setColours_frame (s : State) (ps : List (Nat × Nat)) (ks : List Colour) :
    { setColours s ps ks with cells := s.cells } = s := by
  induction ps generalizing s ks with
  | nil => cases ks <;> rfl
  | cons p ps ih =>
    cases ks with
    | nil => rfl
    | cons k ks =>
      rw [setColours]
      exact congrArg (fun t : State => { t with cells := s.cells }) (ih (setColour s p.1 p.2 k) ks)

/-! ## The ends of the rules -/

/-- A command whose rule runs ends in the rule's success or in error entry. -/
theorem runRule_cases {rule : State → RuleEnd} {s t : State} (he : s.error = false)
    (h : (.next (runRule rule s) : Host.Outcome State Fault Refusal) = .next t) :
    (∃ u, rule s = .success u ∧ t = succeed u) ∨ (∃ f u, rule s = .failed f u ∧ t = raiseError f u) := by
  cases h
  rw [runRule_ready he]
  cases rule s with
  | success u => exact .inl ⟨u, rfl, rfl⟩
  | failed f u => exact .inr ⟨f, u, rfl, rfl⟩

theorem segmentRule_cases (s : State) :
    (∃ t, segmentRule s = .success t ∧
      { t with segtab := s.segtab, segFree := s.segFree, nseg := s.nseg } = { s with stage := .segmented }) ∨
    (∃ f t, segmentRule s = .failed f t ∧ isEncodingError f.kind = true ∧ f.opc = 0x10 ∧
      { t with segtab := s.segtab, segFree := s.segFree, nseg := s.nseg }
        = { s with stage := .none, draws := s.draws + 1 }) := by
  simp only [segmentRule]
  split
  · exact .inr ⟨_, _, rfl, rfl, rfl, rfl⟩
  · split
    · exact .inr ⟨_, _, rfl, rfl, rfl, rfl⟩
    · exact .inl ⟨_, rfl, congrArg (fun t : State => { t with nseg := s.nseg, stage := .segmented })
        (setSegEntries_frame s 0 ((segments s.cfg (payload s)).map entryOfSegment))⟩

theorem buildRule_cases (s : State) :
    (∃ t, buildRule s = .success t ∧
      { t with cwbuf := s.cwbuf, cwFree := s.cwFree, viSel := s.viSel, eclSel := s.eclSel, resH := s.resH,
               resW := s.resW, resBits := s.resBits, resCw := s.resCw } = { s with stage := .built }) ∨
    (∃ f t, buildRule s = .failed f t ∧ isEncodingError f.kind = true ∧ f.opc = 0x11 ∧
      { t with cwbuf := s.cwbuf, cwFree := s.cwFree, viSel := s.viSel, eclSel := s.eclSel, resH := s.resH,
               resW := s.resW, resBits := s.resBits, resCw := s.resCw } = { s with draws := s.draws + 1 }) := by
  simp only [buildRule]
  split
  · exact .inr ⟨_, _, rfl, rfl, rfl, rfl⟩
  · split
    · exact .inr ⟨_, _, rfl, rfl, rfl, rfl⟩
    · split
      · next v _ =>
        exact .inl ⟨_, rfl, congrArg
          (fun t : State => { t with viSel := s.viSel, eclSel := s.eclSel, resH := s.resH, resW := s.resW,
                                     resBits := s.resBits, resCw := s.resCw, stage := .built })
          (setCwBytes_frame s 0 (bytesOfBits (dataOf (groupsOf s.cfg v (configEcl s))) (stream s v (configEcl s))))⟩
      · exact .inr ⟨_, _, rfl, rfl, rfl, rfl⟩

theorem rsencRule_success (s : State) : ∃ t, rsencRule s = .success t ∧
    { t with cwbuf := s.cwbuf, cwFree := s.cwFree } = { s with stage := .coded } :=
  ⟨_, rfl, congrArg (fun t : State => { t with stage := .coded }) (setCwBytes_frame s 0 (interleave
    (codeBlocks s.cfg (blockShapes (selectedGroups s)) (cwBytes s 0 (dataOf (selectedGroups s))))))⟩

theorem placeRule_cases (s : State) :
    (∃ t, placeRule s = .success t ∧ { t with cells := s.cells } = { s with stage := .placed }) ∨
    (∃ f t, placeRule s = .failed f t ∧ isEncodingError f.kind = true ∧ f.opc = 0x14 ∧
      { t with cells := s.cells } = { s with draws := s.draws + 1 }) := by
  simp only [placeRule]
  split
  · exact .inr ⟨_, _, rfl, rfl, rfl, rfl⟩
  · exact .inl ⟨_, rfl, congrArg (fun t : State => { t with stage := .placed }) (setColours_frame s _ _)⟩

theorem formatRule_success (s : State) : ∃ t, formatRule s = .success t ∧
    { t with cells := s.cells, resFmtA := s.resFmtA, resFmtB := s.resFmtB } = { s with stage := .formatted } := by
  refine ⟨_, rfl, ?_⟩
  rw [State.mk.injEq]
  simp

/-! ## What no command touches -/

/-- The configuration and the host's side are the same in two states. -/
structure SameOutside (s t : State) : Prop where
  params : t.params = s.params
  host : t.host = s.host
  reads : t.reads = s.reads
  turns : t.turns = s.turns

theorem SameOutside.refl (s : State) : SameOutside s s := ⟨rfl, rfl, rfl, rfl⟩

theorem SameOutside.trans {s t u : State} (h : SameOutside s t) (h' : SameOutside t u) : SameOutside s u :=
  ⟨h'.1.trans h.1, h'.2.trans h.2, h'.3.trans h.3, h'.4.trans h.4⟩

/-- The state a rule ends in. -/
def endState : RuleEnd → State
  | .success t => t
  | .failed _ t => t

theorem sameOutside_finish {s : State} {r : RuleEnd} (h : SameOutside s (endState r)) : SameOutside s (finish r) := by
  cases r with
  | success t => exact ⟨h.1, h.2, h.3, h.4⟩
  | failed f t =>
    simp only [finish, raiseError]
    split <;> exact ⟨h.1, h.2, h.3, h.4⟩

theorem sameOutside_runRule {rule : State → RuleEnd} {s : State} (h : SameOutside s (endState (rule s))) :
    SameOutside s (runRule rule s) := by
  rw [runRule]
  split
  · exact ⟨rfl, rfl, rfl, rfl⟩
  · exact sameOutside_finish h

theorem sameOutside_requireStage {required : Stage} {opc : Nat} {rule : State → RuleEnd} {s : State}
    (h : SameOutside s (endState (rule s))) : SameOutside s (endState (requireStage required opc rule s)) := by
  rw [requireStage]
  split
  · exact h
  · exact ⟨rfl, rfl, rfl, rfl⟩

theorem sameOutside_andThen {s : State} {r : RuleEnd} {rule : State → RuleEnd} (h : SameOutside s (endState r))
    (h' : ∀ t, SameOutside t (endState (rule t))) : SameOutside s (endState (andThen r rule)) := by
  cases r with
  | success t => exact SameOutside.trans h (h' t)
  | failed f t => exact h

end Sys2Proof.Laws
end

