-- ==== Sys2Proof/Machine/HostProgram.lean ====
section
/-! DEFINITION. The host-program forms and pseudo-instructions of 30_encoding.md R97 and R98 that are bus accesses,
as host events. Host variables, branches and the loop of `poll` belong to the host, not to the core (R97). -/

namespace Sys2Proof.Machine

/-- `wr OFF, V` (R97). -/
def wr (off : Nat) (v : Word) : HostEvent := .write off 4 v

/-- `rd OFF` (R97). -/
def rd (off : Nat) : HostEvent := .read off 4

/-- `cmd M ops`: a write of the command word to CMD (R98). -/
def cmd (i : Instr) : HostEvent := wr 0x004 (encode i)

/-- One round of `poll`: a read of STATUS (R98). -/
def pollOnce : HostEvent := rd 0x008

/-- `run M ops`, in a run whose poll reads BUSY = 0 in its first round (R98). -/
def run (i : Instr) : List HostEvent := [cmd i, pollOnce]

/-- `load`: the bytes into PBUF, then their number into PLEN (R98). -/
def load (bs : List Byte) : List HostEvent :=
  (List.range bs.length).map (fun i => wr (0x2000 + 4 * i) ((bs.getD i 0).setWidth 32))
    ++ [wr 0x010 (BitVec.ofNat 32 bs.length)]

/-- `loadcw`: the codewords into CWBUF (R98). -/
def loadcw (bs : List Byte) : List HostEvent :=
  (List.range bs.length).map fun i => wr (0x4000 + 4 * i) ((bs.getD i 0).setWidth 32)

/-- A bus access at an address as the event it is for this core; none when it addresses something else
(20_memory.md R60). -/
def readAt (c : Config) (address width : Nat) : Option HostEvent :=
  (offsetOfAddress c address).map fun off => .read off width

/-- A bus write at an address as the event it is for this core (R60). -/
def writeAt (c : Config) (address width : Nat) (v : Word) : Option HostEvent :=
  (offsetOfAddress c address).map fun off => .write off width v

end Sys2Proof.Machine
end

