-- ==== Sys2Proof/Machine/TestConfig.lean ====
section
/-! DEFINITION. The stated test configurations of 95_test_vectors.md section 1.1, inputs to its vectors and no claim
about rMQR: TCFG, TCFG-BAD and TCFG-NOZ. They fill CAP and CCI_W, and BASE stays OPEN in them as in the reference
configuration (00_scope.md R9; log entry 4). -/

namespace Sys2Proof.Machine

/-- CCI_W of TCFG: 4, 3, 3 for version 0, 8 elsewhere. -/
def tcfgWidths : List CountWidths := ⟨4, 3, 3⟩ :: List.replicate 31 ⟨8, 8, 8⟩

/-- CAP of TCFG: version 0 only. -/
def tcfgCap : List CapRow := [⟨0, .medium, [⟨1, 13, 6⟩]⟩, ⟨0, .high, [⟨1, 13, 3⟩]⟩]

/-- CAP of TCFG-BAD: a CAP(0, M) of 12 codewords, which breaks R8 condition 3. -/
def tcfgBadCap : List CapRow := [⟨0, .medium, [⟨1, 12, 6⟩]⟩, ⟨0, .high, [⟨1, 13, 3⟩]⟩]

/-- TCFG. -/
def tcfg : Params := ⟨refWith Config.openBasePage tcfgCap tcfgWidths [], refWith_wf (by decide) (by decide)⟩

/-- TCFG-BAD. -/
def tcfgBad : Params := ⟨refWith Config.openBasePage tcfgBadCap tcfgWidths [], refWith_wf (by decide) (by decide)⟩

/-- TCFG-NOZ: TCFG with BYTE_OK(0x00) = false. -/
def tcfgNoz : Params := ⟨refWith Config.openBasePage tcfgCap tcfgWidths [0x00], refWith_wf (by decide) (by decide)⟩

end Sys2Proof.Machine
end

