-- ==== Sys2Proof/Tests/Slice0.lean ====
section
/-! SUPPORT. The model's own tests. Expected values come from the spec's vectors (95_test_vectors.md, named by section),
never from the model; the last part shows for each statement with hypotheses a state and operands that meet them. -/

namespace Sys2Proof.Tests

-- The kernel evaluations below run one after another: side by side they exceed the memory a check has.
set_option Elab.async false

open Sys2Proof Sys2Proof.Machine

/-! ## Helpers -/

/-- What a function of the next state gives. -/
def after {α : Type} (o : Host.Outcome State Fault Refusal) (f : State → α) : Option α :=
  match o with
  | .next t => some (f t)
  | .fault _ => none
  | .refused _ => none

/-- Right after reset under TCFG (95_test_vectors.md section 1.1). -/
def s0 : State := State.resetWith tcfg

/-- Bytes listed from index 0 on, zeros unlisted. -/
def listed (bs : List Byte) : List Host.Cell :=
  ((List.range bs.length).map fun i => (i, bs.getD i 0)).filter fun p => p.2 != 0

/-- A state with a payload and a CONFIG word. -/
def loaded (p : Params) (config : Word) (bs : List Byte) : State :=
  { State.resetWith p with config := config, plen := BitVec.ofNat 16 bs.length, pbuf := listed bs }

/-- "01234567". -/
def digits : List Byte := [0x30, 0x31, 0x32, 0x33, 0x34, 0x35, 0x36, 0x37]

/-- Program P2 before SEGMENT. -/
def p2 : State := loaded tcfg 0x00000001 digits

/-- Program P2 before BUILD: one numeric segment of 8 bytes. -/
def p2Segmented : State := { p2 with stage := .segmented, nseg := 1, segtab := [(0, ⟨0, 0, 8⟩)] }

/-- Program P2 before RSENC: version 0, level M, the data codewords of section 3.3. -/
def p2Built : State :=
  { p2Segmented with stage := .built, viSel := 0, eclSel := .medium, cwbuf := listed [0x18, 0x03, 0x15, 0x98, 0x60, 0xEC] }

/-- Program P2 before STAMP: the codewords of section 4. -/
def p2Coded : State :=
  { p2Built with
    stage := .coded
    cwbuf := listed [0x18, 0x03, 0x15, 0x98, 0x60, 0xEC, 0xB7, 0xDB, 0xCE, 0x8C, 0x19, 0xA8, 0x85] }

/-- Program P2 before PLACE, with only three cells of its matrix listed: Data cells, Unset. -/
def p2Stamped : State :=
  { p2Coded with
    stage := .stamped
    mdimH := 7
    mdimW := 43
    cells := [(256 * 1 + 34, ⟨.data, .unset⟩), (256 * 3 + 20, ⟨.data, .unset⟩), (256 * 5 + 23, ⟨.data, .unset⟩)] }

/-- Program P2 before FORMAT, with only two cells of its matrix listed: Format cells. -/
def p2Masked : State :=
  { p2Stamped with
    stage := .masked
    resMask := 0
    cells := [(256 * 1 + 8, ⟨.format, .reservedFormat⟩), (256 * 1 + 9, ⟨.format, .reservedFormat⟩)] }

/-- A row of five Data cells, before MASK. -/
def rowOfFive (colours : List Colour) : State :=
  { s0 with
    stage := .placed
    mdimH := 1
    mdimW := 5
    cells := (List.range 5).map fun c => (c, ⟨.data, colours.getD c .unset⟩) }

/-- An error is recorded: StageOrder of BUILD at stage 0 (program P3). -/
def failed : State := { s0 with error := true, errKind := .stageOrder, errOpc := 0x11, errExp := 1 }

/-- A command is pending. -/
def busyState : State := { s0 with pend := some 0x10000000 }

/-- A configuration with one version of one row: 16 Data cells, two format positions in each of two lists, a dark last
cell; one block of two codewords, two masks. It reaches what the reference configuration cannot: a VERSION beyond
NV and a choice between masks. -/
def tiny : Config :=
  { tcfg.config with
    vtab := [(1, 21)]
    sizeOrder := [0]
    rem := [0]
    cap := [⟨0, .medium, [⟨1, 2, 1⟩]⟩]
    cciW := [⟨4, 3, 3⟩]
    geom := .table [⟨[List.replicate 16 .data ++ [.format, .format, .format, .format, .dark]],
      [(0, 16), (0, 17)], [(0, 18), (0, 19)]⟩]
    viW := 0
    fmtEcW := 0
    masks := [.blocks, .checker] }

/-- R8 admits it. -/
theorem test_tiny_wf : configWf tiny = true := by decide +kernel

def tinyParams : Params := ⟨tiny, test_tiny_wf⟩

/-- The configuration without a CAP entry. -/
theorem test_tinyNoCap_wf : configWf { tiny with cap := [] } = true := by decide +kernel

def tinyNoCapParams : Params := ⟨{ tiny with cap := [] }, test_tinyNoCap_wf⟩

/-- The tiny matrix at a stage, every Data cell of one colour and every Format cell of another; no payload. -/
def tinyAt (stage : Stage) (data format : Colour) : State :=
  { State.resetWith tinyParams with
    stage := stage
    eclSel := .medium
    mdimH := 1
    mdimW := 21
    cells := (List.range 21).map fun c =>
      (c, if c < 16 then ⟨.data, data⟩ else if c < 20 then ⟨.format, format⟩ else ⟨.structural, .dark⟩) }

/-- Tables that R7 and R8 admit: a SIZE_ORDER that leaves the version out or names it twice, and an ALNUM that gives two
bytes one value. -/
theorem test_configWf_tables :
    configWf { tiny with sizeOrder := [] } = true ∧ configWf { tiny with sizeOrder := [0, 0] } = true ∧
    configWf { tiny with alnum := [(0x41, 7), (0x42, 7)] } = true := by decide +kernel

/-- Two bytes of one value give one field: 45·7 + 7 in 11 bits (R162). -/
theorem test_alnum_shared :
    dataBits { tiny with alnum := [(0x41, 7), (0x42, 7)] } .alphanumeric [0x41, 0x42] = bitsOf 11 322 := by decide +kernel

/-- With an empty SIZE_ORDER the search has no candidate: InvalidConfiguration with sub-reason 4 (R168). -/
theorem test_build_emptyOrder :
    after (exec .build { State.resetWith ⟨{ tiny with sizeOrder := [] }, test_configWf_tables.1⟩ with stage := .segmented })
      (fun t => [.errCode, .errExp, .errAct].map (wordValue t)) = some [0x1103, 0, 4] := by decide +kernel

/-! ## WellFormed and configurations: what the checks refuse -/

theorem test_wf_refuses_gfMul : (Instr.gfMul 256 0).wf = false ∧ (Instr.gfMul 0 256).wf = false := by decide
theorem test_wf_refuses_gfExp : (Instr.gfExp 256).wf = false := by decide
theorem test_wf_refuses_gfLog : (Instr.gfLog 256).wf = false := by decide
theorem test_wf_refuses_gfInv : (Instr.gfInv 256).wf = false := by decide
theorem test_wf_refuses_rsBlock : (Instr.rsBlock 256 1).wf = false ∧ (Instr.rsBlock 1 256).wf = false := by decide
theorem test_wf_refuses_genPoly : (Instr.genPoly 256).wf = false := by decide

/-- 00_scope.md R8, condition by condition: no version, a block without parity, a zero count field, a format word of 3 bits
for 2 cells, nine masks, a mode indicator of 9 bits. -/
theorem test_configWf_refuses :
    wfVersions { tiny with vtab := [] } = false ∧
    wfCap { tiny with cap := [⟨0, .medium, [⟨1, 13, 13⟩]⟩] } = false ∧
    wfCountWidths { tiny with cciW := [⟨0, 3, 3⟩] } = false ∧
    wfFormat { tiny with viW := 1 } = false ∧
    wfFormat { tiny with masks := List.replicate 9 .blocks } = false ∧
    wfSizes { tiny with miW := 9 } = false := by decide +kernel

/-- No Data cell may stand in the last column (R8 condition 6). -/
theorem test_wfLastColumn_refuses :
    wfLastColumn { tiny with geom := .table [⟨[List.replicate 21 .data], [], []⟩] } = false := by decide +kernel

/-! ## Decoding: words written out from 30_encoding.md R92, opcode in [31:24], F1 in [15:8], F0 in [7:0] -/

theorem test_decode_nop : decode 0x00000000 = .ok .nop := by decide
theorem test_decode_clear : decode 0x01000000 = .ok .clear := by decide
theorem test_decode_softReset : decode 0x02000000 = .ok .softReset := by decide
theorem test_decode_segment : decode 0x10000000 = .ok .segment := by decide
theorem test_decode_build : decode 0x11000000 = .ok .build := by decide
theorem test_decode_rsenc : decode 0x12000000 = .ok .rsenc := by decide
theorem test_decode_stamp : decode 0x13000000 = .ok .stamp := by decide
theorem test_decode_place : decode 0x14000000 = .ok .place := by decide
theorem test_decode_mask : decode 0x15000000 = .ok .mask := by decide
theorem test_decode_format : decode 0x16000000 = .ok .format := by decide
theorem test_decode_encode : decode 0x1F000000 = .ok .encode := by decide
theorem test_decode_gfMul : decode 0b00100000000000000000001010000000 = .ok (.gfMul 2 0x80) := by decide
theorem test_decode_gfExp : decode 0b00100001000000000000000011111111 = .ok (.gfExp 255) := by decide
theorem test_decode_gfLog : decode 0b00100010000000000000000010001110 = .ok (.gfLog 0x8E) := by decide
theorem test_decode_gfInv : decode 0b00100011000000000000000001010011 = .ok (.gfInv 0x53) := by decide
theorem test_decode_rsBlock : decode 0b00100100000000000000000100000100 = .ok (.rsBlock 1 4) := by decide
theorem test_decode_genPoly : decode 0b00100101000000000000000000000010 = .ok (.genPoly 2) := by decide

/-- Section 3.8 and 3.4: an unassigned opcode and reserved bits. -/
theorem test_decode_refuses :
    decode 0x03000000 = .error .unassignedOpcode ∧ decode 0x00010000 = .error .reservedF2 ∧
    decode 0x13000001 = .error .reservedF1F0 ∧ decode 0x21000105 = .error .reservedF1 ∧
    decode 0x20010203 = .error .reservedF2 := by decide

/-- The host's two entry points, on GF_MUL 2, 80. -/
theorem test_decodeTableWord : decodeTableWord 32 0x20000280 = some (.gfMul 2 0x80) := by decide

theorem test_withFetchWord :
    after (step (State.reset.withFetchWord 32 0x20000280)) (fun t => (t.done, t.pend)) = some (true, none) := by
  decide +kernel

/-! ## Commands: section 3.1 -/

theorem test_nop : after (exec .nop s0) (wordValue · .status) = some 0x00000002 := by decide +kernel
theorem test_nop_with_error : after (exec .nop failed) (wordValue · .status) = some 0x00000004 := by decide +kernel
theorem test_clear : after (exec .clear { failed with stage := .coded }) (wordValue · .status) = some 0x00000300 := by
  decide +kernel
theorem test_softReset :
    after (exec .softReset p2Stamped) (fun t => (wordValue t .config, wordValue t .status, wordValue t .plen)) =
      some (0x00000001, 0x00000000, 0) := by decide +kernel

/-! ## SEGMENT: section 3.2 -/

/-- "AB12cd". -/
theorem test_segment :
    after (exec .segment (loaded tcfg 1 [0x41, 0x42, 0x31, 0x32, 0x63, 0x64]))
      (fun t => [.nseg, .segtab 0, .segtab 1, .segtab 2].map (wordValue t)) =
      some [3, 0x00200001, 0x00200200, 0x00200402] := by decide +kernel

/-- "A" 00 under TCFG-NOZ. -/
theorem test_segment_unsupported :
    after (exec .segment (loaded tcfgNoz 1 [0x41, 0x00]))
      (fun t => [.errCode, .errExp, .errAct].map (wordValue t)) = some [0x1001, 1, 0] := by decide +kernel

/-! ## BUILD: section 3.3 -/

/-- "01234567" at level M. -/
theorem test_build :
    after (exec .build p2Segmented) (fun t => (cwBytes t 0 7, [.resVer, .resBits, .resCw].map (wordValue t))) =
      some ([0x18, 0x03, 0x15, 0x98, 0x60, 0xEC, 0x00], [0x012B0700, 0x00300023, 0x00201A06]) := by decide +kernel

/-- "01234567" at level H. -/
theorem test_build_exceeds :
    after (exec .build { p2Segmented with config := 0x00000007 })
      (fun t => [.errCode, .errExp, .errAct].map (wordValue t)) = some [0x1102, 24, 35] := by decide +kernel

/-! ## RSENC, RS_BLOCK, GEN_POLY and the field: section 3.4 -/

theorem test_rsenc :
    after (exec .rsenc p2Built) (cwBytes · 6 8) = some [0xB7, 0xDB, 0xCE, 0x8C, 0x19, 0xA8, 0x85, 0x00] := by
  decide +kernel

/-- Two blocks of unequal length. -/
theorem test_interleave :
    interleave (codeBlocks tcfg.config (blockShapes [⟨1, 10, 4⟩, ⟨1, 11, 5⟩]) [1, 2, 3, 4, 5, 6, 7, 8, 9]) =
      [0x01, 0x05, 0x02, 0x06, 0x03, 0x07, 0x04, 0x08, 0x09, 0xCC, 0x12, 0x0C, 0x6F, 0xC0, 0xE9, 0xF5, 0x10, 0x6C,
       0x22, 0x9D, 0xA3] := by decide +kernel

theorem test_rsBlock :
    after (exec (.rsBlock 3 5) { s0 with cwbuf := listed [0x12, 0x34, 0x56] }) (cwBytes · 3 6) =
      some [0xA7, 0xC5, 0x3D, 0xDC, 0xF3, 0x00] := by decide +kernel

/-- k + e = 256. -/
theorem test_rsBlock_badOperand :
    after (exec (.rsBlock 200 56) s0) (fun t => [.errCode, .errAct].map (wordValue t)) = some [0x2413, 0x2400C838] := by
  decide +kernel

theorem test_genPoly : after (exec (.genPoly 2) s0) (cwBytes · 0 4) = some [0x01, 0x03, 0x02, 0x00] := by decide +kernel
theorem test_genPoly_badOperand : after (exec (.genPoly 0) s0) (wordValue · .errCode) = some 0x2513 := by decide +kernel
theorem test_gfMul : after (exec (.gfMul 0xA5 0x5A) s0) (wordValue · .gfResult) = some 0xA6 := by decide +kernel
theorem test_gfMul_zero : after (exec (.gfMul 0x00 0x53) s0) (wordValue · .gfResult) = some 0x00 := by decide +kernel
theorem test_gfExp : after (exec (.gfExp 254) s0) (wordValue · .gfResult) = some 0x8E := by decide +kernel
theorem test_gfExp_255 : after (exec (.gfExp 255) s0) (wordValue · .gfResult) = some 0x01 := by decide +kernel
theorem test_gfLog : after (exec (.gfLog 0x53) s0) (wordValue · .gfResult) = some 206 := by decide +kernel
theorem test_gfLog_zero :
    after (exec (.gfLog 0) s0) (fun t => [.errCode, .errAct].map (wordValue t)) = some [0x2212, 0x22000000] := by
  decide +kernel
theorem test_gfInv : after (exec (.gfInv 0x53) s0) (wordValue · .gfResult) = some 0x8C := by decide +kernel
theorem test_gfInv_zero :
    after (exec (.gfInv 0) s0) (fun t => [.errCode, .errAct].map (wordValue t)) = some [0x2312, 0x23000000] := by
  decide +kernel

/-! ## STAMP and PLACE: section 3.5 -/

theorem test_stamp :
    after (exec .stamp p2Coded) (fun t =>
      [.cell 0 0, .cell 1 8, .cell 1 12, .cell 1 34, .cell 1 41, .cell 2 40, .cell 6 42, .cell 3 21, .cell 7 0].map
        (wordValue t)) = some [0x15, 0x0B, 0x00, 0x00, 0x06, 0x15, 0x15, 0x06, 0x0C] := by decide +kernel

/-- free(0), free(1), free(10), and the first and last cells of the placement order of version 0. -/
theorem test_placementOrder :
    [0, 1, 10].map (freeCells tcfg.config) = [104, 171, 122] ∧
    (placementOrder tcfg.config 0).take 6 = [(1, 34), (2, 34), (3, 34), (4, 34), (5, 34), (5, 33)] ∧
    (placementOrder tcfg.config 0).drop 100 = [(1, 13), (1, 12), (4, 11), (5, 11)] := by decide +kernel

/-- Of a capacity table for the reference configuration only the entries that fill the Data cells are kept (R8 condition 3):
12 codewords do not fill the 104 Data cells of version 0, 13 do. -/
theorem test_capOfOpen : capOfOpen (tcfgBadCap) = [⟨0, .high, [⟨1, 13, 3⟩]⟩] := by decide +kernel

/-- The drawn matrix after PLACE at (1, 34), (3, 20) and (5, 23). -/
theorem test_place :
    after (exec .place p2Stamped) (fun t => [.cell 1 34, .cell 3 20, .cell 5 23].map (wordValue t)) =
      some [0x02, 0x02, 0x11] := by decide +kernel

/-- PLACE under TCFG-BAD. -/
theorem test_place_mismatch :
    after (exec .place { p2Stamped with params := tcfgBad })
      (fun t => [.errCode, .errExp, .errAct, .status].map (wordValue t)) = some [0x1404, 104, 96, 0x00000004] := by
  decide +kernel

/-! ## MASK: section 3.6 -/

/-- Data cells that m_0 makes a 1×5 all Dark grid: pen_a = 3, pen_d = 100. -/
theorem test_mask :
    after (exec .mask (rowOfFive [.light, .light, .light, .dark, .dark]))
      (fun t => [.cell 0 0, .cell 0 4, .penalty 0, .penalty 1, .resMask].map (wordValue t)) =
      some [0x11, 0x11, 103, 0, 0] := by decide +kernel

/-- Three of the scoring grids: all Dark, checkerboard, and 1×15. -/
theorem test_penalties :
    penaltyOf tcfg.config 7 43 (List.replicate 7 (List.replicate 43 true)) = 1358 ∧
    penaltyOf tcfg.config 7 43 ((List.range 7).map fun r => (List.range 43).map fun c => (r + c) % 2 == 0) = 0 ∧
    penaltyOf tcfg.config 1 15 [[false, false, false, false, true, false, true, true, true, false, true, false, false,
      false, false]] = 110 := by decide +kernel

/-! ## FORMAT: section 3.7 -/

theorem test_format :
    after (exec .format p2Masked) (fun t => [.resFmtA, .resFmtB, .cell 1 8, .cell 1 9].map (wordValue t)) =
      some [0x1FAB2, 0x20A7B, 0x0A, 0x19] := by decide +kernel

theorem test_formatWord_level_H : bch tcfg.config (fmtData tcfg.config .high 0 5) ^^^ tcfg.config.fmtMaskA = 0x3AE9C := by
  decide +kernel

/-- The words in which the statements say what a penalty counts, on scored grids of section 3.6: P1 in one row, runs of 5
and of 4, a light run of 7 behind 3 dark cells, overlapping 2×2 blocks. -/
theorem test_penaltyScore :
    let score := penaltyScore tcfg.config
    score 1 11 (fun _ c => decide (c ∈ [0, 2, 3, 4, 6])) = 40 ∧ score 1 5 (fun _ _ => true) = 103 ∧
    score 1 4 (fun _ _ => true) = 100 ∧ score 1 10 (fun _ c => decide (c < 3)) = 45 ∧
    score 3 3 (fun _ _ => true) = 112 ∧ score 1 15 (fun _ c => decide (c ∈ [4, 6, 7, 8, 10])) = 110 := by decide +kernel

/-- R41: masks wider than FMT_W = 2 bits leave only their two low bits in the registers. -/
theorem test_format_cut :
    after (exec .format (tinyAt .masked .dark .reservedFormat)) (fun t => [.resFmtA, .resFmtB].map (wordValue t)) =
      some [2, 3] := by decide +kernel

/-! ## ENCODE: program P2, and "helloX" of section 3.8 -/

theorem test_encode :
    after (exec .encode p2) (fun t => [.status, .resCw, .penalty 0, .cell 1 12, .cell 2 34].map (wordValue t)) =
      some [0x00000702, 0x00201A06, 386, 0x02, 0x11] := by decide +kernel

theorem test_encode_exceeds :
    after (exec .encode (loaded tcfg 0x00000005 [0x68, 0x65, 0x6C, 0x6C, 0x6F, 0x58]))
      (fun t => [.status, .errCode, .errExp, .errAct].map (wordValue t)) = some [0x00000004, 0x1102, 48, 60] := by
  decide +kernel

/-! ## The bus: section 3.8 -/

/-- A write to ID, a write to PBUF[0] and a write to CMD while BUSY. -/
theorem test_bus_writes :
    wordValue (hostWrite s0 0x000 4 0) .status = 0x00000008 ∧
    wordValue (hostWrite s0 0x2000 4 0x000001FF) (.pbuf 0) = 0x000000FF ∧
    (hostWrite busyState 0x004 4 0x11000000).pend = some 0x10000000 ∧
    wordValue (hostWrite busyState 0x004 4 0x11000000) .status = 0x00000011 := by decide +kernel

/-- EXP[8], LOG[1], an Outside cell; an unaligned and two unmapped reads return 0 and set BUS_ERR. -/
theorem test_bus_reads :
    readValue s0 0x05020 4 = 0x1D ∧ readValue s0 0x05404 4 = 0 ∧ readValue p2Stamped 0x11C00 4 = 0x0C ∧
    ([0x003, 0x068, 0x01800].map fun off => (readValue s0 off 4, (hostRead s0 off 4).busErr)) =
      [(0, true), (0, true), (0, true)] := by decide +kernel

/-- The interrupt output, and its fall when CONFIG is written (section 3.1). -/
theorem test_irq :
    wordValue { s0 with done := true, config := 0x00000009 } .status = 0x00000022 ∧
    wordValue (hostWrite { s0 with done := true, config := 0x00000009, stage := .coded } 0x00C 4 0x00000001) .status =
      0x00000002 := by decide +kernel

/-- The host program's first command of program P1 as bus events (30_encoding.md R98). -/
theorem test_hostProgram : run (.gfMul 0x02 0x80) = [.write 0x004 4 0x20000280, .read 0x008 4] := by decide


/-! ## Witnesses: for each statement with hypotheses, a state and operands that meet them, at boundary values -/

theorem witness_DecodeOfEncodeIsTheCommand : (Instr.rsBlock 255 255).wf = true := by decide

theorem witness_EncodeOfDecodeIsTheWord : decode 0x2400FFFF = .ok (.rsBlock 255 255) := by decide

theorem witness_DecoderAcceptsExactlyTheLegalWords :
    legalWord 0x2400FFFF ∧ legalWord 0x1F000000 ∧ legalWord 0x250000FF ∧ ¬legalWord 0x24010000 ∧ ¬legalWord 0x1F000001 ∧
    ¬legalWord 0x25000100 ∧ ¬legalWord 0x26000000 ∧ s0.error = false := by
  refine ⟨?_, ?_, ?_, ?_, ?_, ?_, ?_, rfl⟩ <;> · unfold legalWord; decide

theorem witness_StepRunsTheDecodedCommand :
    let s := { failed with pend := some 0x02000000 }
    decode 0x02000000 = .ok .softReset ∧ (s.error = false ∨ opcOf 0x02000000 ≤ 2) ∧ s.pend = some 0x02000000 ∧
    nextAgent s = .core := by decide

theorem witness_OneAgentMovesAtATime :
    (nextAgent { s0 with turns := [.core] } = .core ∧ s0.pend = none) ∧
    (nextAgent busyState = .core ∧ busyState.pend ≠ none) ∧
    (nextAgent { busyState with turns := [.host], host := [.reset] } = .host) ∧
    (nextAgent s0 = .host ∧ s0.host = []) := by decide

theorem witness_FlagsOk : FlagsOk failed :=
  ⟨by decide, by decide, by decide, by decide, by decide, by decide⟩

theorem witness_FirstErrorRecordStays :
    failed.error = true ∧ (0x01000001 : Word) ≠ 0x01000000 ∧ (0x01000001 : Word) ≠ 0x02000000 := by decide

/-- Every stage command: a wrong stage, and its own stage from which it completes. -/
theorem witness_StageOrderIsLinear :
    (∀ row ∈ stageTable, s0.error = false ∧ s0.stage ≠ row.2.2.1) ∧
    (∀ row ∈ stageTable, after (exec row.1 { tinyAt row.2.2.1 .light .reservedFormat with
      cells := if row.2.2.1 = .stamped then stampedCells tiny 0 else (tinyAt .placed .light .reservedFormat).cells })
      (fun t => (t.error, t.stage)) = some (false, row.2.2.2)) ∧
    after (exec .segment s0) (·.error) = some false ∧
    (∀ row ∈ stageTable, row.1 ≠ .nop) ∧ after (exec .nop failed) (·.errKind) = some .stageOrder := by decide +kernel

theorem witness_DoneMeansSuccess :
    (Instr.gfExp 3) ≠ .clear ∧ (Instr.gfExp 3) ≠ .softReset ∧ s0.error = false ∧ ∃ t, exec (.gfExp 3) s0 = .next t :=
  ⟨by decide, by decide, by decide, _, rfl⟩

theorem witness_EncodeMakesTheSymbol :
    p2.error = false ∧ p2.plen.toNat ≤ p2.cfg.pmax ∧ (∀ b ∈ payload p2, byteOk p2.cfg b = true) ∧
    levelSupported p2.cfg (configEcl p2) = true ∧ candidates p2 (configEcl p2) = .ok [0] ∧
    [0].find? (fun u => fits p2.cfg (segments p2.cfg (payload p2)) u (configEcl p2)) = some 0 ∧
    capOf p2.cfg 0 (configEcl p2) = some [⟨1, 13, 6⟩] ∧
    freeCells p2.cfg 0 = 8 * totalOf [⟨1, 13, 6⟩] + p2.cfg.rem.getD 0 0 := by decide +kernel

/-- Both ends of each range, and the bytes just outside. -/
theorem witness_ByteClassesOfTheReferenceTable :
    tcfg.config.alnum = refAlnum ∧
    ([0x30, 0x39, 0x41, 0x5A, 0x20, 0x3A, 0x2F, 0x3B, 0x40, 0x5B, 0x00, 0xFF] : List Byte).map (classOf tcfg.config) =
      [.numeric, .numeric, .alphanumeric, .alphanumeric, .alphanumeric, .alphanumeric, .alphanumeric, .byte, .byte,
       .byte, .byte, .byte] := by decide +kernel

/-- A full payload of PMAX bytes. -/
theorem witness_SegmentWritesTheSegmentList :
    let s := { s0 with plen := 512 }
    s.error = false ∧ s.plen.toNat ≤ s.cfg.pmax ∧ (∀ b ∈ payload s, byteOk s.cfg b = true) :=
  ⟨rfl, show 512 ≤ 512 from le_rfl, fun _ _ => rfl⟩

theorem witness_SegmentRejects :
    let s := loaded tcfgNoz 1 [0x41, 0x00]
    s0.error = false ∧ s0.cfg.pmax < ({ s0 with plen := 513 } : State).plen.toNat ∧ s.plen.toNat ≤ s.cfg.pmax ∧
    (payload s)[1]? = some 0x00 ∧ byteOk s.cfg 0x00 = false ∧
    (∀ j < 1, ∀ a ∈ (payload s)[j]?, byteOk s.cfg a = true) := by decide +kernel

theorem witness_PackingLosesNothing :
    (∀ b : Byte, ∀ u ∈ alnumVal tcfg.config b, u < 45) ∧
    (∀ x ∈ ([0x30, 0x39, 0x39, 0x30] : List Byte), 0x30 ≤ x.toNat ∧ x.toNat ≤ 0x39) ∧
    (∀ x ∈ ([0x30, 0x3A, 0x5A] : List Byte), (alnumVal tcfg.config x).isSome) ∧
    (∀ x y : Byte, ∀ u ∈ alnumVal tcfg.config x, alnumVal tcfg.config y = some u → x = y) ∧
    alnumVal tcfg.config 0x30 = some 0 ∧ alnumVal tcfg.config 0x3A = some 44 := by
  have values : (List.range 256).all (fun n => (alnumVal tcfg.config (BitVec.ofNat 8 n)).all fun u =>
      decide (u < 45) && (refAlnum.getD u (0, 0)).1 == BitVec.ofNat 8 n) = true := by decide +kernel
  have at' : ∀ (b : Byte) (u : Nat), alnumVal tcfg.config b = some u → u < 45 ∧ (refAlnum.getD u (0, 0)).1 = b :=
    fun b u h => by
      have := List.all_eq_true.mp values b.toNat (List.mem_range.mpr b.isLt)
      rw [BitVec.ofNat_toNat, BitVec.setWidth_eq, h] at this
      simpa using this
  refine ⟨fun b u h => (at' b u h).1, by decide, by decide, fun x y u hx hy => ?_, by decide, by decide⟩
  rw [← (at' x u hx).2, ← (at' y u hy).2]

/-- "ABC" at level H fills the capacity exactly (section 3.3). -/
theorem witness_StreamIsPaddedToTheCapacity :
    let s := { loaded tcfg 7 [0x41, 0x42, 0x43] with nseg := 1, segtab := [(0, ⟨1, 0, 3⟩)] }
    (payloadBits s 0).length = 24 ∧ capBitsOf s.cfg 0 .high = 24 := by decide +kernel

theorem witness_BuildWritesTheCodewords :
    let s := p2Segmented
    s.error = false ∧ s.stage = .segmented ∧ levelSupported s.cfg (configEcl s) = true ∧
    candidates s (configEcl s) = .ok [0] ∧
    [0].find? (fun u => fits s.cfg (segmentList s) u (configEcl s)) = some 0 := by decide +kernel

/-- Each clause: an unsupported level; a fixed version beyond NV, without a CAP entry, that fits, that does not fit; a search
without candidates, that finds version 0, that finds none. -/
theorem witness_BuildSelectsTheFirstFit :
    let fixed := fun (config : Word) => { p2Segmented with config := config }
    let offered := fun (s : State) => s.cfg.sizeOrder.filter fun v => (capOf s.cfg v (configEcl s)).isSome
    levelSupported s0.cfg (configEcl (fixed 0)) = false ∧
    (nv tiny ≤ configVersion { tinyAt .segmented .unset .unset with config := 0x105 }) ∧
    (configVersion (fixed 0x105) < nv s0.cfg ∧ capOf s0.cfg (configVersion (fixed 0x105)) .medium = none) ∧
    (configFixed (fixed 0x005) = true ∧ fits s0.cfg (segmentList p2Segmented) 0 .medium = true) ∧
    (configFixed (fixed 0x007) = true ∧ fits s0.cfg (segmentList p2Segmented) 0 .high = false) ∧
    (offered { State.resetWith tinyNoCapParams with stage := .segmented } = []) ∧
    (configFixed p2Segmented = false ∧ offered p2Segmented = [] ++ 0 :: []) ∧
    (configFixed (fixed 0x003) = false ∧ offered (fixed 0x003) = [] ++ [0]) := by decide +kernel

/-- The reference field, for every statement about it. -/
theorem witness_referenceField : referenceField tcfg.config := ⟨rfl, rfl⟩

/-- Operands at both ends, for the statements about the diagnostic commands. -/
theorem witness_operands :
    s0.error = false ∧ (255 < 256 ∧ (255 : Nat) ≠ 0) ∧ (0 : Nat) < 256 ∧
    (250 + 5 ≤ 255 ∧ (5 : Nat) ≠ 0) ∧ 255 < 200 + 56 := by decide

theorem witness_InterleavingIsRoundRobin :
    let lists : List (List Byte) := [[1, 2], [], [3]]
    lists[0]? = some [1, 2] ∧ ([1, 2] : List Byte)[1]? = some 2 := by decide

theorem witness_RsencWritesTheInterleavedBlocks : p2Built.error = false ∧ p2Built.stage = .built := by decide

theorem witness_StampWritesTheLayout : p2Coded.error = false ∧ p2Coded.stage = .coded := by decide

theorem witness_PlacementOrderVisitsEveryDataCellOnce : 31 < nv tcfg.config ∧ 0 < nv tiny := by decide +kernel

theorem witness_PlaceColoursTheDataCells :
    let s := p2Stamped
    s.error = false ∧ s.stage = .stamped ∧ s.viSel.toNat < nv s.cfg ∧
    freeCells s.cfg s.viSel.toNat = 8 * totalOf (groupsOf s.cfg s.viSel.toNat s.eclSel) + s.cfg.rem.getD s.viSel.toNat 0 ∧
    (placementOrder s.cfg s.viSel.toNat)[103]? = some (5, 11) := by decide +kernel

theorem witness_PlaceReportsACapacityMismatch :
    let s := { p2Stamped with params := tcfgBad }
    s.error = false ∧ s.stage = .stamped ∧
    freeCells s.cfg s.viSel.toNat ≠ 8 * totalOf (groupsOf s.cfg s.viSel.toNat s.eclSel) + s.cfg.rem.getD s.viSel.toNat 0 := by
  decide +kernel

/-- The largest grid, and the largest a matrix can be with the reference weights. -/
theorem witness_PenaltiesAreBounded :
    let grid := fun (h : Nat) => List.replicate h (List.replicate 256 true)
    (256 : Nat) ≤ 256 ∧ (32 : Nat) ≤ 32 ∧ (∀ h, (grid h).length = h ∧ ∀ row ∈ grid h, row.length = 256) ∧
    (tcfg.config.n1 = 3 ∧ tcfg.config.n2 = 3 ∧ tcfg.config.n3 = 40 ∧ tcfg.config.n4 = 10) :=
  ⟨le_rfl, le_rfl, fun _ => ⟨List.length_replicate, fun row h => by
    rw [List.eq_of_mem_replicate h]; exact List.length_replicate⟩, rfl, rfl, rfl, rfl⟩

theorem witness_MaskFlipsTheSelectedCells :
    (rowOfFive [.light]).error = false ∧ (rowOfFive [.light]).stage = .placed := by decide

/-- Two candidates, the second of which is selected. -/
theorem witness_MaskSelectsTheLeastPenalty :
    let s := tinyAt .placed .light .reservedFormat
    s.error = false ∧ s.stage = .placed ∧ s.mdimH ≤ 32 ∧ s.mdimW ≤ 256 ∧
    (s.cfg.n1 ≤ 1000 ∧ s.cfg.n2 ≤ 1000 ∧ s.cfg.n3 ≤ 1000 ∧ s.cfg.n4 ≤ 1000) ∧
    after (exec .mask s) (fun t => (decide (t.resMask.toNat < nm s.cfg), nm s.cfg)) = some (true, 2) := by decide +kernel

theorem witness_FormatWordsAreMultiplesOfTheGenerator :
    let c := tcfg.config
    2 ^ c.fmtEcW ≤ c.fmtGen ∧ c.fmtGen < 2 ^ (c.fmtEcW + 1) ∧ c.fmtEcW ≤ fmtW c ∧ 63 < 2 ^ (fmtW c - c.fmtEcW) := by
  decide +kernel

theorem witness_FormatWritesTheFormatCells :
    let s := p2Masked
    s.error = false ∧ s.stage = .masked ∧ s.viSel.toNat < nv s.cfg ∧
    (fmtPosA s.cfg 0)[17]? = some (3, 11) ∧ (fmtPosB s.cfg 0)[17]? = some (1, 40) ∧ 1 ≤ mw tinyParams.config := by
  decide +kernel

/-- An interface error, and an encoding error of each of the three stages, alone and inside ENCODE. CWBUF[6] is the first
entry that no version of TCFG could have taken. -/
theorem witness_ErrorsArePrecise :
    after (exec .build s0) (fun t => (t.error, isEncodingError t.errKind)) = some (true, false) ∧
    after (exec .segment { s0 with plen := 513 }) (fun t => (t.error, isEncodingError t.errKind)) = some (true, true) ∧
    after (exec .build { p2Segmented with config := 0 }) (fun t => (t.error, isEncodingError t.errKind)) =
      some (true, true) ∧
    after (exec .place { p2Stamped with params := tcfgBad }) (fun t => (t.error, isEncodingError t.errKind)) =
      some (true, true) ∧
    after (exec .encode { s0 with plen := 513 }) (fun t => (t.errKind, t.errOpc)) = some (.invalidConfiguration, 0x10) ∧
    after (exec .encode { p2 with config := 0 }) (fun t => (t.errKind, t.errOpc)) = some (.invalidConfiguration, 0x11) ∧
    mostDataCodewords tcfg.config = 6 := by decide +kernel

/-- An access of two bytes, the unmapped words 0x068 and 0x1FFFC, the last of the window, and the read-only word ID. -/
theorem witness_IllegalAccessOnlySetsBusErr :
    (∀ w, inRange s0.cfg w → ¬((2 : Nat) = 4 ∧ 0x000 = offsetOf w)) ∧
    (∀ off ∈ [0x068, 0x1FFFC], off < 0x20000 ∧ ∀ w, inRange s0.cfg w → ¬((4 : Nat) = 4 ∧ off = offsetOf w)) ∧
    s0.pend = none ∧ 0x000 < 0x20000 ∧ (∀ w, inRange s0.cfg w → (4 : Nat) = 4 → 0x000 = offsetOf w → writable w = false) := by
  have pmax : s0.cfg.pmax = 512 := rfl
  have cwmax : s0.cfg.cwmax = 256 := rfl
  refine ⟨fun w _ h => absurd h.1 (by decide), fun off ho => ⟨?_, fun w hw h => ?_⟩, rfl, by decide, fun w hw _ h => ?_⟩
  · simp only [List.mem_cons, List.not_mem_nil, or_false] at ho; omega
  · simp only [List.mem_cons, List.not_mem_nil, or_false] at ho
    obtain ⟨-, rfl⟩ := h
    cases w <;> simp only [offsetOf, inRange] at * <;> omega
  · cases w <;> first | rfl | (simp only [offsetOf] at h; omega)

/-- The last word of a window while BUSY = 0, and STATUS while BUSY = 1. -/
theorem witness_ReadsHaveNoSideEffects :
    (inRange s0.cfg (.segtab 511) ∧ s0.pend = none) ∧ (inRange s0.cfg .status ∧ exactWhileBusy .status = true) :=
  ⟨⟨by show 511 < s0.cfg.pmax; decide, rfl⟩, trivial, rfl⟩

theorem witness_AccessesWhileBusy :
    busyState.pend ≠ none ∧ inRange s0.cfg (.cwbuf 255) ∧
    (∀ off ∈ [0x068, 0x1FFFC], off < 0x20000 ∧ ∀ w, inRange s0.cfg w → ¬((4 : Nat) = 4 ∧ off = offsetOf w)) ∧
    BusWord.cwbuf 255 ∉ [BusWord.id, .cmd, .status, .param0, .param1] :=
  ⟨by decide, by show 255 < s0.cfg.cwmax; decide, witness_IllegalAccessOnlySetsBusErr.2.1, by decide⟩

theorem witness_InputWritesStoreAndRestartThePipeline :
    s0.pend = none ∧ inRange s0.cfg (.pbuf 511) ∧ writable (.pbuf 511) = true ∧ BusWord.pbuf 511 ≠ .cmd ∧
    inRange s0.cfg (.cwbuf 255) ∧ writable (.cwbuf 255) = true ∧ writable .config = true ∧ writable .plen = true :=
  ⟨rfl, by show 511 < s0.cfg.pmax; decide, rfl, by decide, by show 255 < s0.cfg.cwmax; decide, rfl, rfl, rfl⟩

theorem witness_CommandWriteIssues : s0.pend = none ∧ busyState.pend ≠ none := by decide

theorem witness_ResetValues :
    inRange tcfg.config (.cell 31 255) ∧ inRange tcfg.config (.penalty 7) ∧ inRange tcfg.config (.exp 255) ∧
    inRange tcfg.config (.log 255) := by
  refine ⟨⟨?_, ?_⟩, (?_ : 7 < 8), (?_ : 255 < 256), (?_ : 255 < 256)⟩ <;> decide

theorem witness_ConfigurationNeverChanges : ∃ t, step busyState = .next t := ⟨_, rfl⟩

/-- The matrix memory of a state that lists only cells inside the matrix. -/
theorem matrixOk_of_listed {s : State} (hwf : Memory.wf outsideCell s.cells = true) (hh : s.mdimH ≤ 32)
    (hw : s.mdimW ≤ 256) (hin : ∀ r < s.mdimH, ∀ c < s.mdimW, (cellAt s r c).tag ≠ .outside)
    (hout : ∀ p ∈ s.cells, p.1 / 256 < s.mdimH ∧ p.1 % 256 < s.mdimW) : MatrixOk s := by
  refine ⟨hwf, hh, hw, fun r c h => hin r h.1 c h.2, fun r c hc h => ?_⟩
  rw [cellAt, Memory.read, Laws.memory_find_none]
  · rfl
  · intro p hp he
    have := hout p hp
    rw [he, cellIndex] at this
    exact h ⟨by omega, by omega⟩

/-- The buffers of the tiny states hold nothing. -/
theorem buffersOk_tinyAt (stage : Stage) (data format : Colour) : BuffersOk (tinyAt stage data format) := by
  constructor <;> first | rfl | (intro p hp; cases hp)

/-- What a tiny state must show to meet the invariant at a stage from PLACED on. -/
theorem inv_tinyAt {stage : Stage} {data format : Colour} (hflags : FlagsOk (tinyAt stage data format))
    (hwf : Memory.wf outsideCell (tinyAt stage data format).cells = true)
    (hin : ∀ r < 1, ∀ c < 21, (cellAt (tinyAt stage data format) r c).tag ≠ .outside)
    (hout : ∀ p ∈ (tinyAt stage data format).cells, p.1 / 256 < 1 ∧ p.1 % 256 < 21)
    (hcells : ∀ c < 21, cellOkAt stage (geomCell tiny 0 0 c) (cellAt (tinyAt stage data format) 0 c)) :
    Inv (tinyAt stage data format) := by
  refine ⟨hflags, buffersOk_tinyAt stage data format, matrixOk_of_listed hwf (show 1 ≤ 32 by decide) (show 21 ≤ 256 by decide) hin hout,
    ⟨fun _ => ⟨Nat.zero_le _, rfl⟩, fun _ => ⟨show 0 < nv tiny by decide +kernel, rfl, rfl⟩, fun _ => ⟨rfl, rfl⟩, fun _ r c hi => ?_,
      fun _ => show 0 < nm tiny by decide +kernel⟩, Nat.two_pow_pos _, Nat.two_pow_pos _⟩
  obtain ⟨hr, hc⟩ := hi
  have hr0 : r = 0 := Nat.lt_one_iff.1 hr
  subst hr0
  exact hcells c hc

/-- The layout and the cells of the tiny matrix, column by column. -/
theorem tinyAt_cells (c : Nat) (hc : c < 21) (stage : Stage) (data format : Colour) :
    geomCell tiny 0 0 c = .data ∧ cellAt (tinyAt stage data format) 0 c = ⟨.data, data⟩ ∨
    geomCell tiny 0 0 c = .format ∧ cellAt (tinyAt stage data format) 0 c = ⟨.format, format⟩ ∨
    geomCell tiny 0 0 c = .dark ∧ cellAt (tinyAt stage data format) 0 c = ⟨.structural, .dark⟩ := by
  interval_cases c <;> first | exact .inl ⟨rfl, rfl⟩ | exact .inr (.inl ⟨rfl, rfl⟩) | exact .inr (.inr ⟨rfl, rfl⟩)

theorem inv_tinyPlaced : Inv (tinyAt .placed .light .reservedFormat) := by
  refine inv_tinyAt ⟨by decide, by decide, by decide, by decide, by decide, by decide⟩ (by decide +kernel) (by decide +kernel)
    (by decide +kernel) fun c hc => ?_
  obtain ⟨hg, hx⟩ | ⟨hg, hx⟩ | ⟨hg, hx⟩ := tinyAt_cells c hc .placed .light .reservedFormat <;> rw [hg, hx]
  · exact ⟨rfl, .inr rfl⟩
  · exact ⟨rfl, rfl⟩
  · exact ⟨rfl, rfl⟩

theorem inv_tinyFormatted : Inv (tinyAt .formatted .dark .light) := by
  refine inv_tinyAt ⟨by decide, by decide, by decide, by decide, by decide, by decide⟩ (by decide +kernel) (by decide +kernel)
    (by decide +kernel) fun c hc => ?_
  obtain ⟨hg, hx⟩ | ⟨hg, hx⟩ | ⟨hg, hx⟩ := tinyAt_cells c hc .formatted .dark .light <;> rw [hg, hx]
  · exact ⟨rfl, .inl rfl⟩
  · exact ⟨rfl, .inr rfl⟩
  · exact ⟨rfl, rfl⟩

theorem witness_EveryStepKeepsTheInvariant :
    Inv (tinyAt .placed .light .reservedFormat) ∧ ∃ t, step (tinyAt .placed .light .reservedFormat) = .next t :=
  ⟨inv_tinyPlaced, _, rfl⟩

/-- At stage 5 and at stage 7, a cell at the matrix's last column, and one just outside it. -/
theorem witness_NoCellStaysUnset :
    (Inv (tinyAt .placed .light .reservedFormat) ∧ insideMatrix (tinyAt .placed .light .reservedFormat) 0 20) ∧
    (Inv (tinyAt .formatted .dark .light) ∧ insideMatrix (tinyAt .formatted .dark .light) 0 20) ∧
    ¬insideMatrix (tinyAt .formatted .dark .light) 0 21 :=
  ⟨⟨inv_tinyPlaced, show 0 < 1 by decide, show 20 < 21 by decide⟩,
    ⟨inv_tinyFormatted, show 0 < 1 by decide, show 20 < 21 by decide⟩, fun h => absurd (show 21 < 21 from h.2) (by decide)⟩

end Sys2Proof.Tests
end

/-! No command touches the configuration or the host's side: `SameOutside` of each rule, of `exec` and of
`execute` (00_scope.md R15, 40_control.md R121). -/

namespace Sys2Proof.Laws

open Sys2Proof.Machine

/-- A frame equation carries `SameOutside` over, when neither of its record updates names one of the four fields. -/
theorem SameOutside.of_frame {s t t' s' : State} (h : t' = s') (ht : SameOutside t t') (hs : SameOutside s s') :
    SameOutside s t := by
  subst h
  exact ⟨ht.params.symm.trans hs.params, ht.host.symm.trans hs.host, ht.reads.symm.trans hs.reads,
    ht.turns.symm.trans hs.turns⟩

theorem sameOutside_setCwBytes (s : State) (base : Nat) (vs : List Byte) : SameOutside s (setCwBytes s base vs) :=
  ⟨setCwBytes_params s base vs, setCwBytes_host s base vs, setCwBytes_reads s base vs, setCwBytes_turns s base vs⟩

/-! ## The rules -/

theorem sameOutside_segmentRule (s : State) : SameOutside s (endState (segmentRule s)) := by
  obtain ⟨t, ht, frame⟩ | ⟨f, t, ht, -, -, frame⟩ := segmentRule_cases s
  all_goals
    rw [ht]
    exact .of_frame frame ⟨rfl, rfl, rfl, rfl⟩ ⟨rfl, rfl, rfl, rfl⟩

theorem sameOutside_buildStage (s : State) : SameOutside s (endState (buildStage s)) := by
  apply sameOutside_requireStage
  obtain ⟨t, ht, frame⟩ | ⟨f, t, ht, -, -, frame⟩ := buildRule_cases s
  all_goals
    rw [ht]
    exact .of_frame frame ⟨rfl, rfl, rfl, rfl⟩ ⟨rfl, rfl, rfl, rfl⟩

theorem sameOutside_rsencStage (s : State) : SameOutside s (endState (rsencStage s)) := by
  apply sameOutside_requireStage
  obtain ⟨t, ht, frame⟩ := rsencRule_success s
  rw [ht]
  exact .of_frame frame ⟨rfl, rfl, rfl, rfl⟩ ⟨rfl, rfl, rfl, rfl⟩

theorem sameOutside_stampStage (s : State) : SameOutside s (endState (stampStage s)) :=
  sameOutside_requireStage ⟨rfl, rfl, rfl, rfl⟩

theorem sameOutside_placeStage (s : State) : SameOutside s (endState (placeStage s)) := by
  apply sameOutside_requireStage
  obtain ⟨t, ht, frame⟩ | ⟨f, t, ht, -, -, frame⟩ := placeRule_cases s
  all_goals
    rw [ht]
    exact .of_frame frame ⟨rfl, rfl, rfl, rfl⟩ ⟨rfl, rfl, rfl, rfl⟩

theorem sameOutside_maskStage (s : State) : SameOutside s (endState (maskStage s)) :=
  sameOutside_requireStage ⟨rfl, rfl, rfl, rfl⟩

theorem sameOutside_formatStage (s : State) : SameOutside s (endState (formatStage s)) := by
  apply sameOutside_requireStage
  obtain ⟨t, ht, frame⟩ := formatRule_success s
  rw [ht]
  exact .of_frame frame ⟨rfl, rfl, rfl, rfl⟩ ⟨rfl, rfl, rfl, rfl⟩

theorem sameOutside_encodeRule (s : State) : SameOutside s (endState (encodeRule s)) := by
  have segmented : SameOutside s (endState (segmentRule { s with stage := .none })) :=
    SameOutside.trans (t := { s with stage := .none }) ⟨rfl, rfl, rfl, rfl⟩
      (sameOutside_segmentRule _)
  have built := sameOutside_andThen segmented sameOutside_buildStage
  have coded := sameOutside_andThen built sameOutside_rsencStage
  have stamped := sameOutside_andThen coded sameOutside_stampStage
  have placed := sameOutside_andThen stamped sameOutside_placeStage
  have masked := sameOutside_andThen placed sameOutside_maskStage
  exact sameOutside_andThen masked sameOutside_formatStage

/-- A rule that raises an error in the state it started from, or else ends in one with the same outside. -/
theorem sameOutside_failedOrSuccess {p : Prop} [Decidable p] {f : Failure} {s t : State} (h : SameOutside s t) :
    SameOutside s (endState (if p then .failed f s else .success t)) := by
  split
  · exact .refl s
  · exact h

/-! ## The commands -/

theorem exec_sameOutside {i : Instr} {s t : State} (h : exec i s = .next t) : SameOutside s t := by
  cases i <;> cases h
  case nop => split <;> exact ⟨rfl, rfl, rfl, rfl⟩
  case clear => exact ⟨rfl, rfl, rfl, rfl⟩
  case softReset => exact ⟨rfl, rfl, rfl, rfl⟩
  case segment => exact sameOutside_runRule (sameOutside_segmentRule s)
  case build => exact sameOutside_runRule (sameOutside_buildStage s)
  case rsenc => exact sameOutside_runRule (sameOutside_rsencStage s)
  case stamp => exact sameOutside_runRule (sameOutside_stampStage s)
  case place => exact sameOutside_runRule (sameOutside_placeStage s)
  case mask => exact sameOutside_runRule (sameOutside_maskStage s)
  case format => exact sameOutside_runRule (sameOutside_formatStage s)
  case encode => exact sameOutside_runRule (sameOutside_encodeRule s)
  case gfMul => exact sameOutside_runRule ⟨rfl, rfl, rfl, rfl⟩
  case gfExp => exact sameOutside_runRule ⟨rfl, rfl, rfl, rfl⟩
  case gfLog => exact sameOutside_runRule (sameOutside_failedOrSuccess ⟨rfl, rfl, rfl, rfl⟩)
  case gfInv => exact sameOutside_runRule (sameOutside_failedOrSuccess ⟨rfl, rfl, rfl, rfl⟩)
  case rsBlock => exact sameOutside_runRule (sameOutside_failedOrSuccess
      ((sameOutside_setCwBytes s _ _).trans ⟨rfl, rfl, rfl, rfl⟩))
  case genPoly => exact sameOutside_runRule (sameOutside_failedOrSuccess
      ((sameOutside_setCwBytes s _ _).trans ⟨rfl, rfl, rfl, rfl⟩))

/-- A refused word, an illegal word and every command leave the outside as it was. -/
theorem execute_sameOutside {w : Word} {s t : State} (h : execute w s = .next t) : SameOutside s t := by
  rw [execute] at h
  split at h
  · cases h
    exact ⟨rfl, rfl, rfl, rfl⟩
  · split at h
    · cases h
      exact sameOutside_finish (r := .failed (illegalCommand w) s) (.refl s)
    · exact exec_sameOutside h

/-! ## Turns: what one step is, for each agent whose turn it is (00_scope.md R15, 20_memory.md R74) -/

theorem nextAgent_of_turn {s : State} {agent : Agent} {rest : List Agent} (h : s.turns = agent :: rest) :
    nextAgent s = agent := by
  rw [nextAgent, h]

theorem nextAgent_of_noTurns {s : State} (h : s.turns = []) :
    nextAgent s = if s.pend.isSome then .core else .host := by
  rw [nextAgent, h]
  rfl

theorem step_core_idle {s : State} (hc : nextAgent s = .core) (hp : s.pend = none) : step s = .next (useTurn s) := by
  rw [step, hc]
  simp only [coreStep, useTurn_pend, hp]

theorem step_core_pending {s : State} {w : Word} (hc : nextAgent s = .core) (hp : s.pend = some w) :
    step s = execute w (useTurn s) := by
  rw [step, hc]
  simp only [coreStep, useTurn_pend, hp]

theorem step_host_event {s : State} {e : HostEvent} {rest : List HostEvent} (hh : nextAgent s = .host)
    (he : s.host = e :: rest) : step s = .next (hostEvent { useTurn s with host := rest } e) := by
  rw [step, hh]
  simp only [hostStep, useTurn_host, he]

theorem step_host_idle {s : State} (hh : nextAgent s = .host) (he : s.host = []) : step s = .next (useTurn s) := by
  rw [step, hh]
  simp only [hostStep, useTurn_host, he]

/-- Settles O6: `execute_next` empties PEND and `execute_sameOutside` keeps the host's side and the configuration;
the other clauses are the step of the agent whose turn it is. -/
theorem oneAgentMovesAtATime : Obligations.OneAgentMovesAtATime := by
  intro s
  refine ⟨?turn, fun _ _ _ => ⟨rfl, rfl⟩, step_core_idle, ?pending, fun hh _ _ => step_host_event hh, step_host_idle⟩
  case turn =>
    cases h : s.turns with
    | nil => exact nextAgent_of_noTurns h
    | cons agent rest => exact nextAgent_of_turn h
  case pending =>
    intro hc hp
    obtain ⟨w, hw⟩ := Option.ne_none_iff_exists'.mp hp
    obtain ⟨t, ht, idle⟩ := execute_next w (useTurn s)
    obtain ⟨params, host, reads, turns⟩ := execute_sameOutside ht
    exact ⟨t, (step_core_pending hc hw).trans ht, idle, host, reads, turns, params⟩

end Sys2Proof.Laws

/-! What one step and one bus access can do, said once: `step_cases`, and the cases of a read, a write and a legal write
(20_memory.md R62 to R67). With them, that no step changes the configuration (10_state.md R21). -/

namespace Sys2Proof.Laws

open Sys2Proof.Machine

/-! ## Steps -/

/-- A step uses a turn, executes the pending word, or takes the host's next event. -/
theorem step_cases {s t : State} (h : step s = .next t) :
    t = useTurn s ∨ (∃ w, s.pend = some w ∧ execute w (useTurn s) = .next t) ∨
    (∃ e rest, s.host = e :: rest ∧ t = hostEvent { useTurn s with host := rest } e) := by
  cases agent : nextAgent s with
  | host =>
    cases events : s.host with
    | nil =>
      rw [step_host_idle agent events] at h
      cases h
      exact .inl rfl
    | cons e rest =>
      rw [step_host_event agent events] at h
      cases h
      exact .inr (.inr ⟨e, rest, rfl, rfl⟩)
  | core =>
    cases pending : s.pend with
    | none =>
      rw [step_core_idle agent pending] at h
      cases h
      exact .inl rfl
    | some w =>
      rw [step_core_pending agent pending] at h
      exact .inr (.inl ⟨w, rfl, h⟩)

/-! ## The address map -/

/-- PMAX and CWMAX of a configuration that R8 condition 7 admits. -/
theorem windows_bounded (p : Params) :
    1 ≤ p.config.pmax ∧ p.config.pmax ≤ 1024 ∧ 256 ≤ p.config.cwmax ∧ p.config.cwmax ≤ 1024 := by
  have ok := p.ok
  simp only [configWf, wfSizes, Bool.and_eq_true, decide_eq_true_eq] at ok
  obtain ⟨-, -, -, -, sizes⟩ := ok
  exact sizes

/-- R64: the buffer words the address map selects are those in range. -/
theorem inRange_of_decodeBuffer {c : Config} {off : Nat} {w : BusWord} (h : decodeBuffer c off = some w) :
    inRange c w := by
  simp only [decodeBuffer] at h
  split_ifs at h <;> cases h <;> simp only [inRange] <;> omega

/-- R63: the word at a mapped offset is in range. -/
theorem inRange_of_decodeOffset {c : Config} {off : Nat} {w : BusWord} (h : decodeOffset c off = some w) :
    inRange c w := by
  unfold decodeOffset at h
  split at h
  case h_19 =>
    split at h
    · cases h
      simp only [inRange]
      omega
    · exact inRange_of_decodeBuffer h
  all_goals
    cases h
    trivial

theorem inRange_of_selectWord {c : Config} {off width : Nat} {w : BusWord} (h : selectWord c off width = some w) :
    inRange c w := by
  rw [selectWord] at h
  split at h
  · exact inRange_of_decodeOffset h
  · cases h

/-- Past the registers an offset selects a buffer word. -/
theorem decodeOffset_of_le {c : Config} {off : Nat} (h : 0x01000 ≤ off) :
    decodeOffset c off = decodeBuffer c off := by
  unfold decodeOffset
  split
  case h_19 => rw [if_neg (by omega)]
  all_goals omega

theorem selectWord_buffer {c : Config} {off : Nat} (h : 0x01000 ≤ off) (aligned : off % 4 = 0) :
    selectWord c off 4 = decodeBuffer c off := by
  rw [selectWord, if_pos ⟨rfl, aligned⟩, decodeOffset_of_le h]

/-- R64: an index of a window, from the offset of its word. -/
theorem index_of_offset (base i : Nat) : (base + 4 * i - base) / 4 = i := by omega

/-- R63: an aligned word access at a word's offset selects it. -/
theorem selectWord_offsetOf (p : Params) {w : BusWord} (h : inRange p.config w) :
    selectWord p.config (offsetOf w) 4 = some w := by
  obtain ⟨-, pmax, -, cwmax⟩ := windows_bounded p
  cases w
  case penalty i =>
    replace h : i < 8 := h
    interval_cases i <;> rfl
  case segtab | pbuf | cwbuf | exp | log | cell =>
    simp only [inRange] at h
    rw [offsetOf, selectWord_buffer (by omega) (by omega), decodeBuffer]
    repeat rw [if_neg (by omega)]
    rw [if_pos (by omega), index_of_offset]
    all_goals congr <;> omega
  all_goals rfl

/-! ## Bus accesses -/

/-- R62, R65, R67: a read changes at most BUS_ERR and the model's own record. -/
theorem hostRead_cases (s : State) (off width : Nat) :
    ∃ busErr reads draws, hostRead s off width = { s with busErr := busErr, reads := reads, draws := draws } := by
  rw [hostRead]
  split
  · exact ⟨true, _, s.draws, rfl⟩
  · split
    · exact ⟨s.busErr, _, _, rfl⟩
    · exact ⟨s.busErr, _, s.draws, rfl⟩

/-- R65 to R67: a write sets sticky bits only, or stores a word in range while nothing is pending. -/
theorem hostWrite_cases (s : State) (off width : Nat) (v : Word) :
    (∃ busErr wrBusy, hostWrite s off width v = { s with busErr := busErr, wrBusy := wrBusy }) ∨
    (∃ w, s.pend = none ∧ inRange s.cfg w ∧ hostWrite s off width v = storeWord s w v) := by
  rw [hostWrite]
  split
  · exact .inl ⟨_, true, rfl⟩
  · next idle =>
    split
    · split
      · next w selected =>
        exact .inr ⟨w, by simpa [busy] using idle, inRange_of_selectWord selected, rfl⟩
      · exact .inl ⟨s.busErr, s.wrBusy, rfl⟩
    · exact .inl ⟨true, s.wrBusy, rfl⟩

/-- R66: a stored word issues a command, changes one input and restarts the pipeline, or is no word a host may write. -/
theorem storeWord_cases (s : State) (w : BusWord) (v : Word) :
    storeWord s w v = s ∨ storeWord s w v = issue v s ∨
    storeWord s w v = { s with config := v &&& configBits, stage := .none } ∨
    storeWord s w v = { s with plen := v.setWidth 16, stage := .none } ∨
    (∃ i, w = .pbuf i ∧
      storeWord s w v = { s with pbuf := Memory.write 0 s.pbuf i (v.setWidth 8), stage := .none }) ∨
    (∃ i, w = .cwbuf i ∧ storeWord s w v = { setCwByte s i (v.setWidth 8) with stage := .none }) := by
  cases w
  case cmd => exact .inr (.inl rfl)
  case config => exact .inr (.inr (.inl rfl))
  case plen => exact .inr (.inr (.inr (.inl rfl)))
  case pbuf i => exact .inr (.inr (.inr (.inr (.inl ⟨i, rfl, rfl⟩))))
  case cwbuf i => exact .inr (.inr (.inr (.inr (.inr ⟨i, rfl, rfl⟩))))
  all_goals exact .inl rfl

/-! ## The configuration -/

theorem storeWord_params (s : State) (w : BusWord) (v : Word) : (storeWord s w v).params = s.params := by
  cases w <;> rfl

theorem hostEvent_params (s : State) (e : HostEvent) : (hostEvent s e).params = s.params := by
  cases e with
  | read off width =>
    obtain ⟨_, _, _, h⟩ := hostRead_cases s off width
    rw [hostEvent, h]
  | write off width v =>
    obtain ⟨_, _, h⟩ | ⟨w, -, -, h⟩ := hostWrite_cases s off width v <;> rw [hostEvent, h]
    exact storeWord_params s w v
  | reset => rfl

/-- Settles O57: the agents' moves are those of `step_cases`, and neither a command (`execute_sameOutside`) nor a host
event writes the configuration. -/
theorem configurationNeverChanges : Obligations.ConfigurationNeverChanges := by
  intro s t h
  obtain rfl | ⟨w, -, executed⟩ | ⟨e, rest, -, rfl⟩ := step_cases h
  · rfl
  · exact (execute_sameOutside executed).params
  · exact hostEvent_params _ e

end Sys2Proof.Laws

/-! What the words of the bus hold, bit by bit (10_state.md R24 to R49), and the reset values (R55). -/

namespace Sys2Proof.Laws

open Sys2Proof.Machine

/-! ## The fields of a word -/

/-- A field of a word that is given as a number. -/
theorem extractLsb'_ofNat (lo width n : Nat) (h : lo + width ≤ 32) :
    (BitVec.ofNat 32 n).extractLsb' lo width = BitVec.ofNat width (n / 2 ^ lo) := by
  apply BitVec.eq_of_toNat_eq
  rw [BitVec.extractLsb'_toNat, BitVec.toNat_ofNat, BitVec.toNat_ofNat, Nat.shiftRight_eq_div_pow,
    show 2 ^ 32 = 2 ^ lo * 2 ^ (32 - lo) by rw [← Nat.pow_add]; congr 1; omega, Nat.mod_mul_right_div_self,
    Nat.mod_mod_of_dvd _ (Nat.pow_dvd_pow 2 (by omega))]

/-- A number's field is a given value. -/
theorem extractLsb'_ofNat_eq {lo width n : Nat} {x : BitVec width} (h : lo + width ≤ 32)
    (hx : n / 2 ^ lo % 2 ^ width = x.toNat) : (BitVec.ofNat 32 n).extractLsb' lo width = x := by
  rw [extractLsb'_ofNat lo width n h]
  exact BitVec.eq_of_toNat_eq (by rw [BitVec.toNat_ofNat, hx])

/-- A number's bit is a given flag. -/
theorem getLsbD_ofNat_eq {i n : Nat} {b : Bool} (h : i < 32) (hb : n / 2 ^ i % 2 = b.toNat) :
    (BitVec.ofNat 32 n).getLsbD i = b := by
  rw [BitVec.getLsbD_ofNat, Nat.testBit_eq_decide_div_mod_eq, hb]
  cases b <;> simp [h]

theorem stageCode_lt (x : Stage) : stageCode x < 8 := by cases x <;> decide

theorem errorCode_lt (k : ErrKind) : errorCode k < 256 := by cases k <;> decide

/-- R26. -/
theorem statusWord_bits (s : State) :
    (statusWord s).getLsbD 0 = s.pend.isSome ∧ (statusWord s).getLsbD 1 = s.done ∧
    (statusWord s).getLsbD 2 = s.error ∧ (statusWord s).getLsbD 3 = s.busErr ∧
    (statusWord s).getLsbD 4 = s.wrBusy ∧ (statusWord s).getLsbD 5 = irq s ∧
    (statusWord s).extractLsb' 6 2 = 0 ∧
    (statusWord s).extractLsb' 8 3 = BitVec.ofNat 3 (stageCode s.stage) ∧
    (statusWord s).extractLsb' 11 21 = 0 := by
  have hb := Bool.toNat_le s.pend.isSome
  have hd := Bool.toNat_le s.done
  have he := Bool.toNat_le s.error
  have hbe := Bool.toNat_le s.busErr
  have hw := Bool.toNat_le s.wrBusy
  have hi := Bool.toNat_le (irq s)
  have hs := stageCode_lt s.stage
  simp only [statusWord, field, busy]
  refine ⟨getLsbD_ofNat_eq (by decide) ?_, getLsbD_ofNat_eq (by decide) ?_, getLsbD_ofNat_eq (by decide) ?_,
    getLsbD_ofNat_eq (by decide) ?_, getLsbD_ofNat_eq (by decide) ?_, getLsbD_ofNat_eq (by decide) ?_,
    extractLsb'_ofNat_eq (by decide) ?_, extractLsb'_ofNat_eq (by decide) ?_, extractLsb'_ofNat_eq (by decide) ?_⟩
  all_goals bv_omega

/-- R35. -/
theorem errCodeWord_fields (s : State) :
    (errCodeWord s).extractLsb' 0 8 = BitVec.ofNat 8 (errorCode s.errKind) ∧
    (errCodeWord s).extractLsb' 8 8 = s.errOpc ∧ (errCodeWord s).extractLsb' 16 16 = 0 := by
  have hk := errorCode_lt s.errKind
  have ho := s.errOpc.isLt
  simp only [errCodeWord, field]
  refine ⟨extractLsb'_ofNat_eq (by decide) ?_, extractLsb'_ofNat_eq (by decide) ?_,
    extractLsb'_ofNat_eq (by decide) ?_⟩
  all_goals bv_omega

/-- R37. -/
theorem resVerWord_fields (s : State) :
    (resVerWord s).extractLsb' 0 5 = s.viSel ∧ (resVerWord s).extractLsb' 5 3 = 0 ∧
    (resVerWord s).extractLsb' 8 5 = s.resH ∧ (resVerWord s).extractLsb' 13 3 = 0 ∧
    (resVerWord s).extractLsb' 16 8 = s.resW ∧
    (resVerWord s).extractLsb' 24 2 = BitVec.ofNat 2 (eclCode s.eclSel) ∧ (resVerWord s).extractLsb' 26 6 = 0 := by
  have hv := s.viSel.isLt
  have hh := s.resH.isLt
  have hw := s.resW.isLt
  have he : eclCode s.eclSel < 4 := by cases s.eclSel <;> decide
  simp only [resVerWord, field]
  refine ⟨extractLsb'_ofNat_eq (by decide) ?_, extractLsb'_ofNat_eq (by decide) ?_,
    extractLsb'_ofNat_eq (by decide) ?_, extractLsb'_ofNat_eq (by decide) ?_, extractLsb'_ofNat_eq (by decide) ?_,
    extractLsb'_ofNat_eq (by decide) ?_, extractLsb'_ofNat_eq (by decide) ?_⟩
  all_goals bv_omega

/-- R45. -/
theorem segWord_fields (e : SegEntry) :
    (segWord e).extractLsb' 0 2 = e.mode ∧ (segWord e).extractLsb' 2 6 = 0 ∧
    (segWord e).extractLsb' 8 12 = e.start ∧ (segWord e).extractLsb' 20 12 = e.len := by
  have hm := e.mode.isLt
  have hs := e.start.isLt
  have hl := e.len.isLt
  simp only [segWord, field]
  refine ⟨extractLsb'_ofNat_eq (by decide) ?_, extractLsb'_ofNat_eq (by decide) ?_,
    extractLsb'_ofNat_eq (by decide) ?_, extractLsb'_ofNat_eq (by decide) ?_⟩
  all_goals bv_omega

/-- R49. -/
theorem cellWord_fields (x : Cell) :
    (cellWord x).extractLsb' 0 2 = BitVec.ofNat 2 (colourCode x.colour) ∧
    (cellWord x).extractLsb' 2 2 = BitVec.ofNat 2 (tagCode x.tag) ∧
    (cellWord x).getLsbD 4 = decide (x.colour = .dark) ∧ (cellWord x).extractLsb' 5 27 = 0 := by
  obtain ⟨tag, colour⟩ := x
  cases tag <;> cases colour <;> decide

/-- R33, with the low bits of a value too wide for its field (log entry 12). -/
theorem param0Word_fields (c : Config) :
    param0Word c = BitVec.ofNat 32
      (nv c % 2 ^ 8 + nm c % 2 ^ 4 * 2 ^ 8 + c.miW % 2 ^ 4 * 2 ^ 12 + fmtW c % 2 ^ 5 * 2 ^ 16) := by
  simp only [param0Word, field, Nat.pow_zero, Nat.mul_one]

/-- R33. -/
theorem param1Word_fields (p : Params) :
    param1Word p.config = BitVec.ofNat 32 (p.config.pmax + p.config.cwmax * 2 ^ 16) := by
  obtain ⟨-, pmax, -, cwmax⟩ := windows_bounded p
  rw [param1Word, field, field, Nat.mod_eq_of_lt (by omega), Nat.mod_eq_of_lt (by omega), Nat.pow_zero, Nat.mul_one]

/-- Settles O49, by the fields of STATUS, ERR_CODE, RES_VER, SEGTAB and the cells; every other word is its element. -/
theorem registerWordsAndInterruptOutput : Obligations.RegisterWordsAndInterruptOutput := by
  refine ⟨fun s => ⟨rfl, statusWord_bits s⟩, rfl, fun s => ?errCode, fun s r c => ?cell, fun s => ?resVer,
    fun s i => segWord_fields (segEntry s i), fun s => ⟨param0Word_fields s.cfg, param1Word_fields s.params⟩,
    fun s => ⟨rfl, rfl, rfl, rfl, rfl, rfl, rfl, rfl, rfl, rfl, rfl⟩, fun s i => ⟨rfl, rfl, rfl, rfl, rfl⟩⟩
  case errCode =>
    obtain ⟨code, opc, rest⟩ := errCodeWord_fields s
    refine ⟨code.trans ?_, opc, rest, rfl, rfl⟩
    cases s.errKind <;> rfl
  case cell =>
    obtain ⟨colour, tag, dark, rest⟩ := cellWord_fields (cellAt s r c)
    refine ⟨colour.trans ?_, tag.trans ?_, dark, rest⟩
    · cases (cellAt s r c).colour <;> rfl
    · cases (cellAt s r c).tag <;> rfl
  case resVer =>
    obtain ⟨version, gap, height, gap', width, level, rest⟩ := resVerWord_fields s
    refine ⟨version, gap, height, gap', width, level.trans ?_, rest⟩
    cases s.eclSel <;> rfl

/-! ## Reset -/

/-- A read while nothing is pending returns the word it selects. -/
theorem readValue_idle {s : State} {w : BusWord} (idle : s.pend = none) (h : inRange s.cfg w) :
    readValue s (offsetOf w) 4 = wordValue s w := by
  rw [readValue, selectWord_offsetOf s.params h]
  simp [busy, idle]

@[simp] theorem irq_resetWith (p : Params) : irq (State.resetWith p) = false := by
  simp [irq, State.resetWith]

theorem statusWord_resetWith (p : Params) : statusWord (State.resetWith p) = 0 := by
  rw [statusWord, irq_resetWith]
  simp [field, busy, State.resetWith, stageCode]

theorem errCodeWord_resetWith (p : Params) : errCodeWord (State.resetWith p) = 0 := by
  simp [errCodeWord, field, State.resetWith, errorCode]

theorem resVerWord_resetWith (p : Params) : resVerWord (State.resetWith p) = 0 := by
  simp [resVerWord, field, State.resetWith, eclCode]

/-- Settles O56: nothing is pending after reset, so every word reads its value. -/
theorem resetValues : Obligations.ResetValues := by
  intro p w h
  refine ⟨?_, rfl, rfl, rfl, rfl, rfl, irq_resetWith p, ?_, ?_⟩
  · rw [readValue_idle rfl h]
    cases w
    case penalty i =>
      replace h : i < 8 := h
      interval_cases i <;> rfl
    case status => exact statusWord_resetWith p
    case errCode => exact errCodeWord_resetWith p
    case resVer => exact resVerWord_resetWith p
    case segtab => exact (by decide : segWord zeroEntry = 0)
    case cell => exact (by decide : cellWord outsideCell = 0x0000000C)
    all_goals rfl
  · exact readValue_idle (s := State.reset) (w := .param0) rfl trivial
  · exact readValue_idle (s := State.reset) (w := .param1) rfl trivial

/-- Nothing is listed after reset, and no stage is completed. -/
theorem inv_resetWith (p : Params) : Inv (State.resetWith p) where
  flags := ⟨fun h => absurd rfl h, nofun, fun _ => ⟨rfl, rfl, rfl, rfl⟩, nofun, nofun,
    show (1 : Word) &&& configBits = 1 by decide⟩
  buffers := ⟨rfl, nofun, rfl, nofun, rfl, nofun, rfl, nofun, nofun, rfl, nofun, nofun, rfl⟩
  matrix := ⟨rfl, Nat.zero_le _, Nat.zero_le _, fun _ _ h => absurd h.1 (Nat.not_lt_zero _), fun _ _ _ _ => rfl⟩
  stages := ⟨nofun, nofun, nofun, nofun, nofun⟩
  formats := ⟨Nat.two_pow_pos _, Nat.two_pow_pos _⟩

/-- Settles O58. -/
theorem invariantHoldsAtReset : Obligations.InvariantHoldsAtReset :=
  ⟨inv_resetWith, inv_resetWith referenceParams⟩

end Sys2Proof.Laws

/-! The buffers under the invariant (10_state.md R45 to R47): every write and every loss of a stage's outputs keeps
their canonical form and stays in their windows. -/

namespace Sys2Proof.Laws

open Sys2Proof.Machine

section
variable {α : Type} {d : α} {n : Nat} {m : List (Nat × α)} {free : List (Nat × Nat)}

theorem memory_sorted_iff_pairwise {m : List (Nat × α)} :
    Memory.sorted m = true ↔ m.Pairwise fun a b => a.1 < b.1 := by
  induction m with
  | nil => simp [Memory.sorted]
  | cons p m ih => rw [memory_sorted_cons, List.pairwise_cons, ih]

theorem indicesBelow_filter (h : indicesBelow n m) (q : Nat × α → Bool) : indicesBelow n (m.filter q) :=
  fun p hp => h p (List.mem_of_mem_filter hp)

variable [DecidableEq α]

theorem memory_find_write_ne {a b : Nat} (v : α) (h : b ≠ a) :
    Memory.find (Memory.write d m a v) b = Memory.find m b := by
  rw [Memory.write]
  split
  · rw [memory_find_erase, if_neg h]
  · rw [memory_find_insert, if_neg h]

theorem indicesBelow_write {i : Nat} (h : indicesBelow n m) (hi : i < n) (v : α) :
    indicesBelow n (Memory.write d m i v) := by
  intro p hp
  obtain rfl | hp := memory_mem_write hp
  · exact hi
  · exact h p hp

/-- A buffer of n entries and the list of its unspecified entries, as `BuffersOk` has them for CWBUF and SEGTAB. -/
structure BufferOk (d : α) (n : Nat) (m : List (Nat × α)) (free : List (Nat × Nat)) : Prop where
  wf : Memory.wf d m = true
  below : indicesBelow n m
  freeSorted : Memory.sorted free = true
  freeBelow : indicesBelow n free
  apart : ∀ p ∈ free, Memory.find m p.1 = none

/-- A written entry is specified again. -/
theorem BufferOk.write (h : BufferOk d n m free) {i : Nat} (hi : i < n) (v : α) :
    BufferOk d n (Memory.write d m i v) (Memory.erase free i) where
  wf := memory_wf_write d m i v h.wf
  below := indicesBelow_write h.below hi v
  freeSorted := memory_sorted_filter _ _ h.freeSorted
  freeBelow := indicesBelow_filter h.freeBelow _
  apart p hp := by
    obtain ⟨listed, other⟩ := List.mem_filter.mp hp
    rw [memory_find_write_ne v (by simpa using other)]
    exact h.apart p listed

/-- The first k entries become unspecified (60_exceptions.md R326). -/
theorem BufferOk.release (h : BufferOk d n m free) {k : Nat} (hk : k ≤ n) (draw : Nat) :
    BufferOk d n (m.filter fun p => decide (k ≤ p.1))
      (((List.range k).map fun i => (i, draw)) ++ free.filter fun p => decide (k ≤ p.1)) where
  wf := memory_wf_filter d m _ h.wf
  below := indicesBelow_filter h.below _
  freeSorted := by
    rw [memory_sorted_iff_pairwise, List.pairwise_append]
    refine ⟨List.pairwise_map.mpr List.pairwise_lt_range,
      memory_sorted_iff_pairwise.mp (memory_sorted_filter _ _ h.freeSorted), ?_⟩
    intro a ha b hb
    simp only [List.mem_map, List.mem_range, List.mem_filter, decide_eq_true_eq] at ha hb
    obtain ⟨i, hi, rfl⟩ := ha
    exact lt_of_lt_of_le hi hb.2
  freeBelow p hp := by
    simp only [List.mem_append, List.mem_map, List.mem_range] at hp
    obtain ⟨i, hi, rfl⟩ | hp := hp
    · exact lt_of_lt_of_le hi hk
    · exact indicesBelow_filter h.freeBelow _ p hp
  apart p hp := by
    rw [memory_find_filter m (fun i => decide (k ≤ i))]
    simp only [List.mem_append, List.mem_map, List.mem_range, List.mem_filter] at hp
    obtain ⟨i, hi, rfl⟩ | ⟨listed, -⟩ := hp
    · simp [hi]
    · rw [h.apart p listed, ite_self]

end

/-! ## CWBUF, SEGTAB and PBUF of a state -/

section
variable {s : State} (h : BuffersOk s)
include h

theorem cwbuf_ok : BufferOk 0 s.cfg.cwmax s.cwbuf s.cwFree :=
  ⟨h.cwbufWf, h.cwbufBelow, h.cwFreeSorted, h.cwFreeBelow, h.cwFreeApart⟩

theorem segtab_ok : BufferOk zeroEntry s.cfg.pmax s.segtab s.segFree :=
  ⟨h.segtabWf, h.segtabBelow, h.segFreeSorted, h.segFreeBelow, h.segFreeApart⟩

theorem buffersOk_of_cwbuf {m : List Host.Cell} {free : List (Nat × Nat)} (hm : BufferOk 0 s.cfg.cwmax m free) :
    BuffersOk { s with cwbuf := m, cwFree := free } :=
  { h with
    cwbufWf := hm.wf
    cwbufBelow := hm.below
    cwFreeSorted := hm.freeSorted
    cwFreeBelow := hm.freeBelow
    cwFreeApart := hm.apart }

theorem buffersOk_of_segtab {m : List (Nat × SegEntry)} {free : List (Nat × Nat)}
    (hm : BufferOk zeroEntry s.cfg.pmax m free) : BuffersOk { s with segtab := m, segFree := free } :=
  { h with
    segtabWf := hm.wf
    segtabBelow := hm.below
    segFreeSorted := hm.freeSorted
    segFreeBelow := hm.freeBelow
    segFreeApart := hm.apart }

theorem buffersOk_setCwByte {i : Nat} (hi : i < s.cfg.cwmax) (v : Byte) : BuffersOk (setCwByte s i v) :=
  buffersOk_of_cwbuf h ((cwbuf_ok h).write hi v)

theorem buffersOk_setSegEntry {i : Nat} (hi : i < s.cfg.pmax) (e : SegEntry) : BuffersOk (setSegEntry s i e) :=
  buffersOk_of_segtab h ((segtab_ok h).write hi e)

theorem buffersOk_freeCwBytes {k : Nat} (hk : k ≤ s.cfg.cwmax) : BuffersOk (freeCwBytes s k) :=
  buffersOk_of_cwbuf h ((cwbuf_ok h).release hk s.draws)

theorem buffersOk_freeSegEntries {k : Nat} (hk : k ≤ s.cfg.pmax) : BuffersOk (freeSegEntries s k) :=
  buffersOk_of_segtab h ((segtab_ok h).release hk s.draws)

theorem buffersOk_pbufWrite {i : Nat} (hi : i < s.cfg.pmax) (v : Byte) :
    BuffersOk { s with pbuf := Memory.write 0 s.pbuf i v } :=
  { h with
    pbufWf := memory_wf_write 0 s.pbuf i v h.pbufWf
    pbufBelow := indicesBelow_write h.pbufBelow hi v }

end

theorem buffersOk_setCwBytes {s : State} (h : BuffersOk s) {base : Nat} {vs : List Byte}
    (fit : base + vs.length ≤ s.cfg.cwmax) : BuffersOk (setCwBytes s base vs) := by
  induction vs generalizing s base with
  | nil => exact h
  | cons v vs ih =>
    rw [List.length_cons] at fit
    exact ih (buffersOk_setCwByte h (by omega) v) (by show _ ≤ s.cfg.cwmax; omega)

theorem buffersOk_setSegEntries {s : State} (h : BuffersOk s) {base : Nat} {es : List SegEntry}
    (fit : base + es.length ≤ s.cfg.pmax) : BuffersOk (setSegEntries s base es) := by
  induction es generalizing s base with
  | nil => exact h
  | cons e es ih =>
    rw [List.length_cons] at fit
    exact ih (buffersOk_setSegEntry h (by omega) e) (by show _ ≤ s.cfg.pmax; omega)

/-- A run of CWBUF writes is one update of CWBUF. -/
theorem setCwBytes_eq (s : State) (base : Nat) (vs : List Byte) : setCwBytes s base vs =
    { s with cwbuf := (setCwBytes s base vs).cwbuf, cwFree := (setCwBytes s base vs).cwFree } :=
  congrArg (fun t : State => { t with
    cwbuf := (setCwBytes s base vs).cwbuf, cwFree := (setCwBytes s base vs).cwFree }) (setCwBytes_frame s base vs)

/-- A run of SEGTAB writes is one update of SEGTAB. -/
theorem setSegEntries_eq (s : State) (base : Nat) (es : List SegEntry) : setSegEntries s base es =
    { s with segtab := (setSegEntries s base es).segtab, segFree := (setSegEntries s base es).segFree } :=
  congrArg (fun t : State => { t with
    segtab := (setSegEntries s base es).segtab, segFree := (setSegEntries s base es).segFree })
    (setSegEntries_frame s base es)

/-- A run of colourings is one update of the matrix memory. -/
theorem setColours_eq (s : State) (ps : List (Nat × Nat)) (ks : List Colour) : setColours s ps ks =
    { s with cells := (setColours s ps ks).cells } :=
  congrArg (fun t : State => { t with cells := (setColours s ps ks).cells }) (setColours_frame s ps ks)

/-! ## What the stages write into CWBUF -/

/-- The entries below n of one list. -/
theorem sum_entriesBelow (l : List Byte) (n : Nat) :
    ((List.range n).map fun i => (l[i]?).toList.length).sum = min n l.length := by
  induction n with
  | zero => simp
  | succ n ih =>
    rw [List.range_succ, List.map_append, List.sum_append, ih]
    by_cases h : n < l.length
    · simp [h]; omega
    · simp [h]; omega

/-- A round-robin stream has no more entries than its lists (43_ecc.md R198). -/
theorem roundRobin_length_le (lists : List (List Byte)) :
    (roundRobin lists).length ≤ (lists.map List.length).sum := by
  have key : ∀ n, ((List.range n).flatMap fun i => lists.filterMap fun l => l[i]?).length
      ≤ (lists.map List.length).sum := by
    intro n
    rw [List.length_flatMap]
    induction lists with
    | nil => simp
    | cons l lists ih =>
      have first : ∀ i : Nat, ((l :: lists).filterMap fun l : List Byte => l[i]?).length
          = (l[i]?).toList.length + (lists.filterMap fun l : List Byte => l[i]?).length := by
        intro i
        rw [List.filterMap_cons]
        cases l[i]? <;> simp; omega
      simp only [first, List.sum_map_add, sum_entriesBelow, List.map_cons, List.sum_cons]
      omega
  exact key _

/-- R199: the interleaved codewords of a CAP entry fit CWBUF. -/
theorem interleave_length_le (p : Params) (s : State) (v : Nat) (l : Ecl) :
    (interleave (codeBlocks p.config (blockShapes (groupsOf p.config v l))
      (cwBytes s 0 (dataOf (groupsOf p.config v l))))).length ≤ p.config.cwmax := by
  obtain ⟨groups, total⟩ := groupsOf_bounds p v l
  generalize groupsOf p.config v l = gs at groups total
  obtain ⟨shapesData, shapesTotal⟩ := blockShapes_sums gs fun g hg => (groups g hg).2.2.1.le
  obtain ⟨data, parity⟩ := codeBlocks_sums p.config (blockShapes gs) (cwBytes s 0 (dataOf gs))
    (by rw [shapesData, cwBytes_length])
  rw [interleave, List.length_append]
  have := roundRobin_length_le ((codeBlocks p.config (blockShapes gs) (cwBytes s 0 (dataOf gs))).map Prod.fst)
  have := roundRobin_length_le ((codeBlocks p.config (blockShapes gs) (cwBytes s 0 (dataOf gs))).map Prod.snd)
  omega

/-- The data codewords of a CAP entry fit CWBUF. -/
theorem dataOf_groupsOf_le (p : Params) (v : Nat) (l : Ecl) : dataOf (groupsOf p.config v l) ≤ p.config.cwmax := by
  obtain ⟨groups, total⟩ := groupsOf_bounds p v l
  exact (dataOf_le_totalOf _ fun g hg => (groups g hg).2.2.1.le).trans total

/-- So do those of every row of CAP, the most a failed BUILD may lose. -/
theorem mostDataCodewords_le (p : Params) : mostDataCodewords p.config ≤ p.config.cwmax := by
  have rows := p.ok
  simp only [configWf, wfCap, Bool.and_eq_true, List.all_eq_true] at rows
  obtain ⟨⟨⟨⟨⟨-, rows⟩, -⟩, -⟩, -⟩, -⟩ := rows
  rw [mostDataCodewords]
  cases most : (p.config.cap.map fun row => dataOf row.groups).max? with
  | none => exact Nat.zero_le _
  | some x =>
    obtain ⟨row, listed, rfl⟩ := List.mem_map.mp (List.max?_mem most)
    have bounds := rows row listed
    simp only [wfGroups, Bool.and_eq_true, List.all_eq_true, decide_eq_true_eq] at bounds
    obtain ⟨⟨groups, total⟩, -⟩ := bounds
    exact (dataOf_le_totalOf _ fun g hg => (groups g hg).2.2.1.le).trans total

end Sys2Proof.Laws

/-! The placement order (44_matrix.md R242) lists the Data cells of the layout, each once, and so has free(v) cells. -/

namespace Sys2Proof.Laws

open Sys2Proof.Machine

theorem mem_sweepRows {h r : Nat} {up : Bool} : r ∈ sweepRows h up ↔ r < h := by
  cases up <;> simp [sweepRows]

theorem sweepRows_nodup (h : Nat) (up : Bool) : (sweepRows h up).Nodup := by
  cases up with
  | false => exact List.nodup_range
  | true => exact List.nodup_reverse.mpr List.nodup_range

theorem mem_pairOf {rc c : Nat} : c ∈ pairOf rc ↔ c = rc ∨ c + 1 = rc := by
  rw [pairOf]
  split
  · simp; omega
  · simp; omega

theorem pairOf_nodup (rc : Nat) : (pairOf rc).Nodup := by
  rw [pairOf]
  split
  · simp
  · simp; omega

theorem mem_sweeps {h r c : Nat} {up : Bool} {cols : List Nat} :
    (r, c) ∈ sweeps h up cols ↔ r < h ∧ ∃ rc ∈ cols, c ∈ pairOf rc := by
  induction cols generalizing up with
  | nil => simp [sweeps]
  | cons rc cols ih =>
    simp only [sweeps, List.mem_append, ih, List.mem_flatMap, List.mem_map, mem_sweepRows, Prod.mk.injEq,
      List.mem_cons, exists_eq_or_imp]
    constructor
    · rintro (⟨_, hr, _, hc, rfl, rfl⟩ | ⟨hr, rest⟩)
      · exact ⟨hr, .inl hc⟩
      · exact ⟨hr, .inr rest⟩
    · rintro ⟨hr, hc | rest⟩
      · exact .inl ⟨r, hr, c, hc, rfl, rfl⟩
      · exact .inr ⟨hr, rest⟩

/-- One sweep visits a cell once. -/
theorem sweep_nodup (h rc : Nat) (up : Bool) :
    ((sweepRows h up).flatMap fun r => (pairOf rc).map fun c => (r, c)).Nodup := by
  rw [List.nodup_flatMap]
  refine ⟨fun r _ => (pairOf_nodup rc).map fun a b e => (Prod.mk.inj e).2, (sweepRows_nodup h up).imp ?_⟩
  rintro a b hab ⟨r, c⟩ ha hb
  simp only [List.mem_map, Prod.mk.injEq] at ha hb
  obtain ⟨_, -, rfl, -⟩ := ha
  obtain ⟨_, -, rfl, -⟩ := hb
  exact hab rfl

/-- Sweeps over column pairs that lie apart visit a cell once. -/
theorem sweeps_nodup {cols : List Nat} (apart : cols.Pairwise fun a b => b + 2 ≤ a) (h : Nat) (up : Bool) :
    (sweeps h up cols).Nodup := by
  induction cols generalizing up with
  | nil => exact List.nodup_nil
  | cons rc cols ih =>
    obtain ⟨first, rest⟩ := List.pairwise_cons.mp apart
    refine List.nodup_append.mpr ⟨sweep_nodup h rc up, ih rest _, ?_⟩
    rintro ⟨r, c⟩ ha ⟨r', c'⟩ hb e
    simp only [List.mem_flatMap, List.mem_map, Prod.mk.injEq] at ha
    obtain ⟨_, -, _, hc, -, rfl⟩ := ha
    obtain ⟨-, rc', hrc', hc'⟩ := mem_sweeps.mp hb
    have gap := first rc' hrc'
    have same := (Prod.mk.inj e).2
    rw [mem_pairOf] at hc hc'
    omega

theorem pairColumns_apart (w : Nat) : (pairColumns w).Pairwise fun a b => b + 2 ≤ a := by
  rw [pairColumns, List.pairwise_map]
  refine List.pairwise_lt_range.imp_of_mem fun {a b} ha hb hab => ?_
  rw [List.mem_range] at ha hb
  omega

/-- The column pairs cover every column but the last. -/
theorem exists_pairColumns {w c : Nat} : (∃ rc ∈ pairColumns w, c ∈ pairOf rc) ↔ c + 1 < w := by
  simp only [pairColumns, List.mem_map, List.mem_range, mem_pairOf]
  constructor
  · rintro ⟨_, ⟨k, hk, rfl⟩, hc⟩
    omega
  · intro hc
    exact ⟨_, ⟨(w - 2 - c) / 2, by omega, rfl⟩, by omega⟩

/-- R8 condition 6: the last column holds no Data cell. -/
theorem geomCell_last (p : Params) {v r : Nat} (hv : v < nv p.config) (hr : r < heightOf p.config v) :
    geomCell p.config v r (widthOf p.config v - 1) ≠ .data := by
  have ok := p.ok
  simp only [configWf, wfLastColumn, Bool.and_eq_true, List.all_eq_true, List.mem_range, bne_iff_ne] at ok
  obtain ⟨⟨-, lastColumn⟩, -⟩ := ok
  exact lastColumn v hv r hr

theorem mem_placementOrder (p : Params) {v r c : Nat} (hv : v < nv p.config) :
    (r, c) ∈ placementOrder p.config v ↔
      r < heightOf p.config v ∧ c < widthOf p.config v ∧ geomCell p.config v r c = .data := by
  rw [placementOrder, List.mem_filter, mem_sweeps, exists_pairColumns, beq_iff_eq]
  constructor
  · rintro ⟨⟨hr, hc⟩, data⟩
    exact ⟨hr, by omega, data⟩
  · rintro ⟨hr, hc, data⟩
    refine ⟨⟨hr, ?_⟩, data⟩
    by_contra last
    have := geomCell_last p hv hr
    rw [show widthOf p.config v - 1 = c by omega] at this
    exact this data

theorem placementOrder_nodup (c : Config) (v : Nat) : (placementOrder c v).Nodup :=
  (sweeps_nodup (pairColumns_apart _) _ _).filter _

/-- R239, R242. -/
theorem placementOrder_length (p : Params) {v : Nat} (hv : v < nv p.config) :
    (placementOrder p.config v).length = freeCells p.config v := by
  refine List.Perm.length_eq ((List.perm_ext_iff_of_nodup (placementOrder_nodup _ _)
    ((cellsOf_nodup p.config v).filter _)).mpr ?_)
  rintro ⟨r, c⟩
  rw [mem_placementOrder p hv, List.mem_filter, mem_cellsOf, beq_iff_eq, and_assoc]

end Sys2Proof.Laws

/-! The matrix under the invariant (10_state.md R49, R50, 44_matrix.md R253): what STAMP, PLACE, MASK, FORMAT and a
failed PLACE keep of the matrix memory, and what a cell may hold from stage to stage. -/

namespace Sys2Proof.Laws

open Sys2Proof.Machine

/-! ## The matrix memory -/

/-- A map of the listed cells that moves none and empties none keeps the canonical form. -/
theorem memory_wf_map {m : List (Nat × Cell)} {f : Nat × Cell → Nat × Cell} (index : ∀ p, (f p).1 = p.1)
    (listed : ∀ p, p.2 ≠ outsideCell → (f p).2 ≠ outsideCell) (h : Memory.wf outsideCell m = true) :
    Memory.wf outsideCell (m.map f) = true := by
  rw [memory_wf_iff, memory_sorted_iff_pairwise] at h ⊢
  obtain ⟨sorted, used⟩ := h
  refine ⟨List.pairwise_map.mpr (sorted.imp fun {a b} hab => by rwa [index, index]), fun p hp => ?_⟩
  obtain ⟨q, hq, rfl⟩ := List.mem_map.mp hp
  exact listed q (used q hq)

theorem ne_outsideCell_of_tag {x : Cell} (h : x.tag ≠ .outside) : x ≠ outsideCell := fun e => h (e ▸ rfl)

theorem maskCell_tag (m : MaskFn) (r c : Nat) (x : Cell) : (maskCell m r c x).tag = x.tag := by
  rw [maskCell]
  split <;> rfl

theorem maskCell_of_ne_data {m : MaskFn} {r c : Nat} {x : Cell} (h : x.tag ≠ .data) : maskCell m r c x = x := by
  rw [maskCell, if_neg fun hx => h hx.1]

theorem memory_wf_maskedCells (m : MaskFn) {cells : List (Nat × Cell)} (h : Memory.wf outsideCell cells = true) :
    Memory.wf outsideCell (maskedCells m cells) = true := by
  refine memory_wf_map (fun _ => rfl) (fun p hp => ?_) h
  by_cases data : p.2.tag = .data
  · exact ne_outsideCell_of_tag (by rw [maskCell_tag, data]; decide)
  · simpa only [maskCell_of_ne_data data] using hp

theorem memory_wf_freePlaceOutputs {s : State} (h : Memory.wf outsideCell s.cells = true) :
    Memory.wf outsideCell (freePlaceOutputs s).cells = true := by
  refine memory_wf_map (fun p => ?_) (fun p hp => ?_) h
  · split <;> rfl
  · split
    · next data => exact ne_outsideCell_of_tag (by rw [data]; decide)
    · exact hp

/-- New colours inside the matrix keep the matrix memory in order. -/
theorem matrixOk_of_recolour {s t : State} (h : MatrixOk s) (wf : Memory.wf outsideCell t.cells = true)
    (rows : t.mdimH = s.mdimH) (columns : t.mdimW = s.mdimW)
    (tags : ∀ r c, c < 256 → (cellAt t r c).tag = (cellAt s r c).tag)
    (outside : ∀ r c, c < 256 → ¬insideMatrix s r c → cellAt t r c = cellAt s r c) : MatrixOk t := by
  have inside : ∀ r c, insideMatrix t r c ↔ insideMatrix s r c := fun r c => by
    rw [insideMatrix, insideMatrix, rows, columns]
  refine ⟨wf, rows ▸ h.rows, columns ▸ h.columns, fun r c hi => ?_, fun r c hc ho => ?_⟩
  · obtain ⟨hr, hc⟩ := (inside r c).mp hi
    rw [tags r c (lt_of_lt_of_le hc h.columns)]
    exact h.inside r c ⟨hr, hc⟩
  · have ho' := mt (inside r c).mpr ho
    rw [outside r c hc ho', h.outside r c hc ho']

theorem matrixOk_setColours {s : State} (h : MatrixOk s) {ps : List (Nat × Nat)} (ks : List Colour)
    (hps : ∀ p ∈ ps, insideMatrix s p.1 p.2) : MatrixOk (setColours s ps ks) := by
  have narrow : ∀ p ∈ ps, p.2 < 256 := fun p hp => lt_of_lt_of_le (hps p hp).2 h.columns
  exact matrixOk_of_recolour h (memory_wf_setColours s ps ks h.cellsWf) (setColours_mdimH s ps ks)
    (setColours_mdimW s ps ks) (fun r c hc => cellAt_setColours_tag s ps ks hc narrow)
    fun r c hc ho => cellAt_setColours_notMem s ps ks hc narrow fun hp => ho (hps _ hp)

theorem matrixOk_maskedCells {s : State} (h : MatrixOk s) (m : MaskFn) :
    MatrixOk { s with cells := maskedCells m s.cells } :=
  matrixOk_of_recolour h (memory_wf_maskedCells m h.cellsWf) rfl rfl
    (fun r c hc => by rw [cellAt_maskedCells hc rfl, maskCell_tag])
    fun r c hc ho => by
      rw [cellAt_maskedCells hc rfl, maskCell_of_ne_data (by rw [h.outside r c hc ho]; decide)]

theorem matrixOk_freePlaceOutputs {s : State} (h : MatrixOk s) : MatrixOk (freePlaceOutputs s) := by
  refine matrixOk_of_recolour h (memory_wf_freePlaceOutputs h.cellsWf) rfl rfl (fun r c _ => ?_) fun r c hc ho => ?_
  · rw [cellAt_freePlaceOutputs]
    split <;> rfl
  · rw [cellAt_freePlaceOutputs, if_neg (by rw [h.outside r c hc ho]; decide)]

/-- R240: the stamped cells, as the cells of any state that lists them. -/
theorem cellAt_stampedCells {s : State} (p : Params) {v r c : Nat} (hc : c < 256)
    (h : s.cells = stampedCells p.config v) :
    cellAt s r c = if r < heightOf p.config v ∧ c < widthOf p.config v then cellOfLayout (geomCell p.config v r c)
      else outsideCell := by
  rw [cellAt, h, stampedCells_read p v r c hc]

theorem cellOfLayout_tag_ne (l : Layout) : (cellOfLayout l).tag ≠ .outside := by cases l <;> decide

theorem matrixOk_stamped {s : State} {v : Nat} (rows : s.mdimH = heightOf s.cfg v) (columns : s.mdimW = widthOf s.cfg v)
    (cells : s.cells = stampedCells s.cfg v) : MatrixOk s := by
  obtain ⟨hh, hw⟩ := sizes_bounded s.params v
  refine ⟨cells ▸ stampedCells_wf s.params v, rows ▸ hh, columns ▸ hw, fun r c hi => ?_, fun r c hc ho => ?_⟩
  · rw [insideMatrix, rows, columns] at hi
    rw [cellAt_stampedCells s.params (lt_of_lt_of_le hi.2 hw) cells, if_pos hi]
    exact cellOfLayout_tag_ne _
  · rw [insideMatrix, rows, columns] at ho
    rw [cellAt_stampedCells s.params hc cells, if_neg ho]

/-- A listed cell gets one of the colours, when there are enough of them. -/
theorem exists_colour_of_mem {s : State} {ps : List (Nat × Nat)} {ks : List Colour} (narrow : ∀ p ∈ ps, p.2 < 256)
    (nodup : ps.Nodup) (enough : ps.length ≤ ks.length) {r c : Nat} (h : (r, c) ∈ ps) :
    ∃ k ∈ ks, cellAt (setColours s ps ks) r c = { cellAt s r c with colour := k } := by
  obtain ⟨i, hi, e⟩ := List.mem_iff_getElem.mp h
  have hk : i < ks.length := lt_of_lt_of_le hi enough
  refine ⟨ks[i], List.getElem_mem hk, ?_⟩
  have coloured := cellAt_setColours_getElem s ps ks narrow nodup hi hk
  rwa [e] at coloured

/-! ## Cells from stage to stage -/

theorem darkOrLight_colourOfBit (b : Bool) : darkOrLight (colourOfBit b) := by
  cases b
  · exact .inr rfl
  · exact .inl rfl

theorem darkOrLight_flipColour {k : Colour} (h : darkOrLight k) : darkOrLight (flipColour k) := by
  obtain rfl | rfl := h
  · exact .inr rfl
  · exact .inl rfl

theorem cellOkAt_stamped (l : Layout) : cellOkAt .stamped l (cellOfLayout l) := by
  cases l <;> exact ⟨rfl, rfl⟩

/-- PLACE colours the Data cells (R250). -/
theorem cellOkAt_placed_data {x : Cell} {k : Colour} (h : cellOkAt .stamped .data x) (hk : darkOrLight k) :
    cellOkAt .placed .data { x with colour := k } := ⟨h.1, hk⟩

/-- PLACE leaves the others (R250). -/
theorem cellOkAt_placed_of_ne_data {l : Layout} {x : Cell} (hl : l ≠ .data) (h : cellOkAt .stamped l x) :
    cellOkAt .placed l x := by
  cases l
  case data => exact absurd rfl hl
  all_goals exact h

/-- MASK flips Dark and Light of Data cells only (45_mask.md R271). -/
theorem cellOkAt_masked {l : Layout} {x : Cell} (m : MaskFn) (r c : Nat) (h : cellOkAt .placed l x) :
    cellOkAt .masked l (maskCell m r c x) := by
  obtain ⟨tag, colour⟩ := h
  cases l
  case data =>
    refine ⟨(maskCell_tag m r c x).trans tag, ?_⟩
    show darkOrLight (maskCell m r c x).colour
    rw [maskCell]
    split
    · exact darkOrLight_flipColour colour
    · exact colour
  all_goals
    rw [maskCell_of_ne_data (by rw [tag]; decide)]
    exact ⟨tag, colour⟩

/-- FORMAT colours the Format cells (46_format.md R302). -/
theorem cellOkAt_formatted_format {x : Cell} {k : Colour} (h : cellOkAt .masked .format x) (hk : darkOrLight k) :
    cellOkAt .formatted .format { x with colour := k } := ⟨h.1, hk⟩

/-- FORMAT leaves the others. -/
theorem cellOkAt_formatted_of_ne_format {l : Layout} {x : Cell} (hl : l ≠ .format) (h : cellOkAt .masked l x) :
    cellOkAt .formatted l x := by
  cases l
  case format => exact absurd rfl hl
  all_goals exact h

end Sys2Proof.Laws

/-! What the invariant needs of a rule's end (`EndOk`), and that SEGMENT, BUILD and RSENC give it
(41_mode_selector.md R145, 42_bitstream.md R170, 43_ecc.md R200, 60_exceptions.md R326). -/

namespace Sys2Proof.Laws

open Sys2Proof.Machine

/-! ## Flags and stages -/

section
variable {s : State}

/-- Any stage fits the flags while no error is recorded. -/
theorem flagsOk_setStage (h : FlagsOk s) (noError : s.error = false) (x : Stage) : FlagsOk { s with stage := x } :=
  { h with
    aborted := fun encoding => by
      obtain ⟨kind, -⟩ := h.clean noError
      have clash : isEncodingError s.errKind = true := encoding
      rw [kind] at clash
      cases clash }

/-- STAGE 0 fits the flags whatever is recorded. -/
theorem flagsOk_restart (h : FlagsOk s) : FlagsOk { s with stage := .none } := { h with aborted := fun _ => rfl }

/-- STAGE 0 promises nothing. -/
theorem stageOk_none (h : s.stage = .none) : StageOk s := by
  constructor <;> intro late <;> rw [h] at late <;> exact absurd late (by decide)

/-- Before STAMPED only the segment list and the selection are promised. -/
theorem stageOk_early (segments : 1 ≤ stageCode s.stage →
      s.plen.toNat ≤ s.cfg.pmax ∧ segmentList s = Machine.segments s.cfg (payload s))
    (selected : 2 ≤ stageCode s.stage →
      s.viSel.toNat < nv s.cfg ∧ (capOf s.cfg s.viSel.toNat s.eclSel).isSome ∧ levelSupported s.cfg s.eclSel = true)
    (early : stageCode s.stage < 4) : StageOk s :=
  ⟨segments, selected, fun late => by omega, fun late => by omega, fun late => by omega⟩

/-- STAGE 0 with any inputs in their form (10_state.md R32, R34, R46, R47). -/
theorem inv_inputs (h : Machine.Inv s) {config : Word} (reserved : config &&& configBits = config) (plen : BitVec 16)
    {pbuf cwbuf : List Host.Cell} {cwFree : List (Nat × Nat)}
    (buffers : BuffersOk { s with pbuf := pbuf, cwbuf := cwbuf, cwFree := cwFree }) :
    Machine.Inv { s with config := config, plen := plen, pbuf := pbuf, cwbuf := cwbuf, cwFree := cwFree,
                         stage := .none } where
  flags := { flagsOk_restart h.flags with reserved := reserved }
  buffers := { buffers with }
  matrix := { h.matrix with }
  stages := stageOk_none rfl
  formats := h.formats

theorem inv_restart (h : Machine.Inv s) : Machine.Inv { s with stage := .none } :=
  inv_inputs h h.flags.reserved s.plen h.buffers

end

/-! ## The end of a rule -/

/-- What a rule ends in when it keeps the invariant: a failure counts with the STAGE that error entry leaves. -/
def EndOk : RuleEnd → Prop
  | .success t => Machine.Inv t ∧ t.error = false
  | .failed f t => f.kind ≠ .none ∧ t.error = false ∧
      Machine.Inv { t with stage := if isEncodingError f.kind then .none else t.stage }

/-- A rule that keeps the invariant from every state without an error. -/
def RuleKeeps (rule : State → RuleEnd) : Prop := ∀ s, Machine.Inv s → s.error = false → EndOk (rule s)

section
variable {s t : State} {f : Failure} {r : RuleEnd} {rule : State → RuleEnd}

theorem endOk_encodingError (kind : isEncodingError f.kind = true) (noError : t.error = false)
    (h : Machine.Inv { t with stage := .none }) : EndOk (.failed f t) := by
  refine ⟨fun e => ?_, noError, ?_⟩
  · rw [e] at kind
    cases kind
  · rwa [kind]

theorem endOk_interfaceError (kind : isEncodingError f.kind = false) (error : f.kind ≠ .none)
    (noError : t.error = false) (h : Machine.Inv t) : EndOk (.failed f t) := by
  refine ⟨error, noError, ?_⟩
  rw [kind]
  exact h

theorem inv_retire (h : Machine.Inv s) : Machine.Inv (retire s) where
  flags := { h.flags with busyNotDone := fun busy => absurd rfl busy }
  buffers := { h.buffers with }
  matrix := { h.matrix with }
  stages := { h.stages with }
  formats := h.formats

theorem inv_succeed (h : Machine.Inv s) (noError : s.error = false) : Machine.Inv (succeed s) where
  flags := { h.flags with
    busyNotDone := fun busy => absurd rfl busy
    errorNotDone := fun error => absurd (noError.symm.trans error) Bool.false_ne_true }
  buffers := { h.buffers with }
  matrix := { h.matrix with }
  stages := { h.stages with }
  formats := h.formats

/-- R326: DONE is cleared, the error recorded, and STAGE cleared by an encoding error. -/
theorem inv_raiseError (kind : f.kind ≠ .none)
    (h : Machine.Inv { t with stage := if isEncodingError f.kind then .none else t.stage })
    (noError : t.error = false) : Machine.Inv (raiseError f t) := by
  rw [raiseError, noError]
  exact {
    flags := {
      busyNotDone := fun _ => rfl
      errorNotDone := fun _ => rfl
      clean := nofun
      recorded := fun _ => kind
      aborted := fun encoding => if_pos encoding
      reserved := h.flags.reserved }
    buffers := { h.buffers with }
    matrix := { h.matrix with }
    stages := { h.stages with }
    formats := h.formats }

theorem inv_finish (h : EndOk r) : Machine.Inv (finish r) := by
  cases r with
  | success t => exact inv_succeed h.1 h.2
  | failed f t =>
    obtain ⟨kind, noError, stopped⟩ := h
    exact inv_raiseError kind stopped noError

/-- A command that is refused while an error is recorded, or whose rule keeps the invariant, keeps it. -/
theorem inv_runRule (keeps : RuleKeeps rule) (h : Machine.Inv s) : Machine.Inv (runRule rule s) := by
  rw [runRule]
  split
  · exact inv_retire h
  · next ready => exact inv_finish (keeps s h (Bool.not_eq_true _ ▸ ready))

/-- R122: at another stage a stage command raises StageOrder. -/
theorem requireStage_keeps {required : Stage} {opc : Nat}
    (keeps : ∀ s, Machine.Inv s → s.error = false → s.stage = required → EndOk (rule s)) :
    RuleKeeps (requireStage required opc rule) := by
  intro s h noError
  by_cases stage : s.stage = required
  · rw [requireStage_at stage]
    exact keeps s h noError stage
  · rw [requireStage_not stage]
    exact endOk_interfaceError rfl (by simp) noError h

theorem endOk_andThen (h : EndOk r) (keeps : RuleKeeps rule) : EndOk (andThen r rule) := by
  cases r with
  | success t => exact keeps t h.1 h.2
  | failed f t => exact h

end

/-! ## SEGMENT -/

theorem segmentsFrom_bounds (c : Config) (bs : List Byte) {cur : Segment} {i : Nat} (hcur : cur.start + cur.len ≤ i) :
    (segmentsFrom c cur i bs).length ≤ bs.length + 1 ∧
    ∀ g ∈ segmentsFrom c cur i bs, g.start + g.len ≤ i + bs.length := by
  induction bs generalizing cur i with
  | nil => simpa [segmentsFrom] using hcur
  | cons b bs ih =>
    rw [segmentsFrom, List.length_cons]
    split
    · obtain ⟨few, short⟩ := ih (cur := { cur with len := cur.len + 1 }) (i := i + 1) (by dsimp only; omega)
      exact ⟨by omega, fun g hg => by have := short g hg; omega⟩
    · obtain ⟨few, short⟩ := ih (cur := ⟨classOf c b, i, 1⟩) (i := i + 1) (le_refl _)
      refine ⟨by rw [List.length_cons]; omega, fun g hg => ?_⟩
      obtain rfl | hg := List.mem_cons.mp hg
      · omega
      · have := short g hg
        omega

/-- R144: a payload has no more segments than bytes, and they lie inside it. -/
theorem segments_bounds (c : Config) (p : List Byte) :
    (segments c p).length ≤ p.length ∧ ∀ g ∈ segments c p, g.start + g.len ≤ p.length := by
  cases p with
  | nil => simp [segments]
  | cons b bs =>
    obtain ⟨few, short⟩ := segmentsFrom_bounds c bs (cur := ⟨classOf c b, 0, 1⟩) (i := 1) (le_refl _)
    rw [List.length_cons, Nat.add_comm bs.length 1]
    exact ⟨by rw [segments]; omega, short⟩

theorem payload_length (s : State) : (payload s).length = s.plen.toNat := by simp [payload, pbufBytes]

theorem modeOfBits_modeCode (m : Mode) : modeOfBits (BitVec.ofNat 2 (modeCode m)) = m := by cases m <;> rfl

/-- A SEGTAB entry describes the segment it was made of (10_state.md R45). -/
theorem segmentOfEntry_entryOfSegment {g : Segment} (start : g.start < 4096) (len : g.len < 4096) :
    segmentOfEntry (entryOfSegment g) = g := by
  rw [segmentOfEntry, entryOfSegment, modeOfBits_modeCode, BitVec.toNat_ofNat, BitVec.toNat_ofNat,
    Nat.mod_eq_of_lt start, Nat.mod_eq_of_lt len]

/-- The segment list reads back from SEGTAB and NSEG (R145). -/
theorem segmentList_setSegEntries {s t : State} {gs : List Segment} (few : gs.length < 65536)
    (short : ∀ g ∈ gs, g.start < 4096 ∧ g.len < 4096) (nseg : t.nseg = BitVec.ofNat 16 gs.length)
    (entries : ∀ j, segEntry t j = segEntry (setSegEntries s 0 (gs.map entryOfSegment)) j) : segmentList t = gs := by
  rw [segmentList, nseg, BitVec.toNat_ofNat, Nat.mod_eq_of_lt few]
  refine List.ext_getElem (by simp) fun j _ hj => ?_
  obtain ⟨start, len⟩ := short gs[j] (List.getElem_mem hj)
  rw [List.getElem_map, List.getElem_range, entries, segEntry_setSegEntries, List.length_map, if_pos (by omega)]
  simpa [hj] using segmentOfEntry_entryOfSegment start len

theorem inv_freeSegmentOutputs {s : State} (h : Machine.Inv s) :
    Machine.Inv { freeSegmentOutputs s with stage := .none } where
  flags := { flagsOk_restart h.flags with }
  buffers := { buffersOk_freeSegEntries h.buffers (le_refl _) with }
  matrix := { h.matrix with }
  stages := stageOk_none rfl
  formats := h.formats

theorem pmax_le (s : State) : s.cfg.pmax ≤ 1024 := (windows_bounded s.params).2.1

/-- R145: SEGMENT's success lists the payload's segments. -/
theorem endOk_segmented {s : State} (h : Machine.Inv s) (noError : s.error = false)
    (fit : s.plen.toNat ≤ s.cfg.pmax) :
    EndOk (.success { setSegEntries s 0 ((segments s.cfg (payload s)).map entryOfSegment) with
      nseg := BitVec.ofNat 16 (segments s.cfg (payload s)).length, stage := .segmented }) := by
  have pmax := pmax_le s
  obtain ⟨few, short⟩ := segments_bounds s.cfg (payload s)
  rw [payload_length] at few short
  have buffers := buffersOk_setSegEntries (s := s) h.buffers (base := 0)
    (es := (segments s.cfg (payload s)).map entryOfSegment) (by rw [List.length_map]; omega)
  have list : segmentList { setSegEntries s 0 ((segments s.cfg (payload s)).map entryOfSegment) with
      nseg := BitVec.ofNat 16 (segments s.cfg (payload s)).length, stage := .segmented }
      = segments s.cfg (payload s) :=
    segmentList_setSegEntries (by omega) (fun g hg => by have := short g hg; omega) rfl fun _ => rfl
  rw [setSegEntries_eq] at buffers list ⊢
  refine ⟨?_, noError⟩
  exact {
    flags := { flagsOk_setStage h.flags noError .segmented with }
    buffers := { buffers with }
    matrix := { h.matrix with }
    stages := stageOk_early (fun _ => ⟨fit, list⟩) (fun late => absurd late (show ¬2 ≤ 1 by decide))
      (show 1 < 4 by decide)
    formats := h.formats }

theorem segmentRule_keeps : RuleKeeps segmentRule := by
  intro s h noError
  simp only [segmentRule]
  split
  · exact endOk_encodingError rfl noError (inv_freeSegmentOutputs (inv_restart h))
  · next fit =>
    split
    · exact endOk_encodingError rfl noError (inv_freeSegmentOutputs (inv_restart h))
    · exact endOk_segmented h noError (not_lt.mp fit)

/-! ## BUILD -/

/-- R168: the versions tried are versions of the configuration. -/
theorem candidates_versions {s : State} {l : Ecl} {cand : List Nat} (h : candidates s l = .ok cand) :
    ∀ v ∈ cand, v < nv s.cfg := by
  rw [candidates] at h
  split at h
  · split at h
    · cases h
    · next version =>
      split at h
      · cases h
      · cases h
        simpa using version
  · split at h
    · cases h
    · next listed =>
      cases h
      rw [← listed]
      have ok := s.params.ok
      simp only [configWf, wfTables, Bool.and_eq_true, List.all_eq_true, decide_eq_true_eq] at ok
      obtain ⟨⟨⟨⟨⟨⟨⟨⟨sizeOrder, -⟩, -⟩, -⟩, -⟩, -⟩, -⟩, -⟩, -⟩ := ok
      exact fun v hv => sizeOrder v (List.mem_of_mem_filter hv)

theorem inv_freeBuildOutputs {s : State} (h : Machine.Inv s) {n : Nat} (fit : n ≤ mostDataCodewords s.cfg) :
    Machine.Inv { freeBuildOutputs n s with stage := .none } where
  flags := { flagsOk_restart h.flags with }
  buffers := { buffersOk_freeCwBytes h.buffers (fit.trans (mostDataCodewords_le s.params)) with }
  matrix := { h.matrix with }
  stages := stageOk_none rfl
  formats := h.formats

theorem nv_le (s : State) : nv s.cfg ≤ 32 := by
  have ok := s.params.ok
  simp only [configWf, wfVersions, Bool.and_eq_true, decide_eq_true_eq] at ok
  obtain ⟨⟨⟨⟨⟨⟨-, ⟨-, few⟩, -⟩, -⟩, -⟩, -⟩, -⟩, -⟩ := ok
  exact few

/-- R170: BUILD's success selects a version and a level with a CAP entry. -/
theorem inv_buildSelected {s : State} (h : Machine.Inv s) (noError : s.error = false)
    (stage : s.stage = .segmented) {v : Nat} {l : Ecl} (version : v < nv s.cfg)
    (cap : (capOf s.cfg v l).isSome) (level : levelSupported s.cfg l = true) :
    Machine.Inv (buildSelected s v l) := by
  have buffers := buffersOk_setCwBytes h.buffers (base := 0)
    (vs := bytesOfBits (dataOf (groupsOf s.cfg v l)) (stream s v l))
    (by rw [bytesOfBits_length, Nat.zero_add]; exact dataOf_groupsOf_le s.params v l)
  have viSel : (BitVec.ofNat 5 v).toNat = v := by
    have := nv_le s
    rw [BitVec.toNat_ofNat]
    omega
  simp only [buildSelected]
  rw [setCwBytes_eq] at buffers ⊢
  exact {
    flags := { flagsOk_setStage h.flags noError .built with }
    buffers := { buffers with }
    matrix := { h.matrix with }
    stages := stageOk_early (fun _ => h.stages.segments (by rw [stage]; decide))
      (fun _ => by
        show (BitVec.ofNat 5 v).toNat < nv s.cfg ∧ (capOf s.cfg (BitVec.ofNat 5 v).toNat l).isSome ∧ _
        rw [viSel]
        exact ⟨version, cap, level⟩)
      (show 2 < 4 by decide)
    formats := h.formats }

theorem buildRule_endOk {s : State} (h : Machine.Inv s) (noError : s.error = false) (stage : s.stage = .segmented) :
    EndOk (buildRule s) := by
  simp only [buildRule]
  split
  · exact endOk_encodingError rfl noError (inv_freeBuildOutputs h (le_refl _))
  · next supported =>
    split
    · exact endOk_encodingError rfl noError (inv_freeBuildOutputs h (le_refl _))
    · next cand tried =>
      split
      · next v found =>
        have fit := List.find?_some found
        simp only [fits, Bool.and_eq_true] at fit
        obtain ⟨⟨cap, -⟩, -⟩ := fit
        refine ⟨inv_buildSelected h noError stage (candidates_versions tried v (List.mem_of_find?_eq_some found)) cap
          (by simpa using supported), ?_⟩
        rw [buildSelected]
        exact (setCwBytes_error s _ _).trans noError
      · exact endOk_encodingError rfl noError (inv_freeBuildOutputs h (mostDataCodewordsOf_le _ _ _))

theorem buildStage_keeps : RuleKeeps buildStage := requireStage_keeps fun _ => buildRule_endOk

/-! ## RSENC -/

theorem rsencRule_endOk {s : State} (h : Machine.Inv s) (noError : s.error = false) (stage : s.stage = .built) :
    EndOk (rsencRule s) := by
  have buffers := buffersOk_setCwBytes h.buffers (base := 0) (by
    rw [Nat.zero_add]
    exact interleave_length_le s.params s s.viSel.toNat s.eclSel)
  simp only [rsencRule, selectedGroups]
  rw [setCwBytes_eq] at buffers ⊢
  exact ⟨{
    flags := { flagsOk_setStage h.flags noError .coded with }
    buffers := { buffers with }
    matrix := { h.matrix with }
    stages := stageOk_early (fun _ => h.stages.segments (by rw [stage]; decide))
      (fun _ => h.stages.selected (by rw [stage]; decide)) (show 3 < 4 by decide)
    formats := h.formats }, noError⟩

theorem rsencStage_keeps : RuleKeeps rsencStage := requireStage_keeps fun _ => rsencRule_endOk

end Sys2Proof.Laws

/-! STAMP, PLACE, MASK and FORMAT keep the invariant (44_matrix.md R240 to R253, 45_mask.md R280, 46_format.md R303),
and so does ENCODE (40_control.md R134). -/

namespace Sys2Proof.Laws

open Sys2Proof.Machine

/-- From STAMPED on, the matrix of the selected version is the layout's. -/
theorem insideMatrix_iff_layout {s : State} (h : StageOk s) (late : 4 ≤ stageCode s.stage) (r c : Nat) :
    insideMatrix s r c ↔ r < heightOf s.cfg s.viSel.toNat ∧ c < widthOf s.cfg s.viSel.toNat := by
  obtain ⟨rows, columns⟩ := h.size late
  rw [insideMatrix, rows, columns]

/-- What the later stages' promises come to: new cells that suit the new stage, and a mask index. -/
theorem stageOk_recoloured {s : State} (h : StageOk s) (late : 4 ≤ stageCode s.stage) {m : List (Nat × Cell)}
    {x : Stage} {k : BitVec 3}
    (cells : ∀ r c, insideMatrix s r c →
      cellOkAt x (geomCell s.cfg s.viSel.toNat r c) (cellAt { s with cells := m } r c))
    (mask : 6 ≤ stageCode x → k.toNat < nm s.cfg) : StageOk { s with cells := m, resMask := k, stage := x } where
  segments _ := h.segments (by omega)
  selected _ := h.selected (by omega)
  size _ := h.size late
  matrix _ := cells
  maskIndex := mask

/-! ## STAMP -/

theorem cellOkAt_stampedCells {s : State} (p : Params) {v r c : Nat} (cells : s.cells = stampedCells p.config v)
    (inside : r < heightOf p.config v ∧ c < widthOf p.config v) :
    cellOkAt .stamped (geomCell p.config v r c) (cellAt s r c) := by
  rw [cellAt_stampedCells p (lt_of_lt_of_le inside.2 (sizes_bounded p v).2) cells, if_pos inside]
  exact cellOkAt_stamped _

theorem stampRule_endOk {s : State} (h : Machine.Inv s) (noError : s.error = false) (stage : s.stage = .coded) :
    EndOk (stampRule s) := by
  refine ⟨?_, noError⟩
  exact {
    flags := { flagsOk_setStage h.flags noError .stamped with }
    buffers := { h.buffers with }
    matrix := matrixOk_stamped rfl rfl rfl
    stages := {
      segments := fun _ => h.stages.segments (by rw [stage]; decide)
      selected := fun _ => h.stages.selected (by rw [stage]; decide)
      size := fun _ => ⟨rfl, rfl⟩
      matrix := fun _ _ _ inside => cellOkAt_stampedCells s.params rfl inside
      maskIndex := fun late => absurd late (show ¬6 ≤ 4 by decide) }
    formats := h.formats }

theorem stampStage_keeps : RuleKeeps stampStage := requireStage_keeps fun _ => stampRule_endOk

/-! ## PLACE -/

theorem placedBits_length (s : State) : (placedBits s).length =
    8 * totalOf (selectedGroups s) + s.cfg.rem.getD s.viSel.toNat 0 := by
  rw [placedBits, List.length_append, bitsOfBytes_length, cwBytes_length, zeros, List.length_replicate]

theorem inv_freePlaceOutputs {s : State} (h : Machine.Inv s) :
    Machine.Inv { freePlaceOutputs s with stage := .none } where
  flags := { flagsOk_restart h.flags with }
  buffers := { h.buffers with }
  matrix := { matrixOk_freePlaceOutputs h.matrix with }
  stages := stageOk_none rfl
  formats := h.formats

/-- R250, R253: every Data cell is on the placement order, which is as long as the stream, and becomes Dark or Light. -/
theorem cellOkAt_placed {s : State} (h : Machine.Inv s) (stage : s.stage = .stamped)
    (capacity : freeCells s.cfg s.viSel.toNat = 8 * totalOf (selectedGroups s) + s.cfg.rem.getD s.viSel.toNat 0)
    {r c : Nat} (inside : insideMatrix s r c) :
    cellOkAt .placed (geomCell s.cfg s.viSel.toNat r c)
      (cellAt (setColours s (placementOrder s.cfg s.viSel.toNat) ((placedBits s).map colourOfBit)) r c) := by
  have late : 4 ≤ stageCode s.stage := by rw [stage]; decide
  obtain ⟨version, -⟩ := h.stages.selected (by omega)
  have listed : ∀ r c, (r, c) ∈ placementOrder s.cfg s.viSel.toNat ↔
      insideMatrix s r c ∧ geomCell s.cfg s.viSel.toNat r c = .data := fun r c => by
    rw [mem_placementOrder s.params version, insideMatrix_iff_layout h.stages late, and_assoc]
  have narrow : ∀ p ∈ placementOrder s.cfg s.viSel.toNat, p.2 < 256 := fun p hp =>
    lt_of_lt_of_le ((listed p.1 p.2).mp hp).1.2 h.matrix.columns
  have stamped := h.stages.matrix late r c inside
  rw [stage] at stamped
  by_cases data : geomCell s.cfg s.viSel.toNat r c = .data
  · have enough : (placementOrder s.cfg s.viSel.toNat).length ≤ ((placedBits s).map colourOfBit).length := by
      rw [placementOrder_length s.params version, List.length_map, placedBits_length, ← capacity]
    obtain ⟨k, hk, coloured⟩ := exists_colour_of_mem (s := s) narrow (placementOrder_nodup _ _) enough
      ((listed r c).mpr ⟨inside, data⟩)
    obtain ⟨b, -, rfl⟩ := List.mem_map.mp hk
    rw [coloured, data]
    rw [data] at stamped
    exact cellOkAt_placed_data stamped (darkOrLight_colourOfBit b)
  · rw [cellAt_setColours_notMem s _ _ (lt_of_lt_of_le inside.2 h.matrix.columns) narrow
      fun hp => data ((listed r c).mp hp).2]
    exact cellOkAt_placed_of_ne_data data stamped

theorem placeRule_endOk {s : State} (h : Machine.Inv s) (noError : s.error = false) (stage : s.stage = .stamped) :
    EndOk (placeRule s) := by
  have late : 4 ≤ stageCode s.stage := by rw [stage]; decide
  obtain ⟨version, -⟩ := h.stages.selected (by omega)
  simp only [placeRule]
  split
  · exact endOk_encodingError rfl noError (inv_freePlaceOutputs h)
  · next capacity =>
    have matrix := matrixOk_setColours h.matrix (ps := placementOrder s.cfg s.viSel.toNat)
      ((placedBits s).map colourOfBit) fun p hp => by
        rw [insideMatrix_iff_layout h.stages late]
        obtain ⟨hr, hc, -⟩ := (mem_placementOrder s.params version).mp hp
        exact ⟨hr, hc⟩
    have cells := fun r c => cellOkAt_placed h stage (not_not.mp capacity) (r := r) (c := c)
    rw [setColours_eq] at matrix ⊢
    refine ⟨?_, noError⟩
    exact {
      flags := { flagsOk_setStage h.flags noError .placed with }
      buffers := { h.buffers with }
      matrix := { matrix with }
      stages := stageOk_recoloured h.stages late cells fun masked => absurd masked (show ¬6 ≤ 5 by decide)
      formats := h.formats }

theorem placeStage_keeps : RuleKeeps placeStage := requireStage_keeps fun _ => placeRule_endOk

/-! ## MASK -/

/-- R280: the chosen index is that of a mask. -/
theorem leastIndex_penalties_lt (s : State) : leastIndex (penalties s) < nm s.cfg := by
  have length : (penalties s).length = nm s.cfg := by rw [penalties, List.length_map, nm]
  have mask : 1 ≤ nm s.cfg := (nm_bounded s.params).1
  obtain ⟨below, -⟩ := leastIndex_spec (penalties s) (List.ne_nil_of_length_pos (by omega))
  omega

theorem maskRule_endOk {s : State} (h : Machine.Inv s) (noError : s.error = false) (stage : s.stage = .placed) :
    EndOk (maskRule s) := by
  have late : 4 ≤ stageCode s.stage := by rw [stage]; decide
  refine ⟨?_, noError⟩
  exact {
    flags := { flagsOk_setStage h.flags noError .masked with }
    buffers := { h.buffers with penaltyEight := by simp [penaltyWords] }
    matrix := { matrixOk_maskedCells h.matrix _ with }
    stages := { stageOk_recoloured h.stages late (x := .masked)
      (m := maskedCells (s.cfg.masks.getD (leastIndex (penalties s)) .blocks) s.cells)
      (k := BitVec.ofNat 3 (leastIndex (penalties s)))
      (fun r c inside => by
        have placed := h.stages.matrix late r c inside
        rw [stage] at placed
        rw [cellAt_maskedCells (s := s) (lt_of_lt_of_le inside.2 h.matrix.columns) rfl]
        exact cellOkAt_masked _ r c placed)
      (fun _ => lt_of_le_of_lt (by rw [BitVec.toNat_ofNat]; exact Nat.mod_le _ _) (leastIndex_penalties_lt s)) with }
    formats := h.formats }

theorem maskStage_keeps : RuleKeeps maskStage := requireStage_keeps fun _ => maskRule_endOk

/-! ## FORMAT -/

theorem fmtColours_length (c : Config) (w : Nat) : (fmtColours c w).length = fmtW c := by simp [fmtColours]

theorem darkOrLight_of_mem_fmtColours {c : Config} {w : Nat} {k : Colour} (h : k ∈ fmtColours c w) :
    darkOrLight k := by
  obtain ⟨n, -, rfl⟩ := List.mem_map.mp h
  exact darkOrLight_colourOfBit _

/-- FORMAT's two runs of colourings (R302). -/
def formatColoured (s : State) (a b : Nat) : State :=
  setColours (setColours s (fmtPosA s.cfg s.viSel.toNat) (fmtColours s.cfg a))
    (fmtPosB s.cfg s.viSel.toNat) (fmtColours s.cfg b)

theorem formatColoured_eq (s : State) (a b : Nat) :
    formatColoured s a b = { s with cells := (formatColoured s a b).cells } := by
  rw [formatColoured, setColours_eq (setColours s _ _), setColours_eq s]

section
variable {s : State} (h : Machine.Inv s) (late : 4 ≤ stageCode s.stage)
include h late

/-- R8 condition 5: the format positions are the matrix's Format cells. -/
theorem mem_formatPositions (r c : Nat) :
    (r, c) ∈ fmtPosA s.cfg s.viSel.toNat ++ fmtPosB s.cfg s.viSel.toNat ↔
      insideMatrix s r c ∧ geomCell s.cfg s.viSel.toNat r c = .format := by
  obtain ⟨version, -⟩ := h.stages.selected (by omega)
  obtain ⟨-, -, -, listed⟩ := formatCells_spec s.params _ version
  rw [listed, insideMatrix_iff_layout h.stages late, and_assoc]

theorem matrixOk_formatColoured (a b : Nat) : MatrixOk (formatColoured s a b) := by
  have inside : ∀ p ∈ fmtPosA s.cfg s.viSel.toNat ++ fmtPosB s.cfg s.viSel.toNat, insideMatrix s p.1 p.2 :=
    fun p hp => ((mem_formatPositions h late p.1 p.2).mp hp).1
  refine matrixOk_setColours (matrixOk_setColours h.matrix _ fun p hp => inside p (List.mem_append_left _ hp)) _
    fun p hp => ?_
  rw [insideMatrix, setColours_mdimH, setColours_mdimW]
  exact inside p (List.mem_append_right _ hp)

/-- A Format cell gets a format bit's colour; every other cell keeps its own. -/
theorem cellAt_formatColoured (a b : Nat) {r c : Nat} (inside : insideMatrix s r c) :
    if geomCell s.cfg s.viSel.toNat r c = .format then
      ∃ k, darkOrLight k ∧ cellAt (formatColoured s a b) r c = { cellAt s r c with colour := k }
    else cellAt (formatColoured s a b) r c = cellAt s r c := by
  obtain ⟨version, -⟩ := h.stages.selected (by omega)
  obtain ⟨lengthA, lengthB, nodup, -⟩ := formatCells_spec s.params _ version
  obtain ⟨nodupA, nodupB, apart⟩ := List.nodup_append.mp nodup
  have listed := mem_formatPositions h late
  have narrow : ∀ p ∈ fmtPosA s.cfg s.viSel.toNat ++ fmtPosB s.cfg s.viSel.toNat, p.2 < 256 := fun p hp =>
    lt_of_lt_of_le ((listed p.1 p.2).mp hp).1.2 h.matrix.columns
  have narrowA := fun p hp => narrow p (List.mem_append_left _ hp)
  have narrowB := fun p hp => narrow p (List.mem_append_right _ hp)
  have hc : c < 256 := lt_of_lt_of_le inside.2 h.matrix.columns
  rw [formatColoured]
  split
  · next format =>
    obtain inA | inB := List.mem_append.mp ((listed r c).mpr ⟨inside, format⟩)
    · rw [cellAt_setColours_notMem _ _ _ hc narrowB fun inB => apart _ inA _ inB rfl]
      obtain ⟨k, hk, coloured⟩ := exists_colour_of_mem (s := s) (ks := fmtColours s.cfg a) narrowA nodupA
        (by rw [fmtColours_length, lengthA]) inA
      exact ⟨k, darkOrLight_of_mem_fmtColours hk, coloured⟩
    · obtain ⟨k, hk, coloured⟩ := exists_colour_of_mem
        (s := setColours s (fmtPosA s.cfg s.viSel.toNat) (fmtColours s.cfg a)) (ks := fmtColours s.cfg b) narrowB nodupB
        (by rw [fmtColours_length, lengthB]) inB
      rw [cellAt_setColours_notMem s _ _ hc narrowA fun inA => apart _ inA _ inB rfl] at coloured
      exact ⟨k, darkOrLight_of_mem_fmtColours hk, coloured⟩
  · next other =>
    have notListed := mt (listed r c).mp fun hp => other hp.2
    rw [List.mem_append, not_or] at notListed
    rw [cellAt_setColours_notMem _ _ _ hc narrowB notListed.2, cellAt_setColours_notMem _ _ _ hc narrowA notListed.1]

end

theorem formatRule_endOk {s : State} (h : Machine.Inv s) (noError : s.error = false) (stage : s.stage = .masked) :
    EndOk (formatRule s) := by
  have late : 4 ≤ stageCode s.stage := by rw [stage]; decide
  let a := formatWord s ^^^ s.cfg.fmtMaskA
  let b := formatWord s ^^^ s.cfg.fmtMaskB
  have matrix := matrixOk_formatColoured h late a b
  have cells : ∀ r c, insideMatrix s r c →
      cellOkAt .formatted (geomCell s.cfg s.viSel.toNat r c) (cellAt (formatColoured s a b) r c) := by
    intro r c inside
    have masked := h.stages.matrix late r c inside
    rw [stage] at masked
    have coloured := cellAt_formatColoured h late a b inside
    split at coloured
    · next format =>
      obtain ⟨k, hk, coloured⟩ := coloured
      rw [coloured, format]
      rw [format] at masked
      exact cellOkAt_formatted_format masked hk
    · next other =>
      rw [coloured]
      exact cellOkAt_formatted_of_ne_format other masked
  show EndOk (.success { formatColoured s a b with
    resFmtA := fmtRegister s.cfg a, resFmtB := fmtRegister s.cfg b, stage := .formatted })
  rw [formatColoured_eq] at matrix ⊢
  refine ⟨?_, noError⟩
  exact {
    flags := { flagsOk_setStage h.flags noError .formatted with }
    buffers := { h.buffers with }
    matrix := { matrix with }
    stages := { stageOk_recoloured h.stages late cells fun _ => h.stages.maskIndex (by rw [stage]; decide) with }
    formats := ⟨fmtRegister_lt _ _, fmtRegister_lt _ _⟩ }

theorem formatStage_keeps : RuleKeeps formatStage := requireStage_keeps fun _ => formatRule_endOk

/-! ## ENCODE -/

theorem encodeRule_keeps : RuleKeeps encodeRule := fun _ h noError =>
  have segmented := segmentRule_keeps _ (inv_restart h) noError
  have built := endOk_andThen segmented buildStage_keeps
  have coded := endOk_andThen built rsencStage_keeps
  have stamped := endOk_andThen coded stampStage_keeps
  have placed := endOk_andThen stamped placeStage_keeps
  have masked := endOk_andThen placed maskStage_keeps
  endOk_andThen masked formatStage_keeps

end Sys2Proof.Laws

/-! Every step keeps the invariant: every command does (`exec_keeps`), and so do the host's events
(20_memory.md R62 to R67, 70_reset_and_hazards.md R350). -/

namespace Sys2Proof.Laws

open Sys2Proof.Machine

/-! ## Reset and the fields the invariant does not speak of -/

/-- The host's side, the sticky bus bits, the count of draws and GF_RESULT are free. -/
theorem inv_unwatched {s : State} (h : Machine.Inv s) (host : List HostEvent) (reads : List Word) (turns : List Agent)
    (draws : Nat) (busErr wrBusy : Bool) (gfResult : Byte) :
    Machine.Inv { s with host := host, reads := reads, turns := turns, draws := draws, busErr := busErr,
                         wrBusy := wrBusy, gfResult := gfResult } where
  flags := { h.flags with }
  buffers := { h.buffers with }
  matrix := { h.matrix with }
  stages := { h.stages with }
  formats := h.formats

theorem inv_resetCore (s : State) : Machine.Inv (resetCore s) :=
  inv_unwatched (inv_resetWith s.params) s.host s.reads s.turns s.draws false false 0

theorem inv_clearError {s : State} (h : Machine.Inv s) : Machine.Inv (clearError s) where
  flags := { h.flags with
    busyNotDone := fun _ => rfl
    errorNotDone := fun _ => rfl
    clean := fun _ => ⟨rfl, rfl, rfl, rfl⟩
    recorded := nofun
    aborted := nofun }
  buffers := { h.buffers with }
  matrix := { h.matrix with }
  stages := { h.stages with }
  formats := h.formats

/-! ## The commands -/

/-- GF_MUL, GF_EXP, GF_LOG and GF_INV write GF_RESULT only (43_ecc.md R210 to R213). -/
theorem endOk_gfResult {s : State} (h : Machine.Inv s) (noError : s.error = false) (x : Byte) :
    EndOk (.success { s with gfResult := x }) :=
  ⟨inv_unwatched h s.host s.reads s.turns s.draws s.busErr s.wrBusy x, noError⟩

/-- RS_BLOCK and GEN_POLY write CWBUF and set STAGE to 0 (R214, R215). -/
theorem endOk_cwBytes {s : State} (h : Machine.Inv s) (noError : s.error = false) {base : Nat} {vs : List Byte}
    (fit : base + vs.length ≤ s.cfg.cwmax) : EndOk (.success { setCwBytes s base vs with stage := .none }) := by
  have buffers := buffersOk_setCwBytes h.buffers fit
  rw [setCwBytes_eq] at buffers ⊢
  exact ⟨inv_inputs h h.flags.reserved s.plen buffers, noError⟩

theorem cwmax_ge (s : State) : 256 ≤ s.cfg.cwmax := (windows_bounded s.params).2.2.1

theorem inv_execNop {s : State} (h : Machine.Inv s) : Machine.Inv (if s.error then retire s else succeed s) := by
  split
  · exact inv_retire h
  · next ready => exact inv_succeed h (Bool.not_eq_true _ ▸ ready)

/-- Every command with a command word keeps the invariant. -/
theorem exec_keeps {i : Instr} {s t : State} (wf : i.wf = true) (h : Machine.Inv s) (executed : exec i s = .next t) :
    Machine.Inv t := by
  cases i <;> cases executed
  case nop => exact inv_execNop h
  case clear => exact inv_retire (inv_clearError h)
  case softReset => exact inv_retire (inv_resetCore s)
  case segment => exact inv_runRule segmentRule_keeps h
  case build => exact inv_runRule buildStage_keeps h
  case rsenc => exact inv_runRule rsencStage_keeps h
  case stamp => exact inv_runRule stampStage_keeps h
  case place => exact inv_runRule placeStage_keeps h
  case mask => exact inv_runRule maskStage_keeps h
  case format => exact inv_runRule formatStage_keeps h
  case encode => exact inv_runRule encodeRule_keeps h
  case gfMul | gfExp => exact inv_runRule (fun _ hs noError => endOk_gfResult hs noError _) h
  case gfLog | gfInv =>
    refine inv_runRule (fun s hs noError => ?_) h
    split
    · exact endOk_interfaceError rfl (by simp [gfDomain]) noError hs
    · exact endOk_gfResult hs noError _
  case rsBlock k e =>
    refine inv_runRule (fun s hs noError => ?_) h
    have cwmax := cwmax_ge s
    split
    · exact endOk_interfaceError rfl (by simp [badOperand]) noError hs
    · exact endOk_cwBytes hs noError (by rw [rsParity_length]; omega)
  case genPoly e =>
    refine inv_runRule (fun s hs noError => ?_) h
    have cwmax := cwmax_ge s
    have operand : e < 256 := by simpa [Instr.wf, fitsField] using wf
    split
    · exact endOk_interfaceError rfl (by simp [badOperand]) noError hs
    · exact endOk_cwBytes hs noError (by rw [genPoly_length]; omega)

section
variable {w : Word} {i : Instr}

theorem eq_of_noOperands {j : Instr} (h : checkF2 w (noOperands w j) = .ok i) : i = j := by
  rw [checkF2, noOperands] at h
  split_ifs at h
  cases h
  rfl

theorem eq_of_oneOperand {j : Nat → Instr} (h : checkF2 w (oneOperand w j) = .ok i) : i = j (f0Field w) := by
  rw [checkF2, oneOperand] at h
  split_ifs at h
  cases h
  rfl

theorem eq_of_twoOperands {j : Nat → Nat → Instr} (h : checkF2 w (twoOperands w j) = .ok i) :
    i = j (f1Field w) (f0Field w) := by
  rw [checkF2, twoOperands] at h
  split_ifs at h
  cases h
  rfl

/-- A decoded command's operands are bytes (30_encoding.md R91). -/
theorem wf_of_decode (h : decode w = .ok i) : i.wf = true := by
  have f0 : fitsField (f0Field w) = true := decide_eq_true (Nat.mod_lt _ (by decide))
  have f1 : fitsField (f1Field w) = true := decide_eq_true (Nat.mod_lt _ (by decide))
  unfold decode at h
  split at h
  case h_12 | h_16 =>
    rw [eq_of_twoOperands h, Instr.wf, f0, f1]
    rfl
  case h_13 | h_14 | h_15 | h_17 => rw [eq_of_oneOperand h, Instr.wf, f0]
  case h_18 => cases h
  all_goals
    rw [eq_of_noOperands h]
    rfl

end

theorem execute_keeps {w : Word} {s t : State} (h : Machine.Inv s) (executed : execute w s = .next t) :
    Machine.Inv t := by
  rw [execute] at executed
  split at executed
  · cases executed
    exact inv_retire h
  · split at executed
    · cases executed
      cases recorded : s.error with
      | true =>
        rw [raiseError_recorded recorded]
        exact inv_retire h
      | false =>
        exact inv_finish (endOk_interfaceError (f := illegalCommand w) rfl (by simp [illegalCommand]) recorded h)
    · next decoded => exact exec_keeps (wf_of_decode decoded) h executed

/-! ## The host -/

theorem inv_issue {s : State} (h : Machine.Inv s) (w : Word) : Machine.Inv (issue w s) where
  flags := { h.flags with
    busyNotDone := fun _ => rfl
    errorNotDone := fun _ => rfl }
  buffers := { h.buffers with }
  matrix := { h.matrix with }
  stages := { h.stages with }
  formats := h.formats

/-- R66: a store of an input word restarts the pipeline. -/
theorem inv_storeWord {s : State} (h : Machine.Inv s) {w : BusWord} (range : inRange s.cfg w) (v : Word) :
    Machine.Inv (storeWord s w v) := by
  obtain same | issued | config | plen | ⟨i, rfl, pbuf⟩ | ⟨i, rfl, cwbuf⟩ := storeWord_cases s w v
  · rwa [same]
  · rw [issued]
    exact inv_issue h v
  · rw [config]
    exact inv_inputs h (by rw [BitVec.and_assoc, BitVec.and_self]) s.plen h.buffers
  · rw [plen]
    exact inv_inputs h h.flags.reserved _ h.buffers
  · rw [pbuf]
    exact inv_inputs h h.flags.reserved s.plen (buffersOk_pbufWrite h.buffers range _)
  · rw [cwbuf]
    exact inv_inputs h h.flags.reserved s.plen (buffersOk_setCwByte h.buffers range _)

theorem hostEvent_keeps {s : State} (h : Machine.Inv s) (e : HostEvent) : Machine.Inv (hostEvent s e) := by
  cases e with
  | read off width =>
    obtain ⟨busErr, reads, draws, read⟩ := hostRead_cases s off width
    rw [hostEvent, read]
    exact inv_unwatched h s.host reads s.turns draws busErr s.wrBusy s.gfResult
  | write off width v =>
    obtain ⟨busErr, wrBusy, ignored⟩ | ⟨w, -, range, stored⟩ := hostWrite_cases s off width v
    · rw [hostEvent, ignored]
      exact inv_unwatched h s.host s.reads s.turns s.draws busErr wrBusy s.gfResult
    · rw [hostEvent, stored]
      exact inv_storeWord h range v
  | reset => exact inv_resetCore s

/-- Settles O59, by the agents' moves of `step_cases`: a command keeps the invariant by `execute_keeps`, a host event by
`hostEvent_keeps`, and the turn and the host's list are no part of it. -/
theorem everyStepKeepsTheInvariant : Obligations.EveryStepKeepsTheInvariant := by
  intro s t h stepped
  have turn := fun host => inv_unwatched h host s.reads s.turns.tail s.draws s.busErr s.wrBusy s.gfResult
  obtain rfl | ⟨w, -, executed⟩ | ⟨e, rest, -, rfl⟩ := step_cases stepped
  · exact turn s.host
  · exact execute_keeps (turn s.host) executed
  · exact hostEvent_keeps (turn rest) e

end Sys2Proof.Laws

/-! The bus (20_memory.md R60 to R67): which word an access selects, as an equivalence, and what a read and a write do
in each case of R65 to R67, said once. -/

namespace Sys2Proof.Laws

open Sys2Proof.Machine

/-! ## The address map -/

/-- R64: the buffer word an aligned offset selects is the word whose offset it is. -/
theorem offsetOf_of_decodeBuffer {c : Config} {off : Nat} {w : BusWord} (aligned : off % 4 = 0)
    (h : decodeBuffer c off = some w) : off = offsetOf w := by
  simp only [decodeBuffer] at h
  split_ifs at h <;> cases h <;> simp only [offsetOf] <;> omega

/-- R63: an aligned offset is that of the word it selects. -/
theorem offsetOf_of_decodeOffset {c : Config} {off : Nat} {w : BusWord} (aligned : off % 4 = 0)
    (h : decodeOffset c off = some w) : off = offsetOf w := by
  unfold decodeOffset at h
  split at h
  case h_19 =>
    split at h
    · cases h
      simp only [offsetOf]
      omega
    · exact offsetOf_of_decodeBuffer aligned h
  all_goals
    cases h
    rfl

/-- R61, R63, R64: an access selects a word exactly when it is one of four bytes at the offset of a word in range. -/
theorem selectWord_eq_some_iff (p : Params) {off width : Nat} {w : BusWord} :
    selectWord p.config off width = some w ↔ (width = 4 ∧ off = offsetOf w) ∧ inRange p.config w := by
  refine ⟨fun h => ?_, fun ⟨⟨hwidth, hoff⟩, range⟩ => hwidth ▸ hoff ▸ selectWord_offsetOf p range⟩
  refine ⟨?_, inRange_of_selectWord h⟩
  rw [selectWord] at h
  split at h
  · next legal => exact ⟨legal.1, offsetOf_of_decodeOffset legal.2 h⟩
  · cases h

/-- R65: an access that is at no word in range selects none. -/
theorem selectWord_eq_none (p : Params) {off width : Nat}
    (h : ∀ w, inRange p.config w → ¬(width = 4 ∧ off = offsetOf w)) : selectWord p.config off width = none :=
  Option.eq_none_iff_forall_ne_some.mpr fun w selected =>
    have ⟨access, range⟩ := (selectWord_eq_some_iff p).mp selected
    h w range access

/-- R60. -/
theorem offsetOfAddress_eq_some_iff (c : Config) (address off : Nat) :
    offsetOfAddress c address = some off ↔ address = baseAddress c + off ∧ off < 0x20000 := by
  rw [offsetOfAddress, windowBytes]
  split
  · rw [Option.some.injEq]
    omega
  · simp only [reduceCtorEq, false_iff]
    omega

/-- Settles O50, by `selectWord_eq_some_iff`. -/
theorem addressMapSelectsEachWord : Obligations.AddressMapSelectsEachWord :=
  ⟨fun p _ _ => (selectWord_eq_some_iff p).trans (and_congr_left' (and_iff_right rfl)),
    fun c address off => ⟨Nat.mul_mod_right 4096 c.basePage, offsetOfAddress_eq_some_iff c address off⟩⟩

section

variable {s : State} {w : BusWord} {off width : Nat}

/-! ## BUSY -/

theorem busy_of_pending (h : s.pend ≠ none) : busy s = true := Option.isSome_iff_ne_none.mpr h

theorem busy_of_idle (h : s.pend = none) : busy s = false := by rw [busy, h, Option.isSome_none]

/-- R67: a read is exact while nothing is pending, and of some words always. -/
theorem not_freeRead (h : s.pend = none ∨ exactWhileBusy w = true) : ¬(busy s && !exactWhileBusy w) = true := by
  obtain idle | always := h
  · simp [busy_of_idle idle]
  · simp [always]

/-! ## Reads -/

theorem readValue_unselected (h : selectWord s.cfg off width = none) : readValue s off width = 0 := by
  rw [readValue, h]

theorem hostRead_unselected (h : selectWord s.cfg off width = none) :
    hostRead s off width = { s with busErr := true, reads := 0 :: s.reads } := by
  rw [hostRead, h]

theorem readValue_exact (range : inRange s.cfg w) (h : s.pend = none ∨ exactWhileBusy w = true) :
    readValue s (offsetOf w) 4 = wordValue s w := by
  rw [readValue, selectWord_offsetOf s.params range]
  exact if_neg (not_freeRead h)

theorem hostRead_exact (range : inRange s.cfg w) (h : s.pend = none ∨ exactWhileBusy w = true) :
    hostRead s (offsetOf w) 4 = { s with reads := wordValue s w :: s.reads } := by
  rw [hostRead, selectWord_offsetOf s.params range]
  exact if_neg (not_freeRead h)

theorem readValue_free (range : inRange s.cfg w) (pending : s.pend ≠ none) (free : exactWhileBusy w = false) :
    readValue s (offsetOf w) 4 = Config.busyRead s.draws := by
  rw [readValue, selectWord_offsetOf s.params range]
  simp [busy_of_pending pending, free]

theorem hostRead_free (range : inRange s.cfg w) (pending : s.pend ≠ none) (free : exactWhileBusy w = false) :
    hostRead s (offsetOf w) 4 = { s with reads := Config.busyRead s.draws :: s.reads, draws := s.draws + 1 } := by
  rw [hostRead, selectWord_offsetOf s.params range]
  simp [busy_of_pending pending, free]

/-- R62: a word's value does not depend on what the host got before. -/
theorem wordValue_reads (s : State) (w : BusWord) (reads : List Word) :
    wordValue { s with reads := reads } w = wordValue s w := by
  cases w <;> rfl

/-- R65: what the core keeps of a read that selects no word. -/
theorem illegalRead_setsBusErr (h : selectWord s.cfg off width = none) :
    readValue s off width = 0 ∧ coreOf (hostRead s off width) = coreOf { s with busErr := true } :=
  ⟨readValue_unselected h, by rw [hostRead_unselected h]; rfl⟩

/-- R62, R67: no read of a defined word changes the core. -/
theorem coreOf_hostRead (range : inRange s.cfg w) : coreOf (hostRead s (offsetOf w) 4) = coreOf s := by
  by_cases h : s.pend = none ∨ exactWhileBusy w = true
  · rw [hostRead_exact range h]
    rfl
  · obtain ⟨pending, free⟩ := not_or.mp h
    rw [hostRead_free range pending (Bool.eq_false_iff.mpr free)]
    rfl

/-! ## Writes -/

theorem writeLegal_offsetOf (range : inRange s.cfg w) : writeLegal s (offsetOf w) 4 = writable w := by
  rw [writeLegal, selectWord_offsetOf s.params range]

theorem writeLegal_unselected (h : selectWord s.cfg off width = none) : writeLegal s off width = false := by
  rw [writeLegal, h]

/-- R65: a write is illegal when every word it could select is read-only. -/
theorem writeLegal_readOnly (h : ∀ w, inRange s.cfg w → width = 4 → off = offsetOf w → writable w = false) :
    writeLegal s off width = false := by
  cases selected : selectWord s.cfg off width with
  | none => exact writeLegal_unselected selected
  | some w =>
    obtain ⟨⟨rfl, rfl⟩, range⟩ := (selectWord_eq_some_iff s.params).mp selected
    rw [writeLegal_offsetOf range, h w range rfl rfl]

theorem hostWrite_busy (pending : s.pend ≠ none) (v : Word) :
    hostWrite s off width v = { s with wrBusy := true, busErr := s.busErr || !writeLegal s off width } := by
  rw [hostWrite, if_pos (busy_of_pending pending)]

theorem hostWrite_illegal (idle : s.pend = none) (illegal : writeLegal s off width = false) (v : Word) :
    hostWrite s off width v = { s with busErr := true } := by
  simp [hostWrite, busy_of_idle idle, illegal]

theorem hostWrite_stored (idle : s.pend = none) (range : inRange s.cfg w) (h : writable w = true) (v : Word) :
    hostWrite s (offsetOf w) 4 v = storeWord s w v := by
  rw [hostWrite, writeLegal_offsetOf range, selectWord_offsetOf s.params range]
  simp [busy_of_idle idle, h]

end

/-! ## The statements about accesses -/

/-- Settles O51: such an access selects no word (`selectWord_eq_none`), or one that is read-only. -/
theorem illegalAccessOnlySetsBusErr : Obligations.IllegalAccessOnlySetsBusErr := fun s _ _ v _ =>
  ⟨fun unmapped => illegalRead_setsBusErr (selectWord_eq_none s.params unmapped),
    fun idle readOnly => hostWrite_illegal idle (writeLegal_readOnly readOnly) v⟩

/-- Settles O52: the state after the read differs in `reads` only, on which no word's value depends. -/
theorem readsHaveNoSideEffects : Obligations.ReadsHaveNoSideEffects := by
  intro s w range h
  have after := hostRead_exact range h
  refine ⟨after, ?_⟩
  rw [after, readValue_exact range h]
  exact (readValue_exact (s := { s with reads := _ }) range h).trans (wordValue_reads s w _)

/-- R67: the words whose reads are exact while BUSY. -/
theorem exactWhileBusy_eq_false {w : BusWord} (h : w ∉ [BusWord.id, .cmd, .status, .param0, .param1]) :
    exactWhileBusy w = false := by
  cases w
  case id | cmd | status | param0 | param1 => exact absurd (by decide) h
  all_goals rfl

/-- Settles O53: a write by `hostWrite_busy`; a read is exact, free or illegal. -/
theorem accessesWhileBusy : Obligations.AccessesWhileBusy := by
  intro s v pending
  refine ⟨fun w range => ?written, fun off _ width unmapped => ?illegal, fun w listed => ?exact,
    readValue_exact (w := .cmd) trivial (.inr rfl), fun w range notExact => ?free, fun w => coreOf_hostRead⟩
  case written => rw [hostWrite_busy pending, writeLegal_offsetOf range]
  case illegal =>
    have unselected := selectWord_eq_none s.params unmapped
    refine ⟨?_, illegalRead_setsBusErr unselected⟩
    rw [hostWrite_busy pending, writeLegal_unselected unselected, Bool.not_false, Bool.or_true]
  case exact =>
    simp only [List.mem_cons, List.not_mem_nil, or_false] at listed
    obtain rfl | rfl | rfl | rfl := listed <;> exact readValue_exact trivial (.inr rfl)
  case free =>
    have free := exactWhileBusy_eq_false notExact
    exact ⟨readValue_free range pending free, by rw [hostRead_free range pending free]⟩

/-! ## Stores -/

/-- R63: the words a host may write. -/
theorem writable_iff (w : BusWord) : writable w = true ↔
    w = .cmd ∨ w = .config ∨ w = .plen ∨ (∃ i, w = .pbuf i) ∨ ∃ i, w = .cwbuf i := by
  cases w <;> simp [writable]

/-- Cutting a word to its low n bits is a mask. -/
theorem setWidth_setWidth_eq_and (v : Word) (n : Nat) :
    (v.setWidth n).setWidth 32 = v &&& (BitVec.allOnes n).setWidth 32 := by
  apply BitVec.eq_of_getLsbD_eq
  intro i hi
  simp [hi, Bool.and_comm]

/-- R66, R46: a store to PBUF[i] changes that entry only. -/
theorem pbufByte_storeWord (s : State) (i j : Nat) (v : Word) :
    pbufByte (storeWord s (.pbuf i) v) j = if j = i then v.setWidth 8 else pbufByte s j :=
  memory_read_write 0 s.pbuf i j (v.setWidth 8)

/-- R66, R47: a store to CWBUF[i] changes that entry only. -/
theorem cwByte_storeWord (s : State) (i j : Nat) (v : Word) :
    cwByte (storeWord s (.cwbuf i) v) j = if j = i then v.setWidth 8 else cwByte s j :=
  cwByte_setCwByte s i j (v.setWidth 8)

/-- Of PEND, DONE, STAGE, CONFIG and PLEN a word other than STATUS shows CONFIG or PLEN only. -/
theorem wordValue_registers (s : State) {u : BusWord} (notStatus : u ≠ .status) (pend : Option Word) (done : Bool)
    (stage : Stage) {config : Word} {plen : BitVec 16} (hconfig : u = .config → config = s.config)
    (hplen : u = .plen → plen = s.plen) :
    wordValue { s with pend := pend, done := done, stage := stage, config := config, plen := plen } u =
      wordValue s u := by
  cases u
  case status => exact absurd rfl notStatus
  case config => exact hconfig rfl
  case plen => exact congrArg (BitVec.setWidth 32) (hplen rfl)
  all_goals rfl

/-- R66: a store changes no word but its own and STATUS. -/
theorem wordValue_storeWord_of_ne (s : State) {w u : BusWord} (v : Word) (other : u ≠ w) (notStatus : u ≠ .status) :
    wordValue (storeWord s w v) u = wordValue s u := by
  cases w
  case cmd => exact wordValue_registers s notStatus (some v) false s.stage (fun _ => rfl) fun _ => rfl
  case config => exact wordValue_registers s notStatus s.pend s.done .none (absurd · other) fun _ => rfl
  case plen => exact wordValue_registers s notStatus s.pend s.done .none (fun _ => rfl) (absurd · other)
  case pbuf i =>
    cases u
    case status => exact absurd rfl notStatus
    case pbuf j =>
      have entry := pbufByte_storeWord s i j v
      rw [if_neg fun h => other (congrArg _ h)] at entry
      exact congrArg (BitVec.setWidth 32) entry
    all_goals rfl
  case cwbuf i =>
    cases u
    case status => exact absurd rfl notStatus
    case cwbuf j =>
      have entry := cwByte_storeWord s i j v
      rw [if_neg fun h => other (congrArg _ h)] at entry
      exact congrArg (BitVec.setWidth 32) entry
    all_goals rfl
  all_goals rfl

/-- Settles O54: the write is `storeWord` of one of the four input words, each of which keeps the bits that exist. -/
theorem inputWritesStoreAndRestartThePipeline : Obligations.InputWritesStoreAndRestartThePipeline := by
  refine ⟨writable_iff, fun s w v idle range canWrite notCmd => ?_⟩
  have others := fun u (_ : inRange s.cfg u) => wordValue_storeWord_of_ne s (w := w) (u := u) v
  rw [hostWrite_stored idle range canWrite]
  obtain rfl | rfl | rfl | ⟨i, rfl⟩ | ⟨i, rfl⟩ := (writable_iff w).mp canWrite
  · exact absurd rfl notCmd
  · exact ⟨rfl, rfl, others, rfl⟩
  · exact ⟨rfl, setWidth_setWidth_eq_and v 16, others, rfl⟩
  · have entry := (pbufByte_storeWord s i i v).trans (if_pos rfl)
    exact ⟨rfl, (congrArg _ entry).trans (setWidth_setWidth_eq_and v 8), others, rfl⟩
  · have entry := (cwByte_storeWord s i i v).trans (if_pos rfl)
    exact ⟨rfl, (congrArg _ entry).trans (setWidth_setWidth_eq_and v 8), others, rfl⟩

end Sys2Proof.Laws

/-! The command word (30_encoding.md R90 to R96): `decode_eq_ok_iff` says in the word's fields when it is a command and
which, `legalWord_iff` says R93's legal words in the same fields. -/

namespace Sys2Proof.Laws

open Sys2Proof.Machine

/-! ## The fields of a word and of a command -/

section
variable (w : Word)

/-- The bits between two positions, as the fields of R90 read them. -/
theorem toNat_extractLsb'_eq (lo width : Nat) : (w.extractLsb' lo width).toNat = w.toNat / 2 ^ lo % 2 ^ width := by
  rw [BitVec.extractLsb'_toNat, Nat.shiftRight_eq_div_pow]

theorem opcOf_eq_opcField : opcOf w = opcField w := by
  have bound := w.isLt
  rw [opcOf, opcField, toNat_extractLsb'_eq]
  omega

theorem toNat_extractLsb'_f1 : (w.extractLsb' 8 8).toNat = f1Field w := toNat_extractLsb'_eq w 8 8

theorem toNat_extractLsb'_f0 : (w.extractLsb' 0 8).toNat = f0Field w := by
  rw [toNat_extractLsb'_eq, f0Field, Nat.pow_zero, Nat.div_one]
  rfl

theorem extractLsb'_f2_eq_zero_iff : w.extractLsb' 16 8 = 0 ↔ f2Field w = 0 := by
  rw [← BitVec.toNat_inj, toNat_extractLsb'_eq]
  rfl

theorem extractLsb'_f1_eq_zero_iff : w.extractLsb' 8 8 = 0 ↔ f1Field w = 0 := by
  rw [← BitVec.toNat_inj, toNat_extractLsb'_f1]
  rfl

/-- cmd[15:0] is F1 and F0 side by side. -/
theorem extractLsb'_f1f0_eq_zero_iff : w.extractLsb' 0 16 = 0 ↔ f1Field w = 0 ∧ f0Field w = 0 := by
  rw [← BitVec.toNat_inj, toNat_extractLsb'_eq, f1Field, f0Field]
  change _ = 0 ↔ _
  omega

/-- R93's legal words, by the fields the decoder reads. -/
theorem legalWord_iff : legalWord w ↔ opcField w ∈ assignedOpcodes ∧ f2Field w = 0 ∧
    (opcField w ∈ operandFreeOpcodes → f1Field w = 0 ∧ f0Field w = 0) ∧
    (opcField w ∈ oneOperandOpcodes → f1Field w = 0) := by
  rw [legalWord, opcOf_eq_opcField, extractLsb'_f2_eq_zero_iff, extractLsb'_f1_eq_zero_iff,
    extractLsb'_f1f0_eq_zero_iff]

variable {w}

/-- A word with its reserved field 0 is its other three fields put together. -/
theorem word_of_fields (reserved : f2Field w = 0) :
    BitVec.ofNat 32 (opcField w * 2 ^ 24 + f1Field w * 2 ^ 8 + f0Field w) = w := by
  have bound := w.isLt
  apply BitVec.eq_of_toNat_eq
  rw [BitVec.toNat_ofNat]
  simp only [opcField, f2Field, f1Field, f0Field] at reserved ⊢
  omega

end

theorem opcode_lt (i : Instr) : opcode i < 256 := by
  cases i <;> simp [opcode]

theorem wf_iff_operands_lt (i : Instr) : i.wf = true ↔ operandF1 i < 256 ∧ operandF0 i < 256 := by
  cases i <;> simp [Instr.wf, fitsField, operandF1, operandF0]

theorem opcode_mem_assignedOpcodes (i : Instr) : opcode i ∈ assignedOpcodes := by
  cases i <;> simp [opcode, assignedOpcodes]

theorem operands_of_operandFree (i : Instr) (free : opcode i ∈ operandFreeOpcodes) :
    operandF1 i = 0 ∧ operandF0 i = 0 := by
  cases i <;> simp_all [opcode, operandFreeOpcodes, operandF1, operandF0]

theorem operandF1_of_oneOperand (i : Instr) (one : opcode i ∈ oneOperandOpcodes) : operandF1 i = 0 := by
  cases i <;> simp_all [opcode, oneOperandOpcodes, operandF1]

/-- R92 and R93 for every command: the fields of its word are its opcode, 0 and its operands. -/
theorem fields_of_encode (i : Instr) : EncodeShape.Statement i := fun wf =>
  have ⟨f1, f0⟩ := (wf_iff_operands_lt i).mp wf
  fields_of_word (opcode i) (operandF1 i) (operandF0 i) (opcode_lt i) f1 f0

/-! ## The decoder: what its three kinds of rows accept, then `decode` itself -/

section
variable {w : Word} {i : Instr}

theorem noOperands_eq_ok_iff {j : Instr} : checkF2 w (noOperands w j) = .ok i ↔
    j = i ∧ f2Field w = 0 ∧ f1Field w = 0 ∧ f0Field w = 0 := by
  rw [checkF2, noOperands]
  split_ifs <;> simp_all

theorem oneOperand_eq_ok_iff {j : Nat → Instr} : checkF2 w (oneOperand w j) = .ok i ↔
    j (f0Field w) = i ∧ f2Field w = 0 ∧ f1Field w = 0 := by
  rw [checkF2, oneOperand]
  split_ifs <;> simp_all

theorem twoOperands_eq_ok_iff {j : Nat → Nat → Instr} : checkF2 w (twoOperands w j) = .ok i ↔
    j (f1Field w) (f0Field w) = i ∧ f2Field w = 0 := by
  rw [checkF2, twoOperands]
  split_ifs <;> simp_all

theorem fields_of_decode (decoded : decode w = .ok i) : opcField w = opcode i ∧ f2Field w = 0 ∧
    f1Field w = operandF1 i ∧ f0Field w = operandF0 i := by
  unfold decode at decoded
  split at decoded
  case h_12 opc | h_16 opc =>
    obtain ⟨rfl, f2⟩ := twoOperands_eq_ok_iff.mp decoded
    exact ⟨opc, f2, rfl, rfl⟩
  case h_13 opc | h_14 opc | h_15 opc | h_17 opc =>
    obtain ⟨rfl, f2, f1⟩ := oneOperand_eq_ok_iff.mp decoded
    exact ⟨opc, f2, f1, rfl⟩
  case h_18 => cases decoded
  all_goals
    obtain ⟨rfl, f2, f1, f0⟩ := noOperands_eq_ok_iff.mp decoded
    exact ⟨‹_›, f2, f1, f0⟩

theorem decode_of_fields (opc : opcField w = opcode i) (f2 : f2Field w = 0) (f1 : f1Field w = operandF1 i)
    (f0 : f0Field w = operandF0 i) : decode w = .ok i := by
  unfold decode
  rw [opc]
  cases i
  case gfMul | rsBlock => exact twoOperands_eq_ok_iff.mpr ⟨by rw [f1, f0]; rfl, f2⟩
  case gfExp | gfLog | gfInv | genPoly => exact oneOperand_eq_ok_iff.mpr ⟨by rw [f0]; rfl, f2, f1⟩
  all_goals exact noOperands_eq_ok_iff.mpr ⟨rfl, f2, f1, f0⟩

/-- R93: a word is a command exactly when its fields are the command's. -/
theorem decode_eq_ok_iff : decode w = .ok i ↔ opcField w = opcode i ∧ f2Field w = 0 ∧
    f1Field w = operandF1 i ∧ f0Field w = operandF0 i :=
  ⟨fields_of_decode, fun ⟨opc, f2, f1, f0⟩ => decode_of_fields opc f2 f1 f0⟩

theorem decode_of_legalWord (legal : legalWord w) : ∃ i, decode w = .ok i := by
  obtain ⟨assigned, f2, free, one⟩ := (legalWord_iff w).mp legal
  unfold decode
  split
  case h_12 | h_16 => exact ⟨_, twoOperands_eq_ok_iff.mpr ⟨rfl, f2⟩⟩
  case h_13 opc | h_14 opc | h_15 opc | h_17 opc =>
    exact ⟨_, oneOperand_eq_ok_iff.mpr ⟨rfl, f2, one (by rw [opc]; decide)⟩⟩
  case h_18 => simp_all [assignedOpcodes]
  all_goals
    next opc => exact ⟨_, noOperands_eq_ok_iff.mpr ⟨rfl, f2, free (by rw [opc]; decide)⟩⟩

theorem legalWord_of_decode (decoded : decode w = .ok i) : legalWord w := by
  obtain ⟨opc, f2, f1, f0⟩ := fields_of_decode decoded
  rw [legalWord_iff, opc, f1, f0]
  exact ⟨opcode_mem_assignedOpcodes i, f2, operands_of_operandFree i, operandF1_of_oneOperand i⟩

theorem decode_error_of_not_legalWord (illegal : ¬legalWord w) : ∃ why, decode w = .error why := by
  cases decoded : decode w with
  | error why => exact ⟨why, rfl⟩
  | ok i => exact absurd (legalWord_of_decode decoded) illegal

end

/-! ## The execution of an illegal word -/

/-- An error of the interface keeps STAGE (60_exceptions.md R326). -/
theorem raiseError_interface {f : Failure} {s : State} (ready : s.error = false)
    (kind : isEncodingError f.kind = false) : raiseError f s = interfaceError f.kind f.opc f.exp f.act s := by
  simp [raiseError, interfaceError, ready, kind]

theorem execute_illegal {w : Word} {s : State} {why : Illegal} (ready : s.error = false)
    (illegal : decode w = .error why) :
    execute w s = .next (interfaceError .illegalCommand (opcOf w) 0 w.toNat s) := by
  rw [execute, ready, Bool.false_and, if_neg Bool.false_ne_true, illegal, opcOf_eq_opcField]
  exact congrArg _ (raiseError_interface ready rfl)

/-! ## The statements -/

/-- Settles O1: the fields of a command's word are the command's (`fields_of_encode`), and those the decoder reads. -/
theorem decodeOfEncodeIsTheCommand : Obligations.DecodeOfEncodeIsTheCommand :=
  fun i wf => decode_eq_ok_iff.mpr (fields_of_encode i wf)

/-- Settles O2: the decoder's four field equations give the word back (`word_of_fields`). -/
theorem encodeOfDecodeIsTheWord : Obligations.EncodeOfDecodeIsTheWord := by
  intro w i decoded
  obtain ⟨opc, f2, f1, f0⟩ := decode_eq_ok_iff.mp decoded
  refine ⟨wf_of_decode decoded, ?_⟩
  rw [encode, ← opc, ← f1, ← f0]
  exact word_of_fields f2

/-- Settles O3: a legal word decodes to a command with its fields, an illegal word is refused and executes as
`execute_illegal` says. -/
theorem decoderAcceptsExactlyTheLegalWords : Obligations.DecoderAcceptsExactlyTheLegalWords := by
  refine fun w => ⟨fun legal => ?_, fun illegal => ?_⟩
  · obtain ⟨i, decoded⟩ := decode_of_legalWord legal
    obtain ⟨opc, -, f1, f0⟩ := decode_eq_ok_iff.mp decoded
    rw [opcOf_eq_opcField, toNat_extractLsb'_f1, toNat_extractLsb'_f0]
    exact ⟨i, decoded, opc.symm, f1.symm, f0.symm⟩
  · obtain ⟨why, refused⟩ := decode_error_of_not_legalWord illegal
    exact ⟨⟨why, refused⟩, fun s ready => execute_illegal ready refused⟩

/-- Settles O4: the decoder run on each of the 21 words. -/
theorem specWordsDecode : Obligations.SpecWordsDecode := by
  unfold Obligations.SpecWordsDecode
  decide

end Sys2Proof.Laws

/-! The control commands and the step (40_control.md R120 to R132): NOP, CLEAR and SOFT_RESET, the issue of a command
word, its execution on the core's turn, and the refusal of R123. -/

namespace Sys2Proof.Laws

open Sys2Proof.Machine

/-! ## The encoding clauses of a command without operands (30_encoding.md R93) -/

/-- Such a command has one word, so the same opcode with a bit of [23:0] set is no command. -/
theorem encode_of_decode_operandFree {x : Word} {i j : Instr} (free : opcode i ∈ operandFreeOpcodes)
    (opc : opcField x = opcode i) (decoded : decode x = .ok j) : x = encode i := by
  obtain ⟨opcJ, f2, f1, f0⟩ := fields_of_decode decoded
  have same : opcode j = opcode i := opcJ.symm.trans opc
  obtain ⟨zero1, zero0⟩ := operands_of_operandFree j (same ▸ free)
  obtain ⟨none1, none0⟩ := operands_of_operandFree i free
  rw [← word_of_fields f2, encode, opc, f1, f0, zero1, zero0, none1, none0]

theorem encode_operandFree_low (i : Instr) (free : opcode i ∈ operandFreeOpcodes) :
    encode i &&& 0x00FFFFFF &&& ~~~0 = 0 := by
  cases i
  case gfMul | gfExp | gfLog | gfInv | rsBlock | genPoly => simp [opcode, operandFreeOpcodes] at free
  all_goals decide

/-- R93: the word of a command without operands, and that any bit of [23:0] makes it IllegalCommand. -/
theorem encodedAs_of_operandFree (i : Instr) (free : opcode i ∈ operandFreeOpcodes) : encodedAs i (encode i) 0 := by
  refine ⟨rfl, fun x opc low => ?_⟩
  have wf : i.wf = true := by
    rw [wf_iff_operands_lt, (operands_of_operandFree i free).1, (operands_of_operandFree i free).2]
    decide
  have opcX : opcField x = opcode i := by
    rw [← opcOf_eq_opcField, opcOf, opc, ← opcOf, opcOf_eq_opcField]
    exact (fields_of_encode i wf).1
  cases decoded : decode x with
  | error why => exact ⟨⟨why, rfl⟩, fun s ready => execute_illegal ready decoded⟩
  | ok j =>
    rw [encode_of_decode_operandFree free opcX decoded] at low
    exact absurd (encode_operandFree_low i free) low

/-! ## NOP, CLEAR and SOFT_RESET -/

/-- Settles O11: `execNop` is the statement's own case split on ERROR. -/
theorem nopOnlySetsDone : Obligations.NopOnlySetsDone := fun _ =>
  ⟨rfl, encodedAs_of_operandFree .nop (by decide)⟩

/-- Settles O12: CLEAR is `clearError`, then nothing is pending. -/
theorem clearReturnsFromAnError : Obligations.ClearReturnsFromAnError := fun _ =>
  ⟨rfl, encodedAs_of_operandFree .clear (by decide)⟩

/-- Settles O13: both are `resetCore`, which leaves nothing pending. -/
theorem softResetIsReset : Obligations.SoftResetIsReset := fun s =>
  ⟨⟨resetCore s, rfl, rfl, rfl⟩, encodedAs_of_operandFree .softReset (by decide)⟩

/-! ## Issue and execution -/

/-- Settles O55: CMD is a writable word, whose store is `issue`. -/
theorem commandWriteIssues : Obligations.CommandWriteIssues := by
  refine fun s w => ⟨fun idle => ?_, fun pending => ?_⟩
  · have stored := hostWrite_stored (w := .cmd) idle trivial rfl w
    exact ⟨stored, (congrArg (fun t => (statusWord t).getLsbD 0) stored).trans (statusWord_bits _).1⟩
  · refine (hostWrite_busy (off := offsetOf .cmd) pending w).trans ?_
    rw [writeLegal_offsetOf (w := .cmd) trivial, writable, Bool.not_true, Bool.or_false]

/-- R125: a command executes unless ERROR = 1 refuses it. -/
theorem execute_command {s : State} {w : Word} {i : Instr} (decoded : decode w = .ok i)
    (ready : s.error = false ∨ opcOf w ≤ 2) : execute w s = exec i s := by
  have runs : ¬(s.error && !runsWhileError w) = true := by
    rw [runsWhileError, ← opcOf_eq_opcField]
    obtain ready | control := ready
    · simp [ready]
    · simp [control]
  rw [execute, if_neg runs, decoded]

theorem ofNat_toNat_mod (w : Word) : BitVec.ofNat 32 (w.toNat % 2 ^ 32) = w := by
  rw [Nat.mod_eq_of_lt w.isLt, BitVec.ofNat_toNat, BitVec.setWidth_eq]

/-- Settles O5: on the core's turn a step is `execute` of the pending word, which is `exec` of its command. -/
theorem stepRunsTheDecodedCommand : Obligations.StepRunsTheDecodedCommand := by
  refine fun s w i decoded ready => ⟨fun pending turn => ?_, ?_, ?_⟩
  · exact (step_core_pending turn pending).trans (execute_command decoded ready)
  · rw [State.withFetchWord, ofNat_toNat_mod]
    exact (step_core_pending (w := w) rfl rfl).trans (execute_command decoded ready)
  · rw [decodeTableWord, ofNat_toNat_mod, decoded]

/-! ## The refusal while ERROR = 1 -/

/-- The commands that execute while ERROR = 1 are the three of the lowest opcodes. -/
theorem control_of_opcode_le {i : Instr} (low : opcode i ≤ 2) : i = .nop ∨ i = .clear ∨ i = .softReset := by
  cases i
  case nop => exact .inl rfl
  case clear => exact .inr (.inl rfl)
  case softReset => exact .inr (.inr rfl)
  all_goals simp [opcode] at low

/-- Settles O8: a word of another opcode is refused, an illegal one of these three opcodes leaves the first record, and
of the three commands only NOP is left, which sets DONE only without an error. -/
theorem firstErrorRecordStays : Obligations.FirstErrorRecordStays := by
  refine fun s w error notClear notReset => ⟨?_, fun flags => flags.errorNotDone error⟩
  by_cases runs : runsWhileError w = true
  · rw [execute, runs, Bool.not_true, Bool.and_false, if_neg Bool.false_ne_true]
    cases decoded : decode w with
    | error why => exact congrArg _ (raiseError_recorded error)
    | ok i =>
      obtain ⟨-, word⟩ := encodeOfDecodeIsTheWord w i decoded
      have low : opcode i ≤ 2 := by
        rw [← (fields_of_decode decoded).1]
        exact of_decide_eq_true runs
      obtain rfl | rfl | rfl := control_of_opcode_le low
      · show Host.Outcome.next (if s.error then retire s else succeed s) = _
        rw [if_pos error, retire]
      · exact absurd word.symm notClear
      · exact absurd word.symm notReset
  · rw [execute, if_pos (by simpa [error] using runs), retire]

end Sys2Proof.Laws

/-! What the rule of a command may end in, said once (`EndsAt`): a success at a known STAGE or an error other than
StageOrder, the inputs and the error record as they were. DONE (40_control.md R124) and the order of the stages
(R122) follow. -/

namespace Sys2Proof.Laws

open Sys2Proof.Machine

/-! ## The elements no rule writes -/

/-- The elements that only error entry, CLEAR, reset and the host write. -/
structure Kept where
  error : Bool
  busErr : Bool
  wrBusy : Bool
  errKind : ErrKind
  config : Word
  plen : BitVec 16
  pbuf : List Host.Cell

/-- These elements of a state. -/
def kept (s : State) : Kept := ⟨s.error, s.busErr, s.wrBusy, s.errKind, s.config, s.plen, s.pbuf⟩

/-- What a rule may end in from s: the stage `next`, or an error that is not StageOrder. -/
def EndsAt (s : State) (next : Stage) : RuleEnd → Prop
  | .success t => t.stage = next ∧ kept t = kept s
  | .failed f t => f.kind ≠ .stageOrder ∧ kept t = kept s

theorem EndsAt.kept_eq {s : State} {next : Stage} {r : RuleEnd} (h : EndsAt s next r) : kept (endState r) = kept s := by
  cases r with
  | success t => exact h.2
  | failed f t => exact h.2

theorem ne_stageOrder_of_encodingError {k : ErrKind} (h : isEncodingError k = true) : k ≠ .stageOrder := by
  rintro rfl
  cases h

/-! ## The rules

A frame equation `{ t with f := s.f } = …`, read through a function that does not see the fields it names, is an equation
about t itself; `(congrArg kept frame :)` is that reading. -/

theorem endsAt_segmentRule (s : State) : EndsAt s .segmented (segmentRule s) := by
  obtain ⟨t, ends, frame⟩ | ⟨f, t, ends, encoding, -, frame⟩ := segmentRule_cases s <;> rw [ends]
  · exact ⟨congrArg State.stage frame, (congrArg kept frame :)⟩
  · exact ⟨ne_stageOrder_of_encodingError encoding, (congrArg kept frame :)⟩

theorem endsAt_buildRule (s : State) : EndsAt s .built (buildRule s) := by
  obtain ⟨t, ends, frame⟩ | ⟨f, t, ends, encoding, -, frame⟩ := buildRule_cases s <;> rw [ends]
  · exact ⟨congrArg State.stage frame, (congrArg kept frame :)⟩
  · exact ⟨ne_stageOrder_of_encodingError encoding, (congrArg kept frame :)⟩

theorem endsAt_rsencRule (s : State) : EndsAt s .coded (rsencRule s) := by
  obtain ⟨t, ends, frame⟩ := rsencRule_success s
  rw [ends]
  exact ⟨congrArg State.stage frame, (congrArg kept frame :)⟩

theorem endsAt_stampRule (s : State) : EndsAt s .stamped (stampRule s) := ⟨rfl, rfl⟩

theorem endsAt_placeRule (s : State) : EndsAt s .placed (placeRule s) := by
  obtain ⟨t, ends, frame⟩ | ⟨f, t, ends, encoding, -, frame⟩ := placeRule_cases s <;> rw [ends]
  · exact ⟨congrArg State.stage frame, (congrArg kept frame :)⟩
  · exact ⟨ne_stageOrder_of_encodingError encoding, (congrArg kept frame :)⟩

theorem endsAt_maskRule (s : State) : EndsAt s .masked (maskRule s) := ⟨rfl, rfl⟩

theorem endsAt_formatRule (s : State) : EndsAt s .formatted (formatRule s) := by
  obtain ⟨t, ends, frame⟩ := formatRule_success s
  rw [ends]
  exact ⟨congrArg State.stage frame, (congrArg kept frame :)⟩

theorem endsAt_requireStage {s : State} {required next : Stage} {opc : Nat} {rule : State → RuleEnd}
    (own : s.stage = required) (ends : EndsAt s next (rule s)) : EndsAt s next (requireStage required opc rule s) := by
  rwa [requireStage_at own]

/-- One stage after another: the first leaves the stage that the second requires. -/
theorem endsAt_andThen {s : State} {required next : Stage} {opc : Nat} {r : RuleEnd} {rule : State → RuleEnd}
    (first : EndsAt s required r) (second : ∀ t, EndsAt t next (rule t)) :
    EndsAt s next (andThen r (requireStage required opc rule)) := by
  cases r with
  | failed f t => exact first
  | success t =>
    obtain ⟨stage, same⟩ := first
    have ends := second t
    rw [andThen, requireStage_at stage]
    cases h : rule t with
    | success u => rw [h] at ends; exact ⟨ends.1, ends.2.trans same⟩
    | failed f u => rw [h] at ends; exact ⟨ends.1, ends.2.trans same⟩

theorem endsAt_encodeRule (s : State) : EndsAt s .formatted (encodeRule s) := by
  have segmented : EndsAt s .segmented (segmentRule { s with stage := .none }) := endsAt_segmentRule _
  have built := endsAt_andThen (opc := opcode .build) segmented endsAt_buildRule
  have coded := endsAt_andThen (opc := opcode .rsenc) built endsAt_rsencRule
  have stamped := endsAt_andThen (opc := opcode .stamp) coded endsAt_stampRule
  have placed := endsAt_andThen (opc := opcode .place) stamped endsAt_placeRule
  have masked := endsAt_andThen (opc := opcode .mask) placed endsAt_maskRule
  exact endsAt_andThen masked endsAt_formatRule

/-- A rule that only checks an operand. -/
theorem endsAt_checked {p : Prop} [Decidable p] {f : Failure} {s t : State} {next : Stage} (kind : f.kind ≠ .stageOrder)
    (success : EndsAt s next (.success t)) : EndsAt s next (if p then .failed f s else .success t) := by
  split
  · exact ⟨kind, rfl⟩
  · exact success

theorem endsAt_setCwBytes (s : State) (base : Nat) (vs : List Byte) :
    EndsAt s .none (.success { setCwBytes s base vs with stage := .none }) :=
  ⟨rfl, (congrArg kept (setCwBytes_frame s base vs) :)⟩

/-! ## The commands as rules -/

/-- A stage command is its rule behind the stage check of R122. -/
theorem exec_stageCommand {row : Instr × Nat × Stage × Stage} (listed : row ∈ stageTable) : ∃ rule : State → RuleEnd,
    (∀ s, exec row.1 s = .next (runRule (requireStage row.2.2.1 row.2.1 rule) s)) ∧
    ∀ s, EndsAt s row.2.2.2 (rule s) := by
  simp only [stageTable, List.mem_cons, List.not_mem_nil, or_false] at listed
  obtain rfl | rfl | rfl | rfl | rfl | rfl := listed
  · exact ⟨buildRule, fun _ => rfl, endsAt_buildRule⟩
  · exact ⟨rsencRule, fun _ => rfl, endsAt_rsencRule⟩
  · exact ⟨stampRule, fun _ => rfl, endsAt_stampRule⟩
  · exact ⟨placeRule, fun _ => rfl, endsAt_placeRule⟩
  · exact ⟨maskRule, fun _ => rfl, endsAt_maskRule⟩
  · exact ⟨formatRule, fun _ => rfl, endsAt_formatRule⟩

/-- Every other command but NOP, CLEAR and SOFT_RESET is a rule without a stage check. -/
theorem exec_otherCommand {i : Instr} (notStage : ∀ row ∈ stageTable, row.1 ≠ i) (s : State) :
    i = .nop ∨ i = .clear ∨ i = .softReset ∨
    ∃ rule : State → RuleEnd, exec i s = .next (runRule rule s) ∧ ∃ next, EndsAt s next (rule s) := by
  cases i
  case nop => exact .inl rfl
  case clear => exact .inr (.inl rfl)
  case softReset => exact .inr (.inr (.inl rfl))
  case build => exact absurd rfl (notStage (.build, 0x11, .segmented, .built) (by decide))
  case rsenc => exact absurd rfl (notStage (.rsenc, 0x12, .built, .coded) (by decide))
  case stamp => exact absurd rfl (notStage (.stamp, 0x13, .coded, .stamped) (by decide))
  case place => exact absurd rfl (notStage (.place, 0x14, .stamped, .placed) (by decide))
  case mask => exact absurd rfl (notStage (.mask, 0x15, .placed, .masked) (by decide))
  case format => exact absurd rfl (notStage (.format, 0x16, .masked, .formatted) (by decide))
  all_goals refine .inr (.inr (.inr ⟨_, rfl, ?_⟩))
  case segment => exact ⟨_, endsAt_segmentRule s⟩
  case encode => exact ⟨_, endsAt_encodeRule s⟩
  case gfMul | gfExp => exact ⟨s.stage, rfl, rfl⟩
  case gfLog | gfInv => exact ⟨s.stage, endsAt_checked (by simp [gfDomain]) ⟨rfl, rfl⟩⟩
  case rsBlock | genPoly => exact ⟨_, endsAt_checked (by simp [badOperand]) (endsAt_setCwBytes s _ _)⟩

/-! ## The end of a command -/

section
variable {s : State} {next : Stage} {rule : State → RuleEnd} (ends : EndsAt s next (rule s))
include ends

/-- No StageOrder is raised. -/
theorem errKind_of_endsAt (order : (runRule rule s).errKind = .stageOrder) : s.errKind = .stageOrder := by
  rw [runRule] at order
  split at order
  · exact order
  · next ready =>
    cases h : rule s with
    | success t =>
      rw [h] at ends order
      exact (congrArg Kept.errKind ends.2).symm.trans order
    | failed f t =>
      rw [h] at ends order
      have noError : t.error = false := (congrArg Kept.error ends.2).trans (Bool.not_eq_true _ ▸ ready)
      simp only [finish, raiseError, noError] at order
      exact absurd order ends.1

/-- A command that succeeds leaves the next stage. -/
theorem stage_of_endsAt (ready : s.error = false) (success : (runRule rule s).error = false) :
    (runRule rule s).stage = next := by
  rw [runRule_ready ready] at success ⊢
  cases h : rule s with
  | success t =>
    rw [h] at ends
    exact ends.1
  | failed f t =>
    rw [h] at ends success
    have noError : t.error = false := (congrArg Kept.error ends.2).trans ready
    simp [finish, raiseError, noError] at success

end

/-- R124: the end of a command sets DONE or records an error, and writes no input and no bus flag. -/
theorem done_of_finish {s : State} {r : RuleEnd} (same : kept (endState r) = kept s) (ready : s.error = false) :
    (finish r).done = !(finish r).error ∧ (finish r).busErr = s.busErr ∧ (finish r).wrBusy = s.wrBusy ∧
    (finish r).config = s.config ∧ (finish r).plen = s.plen ∧ (finish r).pbuf = s.pbuf := by
  have noError : (endState r).error = false := (congrArg Kept.error same).trans ready
  have inputs : (endState r).busErr = s.busErr ∧ (endState r).wrBusy = s.wrBusy ∧ (endState r).config = s.config ∧
      (endState r).plen = s.plen ∧ (endState r).pbuf = s.pbuf :=
    ⟨congrArg Kept.busErr same, congrArg Kept.wrBusy same, congrArg Kept.config same, congrArg Kept.plen same,
      congrArg Kept.pbuf same⟩
  cases r with
  | success t => exact ⟨congrArg (!·) noError.symm, inputs⟩
  | failed f t =>
    rw [endState] at noError inputs
    rw [finish, raiseError, if_neg (by simp [noError])]
    exact ⟨rfl, inputs⟩

theorem kept_requireStage {required : Stage} {opc : Nat} {rule : State → RuleEnd} {s : State}
    (same : kept (endState (rule s)) = kept s) : kept (endState (requireStage required opc rule s)) = kept s := by
  by_cases stage : s.stage = required
  · rwa [requireStage_at stage]
  · rw [requireStage_not stage, endState]

/-! ## The statements -/

/-- Settles O10: `done_of_finish` for the rule of the command. -/
theorem doneMeansSuccess : Obligations.DoneMeansSuccess := by
  intro i s t notClear notReset ready executed
  obtain ⟨_, answer, idle⟩ := exec_next i s
  cases executed.symm.trans answer
  refine ⟨idle, ?_⟩
  by_cases stage : ∃ row ∈ stageTable, row.1 = i
  · obtain ⟨row, listed, rfl⟩ := stage
    obtain ⟨rule, meaning, ends⟩ := exec_stageCommand listed
    cases executed.symm.trans (meaning s)
    rw [runRule_ready ready]
    exact done_of_finish (kept_requireStage (ends s).kept_eq) ready
  · obtain rfl | rfl | rfl | ⟨rule, meaning, next, ends⟩ :=
      exec_otherCommand (fun row listed named => stage ⟨row, listed, named⟩) s
    · cases executed
      rw [if_neg (by simp [ready])]
      exact done_of_finish (r := .success s) rfl ready
    · exact absurd rfl notClear
    · exact absurd rfl notReset
    · cases executed.symm.trans meaning
      rw [runRule_ready ready]
      exact done_of_finish ends.kept_eq ready

/-- Settles O9: at another stage a stage command is `requireStage_not`; at its own, and for every other command, the
rule ends as `EndsAt` says. -/
theorem stageOrderIsLinear : Obligations.StageOrderIsLinear := by
  refine ⟨fun row listed s ready other => ?_, fun row listed s t _ own executed => ?_,
    fun row listed s t ready executed success => ?_, fun s t ready executed success => ?_,
    fun i s t notStage executed order => ?_⟩
  · obtain ⟨rule, meaning, -⟩ := exec_stageCommand listed
    rw [meaning, runRule_ready ready, requireStage_not other]
    exact congrArg _ (raiseError_interface ready rfl)
  · obtain ⟨rule, meaning, ends⟩ := exec_stageCommand listed
    cases executed.symm.trans (meaning s)
    exact or_iff_not_imp_left.mpr fun order =>
      errKind_of_endsAt (endsAt_requireStage own (ends s)) (not_not.mp order)
  · obtain ⟨rule, meaning, ends⟩ := exec_stageCommand listed
    cases executed.symm.trans (meaning s)
    by_cases own : s.stage = row.2.2.1
    · exact stage_of_endsAt (endsAt_requireStage own (ends s)) ready success
    · rw [runRule_ready ready, requireStage_not own, finish, raiseError_interface ready rfl] at success
      cases success
  · cases executed
    exact stage_of_endsAt (endsAt_segmentRule s) ready success
  · obtain rfl | rfl | rfl | ⟨rule, meaning, next, ends⟩ := exec_otherCommand notStage s
    · cases executed
      split at order <;> exact order
    · cases executed
      cases order
    · cases executed
      cases order
    · cases executed.symm.trans meaning
      exact errKind_of_endsAt ends order

end Sys2Proof.Laws

/-! ENCODE is the seven single commands one after another (40_control.md R134): each stage's rule makes of a state whose
DONE was set between two commands what it makes of the state without that. -/

namespace Sys2Proof.Laws

open Sys2Proof.Machine

/-! ## Runs of writes and a change of other fields -/

section
variable {f : State → State}

theorem setCwBytes_comm (comm : ∀ s i v, setCwByte (f s) i v = f (setCwByte s i v)) (s : State) (base : Nat)
    (vs : List Byte) : setCwBytes (f s) base vs = f (setCwBytes s base vs) := by
  induction vs generalizing s base with
  | nil => rfl
  | cons v vs ih => rw [setCwBytes, comm, ih, setCwBytes]

theorem setSegEntries_comm (comm : ∀ s i e, setSegEntry (f s) i e = f (setSegEntry s i e)) (s : State) (base : Nat)
    (es : List SegEntry) : setSegEntries (f s) base es = f (setSegEntries s base es) := by
  induction es generalizing s base with
  | nil => rfl
  | cons e es ih => rw [setSegEntries, comm, ih, setSegEntries]

theorem setColours_comm (comm : ∀ s r c k, setColour (f s) r c k = f (setColour s r c k)) (s : State)
    (ps : List (Nat × Nat)) (ks : List Colour) : setColours (f s) ps ks = f (setColours s ps ks) := by
  induction ps generalizing s ks with
  | nil => cases ks <;> rfl
  | cons p ps ih =>
    cases ks with
    | nil => rfl
    | cons k ks => rw [setColours, comm, ih, setColours]

end

/-! ## The rules after a command that succeeded -/

/-- A rule's end with its state changed. -/
def mapEnd (f : State → State) : RuleEnd → RuleEnd
  | .success t => .success (f t)
  | .failed e t => .failed e (f t)

/-- A rule that does not see whether the command before it was completed. -/
def IgnoresCompletion (rule : State → RuleEnd) : Prop := ∀ s, rule (succeed s) = mapEnd succeed (rule s)

theorem buildRule_ignoresCompletion : IgnoresCompletion buildRule := by
  intro s
  have level : configEcl (succeed s) = configEcl s := rfl
  have supported : levelSupported (succeed s).cfg = levelSupported s.cfg := rfl
  have tried : candidates (succeed s) = candidates s := rfl
  have fit : (fits (succeed s).cfg (segmentList (succeed s))) = fits s.cfg (segmentList s) := rfl
  have written : ∀ v l, buildSelected (succeed s) v l = succeed (buildSelected s v l) := fun v l =>
    congrArg (fun t : State => { t with
      viSel := BitVec.ofNat 5 v, eclSel := l, resH := BitVec.ofNat 5 (heightOf s.cfg v),
      resW := BitVec.ofNat 8 (widthOf s.cfg v),
      resBits := resBitsOf (encodedLength s.cfg v (segmentList s)) (8 * dataOf (groupsOf s.cfg v l)),
      resCw := resCwOf (dataOf (groupsOf s.cfg v l)) (totalOf (groupsOf s.cfg v l)) (s.cfg.rem.getD v 0)
        (blocksOf (groupsOf s.cfg v l)), stage := .built })
      (setCwBytes_comm (f := succeed) (fun _ _ _ => rfl) s 0 _)
  simp only [buildRule, level, supported, tried, fit, written]
  split
  · rfl
  · split
    · rfl
    · split <;> rfl

theorem rsencRule_ignoresCompletion : IgnoresCompletion rsencRule := fun s =>
  congrArg (fun t : State => RuleEnd.success { t with stage := .coded })
    (setCwBytes_comm (f := succeed) (fun _ _ _ => rfl) s 0 _)

theorem stampRule_ignoresCompletion : IgnoresCompletion stampRule := fun _ => rfl

theorem placeRule_ignoresCompletion : IgnoresCompletion placeRule := by
  intro s
  have capacity : freeCells (succeed s).cfg (succeed s).viSel.toNat = freeCells s.cfg s.viSel.toNat := rfl
  have bits : 8 * totalOf (selectedGroups (succeed s)) + (succeed s).cfg.rem.getD (succeed s).viSel.toNat 0 =
    8 * totalOf (selectedGroups s) + s.cfg.rem.getD s.viSel.toNat 0 := rfl
  simp only [placeRule, capacity, bits]
  split
  · rfl
  · exact congrArg (fun t : State => RuleEnd.success { t with stage := .placed })
      (setColours_comm (f := succeed) (fun _ _ _ _ => rfl) s _ _)

theorem maskRule_ignoresCompletion : IgnoresCompletion maskRule := fun _ => rfl

theorem formatRule_ignoresCompletion : IgnoresCompletion formatRule := fun s =>
  congrArg (fun t : State => RuleEnd.success { t with
      resFmtA := fmtRegister s.cfg (formatWord s ^^^ s.cfg.fmtMaskA)
      resFmtB := fmtRegister s.cfg (formatWord s ^^^ s.cfg.fmtMaskB), stage := .formatted })
    ((congrArg (setColours · _ _) (setColours_comm (f := succeed) (fun _ _ _ _ => rfl) s _ _)).trans
      (setColours_comm (f := succeed) (fun _ _ _ _ => rfl) _ _ _))

theorem requireStage_ignoresCompletion {required : Stage} {opc : Nat} {rule : State → RuleEnd}
    (ignores : IgnoresCompletion rule) : IgnoresCompletion (requireStage required opc rule) := by
  intro s
  by_cases own : s.stage = required
  · rw [requireStage_at (s := succeed s) own, requireStage_at own, ignores]
  · rw [requireStage_not (s := succeed s) own, requireStage_not own]
    rfl

/-- SEGMENT runs from any stage (41_mode_selector.md R145). -/
theorem segmentRule_restart (s : State) : segmentRule { s with stage := .none } = segmentRule s := by
  have entries := setSegEntries_comm (f := fun s => { s with stage := .none }) (fun _ _ _ => rfl) s 0
    ((segments s.cfg (payload s)).map entryOfSegment)
  have bytes : payload { s with stage := .none } = payload s := rfl
  simp only [segmentRule, bytes, entries]

/-! ## Commands one after another -/

theorem finish_mapEnd {r : RuleEnd} (ready : (endState r).error = false) : finish (mapEnd succeed r) = finish r := by
  cases r with
  | success t => rfl
  | failed f t =>
    rw [endState] at ready
    simp [mapEnd, finish, raiseError, ready]

theorem retire_finish (r : RuleEnd) : retire (finish r) = finish r := by
  rw [retire, ← finish_pend r]

/-- A rule that may follow another in one command: it does not see DONE and PEND, and it leaves ERROR to error entry. -/
structure Composable (rule : State → RuleEnd) : Prop where
  ignores : IgnoresCompletion rule
  noError : ∀ s, (endState (rule s)).error = s.error

theorem composable_requireStage {required next : Stage} {opc : Nat} {rule : State → RuleEnd}
    (ignores : IgnoresCompletion rule) (ends : ∀ s, EndsAt s next (rule s)) :
    Composable (requireStage required opc rule) where
  ignores := requireStage_ignoresCompletion ignores
  noError s := congrArg Kept.error (kept_requireStage (ends s).kept_eq)

theorem buildStage_composable : Composable buildStage :=
  composable_requireStage buildRule_ignoresCompletion endsAt_buildRule

theorem rsencStage_composable : Composable rsencStage :=
  composable_requireStage rsencRule_ignoresCompletion endsAt_rsencRule

theorem stampStage_composable : Composable stampStage :=
  composable_requireStage stampRule_ignoresCompletion endsAt_stampRule

theorem placeStage_composable : Composable placeStage :=
  composable_requireStage placeRule_ignoresCompletion endsAt_placeRule

theorem maskStage_composable : Composable maskStage :=
  composable_requireStage maskRule_ignoresCompletion endsAt_maskRule

theorem formatStage_composable : Composable formatStage :=
  composable_requireStage formatRule_ignoresCompletion endsAt_formatRule

/-- Two rules run as two commands end as they do in one, whether the first fails or not. -/
theorem runRule_finish {r : RuleEnd} {rule : State → RuleEnd} (second : Composable rule)
    (ready : (endState r).error = false) :
    runRule rule (finish r) = finish (andThen r rule) ∧ (endState (andThen r rule)).error = false := by
  cases r with
  | success t =>
    rw [endState] at ready
    have noError := (second.noError t).trans ready
    rw [finish, runRule_ready (s := succeed t) ready, second.ignores]
    exact ⟨finish_mapEnd noError, noError⟩
  | failed f t =>
    have error : (finish (.failed f t)).error = true := by
      rw [endState] at ready
      simp [finish, raiseError, ready]
    rw [runRule_refused error, retire_finish]
    exact ⟨rfl, ready⟩

/-- R134, for a state without an error. -/
theorem runRule_encodeRule {s : State} (ready : s.error = false) : runRule formatStage (runRule maskStage
    (runRule placeStage (runRule stampStage (runRule rsencStage (runRule buildStage (runRule segmentRule s)))))) =
      runRule encodeRule s := by
  have noError : (endState (segmentRule s)).error = false :=
    (congrArg Kept.error (endsAt_segmentRule s).kept_eq).trans ready
  obtain ⟨built, noError⟩ := runRule_finish buildStage_composable noError
  obtain ⟨coded, noError⟩ := runRule_finish rsencStage_composable noError
  obtain ⟨stamped, noError⟩ := runRule_finish stampStage_composable noError
  obtain ⟨placed, noError⟩ := runRule_finish placeStage_composable noError
  obtain ⟨masked, noError⟩ := runRule_finish maskStage_composable noError
  obtain ⟨formatted, -⟩ := runRule_finish formatStage_composable noError
  rw [runRule_ready ready, built, coded, stamped, placed, masked, formatted, runRule_ready ready, encodeRule,
    segmentRule_restart]

theorem runRule_retire {rule : State → RuleEnd} {s : State} (error : s.error = true) :
    runRule rule (retire s) = retire s := runRule_refused error

/-- Settles O14: `runRule_encodeRule`, and with ERROR = 1 all eight commands are refused. -/
theorem encodeIsTheSevenStages : Obligations.EncodeIsTheSevenStages := by
  refine fun s => ⟨_, _, _, _, _, _, _, rfl, rfl, rfl, rfl, rfl, rfl, rfl, congrArg Host.Outcome.next ?_,
    encodedAs_of_operandFree .encode (by decide)⟩
  cases error : s.error with
  | false => exact (runRule_encodeRule error).symm
  | true => simp only [runRule_refused error, runRule_retire error]

end Sys2Proof.Laws

/-! SEGMENT, BUILD and RSENC of an encodable payload: the codewords they leave are the payload's (41_mode_selector.md
R145, 42_bitstream.md R163 to R170, 43_ecc.md R197 to R200). -/

namespace Sys2Proof.Laws

open Sys2Proof.Machine

/-! ## Codewords written and read back -/

/-- A state whose CWBUF is that of a run of writes reads back the codewords written. -/
theorem cwBytes_of_setCwBytes {s t : State} {base n : Nat} {vs : List Byte}
    (listed : t.cwbuf = (setCwBytes s base vs).cwbuf) (free : t.cwFree = (setCwBytes s base vs).cwFree)
    (length : vs.length = n) : cwBytes t base n = vs := by
  subst length
  refine List.ext_getElem (cwBytes_length _ _ _) fun i _ hi => ?_
  have same : cwByte t (base + i) = cwByte (setCwBytes s base vs) (base + i) := by rw [cwByte, listed, free, cwByte]
  rw [cwBytes_getElem, same, cwByte_setCwBytes, if_pos (by omega), Nat.add_sub_cancel_left,
    List.getD_eq_getElem?_getD, List.getElem?_eq_getElem hi, Option.getD_some]

/-- The entries at the positions below n of all lists. -/
theorem length_positionsBelow (lists : List (List Byte)) (n : Nat) :
    ((List.range n).flatMap fun i => lists.filterMap fun l => l[i]?).length
      = (lists.map fun l => min n l.length).sum := by
  rw [List.length_flatMap]
  induction lists with
  | nil => simp
  | cons l lists ih =>
    have first : ∀ i : Nat, ((l :: lists).filterMap fun l : List Byte => l[i]?).length
        = (l[i]?).toList.length + (lists.filterMap fun l : List Byte => l[i]?).length := by
      intro i
      rw [List.filterMap_cons]
      cases l[i]? <;> simp; omega
    simp only [first, List.sum_map_add, sum_entriesBelow, ih, List.map_cons, List.sum_cons]

theorem length_le_longest {lists : List (List Byte)} {l : List Byte} (listed : l ∈ lists) :
    l.length ≤ (lists.map List.length).max?.getD 0 := by
  have entry := List.mem_map_of_mem (f := List.length) listed
  cases longest : (lists.map List.length).max? with
  | none => simp [List.max?_eq_none_iff.mp longest] at entry
  | some n => exact (List.max?_eq_some_iff.mp longest).2 _ entry

/-- R198: a round-robin stream has the entries of its lists. -/
theorem roundRobin_length (lists : List (List Byte)) : (roundRobin lists).length = (lists.map List.length).sum := by
  rw [roundRobin, length_positionsBelow]
  exact congrArg List.sum (List.map_congr_left fun l listed => Nat.min_eq_right (length_le_longest listed))

/-- R199: TCW codewords. -/
theorem interleave_length (c : Config) {gs : List Group} {data : List Byte} (parity : ∀ g ∈ gs, g.k ≤ g.c)
    (length : data.length = dataOf gs) : (interleave (codeBlocks c (blockShapes gs) data)).length = totalOf gs := by
  obtain ⟨shapesData, shapesTotal⟩ := blockShapes_sums gs parity
  obtain ⟨dataSum, paritySum⟩ := codeBlocks_sums c (blockShapes gs) data (by rw [shapesData, length])
  rw [interleave, List.length_append, roundRobin_length, roundRobin_length, dataSum, paritySum, shapesTotal]

/-! ## SEGMENT -/

/-- The segments of a legal payload fit NSEG and the fields of SEGTAB (10_state.md R43, R45). -/
theorem segments_fitEntries (s : State) (fit : s.plen.toNat ≤ s.cfg.pmax) :
    (segments s.cfg (payload s)).length < 65536 ∧
    ∀ g ∈ segments s.cfg (payload s), g.start < 4096 ∧ g.len < 4096 := by
  have pmax := pmax_le s
  obtain ⟨few, short⟩ := segments_bounds s.cfg (payload s)
  rw [payload_length] at few short
  exact ⟨by omega, fun g hg => by have := short g hg; omega⟩

/-- R145: SEGMENT of a legal payload succeeds and lists its segments. -/
theorem segmentRule_legal {s : State} (fit : s.plen.toNat ≤ s.cfg.pmax)
    (legal : ∀ b ∈ payload s, byteOk s.cfg b = true) :
    ∃ t, segmentRule s = .success t ∧ segmentList t = segments s.cfg (payload s) ∧
      { t with segtab := s.segtab, segFree := s.segFree, nseg := s.nseg } = { s with stage := .segmented } := by
  have noBad : (payload s).findIdx? (fun b => !byteOk s.cfg b) = none := by
    rw [List.findIdx?_eq_none_iff]
    exact fun b hb => by rw [legal b hb, Bool.not_true]
  obtain ⟨few, short⟩ := segments_fitEntries s fit
  have success : ∃ t, segmentRule s = .success t ∧ segmentList t = segments s.cfg (payload s) := by
    refine ⟨_, by simp only [segmentRule, if_neg (not_lt.mpr fit), noBad]; rfl, ?_⟩
    exact segmentList_setSegEntries few short rfl fun _ => rfl
  obtain ⟨t, ends, list⟩ := success
  obtain ⟨t', ends', frame⟩ | ⟨f, t', ends', -⟩ := segmentRule_cases s
  · cases ends.symm.trans ends'
    exact ⟨t, ends, list, frame⟩
  · cases ends.symm.trans ends'

/-! ## BUILD -/

theorem pbufBytes_eq_payload {s : State} {start n : Nat} (inside : start + n ≤ s.plen.toNat) :
    pbufBytes s start n = ((payload s).drop start).take n := by
  refine List.ext_getElem (by simp [pbufBytes, payload]; omega) fun i _ _ => ?_
  simp [pbufBytes, payload]

/-- R163: the payload's bits, read through SEGTAB and PBUF. -/
theorem payloadBits_eq_payloadStream {s : State} (list : segmentList s = segments s.cfg (payload s)) (v : Nat) :
    payloadBits s v = payloadStream s.cfg v (payload s) := by
  obtain ⟨-, short⟩ := segments_bounds s.cfg (payload s)
  rw [payload_length] at short
  rw [payloadBits, payloadStream, list, List.flatMap_def, List.flatMap_def]
  exact congrArg List.flatten (List.map_congr_left fun g hg => by rw [pbufBytes_eq_payload (short g hg)])

/-- R170: BUILD succeeds at the version the search finds. -/
theorem buildRule_fits {s : State} {cand : List Nat} {v : Nat} (level : levelSupported s.cfg (configEcl s) = true)
    (tried : candidates s (configEcl s) = .ok cand)
    (found : cand.find? (fun u => fits s.cfg (segmentList s) u (configEcl s)) = some v) :
    buildRule s = .success (buildSelected s v (configEcl s)) := by
  simp [buildRule, level, tried, found]

/-- The selection of BUILD (R166), with the configuration it is looked up in, and ERROR. -/
structure Selection where
  params : Params
  error : Bool
  version : BitVec 5
  level : Ecl

/-- The selection of a state. -/
def selectionOf (s : State) : Selection := ⟨s.params, s.error, s.viSel, s.eclSel⟩

theorem selectedGroups_of_selection {s : State} {p : Params} {error : Bool} {v : BitVec 5} {l : Ecl}
    (selected : selectionOf s = ⟨p, error, v, l⟩) : selectedGroups s = groupsOf p.config v.toNat l :=
  (congrArg (fun x : Selection => groupsOf x.params.config x.version.toNat x.level) selected :)

theorem selectionOf_buildSelected (s : State) (v : Nat) (l : Ecl) :
    selectionOf (buildSelected s v l) = ⟨s.params, s.error, BitVec.ofNat 5 v, l⟩ := by
  simp [selectionOf, buildSelected]

theorem cwBytes_buildSelected (s : State) (v : Nat) (l : Ecl) :
    cwBytes (buildSelected s v l) 0 (dcwOf s.cfg v l) = bytesOfBits (dcwOf s.cfg v l) (stream s v l) :=
  cwBytes_of_setCwBytes (s := s) rfl rfl (bytesOfBits_length _ _)

/-! ## RSENC -/

/-- R200: RSENC leaves the interleaved codewords of the selected CAP entry. -/
theorem rsencRule_codewords (s : State) : ∃ t, rsencRule s = .success t ∧ t.stage = .coded ∧
    selectionOf t = selectionOf s ∧ cwBytes t 0 (totalOf (selectedGroups s)) =
      interleave (codeBlocks s.cfg (blockShapes (selectedGroups s)) (cwBytes s 0 (dataOf (selectedGroups s)))) := by
  obtain ⟨groups, -⟩ := groupsOf_bounds s.params s.viSel.toNat s.eclSel
  refine ⟨_, rfl, rfl, by simp [selectionOf], ?_⟩
  refine cwBytes_of_setCwBytes (s := s) rfl rfl (interleave_length s.cfg (fun g hg => ?_) (cwBytes_length _ _ _))
  obtain ⟨-, -, parity, -⟩ := groups g hg
  exact parity.le

/-! ## The three stages of an encodable payload -/

section
variable {s : State} {cand : List Nat} {v : Nat} {gs : List Group} (fit : s.plen.toNat ≤ s.cfg.pmax)
  (legal : ∀ b ∈ payload s, byteOk s.cfg b = true) (level : levelSupported s.cfg (configEcl s) = true)
  (tried : candidates s (configEcl s) = .ok cand)
  (found : cand.find? (fun u => fits s.cfg (segments s.cfg (payload s)) u (configEcl s)) = some v)
  (cap : capOf s.cfg v (configEcl s) = some gs)

include tried found in
/-- The search finds a version of the configuration, which VI_SEL holds. -/
theorem found_version : v < nv s.cfg ∧ (BitVec.ofNat 5 v).toNat = v := by
  have known := candidates_versions tried v (List.mem_of_find?_eq_some found)
  have few := nv_le s
  refine ⟨known, ?_⟩
  rw [BitVec.toNat_ofNat]
  omega

include fit legal level tried found cap

/-- SEGMENT and BUILD of an encodable payload leave the selection and the payload's data codewords. -/
theorem builtSymbol : ∃ t, andThen (segmentRule s) buildStage = .success t ∧ t.stage = .built ∧
    selectionOf t = ⟨s.params, s.error, BitVec.ofNat 5 v, configEcl s⟩ ∧
    cwBytes t 0 (dataOf gs) =
      bytesOfBits (dataOf gs) (padStream s.cfg (8 * dataOf gs) (payloadStream s.cfg v (payload s))) := by
  obtain ⟨segmented, segmentedEnds, list, frame⟩ := segmentRule_legal fit legal
  have cfg : segmented.cfg = s.cfg := (congrArg State.cfg frame :)
  have ecl : configEcl segmented = configEcl s := (congrArg configEcl frame :)
  have bytes : payload segmented = payload s := (congrArg payload frame :)
  have stage : segmented.stage = .segmented := (congrArg State.stage frame :)
  have triedHere : candidates segmented (configEcl s) = .ok cand :=
    (congrArg (candidates · (configEcl s)) frame :).trans tried
  have builtEnds := buildRule_fits (s := segmented) (v := v) (by rwa [cfg, ecl]) (by rwa [ecl])
    (by rwa [cfg, list, ecl])
  rw [ecl] at builtEnds
  have codewords := cwBytes_buildSelected segmented v (configEcl s)
  rw [stream, payloadBits_eq_payloadStream (by rw [list, cfg, bytes]), capBitsOf, dcwOf, cfg, bytes, groupsOf, cap,
    Option.getD_some] at codewords
  refine ⟨_, ?_, rfl, ?_, codewords⟩
  · rw [segmentedEnds, andThen, buildStage, requireStage_at stage, builtEnds]
  · rw [selectionOf_buildSelected]
    exact (congrArg (fun u : State => Selection.mk u.params u.error (BitVec.ofNat 5 v) (configEcl s)) frame :)

/-- After RSENC, PLACE will put the payload's stream into the matrix. -/
theorem codedSymbol : ∃ t, andThen (andThen (segmentRule s) buildStage) rsencStage = .success t ∧ t.stage = .coded ∧
    selectionOf t = ⟨s.params, s.error, BitVec.ofNat 5 v, configEcl s⟩ ∧
    placedBits t =
      placedStream s.cfg v gs (padStream s.cfg (8 * dataOf gs) (payloadStream s.cfg v (payload s))) := by
  obtain ⟨built, builtEnds, stage, selected, data⟩ := builtSymbol fit legal level tried found cap
  obtain ⟨coded, codedEnds, codedStage, same, codewords⟩ := rsencRule_codewords built
  have selectedHere := same.trans selected
  have groups : groupsOf s.cfg (BitVec.ofNat 5 v).toNat (configEcl s) = gs := by
    rw [(found_version tried found).2, groupsOf, cap, Option.getD_some]
  have cfg : built.cfg = s.cfg := (congrArg (fun x : Selection => x.params.config) selected :)
  refine ⟨coded, ?_, codedStage, selectedHere, ?_⟩
  · rw [builtEnds, andThen, rsencStage, requireStage_at stage, codedEnds]
  · rw [selectedGroups_of_selection selected, groups, data, cfg] at codewords
    have remainder : zeros (coded.cfg.rem.getD coded.viSel.toNat 0) =
        zeros (s.cfg.rem.getD (BitVec.ofNat 5 v).toNat 0) :=
      (congrArg (fun x : Selection => zeros (x.params.config.rem.getD x.version.toNat 0)) selectedHere :)
    rw [placedBits, selectedGroups_of_selection selectedHere, groups, codewords, remainder,
      (found_version tried found).2]
    rfl

end

end Sys2Proof.Laws

/-! STAMP, PLACE, MASK and FORMAT of any state after RSENC: the colour of every Data cell, and that every cell of the
matrix becomes Dark or Light (44_matrix.md R240 to R253, 45_mask.md R280, 46_format.md R303). -/

namespace Sys2Proof.Laws

open Sys2Proof.Machine

/-! ## Colours of a list of cells -/

section
variable {s : State} {ps : List (Nat × Nat)} {ks : List Colour} (narrow : ∀ p ∈ ps, p.2 < 256) (nodup : ps.Nodup)
  (enough : ps.length ≤ ks.length)
include narrow nodup enough

/-- Dark and Light colours make the listed cells Dark or Light, and leave the others so. -/
theorem darkOrLight_setColours (colours : ∀ k ∈ ks, darkOrLight k) {r c : Nat} (hc : c < 256)
    (h : (r, c) ∈ ps ∨ darkOrLight (cellAt s r c).colour) : darkOrLight (cellAt (setColours s ps ks) r c).colour := by
  by_cases listed : (r, c) ∈ ps
  · obtain ⟨k, hk, coloured⟩ := exists_colour_of_mem (s := s) narrow nodup enough listed
    rw [coloured]
    exact colours k hk
  · rw [cellAt_setColours_notMem s ps ks hc narrow listed]
    exact h.resolve_left listed

theorem cellAt_setColours_getElem? {i r c : Nat} (listed : ps[i]? = some (r, c)) (d : Colour) :
    cellAt (setColours s ps ks) r c = { cellAt s r c with colour := ks.getD i d } := by
  obtain ⟨hi, cell⟩ := List.getElem?_eq_some_iff.mp listed
  have hk : i < ks.length := lt_of_lt_of_le hi enough
  have coloured := cellAt_setColours_getElem s ps ks narrow nodup hi hk
  rw [cell] at coloured
  rw [coloured, List.getD_eq_getElem?_getD, List.getElem?_eq_getElem hk, Option.getD_some]

end

theorem darkOrLight_maskCell {m : MaskFn} {r c : Nat} {x : Cell} (h : darkOrLight x.colour) :
    darkOrLight (maskCell m r c x).colour := by
  rw [maskCell]
  split
  · exact darkOrLight_flipColour h
  · exact h

/-- R271: a masked Data cell is Dark exactly when its bit differs from the mask. -/
theorem maskCell_data_dark (m : MaskFn) (r c : Nat) (b : Bool) :
    (maskCell m r c ⟨.data, colourOfBit b⟩).colour = .dark ↔ b ≠ maskAt m r c := by
  rw [maskCell]
  cases hm : maskAt m r c <;> cases b <;> simp [colourOfBit, flipColour]

/-! ## The stages -/

/-- A state in which the matrix of a selection is drawn, no error recorded. -/
structure Drawing (p : Params) (v : Nat) (l : Ecl) (s : State) : Prop where
  params : s.params = p
  error : s.error = false
  version : s.viSel.toNat = v
  level : s.eclSel = l
  rows : s.mdimH = heightOf p.config v
  columns : s.mdimW = widthOf p.config v

section
variable {p : Params} {v : Nat} {l : Ecl} {s : State}

/-- R240. -/
theorem stampRule_drawing (ready : s.error = false) : ∃ t, stampRule s = .success t ∧ t.stage = .stamped ∧
    Drawing s.params s.viSel.toNat s.eclSel t ∧ placedBits t = placedBits s ∧
    ∀ r c, r < heightOf s.cfg s.viSel.toNat → c < widthOf s.cfg s.viSel.toNat →
      cellAt t r c = cellOfLayout (geomCell s.cfg s.viSel.toNat r c) := by
  refine ⟨_, rfl, rfl, ⟨rfl, ready, rfl, rfl, rfl, rfl⟩, rfl, fun r c hr hc => ?_⟩
  rw [cellAt_stampedCells s.params (lt_of_lt_of_le hc (sizes_bounded s.params _).2) rfl, if_pos ⟨hr, hc⟩]

theorem placementOrder_narrow (version : v < nv p.config) : ∀ q ∈ placementOrder p.config v, q.2 < 256 := by
  rintro ⟨r, c⟩ listed
  obtain ⟨-, hc, -⟩ := (mem_placementOrder p version).mp listed
  exact lt_of_lt_of_le hc (sizes_bounded p v).2

theorem formatPositions_narrow (version : v < nv p.config) :
    ∀ q ∈ fmtPosA p.config v ++ fmtPosB p.config v, q.2 < 256 := by
  rintro ⟨r, c⟩ listed
  obtain ⟨-, -, -, cells⟩ := formatCells_spec p v version
  obtain ⟨-, hc, -⟩ := (cells r c).mp listed
  exact lt_of_lt_of_le hc (sizes_bounded p v).2

/-- R250: after PLACE cell i of the placement order shows bit i, and no cell is left Unset. -/
theorem placeRule_drawing (drawing : Drawing p v l s) (version : v < nv p.config)
    (capacity : freeCells p.config v = 8 * totalOf (groupsOf p.config v l) + p.config.rem.getD v 0)
    (stamped : ∀ r c, r < heightOf p.config v → c < widthOf p.config v →
      cellAt s r c = cellOfLayout (geomCell p.config v r c)) :
    ∃ t, placeRule s = .success t ∧ t.stage = .placed ∧ Drawing p v l t ∧
      (∀ i r c, (placementOrder p.config v)[i]? = some (r, c) →
        cellAt t r c = ⟨.data, colourOfBit ((placedBits s).getD i false)⟩) ∧
      ∀ r c, r < heightOf p.config v → c < widthOf p.config v → geomCell p.config v r c ≠ .format →
        darkOrLight (cellAt t r c).colour := by
  obtain ⟨rfl, ready, rfl, rfl, rows, columns⟩ := drawing
  have narrow := placementOrder_narrow version
  have enough : (placementOrder s.cfg s.viSel.toNat).length ≤ ((placedBits s).map colourOfBit).length := by
    rw [placementOrder_length s.params version, capacity, List.length_map, placedBits_length]
    rfl
  refine ⟨_, if_neg (not_not_intro capacity), rfl,
    ⟨by simp, by simpa using ready, by simp, by simp, by simpa using rows, by simpa using columns⟩,
    fun i r c listed => ?_, fun r c hr hc notFormat => ?_⟩
  · obtain ⟨hr, hc, data⟩ := (mem_placementOrder s.params version).mp (List.mem_of_getElem? listed)
    refine (cellAt_setColours_getElem? narrow (placementOrder_nodup _ _) enough listed (colourOfBit false)).trans ?_
    rw [stamped r c hr hc, data, List.getD_map]
    rfl
  · refine darkOrLight_setColours (s := s) narrow (placementOrder_nodup _ _) enough ?_
      (lt_of_lt_of_le hc (sizes_bounded s.params _).2) ?_
    · intro k hk
      obtain ⟨b, -, rfl⟩ := List.mem_map.mp hk
      exact darkOrLight_colourOfBit b
    · rw [mem_placementOrder s.params version, stamped r c hr hc]
      cases layout : geomCell s.cfg s.viSel.toNat r c with
      | data => exact .inl ⟨hr, hc, rfl⟩
      | format => exact absurd layout notFormat
      | dark => exact .inr (.inl rfl)
      | light => exact .inr (.inr rfl)

/-- R280: MASK applies one of the masks, which RES_MASK names. -/
theorem maskRule_drawing (drawing : Drawing p v l s) : ∃ t, maskRule s = .success t ∧ t.stage = .masked ∧
    Drawing p v l t ∧ t.resMask.toNat < nm p.config ∧ ∀ r c, c < 256 →
      cellAt t r c = maskCell (p.config.masks.getD t.resMask.toNat .blocks) r c (cellAt s r c) := by
  obtain ⟨rfl, ready, rfl, rfl, rows, columns⟩ := drawing
  have least := leastIndex_penalties_lt s
  have few : nm s.cfg ≤ 8 := (nm_bounded s.params).2
  have index : (BitVec.ofNat 3 (leastIndex (penalties s))).toNat = leastIndex (penalties s) := by
    rw [BitVec.toNat_ofNat]
    omega
  refine ⟨_, rfl, rfl, ⟨rfl, ready, rfl, rfl, rows, columns⟩, lt_of_eq_of_lt index least, fun r c hc => ?_⟩
  dsimp only
  rw [index]
  exact cellAt_maskedCells hc rfl

/-- R302: FORMAT makes the Format cells Dark or Light and leaves the others. -/
theorem formatRule_drawing (drawing : Drawing p v l s) (version : v < nv p.config) :
    ∃ t, formatRule s = .success t ∧ t.stage = .formatted ∧ Drawing p v l t ∧ t.resMask = s.resMask ∧
      (∀ r c, c < 256 → geomCell p.config v r c ≠ .format → cellAt t r c = cellAt s r c) ∧
      ∀ r c, r < heightOf p.config v → c < widthOf p.config v → geomCell p.config v r c = .format →
        darkOrLight (cellAt t r c).colour := by
  obtain ⟨rfl, ready, rfl, rfl, rows, columns⟩ := drawing
  obtain ⟨lengthA, lengthB, nodup, cells⟩ := formatCells_spec s.params s.viSel.toNat version
  obtain ⟨nodupA, nodupB, -⟩ := List.nodup_append.mp nodup
  have narrow := formatPositions_narrow version
  have narrowA := fun q hq => narrow q (List.mem_append_left _ hq)
  have narrowB := fun q hq => narrow q (List.mem_append_right _ hq)
  refine ⟨_, rfl, rfl, ⟨by simp, by simpa using ready, by simp, by simp, by simpa using rows, by simpa using columns⟩,
    by simp, fun r c hc notFormat => ?_, fun r c hr hc format => ?_⟩
  · have notListed := mt (cells r c).mp fun ⟨_, _, format⟩ => notFormat format
    rw [List.mem_append, not_or] at notListed
    exact (cellAt_setColours_notMem _ _ _ hc narrowB notListed.2).trans
      (cellAt_setColours_notMem s _ _ hc narrowA notListed.1)
  · have hc' := lt_of_lt_of_le hc (sizes_bounded s.params s.viSel.toNat).2
    refine darkOrLight_setColours narrowB nodupB (by rw [fmtColours_length, lengthB])
      (fun _ => darkOrLight_of_mem_fmtColours) hc' ?_
    obtain inA | inB := List.mem_append.mp ((cells r c).mpr ⟨hr, hc, format⟩)
    · exact .inr (darkOrLight_setColours narrowA nodupA (by rw [fmtColours_length, lengthA])
        (fun _ => darkOrLight_of_mem_fmtColours) hc' (.inl inA))
    · exact .inl inB

end

/-! ## The symbol -/

/-- R134, R253: the stages from STAMP on draw the symbol of the stream that RSENC left. -/
theorem drawnSymbol {s : State} (ready : s.error = false) (stage : s.stage = .coded)
    (version : s.viSel.toNat < nv s.cfg)
    (capacity : freeCells s.cfg s.viSel.toNat =
      8 * totalOf (groupsOf s.cfg s.viSel.toNat s.eclSel) + s.cfg.rem.getD s.viSel.toNat 0) :
    ∃ t, andThen (andThen (andThen (stampStage s) placeStage) maskStage) formatStage = .success t ∧
      t.stage = .formatted ∧ Drawing s.params s.viSel.toNat s.eclSel t ∧ t.resMask.toNat < nm s.cfg ∧
      (∀ i r c, (placementOrder s.cfg s.viSel.toNat)[i]? = some (r, c) → ((cellAt t r c).colour = .dark ↔
        (placedBits s).getD i false ≠ maskAt (s.cfg.masks.getD t.resMask.toNat .blocks) r c)) ∧
      ∀ r c, insideMatrix t r c → darkOrLight (cellAt t r c).colour := by
  obtain ⟨stamped, stampedEnds, atStamped, drawing, bits, layout⟩ := stampRule_drawing ready
  obtain ⟨placed, placedEnds, atPlaced, drawing, data, visible⟩ := placeRule_drawing drawing version capacity layout
  obtain ⟨masked, maskedEnds, atMasked, drawing, index, flipped⟩ := maskRule_drawing drawing
  obtain ⟨drawn, drawnEnds, atFormatted, drawing, sameMask, kept, format⟩ := formatRule_drawing drawing version
  have narrow : ∀ c, c < widthOf s.cfg s.viSel.toNat → c < 256 := fun c hc =>
    lt_of_lt_of_le hc (sizes_bounded s.params _).2
  refine ⟨drawn, ?_, atFormatted, drawing, sameMask ▸ index, fun i r c listed => ?_, fun r c inside => ?_⟩
  · rw [stampStage, requireStage_at stage, stampedEnds, andThen, placeStage, requireStage_at atStamped, placedEnds,
      andThen, maskStage, requireStage_at atPlaced, maskedEnds, andThen, formatStage, requireStage_at atMasked, drawnEnds]
  · obtain ⟨-, hc, isData⟩ := (mem_placementOrder s.params version).mp (List.mem_of_getElem? listed)
    rw [kept r c (narrow c hc) (by rw [isData]; decide), flipped r c (narrow c hc), data i r c listed, bits, sameMask]
    exact maskCell_data_dark _ r c _
  · rw [insideMatrix, drawing.rows, drawing.columns] at inside
    obtain ⟨hr, hc⟩ := inside
    by_cases isFormat : geomCell s.cfg s.viSel.toNat r c = .format
    · exact format r c hr hc isFormat
    · rw [kept r c (narrow c hc) isFormat, flipped r c (narrow c hc)]
      exact darkOrLight_maskCell (visible r c hr hc isFormat)

/-- Settles O15: `codedSymbol` up to RSENC, `drawnSymbol` from STAMP on. -/
theorem encodeMakesTheSymbol : Obligations.EncodeMakesTheSymbol := by
  intro s cand v gs l segs ready fit legal level tried found cap capacity
  obtain ⟨coded, codedEnds, stage, selected, stream⟩ := codedSymbol fit legal level tried found cap
  obtain ⟨known, version⟩ := found_version tried found
  have params : coded.params = s.params := (congrArg Selection.params selected :)
  have cfg : coded.cfg = s.cfg := congrArg Params.config params
  have viSel : coded.viSel.toNat = v := (congrArg (·.version.toNat) selected :).trans version
  have eclSel : coded.eclSel = l := (congrArg Selection.level selected :)
  have groups : groupsOf s.cfg v l = gs := by rw [groupsOf, cap, Option.getD_some]
  obtain ⟨t, ends, formatted, drawing, index, data, visible⟩ :=
    drawnSymbol ((congrArg Selection.error selected :).trans ready) stage (by rwa [cfg, viSel])
      (by rwa [cfg, viSel, eclSel, groups])
  rw [cfg] at index
  rw [cfg, viSel, stream] at data
  rw [params, viSel, eclSel] at drawing
  have encoded : runRule encodeRule s = succeed t := by
    rw [runRule_ready ready, encodeRule, segmentRule_restart, codedEnds, andThen, ends, finish]
  exact ⟨succeed t, congrArg Host.Outcome.next encoded, drawing.error, rfl, rfl, formatted, drawing.version,
    drawing.level, drawing.rows, drawing.columns, index, data, visible⟩

end Sys2Proof.Laws

/-! The Mode Selector (41_mode_selector.md R140 to R146): the classes of the bytes, the partition of a payload into
maximal runs, and SEGMENT's success and its two errors. -/

namespace Sys2Proof.Laws

open Sys2Proof.Machine

/-! ## The partition into maximal runs (R144) -/

/-- The byte after a segment is of another class: the segment is maximal. -/
theorem classOf_next_ne {c : Config} {p : List Byte} {i : Nat} {g : Segment} {gs : List Segment}
    (parts : isSegmentation c p i (g :: gs)) (inside : i + g.len < p.length) :
    classOf c (p.getD (i + g.len) 0) ≠ g.mode := by
  obtain ⟨-, -, -, -, change, rest⟩ := parts
  cases gs with
  | nil => exact absurd rest (Nat.ne_of_lt inside)
  | cons h hs =>
    obtain ⟨-, nonempty, -, run, -⟩ := rest
    rw [run _ (le_refl _) (by omega)]
    exact change h rfl

/-- The first segments of two partitions from one index have the class of the byte there. -/
theorem mode_eq_of_isSegmentation {c : Config} {p : List Byte} {i : Nat} {g h : Segment} {gs hs : List Segment}
    (parts : isSegmentation c p i (g :: gs)) (other : isSegmentation c p i (h :: hs)) : g.mode = h.mode := by
  obtain ⟨-, nonempty, -, run, -⟩ := parts
  obtain ⟨-, nonempty', -, run', -⟩ := other
  exact (run i (le_refl _) (by omega)).symm.trans (run' i (le_refl _) (by omega))

/-- Of two partitions from one index, the first segment of the one is no longer than that of the other. -/
theorem len_le_of_isSegmentation {c : Config} {p : List Byte} {i : Nat} {g h : Segment} {gs hs : List Segment}
    (parts : isSegmentation c p i (g :: gs)) (other : isSegmentation c p i (h :: hs)) : g.len ≤ h.len := by
  have mode := mode_eq_of_isSegmentation parts other
  obtain ⟨-, -, fit, run, -⟩ := parts
  by_contra longer
  exact classOf_next_ne other (by omega) (mode ▸ run (i + h.len) (by omega) (by omega))

theorem isSegmentation_unique {c : Config} {p : List Byte} {i : Nat} {gs hs : List Segment}
    (parts : isSegmentation c p i gs) (other : isSegmentation c p i hs) : gs = hs := by
  induction gs generalizing i hs with
  | nil =>
    cases hs with
    | nil => rfl
    | cons h hs =>
      obtain ⟨-, nonempty, fit, -⟩ := other
      have atEnd : i = p.length := parts
      omega
  | cons g gs ih =>
    cases hs with
    | nil =>
      obtain ⟨-, nonempty, fit, -⟩ := parts
      have atEnd : i = p.length := other
      omega
    | cons h hs =>
      have mode := mode_eq_of_isSegmentation parts other
      have len := le_antisymm (len_le_of_isSegmentation parts other) (len_le_of_isSegmentation other parts)
      obtain ⟨start, -, -, -, -, rest⟩ := parts
      obtain ⟨start', -, -, -, -, rest'⟩ := other
      have same : g = h := by
        cases g
        cases h
        rw [Segment.mk.injEq]
        exact ⟨mode, start.trans start'.symm, len⟩
      rw [same, ih rest (len ▸ rest')]

theorem segmentsFrom_head (c : Config) (bs : List Byte) (cur : Segment) (i : Nat) :
    ∃ g gs, segmentsFrom c cur i bs = g :: gs ∧ g.mode = cur.mode := by
  induction bs generalizing cur i with
  | nil => exact ⟨cur, [], rfl, rfl⟩
  | cons b bs ih =>
    rw [segmentsFrom]
    split
    · exact ih _ _
    · exact ⟨cur, _, rfl, rfl⟩

/-- The run read so far, then the rest of the payload. -/
theorem isSegmentation_segmentsFrom {c : Config} {p bs : List Byte} {cur : Segment} {i : Nat}
    (rest : p.drop i = bs) (inside : i ≤ p.length) (nonempty : 1 ≤ cur.len) (upTo : cur.start + cur.len = i)
    (run : ∀ j, cur.start ≤ j → j < i → classOf c (p.getD j 0) = cur.mode) :
    isSegmentation c p cur.start (segmentsFrom c cur i bs) := by
  induction bs generalizing cur i with
  | nil =>
    have atEnd : p.length ≤ i := List.drop_eq_nil_iff.mp rest
    exact ⟨rfl, nonempty, by omega, upTo ▸ run, by simp, show cur.start + cur.len = p.length by omega⟩
  | cons b bs ih =>
    have here : p[i]? = some b := by rw [← List.head?_drop, rest, List.head?_cons]
    have byte : p.getD i 0 = b := by rw [List.getD_eq_getElem?_getD, here, Option.getD_some]
    have after : p.drop (i + 1) = bs := by rw [← List.tail_drop, rest, List.tail_cons]
    have before : i + 1 ≤ p.length := (List.getElem?_eq_some_iff.mp here).1
    rw [segmentsFrom]
    split
    · next joins =>
      refine ih after before (cur := { cur with len := cur.len + 1 }) (by dsimp only; omega) (by dsimp only; omega)
        fun j from' below => ?_
      obtain rfl | earlier : j = i ∨ j < i := by omega
      · rw [byte, joins]
      · exact run j from' earlier
    · next starts =>
      obtain ⟨g, gs, opened, mode⟩ := segmentsFrom_head c bs ⟨classOf c b, i, 1⟩ (i + 1)
      have tail := ih after before (cur := ⟨classOf c b, i, 1⟩) (le_refl _) rfl fun j from' below => by
        rw [show j = i by dsimp only at from'; omega, byte]
      refine ⟨rfl, nonempty, by omega, upTo ▸ run, fun h headed => ?_, upTo ▸ tail⟩
      rw [opened, List.head?_cons, Option.mem_some_iff] at headed
      rw [← headed, mode]
      exact Ne.symm starts

theorem isSegmentation_segments (c : Config) (p : List Byte) : isSegmentation c p 0 (segments c p) := by
  cases p with
  | nil => rfl
  | cons b bs =>
    refine isSegmentation_segmentsFrom (cur := ⟨classOf c b, 0, 1⟩) rfl (by simp) (le_refl _) rfl fun j _ below => ?_
    rw [Nat.lt_one_iff.mp below, List.getD_cons_zero]

/-- Settles O17: the segment list is a partition into maximal runs (`isSegmentation_segments`), and there is one only
(`isSegmentation_unique`). -/
theorem segmentsAreTheMaximalRuns : Obligations.SegmentsAreTheMaximalRuns := fun c p _ =>
  ⟨fun parts => isSegmentation_unique parts (isSegmentation_segments c p),
    fun same => same ▸ isSegmentation_segments c p⟩

/-! ## SEGMENT of a legal payload (R145) -/

theorem exec_segment_ready {s : State} (ready : s.error = false) :
    exec .segment s = .next (finish (segmentRule s)) :=
  congrArg Host.Outcome.next (runRule_ready ready)

/-- NSEG and SEGTAB after SEGMENT, from NSEG on as before. -/
theorem segmentRule_entries {s t : State} (ends : segmentRule s = .success t) :
    t.nseg = BitVec.ofNat 16 (segments s.cfg (payload s)).length ∧
    ∀ j, segEntry t j = ((segments s.cfg (payload s))[j]?.map entryOfSegment).getD (segEntry s j) := by
  simp only [segmentRule] at ends
  split at ends
  · cases ends
  · split at ends <;> cases ends
    refine ⟨rfl, fun j => (segEntry_setSegEntries s 0 _ j).trans ?_⟩
    by_cases listed : j < (segments s.cfg (payload s)).length <;> simp [listed]

/-- R45, R140: the SEGTAB word of a segment that fits its fields. -/
theorem segWord_entryOfSegment {g : Segment} (start : g.start < 4096) (len : g.len < 4096) :
    segWord (entryOfSegment g) = BitVec.ofNat 32 (modeCode g.mode + g.start * 2 ^ 8 + g.len * 2 ^ 20) := by
  have code : modeCode g.mode < 4 := by cases g.mode <;> decide
  simp only [segWord, entryOfSegment, field, BitVec.toNat_ofNat, Nat.mod_mod, Nat.pow_zero, Nat.mul_one]
  rw [Nat.mod_eq_of_lt code, Nat.mod_eq_of_lt start, Nat.mod_eq_of_lt len]

/-- R46: a payload byte is the low byte of its PBUF word. -/
theorem payload_eq_words (s : State) :
    payload s = (List.range s.plen.toNat).map fun i => (wordValue s (.pbuf i)).setWidth 8 :=
  List.map_congr_left fun i _ => by
    rw [Nat.zero_add, wordValue, BitVec.setWidth_setWidth_of_le _ (by decide), BitVec.setWidth_eq]

/-- Settles O18: NSEG and SEGTAB by `segmentRule_entries`, the segments being the payload's maximal runs and fitting the
fields, and the rest by the frame of `segmentRule_legal`. -/
theorem segmentWritesTheSegmentList : Obligations.SegmentWritesTheSegmentList := by
  refine fun s => ⟨payload_eq_words s, fun ready fit legal => ?_⟩
  obtain ⟨t, ends, -, frame⟩ := segmentRule_legal fit legal
  obtain ⟨nseg, entries⟩ := segmentRule_entries ends
  obtain ⟨few, short⟩ := segments_fitEntries s fit
  have executed : exec .segment s = .next (succeed t) := by rw [exec_segment_ready ready, ends, finish]
  refine ⟨succeed t, segments s.cfg (payload s), executed, isSegmentation_segments _ _, ?_, fun j g listed => ?_,
    fun j past => ?_, congrArg completed frame, encodedAs_of_operandFree .segment (by decide)⟩
  · show t.nseg.setWidth 32 = _
    rw [nseg, BitVec.setWidth_ofNat_of_le_of_lt (by decide) few]
  · obtain ⟨start, len⟩ := short g (List.mem_of_getElem? listed)
    have entry : segEntry t j = entryOfSegment g := by rw [entries, listed, Option.map_some, Option.getD_some]
    show segWord (segEntry t j) = _
    rw [entry, segWord_entryOfSegment start len]
    cases g.mode <;> rfl
  · exact (entries j).trans (by rw [List.getElem?_eq_none past, Option.map_none, Option.getD_none])

/-! ## SEGMENT's errors (R146) -/

theorem segmentRule_tooLong {s : State} (long : s.cfg.pmax < s.plen.toNat) :
    segmentRule s = .failed ⟨.invalidConfiguration, opcode .segment, 0, 1⟩
      (freeSegmentOutputs { s with stage := .none }) := by
  rw [segmentRule, if_pos long]

/-- The first unsupported byte of the payload ends SEGMENT. -/
theorem segmentRule_unsupported {s : State} (fit : s.plen.toNat ≤ s.cfg.pmax) {i : Nat} {b : Byte}
    (here : (payload s)[i]? = some b) (bad : byteOk s.cfg b = false)
    (supported : ∀ j a, j < i → (payload s)[j]? = some a → byteOk s.cfg a = true) :
    segmentRule s = .failed ⟨.unsupportedCharacter, opcode .segment, i, b.toNat⟩
      (freeSegmentOutputs { s with stage := .none }) := by
  have found : (payload s).findIdx? (fun b => !byteOk s.cfg b) = some i := by
    obtain ⟨inside, byte⟩ := List.getElem?_eq_some_iff.mp here
    refine List.findIdx?_eq_some_iff_getElem.mpr ⟨inside, by rw [byte, bad, Bool.not_false], fun j below => ?_⟩
    rw [supported j _ below (List.getElem?_eq_getElem (by omega)), Bool.not_true]
    exact Bool.false_ne_true
  simp only [segmentRule, if_neg (not_lt.mpr fit), found]
  rw [List.getD_eq_getElem?_getD, here, Option.getD_some]

/-- Both errors end alike: the record, and NSEG and SEGTAB at free values. -/
theorem exec_segment_failed {s : State} {f : Failure} (ready : s.error = false)
    (encoding : isEncodingError f.kind = true) (opc : f.opc = 0x10)
    (ends : segmentRule s = .failed f (freeSegmentOutputs { s with stage := .none })) :
    ∃ t : State, exec .segment s = .next t ∧ encodingError f.kind 0x10 f.exp f.act t ∧
      { t with segtab := s.segtab, segFree := s.segFree, nseg := s.nseg }
        = { interfaceError f.kind 0x10 f.exp f.act s with stage := .none, draws := t.draws } := by
  have still : (freeSegmentOutputs { s with stage := .none }).error = false := ready
  have executed := exec_segment_ready ready
  rw [ends, finish, raiseError, if_neg (by simp [still]), if_pos encoding, opc] at executed
  exact ⟨_, executed, ⟨rfl, rfl, rfl, rfl, rfl, rfl, rfl, rfl⟩, rfl⟩

theorem byteOk_iff {c : Config} {b : Byte} : byteOk c b = true ↔ b ∉ c.byteNotOk := by
  rw [byteOk, Bool.not_eq_true', ← Bool.not_eq_true, List.contains_iff_mem]

/-- Settles O19: each error by its rule, `segmentRule_tooLong` and `segmentRule_unsupported`. -/
theorem segmentRejects : Obligations.SegmentRejects := fun _ ready =>
  ⟨fun long => exec_segment_failed ready rfl rfl (segmentRule_tooLong long),
    fun fit _ _ here bad supported =>
      exec_segment_failed ready rfl rfl (segmentRule_unsupported fit here bad supported),
    fun _ _ => byteOk_iff, fun _ => rfl⟩

/-! ## Byte classes of the reference table (R141, R142) -/

theorem refAlnum_nodup : (refAlnum.map Prod.fst).Nodup := by decide

/-- The reference table lists a byte once. -/
theorem alnumVal_eq_some_iff {c : Config} (table : c.alnum = refAlnum) {b : Byte} {v : Nat} :
    alnumVal c b = some v ↔ (b, v) ∈ refAlnum := by
  rw [alnumVal, table, Option.map_eq_some_iff]
  constructor
  · rintro ⟨⟨b', v'⟩, found, rfl⟩
    have same : b' = b := by simpa using List.find?_some found
    exact same ▸ List.mem_of_find?_eq_some found
  · intro listed
    obtain ⟨row, found⟩ : ∃ row, refAlnum.find? (fun row => row.1 == b) = some row :=
      Option.isSome_iff_exists.mp (List.find?_isSome.mpr ⟨_, listed, beq_self_eq_true b⟩)
    have same : row.1 = b := by simpa using List.find?_some found
    exact ⟨row, found, congrArg Prod.snd
      (List.inj_on_of_nodup_map refAlnum_nodup (List.mem_of_find?_eq_some found) listed same)⟩

/-- The nine characters beside digits and letters, as numbers, with their values. -/
def punctuation : List (Nat × Nat) :=
  [(0x20, 36), (0x24, 37), (0x25, 38), (0x2A, 39), (0x2B, 40), (0x2D, 41), (0x2E, 42), (0x2F, 43), (0x3A, 44)]

/-- A stretch of consecutive codes with consecutive values, as `refAlnum` lists the digits and the letters. -/
theorem mem_codes_iff {base value n : Nat} (fit : base + n ≤ 256) {b : Byte} {v : Nat} :
    (b, v) ∈ (List.range n).map (fun i => ((BitVec.ofNat 8 (base + i) : Byte), value + i)) ↔
      base ≤ b.toNat ∧ b.toNat < base + n ∧ v = b.toNat - base + value := by
  simp only [List.mem_map, List.mem_range, Prod.mk.injEq]
  constructor
  · rintro ⟨i, below, rfl, rfl⟩
    rw [BitVec.toNat_ofNat, Nat.mod_eq_of_lt (by omega)]
    omega
  · rintro ⟨low, high, rfl⟩
    exact ⟨b.toNat - base, by omega, BitVec.eq_of_toNat_eq (by rw [BitVec.toNat_ofNat]; omega), by omega⟩

theorem mem_refAlnum_iff {b : Byte} {v : Nat} : (b, v) ∈ refAlnum ↔
    (0x30 ≤ b.toNat ∧ b.toNat ≤ 0x39 ∧ v = b.toNat - 0x30) ∨
    (0x41 ≤ b.toNat ∧ b.toNat ≤ 0x5A ∧ v = b.toNat - 0x41 + 10) ∨ (b.toNat, v) ∈ punctuation := by
  have digits := mem_codes_iff (base := 0x30) (value := 0) (n := 10) (by decide) (b := b) (v := v)
  have letters := mem_codes_iff (base := 0x41) (value := 10) (n := 26) (by decide) (b := b) (v := v)
  simp only [Nat.zero_add] at digits
  rw [refAlnum, List.mem_append, List.mem_append, or_assoc, digits, letters]
  refine or_congr (by omega) (or_congr (by omega) ?_)
  simp [punctuation, BitVec.toNat_eq]

theorem isDigit_iff {b : Byte} : isDigit b = true ↔ 0x30 ≤ b.toNat ∧ b.toNat ≤ 0x39 := by
  rw [isDigit, Bool.and_eq_true, decide_eq_true_iff, decide_eq_true_iff]

theorem classOf_digit {c : Config} {b : Byte} (digit : 0x30 ≤ b.toNat ∧ b.toNat ≤ 0x39) : classOf c b = .numeric := by
  rw [classOf, if_pos (isDigit_iff.mpr digit)]

theorem classOf_alphanumeric {c : Config} {b : Byte} {v : Nat} (noDigit : ¬(0x30 ≤ b.toNat ∧ b.toNat ≤ 0x39))
    (value : alnumVal c b = some v) : classOf c b = .alphanumeric := by
  rw [classOf, if_neg (isDigit_iff.not.mpr noDigit), value, Option.isSome_some, if_pos rfl]

theorem classOf_byte {c : Config} {b : Byte} (noDigit : ¬(0x30 ≤ b.toNat ∧ b.toNat ≤ 0x39))
    (noValue : alnumVal c b = none) : classOf c b = .byte := by
  rw [classOf, if_neg (isDigit_iff.not.mpr noDigit), noValue, Option.isSome_none, if_neg Bool.false_ne_true]

/-- No punctuation character is a digit. -/
theorem noDigit_of_mem_punctuation {n v : Nat} (listed : (n, v) ∈ punctuation) : ¬(0x30 ≤ n ∧ n ≤ 0x39) :=
  (by decide : ∀ q ∈ punctuation, ¬(0x30 ≤ q.1 ∧ q.1 ≤ 0x39)) (n, v) listed

/-- Settles O16: each range is one of the three parts of the table (`mem_refAlnum_iff`). -/
theorem byteClassesOfTheReferenceTable : Obligations.ByteClassesOfTheReferenceTable := by
  refine ⟨rfl, fun c b table => ?_⟩
  have value : ∀ v, alnumVal c b = some v ↔ _ := fun v => (alnumVal_eq_some_iff table).trans mem_refAlnum_iff
  refine ⟨fun digit => ?_, fun letter => ?_, fun v listed => ?_, fun noDigit noLetter noPunctuation => ?_⟩
  · exact ⟨classOf_digit digit, (value _).mpr (.inl ⟨digit.1, digit.2, rfl⟩)⟩
  · have known := (value _).mpr (.inr (.inl ⟨letter.1, letter.2, rfl⟩))
    exact ⟨classOf_alphanumeric (by omega) known, known⟩
  · have known := (value v).mpr (.inr (.inr listed))
    exact ⟨classOf_alphanumeric (noDigit_of_mem_punctuation listed) known, known⟩
  · have noValue : alnumVal c b = none := by
      refine Option.eq_none_iff_forall_ne_some.mpr fun v known => ?_
      obtain ⟨low, high, -⟩ | ⟨low, high, -⟩ | listed := (value v).mp known
      · exact noDigit ⟨low, high⟩
      · exact noLetter ⟨low, high⟩
      · exact noPunctuation (List.mem_map_of_mem (f := Prod.fst) listed)
    exact ⟨classOf_byte noDigit noValue, noValue⟩

end Sys2Proof.Laws

/-! Packing and the stream (42_bitstream.md R161 to R165): SIZE_ORDER, the fields of the packed data and that they lose
nothing, the length of the payload's bits, and the stream padded to the capacity. -/

namespace Sys2Proof.Laws

open Sys2Proof.Machine

/-- Settles O20: SIZE_ORDER and VTAB are tables of the reference configuration. -/
theorem sizeOrderIsByModuleCount : Obligations.SizeOrderIsByModuleCount := by
  have listed : refSizeOrder.Perm (List.range 32) := by decide +kernel
  have rising : refSizeOrder.Pairwise fun u v =>
      heightOf refGeometry u * widthOf refGeometry u < heightOf refGeometry v * widthOf refGeometry v
        ∨ heightOf refGeometry u * widthOf refGeometry u = heightOf refGeometry v * widthOf refGeometry v ∧ u < v := by
    decide +kernel
  exact ⟨listed, rising⟩

/-! ## Fields of a bit string (00_scope.md R11) -/

section
variable {n u v : Nat} {rest : List Bool}

theorem valueOf_take_field (fit : v < 2 ^ n) : valueOf ((bitsOf n v ++ rest).take n) = v := by
  rw [List.take_left' (bitsOf_length n v), valueOf_bitsOf fit]

theorem drop_field : (bitsOf n v ++ rest).drop n = rest := List.drop_left' (bitsOf_length n v)

/-- Bit strings that begin with fields of one width agree only if the fields do. -/
theorem field_append_inj {rest' : List Bool} (fitU : u < 2 ^ n) (fitV : v < 2 ^ n)
    (same : bitsOf n u ++ rest = bitsOf n v ++ rest') : u = v ∧ rest = rest' := by
  obtain ⟨first, others⟩ := List.append_inj same (by rw [bitsOf_length, bitsOf_length])
  exact ⟨bitsOf_injective fitU fitV first, others⟩

end

/-! ## The values of the bytes -/

theorem digitValue_of_digit {b : Byte} (digit : 0x30 ≤ b.toNat ∧ b.toNat ≤ 0x39) :
    b.toNat = 0x30 + digitValue b ∧ digitValue b < 10 := by
  rw [digitValue]
  omega

theorem alnumValue_of_some {c : Config} {b : Byte} {u : Nat} (value : alnumVal c b = some u) : alnumValue c b = u := by
  rw [alnumValue, value, Option.getD_some]

theorem alnumVal_alnumValue {c : Config} {b : Byte} (known : (alnumVal c b).isSome) :
    alnumVal c b = some (alnumValue c b) := by
  obtain ⟨u, value⟩ := Option.isSome_iff_exists.mp known
  rw [alnumValue_of_some value, value]

/-- Byte strings with equal values are equal where no two of their bytes have one value. -/
theorem eq_of_map_eq {f : Byte → Nat} {a b : List Byte}
    (inj : ∀ x ∈ a ++ b, ∀ y ∈ a ++ b, f x = f y → x = y) (same : a.map f = b.map f) : a = b := by
  refine List.ext_getElem (by simpa using congrArg List.length same) fun i hi hi' => inj _ ?_ _ ?_ ?_
  · exact List.mem_append_left b (List.getElem_mem hi)
  · exact List.mem_append_right a (List.getElem_mem hi')
  · simpa [hi, hi'] using congrArg (·[i]?) same

/-! ## Packed data (R162) -/

theorem dataLength_numeric (n : Nat) : dataLength .numeric n = 10 * (n / 3) + [0, 4, 7].getD (n % 3) 0 := by
  obtain rest | rest | rest : n % 3 = 0 ∨ n % 3 = 1 ∨ n % 3 = 2 := by omega
  all_goals simp [dataLength, rest]

/-- Three digits are read off their decimal value, and so are two and one. -/
theorem numericBits_values {a b : List Byte} (length : a.length = b.length) (small : ∀ x ∈ a, digitValue x < 10)
    (small' : ∀ x ∈ b, digitValue x < 10) (same : numericBits a = numericBits b) :
    a.map digitValue = b.map digitValue := by
  induction a using numericBits.induct generalizing b with
  | case1 x y z rest ih =>
    match b, length, small', same with
    | x' :: y' :: z' :: rest', length, small', same =>
      simp only [List.forall_mem_cons] at small small'
      obtain ⟨sx, sy, sz, small⟩ := small
      obtain ⟨sx', sy', sz', small'⟩ := small'
      obtain ⟨group, others⟩ := field_append_inj (by omega) (by omega) same
      simp only [List.map_cons, List.cons.injEq]
      exact ⟨by omega, by omega, by omega, ih (by simpa using length) small small' others⟩
  | case2 x y =>
    match b, length, small', same with
    | [x', y'], _, small', same =>
      simp only [List.forall_mem_cons] at small small'
      obtain ⟨sx, sy, -⟩ := small
      obtain ⟨sx', sy', -⟩ := small'
      have group := bitsOf_injective (by omega) (by omega) same
      simp only [List.map_cons, List.cons.injEq, and_true]
      exact ⟨by omega, by omega⟩
  | case3 x =>
    match b, length, small', same with
    | [x'], _, small', same =>
      rw [List.forall_mem_singleton] at small small'
      rw [List.map_singleton, List.map_singleton, bitsOf_injective (by omega) (by omega) same]
  | case4 =>
    match b, length with
    | [], _ => rfl

/-- Two values below 45 are read off 45 times the first plus the second. -/
theorem alnumBits_values {c : Config} {a b : List Byte} (length : a.length = b.length)
    (small : ∀ x ∈ a, alnumValue c x < 45) (small' : ∀ x ∈ b, alnumValue c x < 45)
    (same : alnumBits c a = alnumBits c b) : a.map (alnumValue c) = b.map (alnumValue c) := by
  induction a using alnumBits.induct generalizing b with
  | case1 x y rest ih =>
    match b, length, small', same with
    | x' :: y' :: rest', length, small', same =>
      simp only [List.forall_mem_cons] at small small'
      obtain ⟨sx, sy, small⟩ := small
      obtain ⟨sx', sy', small'⟩ := small'
      obtain ⟨pair, others⟩ := field_append_inj (by omega) (by omega) same
      simp only [List.map_cons, List.cons.injEq]
      exact ⟨by omega, by omega, ih (by simpa using length) small small' others⟩
  | case2 x =>
    match b, length, small', same with
    | [x'], _, small', same =>
      rw [List.forall_mem_singleton] at small small'
      rw [List.map_singleton, List.map_singleton, bitsOf_injective (by omega) (by omega) same]
  | case3 =>
    match b, length with
    | [], _ => rfl

theorem bitsOfBytes_inj {a b : List Byte} (length : a.length = b.length) (same : bitsOfBytes a = bitsOfBytes b) :
    a = b := by
  induction a generalizing b with
  | nil =>
    match b, length with
    | [], _ => rfl
  | cons x a ih =>
    match b, length, same with
    | x' :: b, length, same =>
      obtain ⟨first, others⟩ := field_append_inj x.isLt x'.isLt same
      rw [BitVec.eq_of_toNat_eq first, ih (by simpa using length) others]

section
variable {c : Config} (table : ∀ b u, alnumVal c b = some u → u < 45)

theorem numericFields {x y z : Byte} {rest : List Byte} (digits : ∀ d ∈ [x, y, z], 0x30 ≤ d.toNat ∧ d.toNat ≤ 0x39) :
    valueOf ((dataBits c .numeric (x :: y :: z :: rest)).take 10)
        = 100 * digitValue x + 10 * digitValue y + digitValue z
      ∧ (dataBits c .numeric (x :: y :: z :: rest)).drop 10 = dataBits c .numeric rest
      ∧ valueOf (dataBits c .numeric [x, y]) = 10 * digitValue x + digitValue y
      ∧ valueOf (dataBits c .numeric [x]) = digitValue x := by
  simp only [List.forall_mem_cons] at digits
  obtain ⟨dx, dy, dz, -⟩ := digits
  obtain ⟨-, sx⟩ := digitValue_of_digit dx
  obtain ⟨-, sy⟩ := digitValue_of_digit dy
  obtain ⟨-, sz⟩ := digitValue_of_digit dz
  exact ⟨valueOf_take_field (by omega), drop_field, valueOf_bitsOf (by omega), valueOf_bitsOf (by omega)⟩

include table in
theorem alphanumericFields {x y : Byte} {u v : Nat} {rest : List Byte} (first : alnumVal c x = some u)
    (second : alnumVal c y = some v) :
    valueOf ((dataBits c .alphanumeric (x :: y :: rest)).take 11) = 45 * u + v
      ∧ (dataBits c .alphanumeric (x :: y :: rest)).drop 11 = dataBits c .alphanumeric rest
      ∧ valueOf (dataBits c .alphanumeric [x]) = u := by
  have su := table x u first
  have sv := table y v second
  simp only [dataBits, alnumBits, alnumValue_of_some first, alnumValue_of_some second]
  exact ⟨valueOf_take_field (by omega), drop_field, valueOf_bitsOf (by omega)⟩

variable {a b : List Byte} (length : a.length = b.length)
include length

theorem numericData_inj (digits : ∀ x ∈ a ++ b, 0x30 ≤ x.toNat ∧ x.toNat ≤ 0x39)
    (same : dataBits c .numeric a = dataBits c .numeric b) : a = b := by
  have value := fun x hx => digitValue_of_digit (digits x hx)
  refine eq_of_map_eq (fun x hx y hy equal => BitVec.eq_of_toNat_eq ?_) (numericBits_values length
    (fun x hx => (value x (List.mem_append_left b hx)).2) (fun x hx => (value x (List.mem_append_right a hx)).2) same)
  rw [(value x hx).1, (value y hy).1, equal]

include table in
theorem alphanumericData_inj (distinct : ∀ x y u, alnumVal c x = some u → alnumVal c y = some u → x = y)
    (known : ∀ x ∈ a ++ b, (alnumVal c x).isSome)
    (same : dataBits c .alphanumeric a = dataBits c .alphanumeric b) : a = b := by
  have value := fun x hx => alnumVal_alnumValue (known x hx)
  have small := fun x hx => table x _ (value x hx)
  refine eq_of_map_eq (fun x hx y hy equal => distinct x y _ (value x hx) ((value y hy).trans
    (congrArg some equal.symm))) (alnumBits_values length
    (fun x hx => small x (List.mem_append_left b hx)) (fun x hx => small x (List.mem_append_right a hx)) same)

end

/-- Settles O22: the number of bits by `dataBits_length`, the fields by their widths, and mode by mode that the values of
the bytes are read off them. -/
theorem packingLosesNothing : Obligations.PackingLosesNothing := by
  refine fun c table => ⟨fun m a => ?_, fun x y z rest digits => numericFields digits,
    fun x y u v rest first second => alphanumericFields table first second,
    fun x rest => ⟨valueOf_take_field x.isLt, drop_field⟩, fun m a b length distinct encodable same => ?_⟩
  · rw [dataBits_length]
    cases m with
    | numeric => exact dataLength_numeric _
    | alphanumeric => rfl
    | byte => rfl
  · cases m with
    | numeric => exact numericData_inj length (fun x hx => (encodable x hx).1 rfl) same
    | alphanumeric =>
      exact alphanumericData_inj table length (distinct rfl) (fun x hx => (encodable x hx).2 rfl) same
    | byte => exact bitsOfBytes_inj length same

/-! ## The payload's bits (R163) -/

theorem segBits_length (c : Config) (v : Nat) (g : Segment) (bs : List Byte) :
    (segBits c v g bs).length = c.miW + cciWidth c v g.mode + dataLength g.mode bs.length := by
  rw [segBits, List.length_append, List.length_append, bitsOf_length, bitsOf_length, dataBits_length]

theorem payloadBits_length (s : State) (v : Nat) :
    (payloadBits s v).length = encodedLength s.cfg v (segmentList s) := by
  rw [payloadBits, List.length_flatMap, encodedLength]
  refine congrArg List.sum (List.map_congr_left fun g _ => ?_)
  rw [segBits_length, pbufBytes, List.length_map, List.length_range]

/-- R45: the segment a SEGTAB word describes, by the word's fields. -/
theorem segmentOfEntry_eq_word (e : SegEntry) : segmentOfEntry e =
    ⟨modeOfBits ((segWord e).extractLsb' 0 2), ((segWord e).extractLsb' 8 12).toNat,
      ((segWord e).extractLsb' 20 12).toNat⟩ := by
  obtain ⟨mode, -, start, len⟩ := segWord_fields e
  rw [mode, start, len, segmentOfEntry]

/-- Settles O21: the fields of SEGTAB by `segmentOfEntry_eq_word`, the length by `payloadBits_length`; the widths, codes
and counts are the model's, mode by mode. -/
theorem encodedLengthIsTheStreamLength : Obligations.EncodedLengthIsTheStreamLength := by
  refine ⟨fun n v => ⟨bitsOf_length n v, fun i below => by rw [bitsOf_getElem?, if_pos below]⟩, fun s v => ?_⟩
  refine ⟨?segments, ?bits, payloadBits_length s v, ?length, rfl, rfl, rfl⟩
  case segments => exact List.map_congr_left fun j _ => segmentOfEntry_eq_word (segEntry s j)
  case bits =>
    rw [payloadBits, List.flatMap_def, List.flatMap_def]
    refine congrArg List.flatten (List.map_congr_left fun g _ => ?_)
    rw [segBits]
    cases g.mode <;> rfl
  case length =>
    refine congrArg List.sum (List.map_congr_left fun g _ => ?_)
    cases g.mode with
    | numeric => exact congrArg _ (dataLength_numeric g.len)
    | alphanumeric => rfl
    | byte => rfl

/-! ## The stream (R164) -/

theorem padBytes_length (c : Config) (n : Nat) : (padBytes c n).length = n := by
  rw [padBytes, List.length_map, List.length_range]

/-- What `padStream` adds to bits that fit n codewords: terminator, fill and pad codewords. -/
theorem padStream_parts (c : Config) {n : Nat} {bits : List Bool} (fit : bits.length ≤ 8 * n) : ∃ fill pads,
    padStream c (8 * n) bits
        = bits ++ zeros (min c.miW (8 * n - bits.length)) ++ zeros fill ++ bitsOfBytes (padBytes c pads)
      ∧ fill < 8 ∧ (bits.length + min c.miW (8 * n - bits.length) + fill) % 8 = 0
      ∧ bits.length + min c.miW (8 * n - bits.length) + fill + 8 * pads = 8 * n := by
  refine ⟨_, _, rfl, Nat.mod_lt _ (by decide), ?_, ?_⟩
  all_goals
    simp only [List.length_append, zeros, List.length_replicate]
    omega

theorem padStream_length (c : Config) {n : Nat} {bits : List Bool} (fit : bits.length ≤ 8 * n) :
    (padStream c (8 * n) bits).length = 8 * n := by
  obtain ⟨fill, pads, parts, -, -, total⟩ := padStream_parts c fit
  rw [parts]
  simpa [zeros, bitsOfBytes_length, padBytes_length, Nat.add_assoc] using total

/-- Settles O23: the parts and the length of `padStream`; the pad codewords written out, bit by bit. -/
theorem streamIsPaddedToTheCapacity : Obligations.StreamIsPaddedToTheCapacity := by
  intro s v l fit
  obtain ⟨fill, pads, parts, few, boundary, -⟩ := padStream_parts s.cfg fit
  refine ⟨fill, pads, ?_, few, boundary, padStream_length s.cfg fit, rfl, rfl, rfl⟩
  rw [bitsOfBytes, padBytes, List.flatMap_map] at parts
  exact parts

end Sys2Proof.Laws

/-! BUILD (42_bitstream.md R166 to R171): the selection and its errors, and what BUILD at the selected version writes. -/

namespace Sys2Proof.Laws

open Sys2Proof.Machine

/-! ## CONFIG, CAP and the reference levels -/

/-- R32: the two bits of CONFIG.ECL are the level's code. -/
theorem eclCode_eclOfBits : ∀ b : BitVec 2, BitVec.ofNat 2 (eclCode (eclOfBits b)) = b := by decide

theorem levelSupported_iff {c : Config} {l : Ecl} : levelSupported c l = true ↔ ∃ code, (l, code) ∈ c.levels := by
  rw [levelSupported, List.any_eq_true]
  constructor
  · rintro ⟨⟨l', code⟩, listed, same⟩
    exact ⟨code, eq_of_beq same ▸ listed⟩
  · rintro ⟨code, listed⟩
    exact ⟨(l, code), listed, beq_self_eq_true l⟩

theorem levelSupported_reset (l : Ecl) : levelSupported State.reset.cfg l = true ↔ l = .medium ∨ l = .high := by
  cases l <;> decide

theorem mem_cap_of_capOf {c : Config} {v : Nat} {l : Ecl} {gs : List Group} (cap : capOf c v l = some gs) :
    ⟨v, l, gs⟩ ∈ c.cap := by
  obtain ⟨⟨v', l', gs'⟩, found, rfl⟩ := Option.map_eq_some_iff.mp cap
  have asked := List.find?_some found
  rw [Bool.and_eq_true, beq_iff_eq, beq_iff_eq] at asked
  obtain ⟨rfl, rfl⟩ := asked
  exact List.mem_of_find?_eq_some found

theorem capOf_eq_none_iff {c : Config} {v : Nat} {l : Ecl} : capOf c v l = none ↔ ∀ gs, ⟨v, l, gs⟩ ∉ c.cap := by
  constructor
  · intro undefined gs listed
    rw [capOf, Option.map_eq_none_iff, List.find?_eq_none] at undefined
    exact undefined _ listed (by simp)
  · intro unlisted
    cases cap : capOf c v l with
    | none => rfl
    | some gs => exact absurd (mem_cap_of_capOf cap) (unlisted gs)

/-! ## Fit (R167) -/

theorem countOverflows_iff {c : Config} {v : Nat} {segs : List Segment} :
    countOverflows c v segs = true ↔ ∃ g ∈ segs, 2 ^ cciWidth c v g.mode ≤ g.len := by
  simp [countOverflows]

theorem fits_iff {s : State} {v : Nat} {l : Ecl} : fits s.cfg (segmentList s) v l = true ↔ fitsAt s v l := by
  have counts : (!countOverflows s.cfg v (segmentList s)) = true ↔
      ∀ g ∈ segmentList s, g.len < 2 ^ cciWidth s.cfg v g.mode := by
    rw [Bool.not_eq_true', ← Bool.not_eq_true, countOverflows_iff]
    simp
  rw [fits, Bool.and_eq_true, Bool.and_eq_true, counts, decide_eq_true_iff, fitsAt, and_assoc]

/-- The record of CapacityExceeded: capacity and need of the last version tried (R168). -/
theorem capacityExceeded_eq (s : State) (l : Ecl) {cand : List Nat} {u : Nat} (last : cand.getLast? = some u) :
    capacityExceeded s l cand = ⟨.capacityExceeded, 0x11, capBitsOf s.cfg u l, neededBits s u⟩ := by
  have need : (if countOverflows s.cfg u (segmentList s) then 0xFFFFFFFF else
      encodedLength s.cfg u (segmentList s)) = neededBits s u := if_congr countOverflows_iff rfl rfl
  rw [capacityExceeded, last, Option.getD_some, need]
  rfl

/-! ## The versions tried (R168) -/

section
variable {s : State} {l : Ecl}

theorem candidates_beyond (fixed : configFixed s = true) (beyond : nv s.cfg ≤ configVersion s) :
    candidates s l = .error 3 := by
  rw [candidates, if_pos fixed, if_pos beyond]

theorem candidates_noCap (fixed : configFixed s = true) (known : configVersion s < nv s.cfg)
    (cap : capOf s.cfg (configVersion s) l = none) : candidates s l = .error 4 := by
  rw [candidates, if_pos fixed, if_neg (not_le.mpr known), cap, Option.isNone_none, if_pos rfl]

theorem candidates_fixed (fixed : configFixed s = true) (known : configVersion s < nv s.cfg)
    (cap : (capOf s.cfg (configVersion s) l).isSome) : candidates s l = .ok [configVersion s] := by
  rw [candidates, if_pos fixed, if_neg (not_le.mpr known), Option.isNone_eq_false_iff.mpr cap,
    if_neg Bool.false_ne_true]

theorem candidates_noneOffered (free : configFixed s = false)
    (offered : s.cfg.sizeOrder.filter (fun v => (capOf s.cfg v l).isSome) = []) : candidates s l = .error 4 := by
  simp [candidates, free, offered]

theorem candidates_offered (free : configFixed s = false) {cand : List Nat}
    (offered : s.cfg.sizeOrder.filter (fun v => (capOf s.cfg v l).isSome) = cand) (nonempty : cand ≠ []) :
    candidates s l = .ok cand := by
  obtain ⟨v, vs, rfl⟩ := List.exists_cons_of_ne_nil nonempty
  simp [candidates, free, offered]

end

/-! ## The end of BUILD -/

section
variable {s : State} {cand : List Nat} {v : Nat}

theorem buildRule_unsupported (level : levelSupported s.cfg (configEcl s) = false) :
    buildRule s = .failed ⟨.invalidConfiguration, 0x11, 0, 2⟩ (freeBuildOutputs (mostDataCodewords s.cfg) s) := by
  simp [buildRule, level, opcode]

theorem buildRule_noCandidates (level : levelSupported s.cfg (configEcl s) = true) {reason : Nat}
    (tried : candidates s (configEcl s) = .error reason) :
    buildRule s = .failed ⟨.invalidConfiguration, 0x11, 0, reason⟩
      (freeBuildOutputs (mostDataCodewords s.cfg) s) := by
  simp [buildRule, level, tried, opcode]

theorem buildRule_noFit (level : levelSupported s.cfg (configEcl s) = true)
    (tried : candidates s (configEcl s) = .ok cand) (unfit : ∀ u ∈ cand, ¬fitsAt s u (configEcl s)) :
    buildRule s = .failed (capacityExceeded s (configEcl s) cand)
      (freeBuildOutputs (mostDataCodewordsOf s.cfg (configEcl s) cand) s) := by
  have noneFits : cand.find? (fun u => fits s.cfg (segmentList s) u (configEcl s)) = none :=
    List.find?_eq_none.mpr fun u listed => fits_iff.not.mpr (unfit u listed)
  simp [buildRule, level, tried, noneFits]

/-- A selected version is one of the configuration's, so VI_SEL holds it. -/
theorem viSel_of_tried (tried : candidates s (configEcl s) = .ok cand) (listed : v ∈ cand) :
    (BitVec.ofNat 5 v).toNat = v := by
  have known := candidates_versions tried v listed
  have few := nv_le s
  rw [BitVec.toNat_ofNat]
  omega

variable (ready : s.error = false)
include ready

theorem exec_build_ready (stage : s.stage = .segmented) : exec .build s = .next (finish (buildRule s)) := by
  show Host.Outcome.next (runRule buildStage s) = _
  rw [runRule_ready ready, buildStage, requireStage_at stage]

/-- Every failure of BUILD is recorded alike (60_exceptions.md R326). -/
theorem encodingError_of_buildRule {kind : ErrKind} {exp act n : Nat} (encoding : isEncodingError kind = true)
    (ends : buildRule s = .failed ⟨kind, 0x11, exp, act⟩ (freeBuildOutputs n s)) :
    encodingError kind 0x11 exp act (finish (buildRule s)) := by
  have still : (freeBuildOutputs n s).error = false := ready
  rw [ends, finish, raiseError, if_neg (by simp [still]), if_pos encoding]
  exact ⟨rfl, rfl, rfl, rfl, rfl, rfl, rfl, rfl⟩

theorem buildRule_firstFit (level : levelSupported s.cfg (configEcl s) = true)
    (tried : candidates s (configEcl s) = .ok cand) {before after : List Nat} (parts : cand = before ++ v :: after)
    (fit : fitsAt s v (configEcl s)) (unfit : ∀ u ∈ before, ¬fitsAt s u (configEcl s)) :
    (finish (buildRule s)).error = false ∧ (finish (buildRule s)).viSel.toNat = v := by
  have found : cand.find? (fun u => fits s.cfg (segmentList s) u (configEcl s)) = some v :=
    List.find?_eq_some_iff_append.mpr ⟨fits_iff.mpr fit, before, after, parts, fun u listed => by
      simpa using fits_iff.not.mpr (unfit u listed)⟩
  rw [buildRule_fits level tried found, finish]
  exact ⟨(setCwBytes_error s _ _).trans ready, viSel_of_tried tried (List.mem_of_find?_eq_some found)⟩

theorem buildRule_overflow (level : levelSupported s.cfg (configEcl s) = true)
    (tried : candidates s (configEcl s) = .ok cand) {last : Nat} (final : cand.getLast? = some last)
    (unfit : ∀ u ∈ cand, ¬fitsAt s u (configEcl s)) :
    encodingError .capacityExceeded 0x11 (capBitsOf s.cfg last (configEcl s)) (neededBits s last)
      (finish (buildRule s)) :=
  encodingError_of_buildRule ready rfl (capacityExceeded_eq s (configEcl s) final ▸ buildRule_noFit level tried unfit)

end

/-- Settles O25: each error by the branch of `buildRule` that records it, each selection by `buildRule_firstFit`. -/
theorem buildSelectsTheFirstFit : Obligations.BuildSelectsTheFirstFit := by
  refine ⟨fun s => ⟨?ecl, rfl, rfl⟩, rfl, fun l => levelSupported_iff.symm.trans (levelSupported_reset l),
    fun c v l => ⟨fun gs => mem_cap_of_capOf, capOf_eq_none_iff⟩, fun s ready stage => ?_⟩
  case ecl =>
    refine (eclCode_eclOfBits _).symm.trans ?_
    rw [configEcl]
    cases eclOfBits (s.config.extractLsb' 0 2) <;> rfl
  refine ⟨_, exec_build_ready ready stage, fun unsupported => ?_, fun supported fixed => ?_, fun supported free => ?_⟩
  · rw [← levelSupported_iff, Bool.not_eq_true] at unsupported
    exact encodingError_of_buildRule ready rfl (buildRule_unsupported unsupported)
  · have level := levelSupported_iff.mpr supported
    have reported := fun {reason : Nat} (tried : candidates s (configEcl s) = .error reason) =>
      encodingError_of_buildRule ready rfl (buildRule_noCandidates level tried)
    refine ⟨fun beyond => reported (candidates_beyond fixed beyond),
      fun known cap => reported (candidates_noCap fixed known cap), fun known cap => ?_⟩
    have tried := candidates_fixed fixed known cap
    exact ⟨fun fit => buildRule_firstFit ready level tried (before := []) rfl fit (by simp),
      fun unfit => buildRule_overflow ready level tried rfl (by simpa using unfit)⟩
  · have level := levelSupported_iff.mpr supported
    refine ⟨fun empty => ?_, fun before v after offered fit unfit => ?_, fun before last offered unfit => ?_⟩
    · exact encodingError_of_buildRule ready rfl (buildRule_noCandidates level (candidates_noneOffered free empty))
    · exact buildRule_firstFit ready level (candidates_offered free rfl (by simp [offered])) offered fit unfit
    · exact buildRule_overflow ready level (candidates_offered free rfl (by simp [offered])) (by simp [offered]) unfit

/-! ## What BUILD writes (R170) -/

/-- A value in a field of its own bits (10_state.md R37, R39). -/
theorem field_ofNat {lo width v : Nat} : field lo width (BitVec.ofNat width v).toNat = v % 2 ^ width * 2 ^ lo := by
  rw [field, BitVec.toNat_ofNat, Nat.mod_mod]

theorem cwByte_buildSelected (s : State) (v : Nat) (l : Ecl) (i : Nat) :
    cwByte (buildSelected s v l) i =
      if i < dcwOf s.cfg v l then (bytesOfBits (dcwOf s.cfg v l) (stream s v l)).getD i 0 else cwByte s i := by
  have written := cwByte_setCwBytes s 0 (bytesOfBits (dcwOf s.cfg v l) (stream s v l)) i
  simp only [bytesOfBits_length, Nat.zero_le, true_and, Nat.zero_add, Nat.sub_zero] at written
  exact written

theorem resVerWord_buildSelected (s : State) (v : Nat) (l : Ecl) : resVerWord (buildSelected s v l) =
    BitVec.ofNat 32 (v % 2 ^ 5 + heightOf s.cfg v % 2 ^ 5 * 2 ^ 8 + widthOf s.cfg v % 2 ^ 8 * 2 ^ 16
      + eclCode l * 2 ^ 24) := by
  have code : field 24 2 (eclCode l) = eclCode l * 2 ^ 24 := by cases l <;> rfl
  have selected : resVerWord (buildSelected s v l) =
      BitVec.ofNat 32 (field 0 5 (BitVec.ofNat 5 v).toNat + field 8 5 (BitVec.ofNat 5 (heightOf s.cfg v)).toNat
        + field 16 8 (BitVec.ofNat 8 (widthOf s.cfg v)).toNat + field 24 2 (eclCode l)) := rfl
  rw [selected, field_ofNat, field_ofNat, field_ofNat, code, Nat.pow_zero, Nat.mul_one]

/-- R38: a length and a capacity that fit their fields. -/
theorem resBitsOf_eq {n cap : Nat} (fitN : n < 2 ^ 16) (fitCap : cap < 2 ^ 16) :
    resBitsOf n cap = BitVec.ofNat 32 (n + cap * 2 ^ 16) := by
  rw [resBitsOf, field, field, Nat.mod_eq_of_lt fitN, Nat.mod_eq_of_lt fitCap, Nat.pow_zero, Nat.mul_one]

/-- R39, R53: RES_CW as a whole word. -/
theorem resCwOf_setWidth (dcw tcw remBits nblk : Nat) : (resCwOf dcw tcw remBits nblk).setWidth 32 =
    BitVec.ofNat 32 (dcw % 2 ^ 9 + tcw % 2 ^ 9 * 2 ^ 9 + remBits % 2 ^ 3 * 2 ^ 18 + nblk % 2 ^ 5 * 2 ^ 21) := by
  rw [resCwOf, BitVec.setWidth_ofNat_of_le_of_lt (by decide) (by simp only [field]; omega)]
  simp only [field, Nat.pow_zero, Nat.mul_one]

/-- R8: no capacity exceeds the 16 bits of RES_BITS. -/
theorem capBitsOf_lt (s : State) (v : Nat) (l : Ecl) : capBitsOf s.cfg v l < 2 ^ 16 := by
  obtain ⟨-, -, -, cwmax⟩ := windows_bounded s.params
  have fit : dataOf (groupsOf s.cfg v l) ≤ s.params.config.cwmax := dataOf_groupsOf_le s.params v l
  rw [capBitsOf, dcwOf]
  omega

theorem buildRule_success_frame {s t : State} (ends : buildRule s = .success t) :
    { t with cwbuf := s.cwbuf, cwFree := s.cwFree, viSel := s.viSel, eclSel := s.eclSel, resH := s.resH,
             resW := s.resW, resBits := s.resBits, resCw := s.resCw } = { s with stage := .built } := by
  obtain ⟨t', ends', frame⟩ | ⟨f, t', ends', -⟩ := buildRule_cases s
  · cases ends.symm.trans ends'
    exact frame
  · cases ends.symm.trans ends'

/-- Settles O24: BUILD ends in `buildSelected`, whose codewords are those of a stream of 8 · DCW bits (`padStream_length`)
and whose results fit their fields by R8. -/
theorem buildWritesTheCodewords : Obligations.BuildWritesTheCodewords := by
  intro s cand v l ready stage level tried found
  have fit : fits s.cfg (segmentList s) v l = true := List.find?_some (p := (fits s.cfg (segmentList s) · l)) found
  obtain ⟨cap, -, short⟩ := fits_iff.mp fit
  obtain ⟨gs, groups⟩ := Option.isSome_iff_exists.mp cap
  have listed : groupsOf s.cfg v l = gs := by rw [groupsOf, groups, Option.getD_some]
  have length : (stream s v l).length = 8 * dcwOf s.cfg v l :=
    padStream_length s.cfg ((payloadBits_length s v).trans_le short)
  have capBits := capBitsOf_lt s v l
  have ends := buildRule_fits level tried found
  refine ⟨succeed (buildSelected s v l), gs, ?_, groups, by rw [dcwOf, listed]; rfl, rfl, fun i below j bit => ?_,
    fun i past => ?_, viSel_of_tried tried (List.mem_of_find?_eq_some found), rfl, resVerWord_buildSelected s v l, rfl,
    resBitsOf_eq (short.trans_lt capBits) capBits, ?_, congrArg completed (buildRule_success_frame ends),
    encodedAs_of_operandFree .build (by decide)⟩
  · rw [exec_build_ready ready stage, ends, finish]
  · rw [← bytesOfBits_bit length below bit]
    exact congrArg (·.getLsbD (7 - j)) ((cwByte_buildSelected s v l i).trans (if_pos below))
  · exact (cwByte_buildSelected s v l i).trans (if_neg (not_lt.mpr past))
  · subst listed
    exact resCwOf_setWidth _ _ _ _

end Sys2Proof.Laws

/-! The field of the reference configuration (43_ecc.md R190 to R193): doubling as a linear map of bytes whose orbit of
1 is EXP, and the multiplication by the log tables as its iteration. -/

namespace Sys2Proof.Laws

open Sys2Proof.Machine

/-! ## Doubling -/

/-- The doubling of the model on a byte, in the field of PRIM = 0x11D. -/
def twice (x : Byte) : Byte := BitVec.ofNat 8 (gfDouble 0x11D x.toNat)

theorem toNat_twice (x : Byte) : (twice x).toNat = gfDouble 0x11D x.toNat := by
  have bytes : ∀ x : Byte, gfDouble 0x11D x.toNat < 256 := by decide +kernel
  rw [twice, BitVec.toNat_ofNat, Nat.mod_eq_of_lt (bytes x)]

/-- A shift, reduced when a bit leaves the byte. -/
theorem twice_eq (x : Byte) : twice x = x <<< 1 ^^^ if x.msb then 0x1D else 0 := by
  revert x
  decide +kernel

@[simp] theorem twice_zero : twice 0 = 0 := by decide

theorem twice_xor (x y : Byte) : twice (x ^^^ y) = twice x ^^^ twice y := by
  have reduction : ∀ p q : Bool, (if (p ^^ q) = true then 0x1D else 0 : Byte) =
      (if p = true then 0x1D else 0) ^^^ if q = true then 0x1D else 0 := by decide
  rw [twice_eq, twice_eq, twice_eq, BitVec.shiftLeft_xor_distrib, BitVec.msb_xor, reduction]
  ac_rfl

theorem iterate_twice_zero (n : Nat) : twice^[n] 0 = 0 := Function.iterate_fixed twice_zero n

theorem iterate_twice_xor (n : Nat) (x y : Byte) : twice^[n] (x ^^^ y) = twice^[n] x ^^^ twice^[n] y :=
  Function.Semiconj₂.iterate (op := HXor.hXor) twice_xor n x y

/-! ## The powers of ALPHA -/

/-- ALPHA^n in the reference field. -/
def alphaPower (n : Nat) : Byte := twice^[n] 1

theorem iterate_twice_alphaPower (m n : Nat) : twice^[m] (alphaPower n) = alphaPower (m + n) :=
  (Function.iterate_add_apply twice m n 1).symm

theorem gfTimes_two (prim x : Nat) : gfTimes prim 8 x 2 = gfDouble prim x := by simp [gfTimes]

/-- The order of ALPHA divides 255 and is none of its proper divisors. -/
theorem minimalPeriod_twice : Function.minimalPeriod twice 1 = 255 := by
  have divides : Function.minimalPeriod twice 1 ∣ 255 :=
    Function.IsPeriodicPt.minimalPeriod_dvd (show twice^[255] 1 = 1 by decide +kernel)
  have proper : ∀ d ∈ Nat.properDivisors 255, twice^[d] 1 ≠ 1 := by decide +kernel
  by_contra other
  exact proper _ (Nat.mem_properDivisors.mpr ⟨divides, by have := Nat.le_of_dvd (by decide) divides; omega⟩)
    (Function.isPeriodicPt_minimalPeriod twice 1)

theorem alphaPower_mod (n : Nat) : alphaPower (n % 255) = alphaPower n := by
  rw [alphaPower, ← minimalPeriod_twice, Function.iterate_mod_minimalPeriod_eq, alphaPower]

theorem alphaPower_injOn : Set.InjOn alphaPower (Set.Iio 255) := by
  rw [← minimalPeriod_twice]
  exact Function.iterate_injOn_Iio_minimalPeriod

/-- A power that is 0 would stay 0, but some later power is 1. -/
theorem alphaPower_ne_zero (n : Nat) : alphaPower n ≠ 0 := by
  intro zero
  have later : alphaPower (254 * n + n) = 0 := by rw [← iterate_twice_alphaPower, zero, iterate_twice_zero]
  have one : alphaPower (254 * n + n) = 1 := by
    rw [← alphaPower_mod, ← Nat.succ_mul, Nat.mul_mod_right]
    rfl
  exact absurd (one.symm.trans later) (by decide)

/-- The 255 powers are distinct, so they are all the nonzero bytes. -/
theorem exists_alphaPower {x : Byte} (nonzero : x ≠ 0) : ∃ n < 255, alphaPower n = x := by
  have counted : (Finset.univ.erase (0 : Byte)).card ≤ (Finset.range 255).card := by
    rw [Finset.card_erase_of_mem (Finset.mem_univ _), Finset.card_univ, Finset.card_range,
      ← FinEnum.card_eq_fintypeCard, FinEnum.card_bitVec]
    decide
  have onto := Finset.surjOn_of_injOn_of_card_le alphaPower
    (fun n _ => Finset.mem_coe.mpr (Finset.mem_erase.mpr ⟨alphaPower_ne_zero n, Finset.mem_univ _⟩))
    (by rw [Finset.coe_range]; exact alphaPower_injOn) counted
  obtain ⟨n, below, power⟩ := onto (Finset.mem_coe.mpr (Finset.mem_erase.mpr ⟨nonzero, Finset.mem_univ x⟩))
  exact ⟨n, Finset.mem_range.mp below, power⟩

/-! ## The tables -/

/-- A logarithm fits its byte. -/
theorem toNat_ofNat_log {n : Nat} (below : n < 255) : (BitVec.ofNat 8 n).toNat = n := by
  rw [BitVec.toNat_ofNat]; omega

theorem gfMul_zero (c : Config) (x : Byte) : gfMul c x 0 = 0 := if_pos (.inr rfl)

theorem zero_gfMul (c : Config) (x : Byte) : gfMul c 0 x = 0 := if_pos (.inl rfl)

theorem gfMul_comm (c : Config) (x y : Byte) : gfMul c x y = gfMul c y x := by
  simp only [gfMul, Or.comm, Nat.add_comm]

section
variable {c : Config} (field : referenceField c)
include field

theorem alphaPow_eq (n : Nat) : alphaPow c n = (alphaPower n).toNat := by
  obtain ⟨prim, alpha⟩ := field
  induction n with
  | zero => rfl
  | succ n ih =>
    rw [alphaPow, prim, alpha, gfTimes_two, ih, ← toNat_twice, alphaPower, alphaPower, Function.iterate_succ_apply']

theorem ofNat_alphaPow (n : Nat) : BitVec.ofNat 8 (alphaPow c n) = alphaPower n := by
  rw [alphaPow_eq field, BitVec.ofNat_toNat, BitVec.setWidth_eq]

theorem expRom_of_lt {n : Nat} (below : n < 255) : expRom c n = alphaPower n := by
  rw [expRom, if_pos below, ofNat_alphaPow field]

theorem expRom_ne_zero (n : Nat) : expRom c n ≠ 0 := by
  by_cases below : n < 255
  · exact expRom_of_lt field below ▸ alphaPower_ne_zero n
  · rw [expRom, if_neg below]
    decide

theorem expRom_mod (n : Nat) : expRom c (n % 255) = alphaPower n := by
  rw [expRom_of_lt field (Nat.mod_lt n (by decide)), alphaPower_mod]

/-- R190: LOG inverts EXP. -/
theorem logOfByte_alphaPower {n : Nat} (below : n < 255) : logOfByte c (alphaPower n) = BitVec.ofNat 8 n := by
  rw [logOfByte, if_neg (alphaPower_ne_zero n)]
  cases found : (List.range 255).reverse.find? fun i => expRom c i == alphaPower n with
  | none =>
    have unlisted := List.find?_eq_none.mp found n (by simpa using below)
    simp [expRom_of_lt field below] at unlisted
  | some i =>
    have listed : i < 255 := by simpa using List.mem_of_find?_eq_some found
    have same : expRom c i = alphaPower n := by simpa using List.find?_some found
    rw [expRom_of_lt field listed] at same
    rw [Option.getD_some, alphaPower_injOn listed below same]

/-- Every nonzero byte is a power of ALPHA, whose exponent is its logarithm. -/
theorem exists_log {x : Byte} (nonzero : x ≠ 0) :
    ∃ n < 255, x = alphaPower n ∧ logOfByte c x = BitVec.ofNat 8 n := by
  obtain ⟨n, below, rfl⟩ := exists_alphaPower nonzero
  exact ⟨n, below, rfl, logOfByte_alphaPower field below⟩

/-! ## The product -/

/-- Multiplying by ALPHA^n is doubling n times. -/
theorem alphaPower_gfMul {n : Nat} (below : n < 255) (x : Byte) : gfMul c (alphaPower n) x = twice^[n] x := by
  by_cases zero : x = 0
  · rw [zero, gfMul_zero, iterate_twice_zero]
  · obtain ⟨m, belowM, rfl, log⟩ := exists_log field zero
    rw [gfMul, if_neg (not_or.mpr ⟨alphaPower_ne_zero n, zero⟩), logOfByte_alphaPower field below, log,
      toNat_ofNat_log below, toNat_ofNat_log belowM, expRom_mod field, iterate_twice_alphaPower]

theorem gfMul_xor (x y z : Byte) : gfMul c x (y ^^^ z) = gfMul c x y ^^^ gfMul c x z := by
  by_cases zero : x = 0
  · simp only [zero, zero_gfMul]; rfl
  · obtain ⟨n, below, rfl⟩ := exists_alphaPower zero
    simp only [alphaPower_gfMul field below, iterate_twice_xor]

theorem xor_gfMul (x y z : Byte) : gfMul c (x ^^^ y) z = gfMul c x z ^^^ gfMul c y z := by
  rw [gfMul_comm c, gfMul_xor field, gfMul_comm c z x, gfMul_comm c z y]

theorem iterate_twice_gfMul (n : Nat) (x y : Byte) : gfMul c (twice^[n] x) y = twice^[n] (gfMul c x y) := by
  by_cases zero : y = 0
  · rw [zero, gfMul_zero, gfMul_zero, iterate_twice_zero]
  · obtain ⟨m, below, rfl⟩ := exists_alphaPower zero
    rw [gfMul_comm, gfMul_comm c x, alphaPower_gfMul field below, alphaPower_gfMul field below,
      Function.Commute.iterate_iterate_self twice m n]

theorem twice_gfMul (x y : Byte) : gfMul c (twice x) y = twice (gfMul c x y) := iterate_twice_gfMul field 1 x y

theorem gfMul_assoc (x y z : Byte) : gfMul c (gfMul c x y) z = gfMul c x (gfMul c y z) := by
  by_cases zero : x = 0
  · simp only [zero, zero_gfMul]
  · obtain ⟨n, below, rfl⟩ := exists_alphaPower zero
    rw [alphaPower_gfMul field below, alphaPower_gfMul field below, iterate_twice_gfMul field]

theorem one_gfMul (x : Byte) : gfMul c 1 x = x := alphaPower_gfMul field (n := 0) (by decide) x

/-- R193: the logarithms of a byte and of its inverse add up to 255. -/
theorem gfMul_gfInv {x : Byte} (nonzero : x ≠ 0) : gfMul c x (gfInv c x) = 1 := by
  obtain ⟨n, below, rfl, log⟩ := exists_log field nonzero
  rw [gfInv, log, toNat_ofNat_log below, expRom_mod field, alphaPower_gfMul field below, iterate_twice_alphaPower,
    Nat.add_sub_of_le below.le, ← alphaPower_mod]
  rfl

theorem gfInv_gfInv {x : Byte} (nonzero : x ≠ 0) : gfInv c (gfInv c x) = x := by
  have product := gfMul_gfInv field nonzero
  have inverse : gfInv c x ≠ 0 := fun zero => by
    rw [zero, gfMul_zero] at product
    exact absurd product (by decide)
  calc gfInv c (gfInv c x)
    _ = gfMul c (gfMul c x (gfInv c x)) (gfInv c (gfInv c x)) := by rw [product, one_gfMul field]
    _ = gfMul c x (gfMul c (gfInv c x) (gfInv c (gfInv c x))) := gfMul_assoc field _ _ _
    _ = x := by rw [gfMul_gfInv field inverse, gfMul_comm, one_gfMul field]

end

/-! ## The statements -/

/-- Settles O26: EXP is the orbit of 1 under doubling, which has period 255 and so meets every nonzero byte once. -/
theorem fieldTablesOfTheReferenceField : Obligations.FieldTablesOfTheReferenceField := by
  intro c field
  refine ⟨rfl, rfl, rfl, fun i below => ?_, fun i below => ?_, fun x nonzero => ?_, fun n => ?_, rfl, rfl⟩
  · rw [expRom_of_lt field (by omega), expRom_of_lt field (by omega), alphaPower, Function.iterate_succ_apply',
      toNat_twice]
    rfl
  · rw [expRom_of_lt field below, logRom, BitVec.ofNat_toNat, BitVec.setWidth_eq, logOfByte_alphaPower field below]
  · obtain ⟨n, below, rfl⟩ := exists_alphaPower nonzero
    refine ⟨n, below, expRom_of_lt field below, fun j belowJ same => ?_⟩
    exact alphaPower_injOn belowJ below ((expRom_of_lt field belowJ).symm.trans same)
  · rw [ofNat_alphaPow field, expRom_mod field]

/-- Settles O27: the product by a power of ALPHA is an iterate of doubling, which is linear. -/
theorem gfMulIsAFieldProduct : Obligations.GfMulIsAFieldProduct := by
  intro c field x y z
  refine ⟨fun hx hy => ?_, gfMul_comm c x y, gfMul_assoc field x y z, one_gfMul field x, zero_gfMul c x,
    gfMul_zero c x, gfMul_xor field x y z, rfl⟩
  rw [gfMul, if_neg (not_or.mpr ⟨hx, hy⟩)]
  simp only [logRom, BitVec.ofNat_toNat, BitVec.setWidth_eq]

end Sys2Proof.Laws

/-! Reed-Solomon coding (43_ecc.md R195, R196): in the reference field the generator vanishes at its roots, and so does
the data followed by the parity. -/

namespace Sys2Proof.Laws

open Sys2Proof.Machine

/-! ## Values of polynomials, by Horner's scheme -/

/-- One step of Horner's scheme without the coefficient: multiplication by the argument. -/
def hornerShift (c : Config) (x a : Byte) : Byte := gfMul c a x

theorem hornerShift_zero (c : Config) (x : Byte) : hornerShift c x 0 = 0 := zero_gfMul c x

theorem evalAt_concat (c : Config) (l : List Byte) (k x : Byte) :
    evalAt c (l ++ [k]) x = hornerShift c x (evalAt c l x) ^^^ k := by
  rw [evalAt, List.foldl_append]
  rfl

theorem evalAt_concat_zero (c : Config) (l : List Byte) (x : Byte) :
    evalAt c (l ++ [0]) x = hornerShift c x (evalAt c l x) := by
  rw [evalAt_concat, show (0 : Byte) = 0#8 from rfl, BitVec.xor_zero]

theorem evalAt_singleton (c : Config) (k x : Byte) : evalAt c [k] x = k := by
  rw [evalAt, List.foldl_cons, zero_gfMul]
  exact BitVec.zero_xor

theorem evalAt_cons_zero (c : Config) (l : List Byte) (x : Byte) : evalAt c (0 :: l) x = evalAt c l x := by
  rw [evalAt, List.foldl_cons, zero_gfMul]
  rfl

theorem evalAt_zeros (c : Config) (n : Nat) (x : Byte) : evalAt c (List.replicate n 0) x = 0 := by
  induction n with
  | zero => rfl
  | succ n ih => rw [List.replicate_succ, evalAt_cons_zero, ih]

/-! ## Generator and parity, step by step -/

theorem genPoly_succ (c : Config) (e : Nat) : genPoly c (e + 1) = genStep c (genPoly c e) e := by
  rw [genPoly, List.range_succ, List.foldl_append]
  rfl

/-- The generator is monic. -/
theorem exists_genPoly_eq_cons (c : Config) (e : Nat) : ∃ g, genPoly c e = 1 :: g := by
  induction e with
  | zero => exact ⟨[], rfl⟩
  | succ e ih =>
    obtain ⟨g, monic⟩ := ih
    exact ⟨_, by rw [genPoly_succ, monic]; rfl⟩

theorem rsParity_concat (c : Config) (data : List Byte) (d : Byte) (e : Nat) :
    rsParity c (data ++ [d]) e = parityStep c (genPoly c e) (rsParity c data e) d := by
  rw [rsParity, List.foldl_append]
  rfl

section
variable {c : Config} (field : referenceField c)
include field

theorem iterate_hornerShift_xor (x : Byte) (n : Nat) (a b : Byte) :
    (hornerShift c x)^[n] (a ^^^ b) = (hornerShift c x)^[n] a ^^^ (hornerShift c x)^[n] b :=
  Function.Semiconj₂.iterate (op := HXor.hXor) (fun a b => xor_gfMul field a b x) n a b

theorem iterate_hornerShift_gfMul (x : Byte) (n : Nat) (f a : Byte) :
    (hornerShift c x)^[n] (gfMul c f a) = gfMul c f ((hornerShift c x)^[n] a) :=
  (Function.Commute.iterate_left (f := hornerShift c x) (g := gfMul c f) (fun a => gfMul_assoc field f a x) n) a

/-- The leading polynomial moves up by the degree of the rest. -/
theorem evalAt_append (l m : List Byte) (x : Byte) :
    evalAt c (l ++ m) x = (hornerShift c x)^[m.length] (evalAt c l x) ^^^ evalAt c m x := by
  induction m using List.reverseRecOn with
  | nil => simp [evalAt]
  | append_singleton m k ih =>
    rw [← List.append_assoc, evalAt_concat, ih, evalAt_concat, List.length_append, List.length_singleton,
      Function.iterate_succ_apply', hornerShift, xor_gfMul field, BitVec.xor_assoc]
    rfl

theorem evalAt_cons (k : Byte) (l : List Byte) (x : Byte) :
    evalAt c (k :: l) x = (hornerShift c x)^[l.length] k ^^^ evalAt c l x := by
  rw [← List.singleton_append, evalAt_append field, evalAt_singleton]

theorem evalAt_map_gfMul (f : Byte) (l : List Byte) (x : Byte) :
    evalAt c (l.map (gfMul c f)) x = gfMul c f (evalAt c l x) := by
  induction l with
  | nil => exact (gfMul_zero c f).symm
  | cons k l ih =>
    rw [List.map_cons, evalAt_cons field, evalAt_cons field, ih, List.length_map, iterate_hornerShift_gfMul field,
      gfMul_xor field]

theorem evalAt_zipWith {l m : List Byte} (length : l.length = m.length) (x : Byte) :
    evalAt c (List.zipWith gfAdd l m) x = evalAt c l x ^^^ evalAt c m x := by
  induction l generalizing m with
  | nil =>
    obtain rfl := List.eq_nil_of_length_eq_zero length.symm
    exact (BitVec.xor_self).symm
  | cons k l ih =>
    obtain ⟨j, m, rfl⟩ := List.exists_cons_of_length_eq_add_one length.symm
    have rest : l.length = m.length := Nat.succ.inj length
    have top : (List.zipWith gfAdd l m).length = m.length := by rw [List.length_zipWith, rest, Nat.min_self]
    rw [List.zipWith_cons_cons, evalAt_cons field, evalAt_cons field, evalAt_cons field, ih rest, top, rest, gfAdd,
      iterate_hornerShift_xor field]
    ac_rfl

/-! ## The generator at its roots (R195) -/

/-- One factor multiplied in. -/
theorem evalAt_genStep (g : List Byte) (i : Nat) (x : Byte) :
    evalAt c (genStep c g i) x = gfMul c (x ^^^ expRom c i) (evalAt c g x) := by
  have factor : (g.map fun k => gfMul c k (expRom c i)) = g.map (gfMul c (expRom c i)) :=
    List.map_congr_left fun k _ => gfMul_comm c k _
  rw [genStep, factor, evalAt_zipWith field (by simp), evalAt_concat_zero, evalAt_cons_zero, evalAt_map_gfMul field,
    xor_gfMul field, hornerShift, gfMul_comm]

theorem evalAt_genPoly_root {i e : Nat} (root : i < e) : evalAt c (genPoly c e) (expRom c i) = 0 := by
  induction e with
  | zero => omega
  | succ e ih =>
    rw [genPoly_succ, evalAt_genStep field]
    rcases Nat.lt_succ_iff_lt_or_eq.mp root with earlier | rfl
    · rw [ih earlier, gfMul_zero]
    · rw [BitVec.xor_self]
      exact zero_gfMul c _

/-! ## The division at a root (R196) -/

/-- At a root of a monic generator its other coefficients give the leading power. -/
theorem evalAt_tail_of_root {g : List Byte} {x : Byte} (root : evalAt c (1 :: g) x = 0) :
    evalAt c g x = (hornerShift c x)^[g.length] 1 := by
  rw [evalAt_cons field] at root
  exact (BitVec.xor_eq_zero_iff.mp root).symm

/-- One step of the shift register, at a root: the register's polynomial moves up, and the codeword enters above it. -/
theorem evalAt_parityStep {g r : List Byte} {x : Byte} (root : evalAt c (1 :: g) x = 0) (length : r.length = g.length)
    (positive : 0 < g.length) (d : Byte) : evalAt c (parityStep c (1 :: g) r d) x =
      hornerShift c x (evalAt c r x) ^^^ (hornerShift c x)^[g.length] d := by
  have feedback (f : Byte) : evalAt c (g.map fun k => gfMul c f k) x = (hornerShift c x)^[g.length] f := by
    rw [evalAt_map_gfMul field, evalAt_tail_of_root field root, ← iterate_hornerShift_gfMul field, gfMul_comm,
      one_gfMul field]
  obtain ⟨k, r, rfl⟩ := List.exists_cons_of_length_pos (length ▸ positive)
  have leading : hornerShift c x (evalAt c (k :: r) x) =
      (hornerShift c x)^[g.length] k ^^^ hornerShift c x (evalAt c r x) := by
    rw [evalAt_cons field, ← length, List.length_cons, Function.iterate_succ_apply']
    exact xor_gfMul field _ _ x
  calc evalAt c (parityStep c (1 :: g) (k :: r) d) x
    _ = hornerShift c x (evalAt c r x) ^^^ (hornerShift c x)^[g.length] (gfAdd d k) := by
      rw [parityStep, List.drop_one, List.tail_cons, List.tail_cons, List.headD_cons,
        evalAt_zipWith field (by simpa using length), evalAt_concat_zero, feedback]
    _ = hornerShift c x (evalAt c (k :: r) x) ^^^ (hornerShift c x)^[g.length] d := by
      rw [leading, gfAdd, iterate_hornerShift_xor field]
      ac_rfl

/-- R196: at a root the parity is the data moved up by the degree of the generator. -/
theorem evalAt_rsParity {i e : Nat} (root : i < e) (data : List Byte) :
    evalAt c (rsParity c data e) (expRom c i) = (hornerShift c (expRom c i))^[e] (evalAt c data (expRom c i)) := by
  obtain ⟨g, monic⟩ := exists_genPoly_eq_cons c e
  have degree : g.length = e := by simpa [monic] using genPoly_length c e
  have vanishes := evalAt_genPoly_root field root
  rw [monic] at vanishes
  induction data using List.reverseRecOn with
  | nil => exact (evalAt_zeros c e _).trans (Function.iterate_fixed (hornerShift_zero c _) e).symm
  | append_singleton data d ih =>
    have register : (rsParity c data e).length = g.length := (rsParity_length c data e).trans degree.symm
    rw [rsParity_concat, monic, evalAt_parityStep field vanishes register (by omega), ih, degree, evalAt_concat,
      iterate_hornerShift_xor field, ← Function.iterate_succ_apply,
      Function.iterate_succ_apply' (f := hornerShift c (expRom c i))]

end

/-- Settles O32: at a root the parity is the data moved up by e places, and in this field a sum of two equals is 0. -/
theorem codedBlockVanishesAtTheRoots : Obligations.CodedBlockVanishesAtTheRoots := by
  intro c data e field _
  refine ⟨rsParity_length c data e, fun i root => ?_, rfl⟩
  rw [evalAt_append field, rsParity_length, evalAt_rsParity field root]
  exact BitVec.xor_self

end Sys2Proof.Laws

/-! Interleaving (43_ecc.md R197 to R200): where round-robin puts each codeword, the blocks at their offsets, and
RSENC. -/

namespace Sys2Proof.Laws

open Sys2Proof.Machine

/-! ## Round-robin (R198) -/

/-- The codewords of position i, one of each list that has it. -/
def positionRow (lists : List (List Byte)) (i : Nat) : List Byte := lists.filterMap fun l => l[i]?

theorem positionRow_length (lists : List (List Byte)) (i : Nat) :
    (positionRow lists i).length = (lists.map List.length).countP fun n => decide (i < n) := by
  rw [positionRow, List.length_filterMap_eq_countP, List.countP_map]
  exact List.countP_congr fun l _ => by simp

/-- In its row a codeword stands behind those of the earlier lists. -/
theorem positionRow_getElem? {lists : List (List Byte)} {b i : Nat} {l : List Byte} {x : Byte}
    (list : lists[b]? = some l) (entry : l[i]? = some x) :
    (positionRow lists i)[(positionRow (lists.take b) i).length]? = some x := by
  obtain ⟨below, rfl⟩ := List.getElem?_eq_some_iff.mp list
  have parts : positionRow lists i = positionRow (lists.take b) i ++ x :: positionRow (lists.drop (b + 1)) i := by
    conv_lhs => rw [← List.take_append_drop b lists, List.drop_eq_getElem_cons below]
    rw [positionRow, List.filterMap_append, List.filterMap_cons_some (f := fun l : List Byte => l[i]?) entry]
    rfl
  rw [parts, List.getElem?_append_right le_rfl, Nat.sub_self, List.getElem?_cons_zero]

/-- The rows before position i, row i, and the rows behind it. -/
theorem roundRobin_eq_append {lists : List (List Byte)} {i : Nat} {l : List Byte} (listed : l ∈ lists)
    (below : i < l.length) :
    ∃ behind, roundRobin lists =
      (List.range i).flatMap (positionRow lists) ++ (positionRow lists i ++ behind) := by
  obtain ⟨n, longest⟩ := Nat.exists_eq_add_of_lt (below.trans_le (length_le_longest listed))
  refine ⟨(List.range n).flatMap fun j => positionRow lists (i + 1 + j), ?_⟩
  rw [roundRobin, longest, Nat.add_right_comm, List.range_add, List.range_succ, List.flatMap_append,
    List.flatMap_append, List.flatMap_map, List.flatMap_singleton, List.append_assoc]
  rfl

/-- Settles O35: before row i stand the earlier positions of every list, and in row i the earlier lists. -/
theorem interleavingIsRoundRobin : Obligations.InterleavingIsRoundRobin := by
  refine fun lists => ⟨roundRobin_length lists, fun b l i x list entry => ?_⟩
  obtain ⟨below, -⟩ := List.getElem?_eq_some_iff.mp entry
  obtain ⟨behind, parts⟩ := roundRobin_eq_append (List.mem_of_getElem? list) below
  have earlier : ((List.range i).flatMap (positionRow lists)).length =
      ((lists.map List.length).map fun n => min n i).sum := by
    rw [List.map_map]
    exact (length_positionsBelow lists i).trans
      (congrArg List.sum (List.map_congr_left fun l _ => Nat.min_comm i l.length))
  have index : roundRobinIndex (lists.map List.length) i b =
      ((List.range i).flatMap (positionRow lists)).length + (positionRow (lists.take b) i).length := by
    rw [roundRobinIndex, earlier, positionRow_length, List.map_take]
  have row := positionRow_getElem? list entry
  rw [parts, index, List.getElem?_append_right (Nat.le_add_right _ _), Nat.add_sub_cancel_left,
    List.getElem?_append_left (List.getElem?_eq_some_iff.mp row).1, row]

/-! ## Blocks (R197) -/

theorem blockAt_cons_succ (c : Config) (k e : Nat) (shapes : List (Nat × Nat)) (data : List Byte) (b : Nat) :
    blockAt c ((k, e) :: shapes) data (b + 1) = blockAt c shapes (data.drop k) b := by
  simp [blockAt, List.drop_drop]

/-- Cutting the blocks one after another cuts each at its own offset. -/
theorem codeBlocks_eq_map_blockAt (c : Config) (shapes : List (Nat × Nat)) (data : List Byte) :
    codeBlocks c shapes data = (List.range shapes.length).map (blockAt c shapes data) := by
  induction shapes generalizing data with
  | nil => rfl
  | cons shape shapes ih =>
    obtain ⟨k, e⟩ := shape
    rw [codeBlocks, ih, List.length_cons, List.range_succ_eq_map, List.map_cons, List.map_map]
    exact congrArg _ (List.map_congr_left fun b _ => (blockAt_cons_succ c k e shapes data b).symm)

theorem blockShapes_length (gs : List Group) : (blockShapes gs).length = blocksOf gs := by
  rw [blockShapes, List.length_flatMap]
  simp only [List.length_replicate, blocksOf]

/-! ## A command that stores codewords (R200, R214, R215) -/

/-- The state after a command that stores codewords from an index on and moves to a stage. -/
def storedCodewords (s : State) (base : Nat) (vs : List Byte) (stage : Stage) : State :=
  succeed { setCwBytes s base vs with stage := stage }

section
variable (s : State) (base : Nat) (vs : List Byte) (stage : Stage)

theorem cwBytes_storedCodewords : cwBytes (storedCodewords s base vs stage) base vs.length = vs :=
  cwBytes_of_setCwBytes (s := s) rfl rfl rfl

theorem cwByte_storedCodewords {j : Nat} (outside : j < base ∨ base + vs.length ≤ j) :
    cwByte (storedCodewords s base vs stage) j = cwByte s j :=
  cwByte_setCwBytes_frame (s := s) (vs := vs) outside

theorem storedCodewords_frame : { storedCodewords s base vs stage with cwbuf := s.cwbuf, cwFree := s.cwFree } =
    completed { s with stage := stage } :=
  congrArg (fun t : State => completed { t with stage := stage }) (setCwBytes_frame s base vs)

end

/-! ## RSENC (R200) -/

theorem exec_rsenc_ready {s : State} (ready : s.error = false) (stage : s.stage = .built) :
    exec .rsenc s = .next (finish (rsencRule s)) := by
  show Host.Outcome.next (runRule rsencStage s) = _
  rw [runRule_ready ready, rsencStage, requireStage_at stage]

/-- Settles O36: RSENC stores the interleaved blocks, whose successive cuts are those at their own offsets. -/
theorem rsencWritesTheInterleavedBlocks : Obligations.RsencWritesTheInterleavedBlocks := by
  intro s ready stage gs shapes blocks
  have cut : codeBlocks s.cfg (blockShapes gs) (cwBytes s 0 (dataOf gs)) = blocks := by
    rw [codeBlocks_eq_map_blockAt, blockShapes_length]
    rfl
  have parity : ∀ g ∈ gs, g.k ≤ g.c := fun g hg => by
    obtain ⟨-, -, below, -⟩ := (groupsOf_bounds s.params s.viSel.toNat s.eclSel).1 g hg
    exact below.le
  have length : totalOf gs = (interleave blocks).length := by
    rw [← cut, interleave_length s.cfg parity (cwBytes_length s 0 _)]
  refine ⟨storedCodewords s 0 (interleave blocks) .coded, ?_, ?_, fun j past => ?_, storedCodewords_frame s 0 _ _,
    encodedAs_of_operandFree .rsenc (by decide)⟩
  · rw [exec_rsenc_ready ready stage, ← cut]
    rfl
  · rw [length]
    exact cwBytes_storedCodewords s 0 _ _
  · exact cwByte_storedCodewords s 0 _ _ (.inr (by omega))

end Sys2Proof.Laws

/-! The diagnostic commands (43_ecc.md R210 to R215): the encoding clauses of a command with operands, GF_MUL as the
product of polynomials, and what each command leaves. -/

namespace Sys2Proof.Laws

open Sys2Proof.Machine

/-! ## The encoding clauses of a command with operands (30_encoding.md R93) -/

/-- A field of a word that reads 0 has no bit set. -/
theorem and_fieldMask_eq_zero {x : Word} {lo width : Nat} (reserved : x.extractLsb' lo width = 0) :
    x &&& (BitVec.allOnes width).setWidth 32 <<< lo = 0 := by
  refine BitVec.eq_of_getLsbD_eq fun i _ => ?_
  by_cases inside : lo ≤ i ∧ i - lo < width
  · obtain ⟨above, below⟩ := inside
    have bit := congrArg (·.getLsbD (i - lo)) reserved
    have clear : x.getLsbD i = false := by simpa [below, above] using bit
    rw [BitVec.getLsbD_and, clear, Bool.false_and]
    exact BitVec.getLsbD_zero.symm
  · have outside : ((BitVec.allOnes width).setWidth 32 <<< lo).getLsbD i = false := by
      rw [BitVec.getLsbD_shiftLeft, BitVec.getLsbD_setWidth, BitVec.getLsbD_allOnes]
      grind
    rw [BitVec.getLsbD_and, outside, Bool.and_false]
    exact BitVec.getLsbD_zero.symm

/-- R93: the word of a command, and that a bit outside its operands makes it IllegalCommand, when no word that decodes
to its opcode has such a bit. -/
theorem encodedAs_of_reserved {i : Instr} {operandBits : Word} (wf : i.wf = true)
    (reserved : ∀ (x : Word) (j : Instr), opcode j = opcode i → decode x = .ok j →
      x &&& 0x00FFFFFF &&& ~~~operandBits = 0) : encodedAs i (encode i) operandBits := by
  refine ⟨rfl, fun x opc set => ?_⟩
  have opcX : opcField x = opcode i := by
    rw [← opcOf_eq_opcField, opcOf, opc, ← opcOf, opcOf_eq_opcField]
    exact (fields_of_encode i wf).1
  cases decoded : decode x with
  | error why => exact ⟨⟨why, rfl⟩, fun s ready => execute_illegal ready decoded⟩
  | ok j => exact absurd (reserved x j ((fields_of_decode decoded).1.symm.trans opcX) decoded) set

section
variable {i : Instr} {base a b : Nat} (opc : opcode i * 2 ^ 24 = base) (boundB : b < 256) (f0 : operandF0 i = b)
include opc boundB f0

/-- The word of a command with two operands, whose reserved bits are [23:16]. -/
theorem encodedAs_of_twoOperands (boundA : a < 256) (f1 : operandF1 i = a) :
    encodedAs i (BitVec.ofNat 32 (base + a * 2 ^ 8 + b)) 0x0000FFFF := by
  subst opc f1 f0
  refine encodedAs_of_reserved ((wf_iff_operands_lt i).mpr ⟨boundA, boundB⟩) fun x j _ decoded => ?_
  obtain ⟨-, f2, -⟩ := fields_of_decode decoded
  rw [BitVec.and_assoc]
  exact and_fieldMask_eq_zero ((extractLsb'_f2_eq_zero_iff x).mpr f2)

/-- The word of a command with one operand, whose reserved bits are [23:8]. -/
theorem encodedAs_of_oneOperand (one : opcode i ∈ oneOperandOpcodes) :
    encodedAs i (BitVec.ofNat 32 (base + b)) 0x000000FF := by
  have f1 := operandF1_of_oneOperand i one
  have word : encode i = BitVec.ofNat 32 (base + b) := by rw [encode, opc, f1, f0, Nat.zero_mul, Nat.add_zero]
  rw [← word]
  have wf : i.wf = true := (wf_iff_operands_lt i).mpr ⟨f1 ▸ Nat.two_pow_pos 8, f0 ▸ boundB⟩
  refine encodedAs_of_reserved wf fun x j same decoded => ?_
  obtain ⟨-, f2, f1, -⟩ := fields_of_decode decoded
  rw [operandF1_of_oneOperand j (same ▸ one)] at f1
  have reserved : x.extractLsb' 8 16 = 0 := by
    rw [← BitVec.toNat_inj, toNat_extractLsb'_eq]
    simp only [f2Field, f1Field] at f2 f1
    change _ = 0
    omega
  rw [BitVec.and_assoc]
  exact and_fieldMask_eq_zero reserved

end

/-! ## The product of polynomials (R210) -/

theorem polyMul_succ (n a b : Nat) :
    polyMul (n + 1) a b = polyMul n a b ^^^ if a.testBit n then b <<< n else 0 := by
  rw [polyMul, List.range_succ, List.foldl_append, List.foldl_cons, List.foldl_nil, polyMul]
  split <;> simp

/-- Horner's scheme on the bits of the first factor. -/
theorem polyMul_bit (n : Nat) (low : Bool) (a b : Nat) :
    polyMul (n + 1) (Nat.bit low a) b = (polyMul n a b) <<< 1 ^^^ if low then b else 0 := by
  induction n with
  | zero => simp [polyMul]
  | succ n ih =>
    have top : (if a.testBit n then b <<< (n + 1) else 0) = (if a.testBit n then b <<< n else 0) <<< 1 := by
      split
      · exact Nat.shiftLeft_add b n 1
      · rfl
    rw [polyMul_succ, ih, polyMul_succ n, Nat.testBit_bit_succ, Nat.shiftLeft_xor_distrib, top]
    ac_rfl

/-- A byte shifted by one place is its double and the polynomial PRIM, if a bit has left the byte. -/
theorem toNat_shiftLeft_eq_twice (x : Byte) :
    x.toNat <<< 1 = (twice x).toNat ^^^ if 256 ≤ 2 * x.toNat then 0x11D else 0 := by
  rw [toNat_twice, gfDouble]
  split <;> simp [Nat.shiftLeft_eq, Nat.mul_comm]

theorem ofNat_bit {a : Nat} (small : a < 128) (low : Bool) :
    BitVec.ofNat 8 (Nat.bit low a) = twice (BitVec.ofNat 8 a) ^^^ if low then 1 else 0 := by
  revert a low
  decide +kernel

section
variable {c : Config} (field : referenceField c) {b : Nat} (byte : b < 256)
include field byte

/-- The same scheme for the product by the tables. -/
theorem gfMul_bit {a : Nat} (small : a < 128) (low : Bool) :
    (gfMul c (BitVec.ofNat 8 (Nat.bit low a)) (BitVec.ofNat 8 b)).toNat =
      (twice (gfMul c (BitVec.ofNat 8 a) (BitVec.ofNat 8 b))).toNat ^^^ if low then b else 0 := by
  rw [ofNat_bit small, xor_gfMul field, twice_gfMul field, BitVec.toNat_xor]
  cases low
  · rw [if_neg Bool.false_ne_true, zero_gfMul]
    rfl
  · rw [if_pos rfl, one_gfMul field, BitVec.toNat_ofNat, Nat.mod_eq_of_lt byte]
    rfl

/-- R192, R210: the product by the tables is the remainder of the product of polynomials by PRIM. Each bit of the first
factor shifts the remainder, and a bit that leaves the byte goes into the quotient. -/
theorem polyMul_eq_gfMul {n a : Nat} (places : n ≤ 7) (bound : a < 2 ^ (n + 1)) : ∃ q < 2 ^ n,
    polyMul (n + 1) a b = polyMul n q 0x11D ^^^ (gfMul c (BitVec.ofNat 8 a) (BitVec.ofNat 8 b)).toNat := by
  induction n generalizing a with
  | zero =>
    cases a using Nat.bitCasesOn with
    | bit low a =>
      obtain rfl : a = 0 := Nat.lt_one_iff.mp (Nat.bit_lt_two_pow_succ_iff.mp bound)
      refine ⟨0, Nat.one_pos, ?_⟩
      rw [polyMul_bit, gfMul_bit field byte (by decide), show BitVec.ofNat 8 0 = 0 from rfl, zero_gfMul, twice_zero]
      simp [polyMul]
  | succ n ih =>
    cases a using Nat.bitCasesOn with
    | bit low a =>
      have boundA : a < 2 ^ (n + 1) := Nat.bit_lt_two_pow_succ_iff.mp bound
      have small : a < 128 := boundA.trans_le (Nat.pow_le_pow_right (by decide) (by omega : n + 1 ≤ 7))
      obtain ⟨q, boundQ, rest⟩ := ih (by omega) boundA
      let r := gfMul c (BitVec.ofNat 8 a) (BitVec.ofNat 8 b)
      refine ⟨Nat.bit (decide (256 ≤ 2 * r.toNat)) q, Nat.bit_lt_two_pow_succ_iff.mpr boundQ, ?_⟩
      rw [polyMul_bit, rest, Nat.shiftLeft_xor_distrib, toNat_shiftLeft_eq_twice, polyMul_bit,
        gfMul_bit field byte small]
      simp only [decide_eq_true_eq, r]
      ac_rfl

end

/-! ## Commands that check their operands -/

section
variable {p : Prop} [Decidable p] {f : Failure} {g : State → State} {s : State} (ready : s.error = false)
include ready

theorem runRule_checked_success (legal : ¬p) :
    runRule (fun s => if p then .failed f s else .success (g s)) s = succeed (g s) := by
  rw [runRule_ready ready, if_neg legal, finish]

theorem runRule_checked_failed (kind : isEncodingError f.kind = false) (illegal : p) :
    runRule (fun s => if p then .failed f s else .success (g s)) s = interfaceError f.kind f.opc f.exp f.act s := by
  rw [runRule_ready ready, if_pos illegal, finish, raiseError_interface ready kind]

end

/-- ERR_ACT holds a command word given as a number (60_exceptions.md R321). -/
theorem interfaceError_ofNat (kind : ErrKind) (opc expWord n : Nat) (s : State) :
    interfaceError kind opc expWord (BitVec.ofNat 32 n).toNat s = interfaceError kind opc expWord n s := by
  rw [interfaceError, BitVec.ofNat_toNat, BitVec.setWidth_eq, interfaceError]

/-! ## The statements -/

theorem ofNat_ne_zero {a : Nat} (bound : a < 256) (nonzero : a ≠ 0) : BitVec.ofNat 8 a ≠ 0 := by
  rw [ne_eq, ← BitVec.toNat_inj, BitVec.toNat_ofNat, Nat.mod_eq_of_lt bound]
  exact nonzero

/-- Settles O28: the rule succeeds with `gfMul`, the product of polynomials by `polyMul_eq_gfMul`. -/
theorem gfMulMultiplies : Obligations.GfMulMultiplies := by
  intro s a b ready boundA boundB
  refine ⟨_, congrArg Host.Outcome.next (runRule_ready ready), rfl, fun field => ?_,
    encodedAs_of_twoOperands (by rw [opcode]; decide) boundB rfl boundA rfl⟩
  exact polyMul_eq_gfMul field boundB le_rfl boundA

/-- Settles O29: the rule succeeds with EXP[n], a power of ALPHA below 255. -/
theorem gfExpReadsTheTable : Obligations.GfExpReadsTheTable := by
  intro s n ready bound
  refine ⟨congrArg Host.Outcome.next (runRule_ready ready),
    fun field => ⟨expRom_ne_zero field n, ?_, fun below => if_pos below⟩,
    encodedAs_of_oneOperand (by rw [opcode]; decide) bound rfl (by rw [opcode]; decide)⟩
  rintro rfl
  rfl

/-- Settles O30: the operand is a power of ALPHA, whose exponent LOG gives; 0 is refused. -/
theorem gfLogInvertsGfExp : Obligations.GfLogInvertsGfExp := by
  intro s a ready bound
  refine ⟨fun nonzero => ⟨congrArg Host.Outcome.next (runRule_checked_success ready nonzero), fun field => ?_⟩,
    fun zero => ?_, encodedAs_of_oneOperand (by rw [opcode]; decide) bound rfl (by rw [opcode]; decide)⟩
  · obtain ⟨n, below, power, log⟩ := exists_log field (ofNat_ne_zero bound nonzero)
    rw [logRom, log, toNat_ofNat_log below, power]
    exact ⟨by omega, expRom_of_lt field below⟩
  · subst zero
    exact congrArg Host.Outcome.next (runRule_checked_failed ready rfl rfl)

/-- Settles O31: the inverse by the logarithms; 0 is refused. -/
theorem gfInvInverts : Obligations.GfInvInverts := by
  intro s a ready bound
  refine ⟨fun nonzero =>
    ⟨_, congrArg Host.Outcome.next (runRule_checked_success ready nonzero), rfl, fun field => ?_⟩,
    fun zero => ?_, encodedAs_of_oneOperand (by rw [opcode]; decide) bound rfl (by rw [opcode]; decide)⟩
  · have byte := ofNat_ne_zero bound nonzero
    exact ⟨gfMul_gfInv field byte, gfInv_gfInv field byte⟩
  · subst zero
    exact congrArg Host.Outcome.next (runRule_checked_failed ready rfl rfl)

/-- Settles O33: the rule stores the parity behind the data, or is refused with the word `encoding` gives. -/
theorem rsBlockAppendsTheParity : Obligations.RsBlockAppendsTheParity := by
  intro s k e ready boundK boundE
  let parity := rsParity s.cfg (cwBytes s 0 k) e
  have length : parity.length = e := rsParity_length s.cfg _ e
  have encoding : encodedAs (.rsBlock k e) (BitVec.ofNat 32 (0x24000000 + k * 2 ^ 8 + e)) 0x0000FFFF :=
    encodedAs_of_twoOperands (by rw [opcode]; decide) boundE rfl boundK rfl
  refine ⟨fun nonzero fits => ⟨storedCodewords s k parity .none, ?_, ?_, fun j outside => ?_,
    storedCodewords_frame s k parity .none⟩, fun illegal => ?_, encoding⟩
  · exact congrArg Host.Outcome.next (runRule_checked_success ready (by omega))
  · have stored := cwBytes_storedCodewords s k parity .none
    rwa [length] at stored
  · exact cwByte_storedCodewords s k parity .none (by rwa [length])
  · rw [← interfaceError_ofNat, ← encoding.1]
    exact congrArg Host.Outcome.next (runRule_checked_failed ready rfl illegal)

/-- Settles O34: the rule stores the generator, which is monic and has its roots; e = 0 is refused. -/
theorem genPolyWritesTheGenerator : Obligations.GenPolyWritesTheGenerator := by
  intro s e ready bound
  have length := genPoly_length s.cfg e
  have stored := cwBytes_storedCodewords s 0 (genPoly s.cfg e) .none
  rw [length] at stored
  refine ⟨fun nonzero =>
    ⟨storedCodewords s 0 (genPoly s.cfg e) .none, ?_, stored, fun field => ⟨?_, fun i root => ?_⟩,
      fun j past => ?_, storedCodewords_frame s 0 _ .none⟩, fun zero => ?_,
    encodedAs_of_oneOperand (by rw [opcode]; decide) bound rfl (by rw [opcode]; decide)⟩
  · exact congrArg Host.Outcome.next (runRule_checked_success ready nonzero)
  · obtain ⟨g, monic⟩ := exists_genPoly_eq_cons s.cfg e
    show cwByte (setCwBytes s 0 (genPoly s.cfg e)) 0 = 1
    rw [cwByte_setCwBytes, if_pos (by omega), monic]
    rfl
  · rw [stored]
    exact evalAt_genPoly_root field root
  · exact cwByte_storedCodewords s 0 _ .none (.inr (by omega))
  · subst zero
    exact congrArg Host.Outcome.next (runRule_checked_failed ready rfl rfl)

end Sys2Proof.Laws

/-! The Matrix Builder (44_matrix.md R230 to R254): what STAMP and PLACE leave, the zig-zag of the placement order, the
reference layouts, and that no cell of the symbol stays Unset. -/

namespace Sys2Proof.Laws

open Sys2Proof.Machine

/-! ## STAMP (R240) -/

/-- A stage command at its own stage, no error recorded, ends as its rule does (40_control.md R122, R125). -/
theorem runRule_requireStage {required : Stage} {opc : Nat} {rule : State → RuleEnd} {s : State}
    (ready : s.error = false) (stage : s.stage = required) :
    runRule (requireStage required opc rule) s = finish (rule s) := by
  rw [runRule_ready ready, requireStage_at stage]

theorem exec_stamp_ready {s : State} (ready : s.error = false) (stage : s.stage = .coded) :
    exec .stamp s = .next (finish (stampRule s)) :=
  congrArg Host.Outcome.next (runRule_requireStage ready stage)

/-- Settles O38: STAMP ends in `stampRule`'s state, whose cells `cellAt_stampedCells` reads. -/
theorem stampWritesTheLayout : Obligations.StampWritesTheLayout := by
  intro s ready stage v
  refine ⟨_, exec_stamp_ready ready stage, rfl, rfl, fun r c _ hc => ?_, rfl, encodedAs_of_operandFree .stamp (by decide)⟩
  refine (cellAt_stampedCells s.params hc rfl).trans ?_
  split
  · cases geomCell s.cfg v r c <;> rfl
  · rfl

/-! ## The zig-zag (R242) -/

/-- The number of a cell's column pair, counted leftward from the pair of columns w − 2 and w − 3. -/
def pairIndex (w : Nat) (cell : Nat × Nat) : Nat := (w - 2 - cell.2) / 2

/-- Cell a comes before cell b in the zig-zag of a symbol of w columns. -/
def ZigZag (w : Nat) (a b : Nat × Nat) : Prop :=
  pairIndex w a < pairIndex w b ∨
    (pairIndex w a = pairIndex w b ∧ (if pairIndex w a % 2 = 0 then b.1 < a.1 else a.1 < b.1)) ∨
    (pairIndex w a = pairIndex w b ∧ a.1 = b.1 ∧ b.2 < a.2)

theorem sweepRows_pairwise (h : Nat) (up : Bool) :
    (sweepRows h up).Pairwise fun a b => if up then b < a else a < b := by
  cases up with
  | false => exact List.pairwise_lt_range
  | true => exact List.pairwise_reverse.mpr List.pairwise_lt_range

theorem pairOf_pairwise (rc : Nat) : (pairOf rc).Pairwise fun a b => b < a := by
  rw [pairOf]
  split
  · exact List.pairwise_singleton _ _
  · exact List.pairwise_pair.mpr (by omega)

section
variable {w k : Nat}

theorem pairIndex_of_mem_pairOf {r c : Nat} (pair : k < w / 2) (listed : c ∈ pairOf (w - 2 - 2 * k)) :
    pairIndex w (r, c) = k := by
  rw [mem_pairOf] at listed
  rw [pairIndex]
  omega

/-- The sweep over pair k runs upward when k is even. -/
theorem sweep_zigZag (pair : k < w / 2) (h : Nat) : ((sweepRows h (k % 2 == 0)).flatMap fun r =>
    (pairOf (w - 2 - 2 * k)).map fun c => (r, c)).Pairwise (ZigZag w) := by
  refine List.pairwise_flatMap.mpr ⟨fun r _ => List.pairwise_map.mpr ?row, (sweepRows_pairwise h _).imp ?rows⟩
  case row =>
    refine (pairOf_pairwise _).imp_of_mem fun {c d} hc hd before => .inr (.inr ⟨?_, rfl, before⟩)
    rw [pairIndex_of_mem_pairOf pair hc, pairIndex_of_mem_pairOf pair hd]
  case rows =>
    intro r r' before a ha b hb
    obtain ⟨c, hc, rfl⟩ := List.mem_map.mp ha
    obtain ⟨d, hd, rfl⟩ := List.mem_map.mp hb
    refine .inr (.inl ?_)
    rw [pairIndex_of_mem_pairOf pair hc, pairIndex_of_mem_pairOf pair hd]
    exact ⟨rfl, by simpa using before⟩

/-- The sweeps over n successive pairs from pair k on. -/
theorem sweeps_zigZag (h n k : Nat) (pairs : k + n ≤ w / 2) :
    (sweeps h (k % 2 == 0) ((List.range' k n).map fun j => w - 2 - 2 * j)).Pairwise (ZigZag w) := by
  induction n generalizing k with
  | zero => exact .nil
  | succ n ih =>
    have alternate : (!(k % 2 == 0)) = ((k + 1) % 2 == 0) := by
      rw [Bool.eq_iff_iff]
      simp
      omega
    rw [List.range'_succ, List.map_cons, sweeps, alternate]
    refine List.pairwise_append.mpr ⟨sweep_zigZag (by omega) h, ih (k + 1) (by omega), ?_⟩
    rintro ⟨r, c⟩ inFirst ⟨r', c'⟩ inRest
    simp only [List.mem_flatMap, List.mem_map, Prod.mk.injEq] at inFirst
    obtain ⟨_, -, _, hc, -, rfl⟩ := inFirst
    obtain ⟨-, rc, hrc, hc'⟩ := mem_sweeps.mp inRest
    obtain ⟨j, hj, rfl⟩ := List.mem_map.mp hrc
    rw [List.mem_range'_1] at hj
    refine .inl ?_
    rw [pairIndex_of_mem_pairOf (by omega) hc, pairIndex_of_mem_pairOf (by omega) hc']
    omega

end

theorem placementOrder_zigZag (c : Config) (v : Nat) : (placementOrder c v).Pairwise (ZigZag (widthOf c v)) := by
  rw [placementOrder, pairColumns, List.range_eq_range']
  exact (sweeps_zigZag (heightOf c v) _ 0 (by omega)).filter _

/-- Settles O39: the order's cells are the layout's Data cells (`mem_placementOrder`), in the order of the sweeps. -/
theorem placementOrderVisitsEveryDataCellOnce : Obligations.PlacementOrderVisitsEveryDataCellOnce := fun p v version =>
  ⟨placementOrder_nodup p.config v, placementOrder_length p version, fun _ _ => mem_placementOrder p version,
    placementOrder_zigZag p.config v⟩

/-! ## PLACE (R250, R251) -/

theorem exec_place_ready {s : State} (ready : s.error = false) (stage : s.stage = .stamped) :
    exec .place s = .next (finish (placeRule s)) :=
  congrArg Host.Outcome.next (runRule_requireStage ready stage)

/-- The order's cells lie in the matrix memory, even at a version the configuration does not have. -/
theorem column_lt_of_mem_placementOrder (p : Params) (v : Nat) : ∀ q ∈ placementOrder p.config v, q.2 < 256 := by
  rintro ⟨r, c⟩ listed
  rw [placementOrder, List.mem_filter, mem_sweeps, exists_pairColumns] at listed
  obtain ⟨⟨-, hc⟩, -⟩ := listed
  have := (sizes_bounded p v).2
  omega

/-- Bit i of the codewords, most significant first, then the zero bits. -/
theorem placedBits_getD (s : State) (i : Nat) : (placedBits s).getD i false =
    decide (i < 8 * totalOf (selectedGroups s) ∧ (cwByte s (i / 8)).getLsbD (7 - i % 8) = true) := by
  have length : (bitsOfBytes (cwBytes s 0 (totalOf (selectedGroups s)))).length = 8 * totalOf (selectedGroups s) := by
    rw [bitsOfBytes_length, cwBytes_length]
  rw [placedBits, List.getD_eq_getElem?_getD]
  by_cases inCodewords : i < 8 * totalOf (selectedGroups s)
  · rw [List.getElem?_append_left (by omega), bitsOfBytes_getElem? _ _ (by rwa [cwBytes_length]), Option.getD_some,
      List.getD_eq_getElem?_getD, List.getElem?_eq_getElem (by rw [cwBytes_length]; omega), Option.getD_some,
      cwBytes_getElem, Nat.zero_add]
    simp [inCodewords]
  · rw [List.getElem?_append_right (by omega), zeros, List.getElem?_replicate]
    split <;> simp [inCodewords]

/-- Settles O40: PLACE colours cell i of the order by bit i of `placedBits`, and writes no other cell. -/
theorem placeColoursTheDataCells : Obligations.PlaceColoursTheDataCells := by
  intro s ready stage v tcw capacity
  have narrow := column_lt_of_mem_placementOrder s.params v
  have ends : placeRule s = .success
      { setColours s (placementOrder s.cfg v) ((placedBits s).map colourOfBit) with stage := .placed } :=
    if_neg (not_not_intro capacity)
  refine ⟨_, (exec_place_ready ready stage).trans (congrArg (fun r => Host.Outcome.next (finish r)) ends),
    fun version i r c listed => ?_, fun r c hc => cellAt_setColours_tag s _ _ hc narrow,
    fun r c hc other => cellAt_setColours_notMem s _ _ hc narrow other,
    congrArg (fun t : State => completed { t with stage := .placed }) (setColours_frame s _ _),
    encodedAs_of_operandFree .place (by decide)⟩
  have enough : (placementOrder s.cfg v).length ≤ ((placedBits s).map colourOfBit).length := by
    rw [placementOrder_length s.params version, capacity, List.length_map, placedBits_length]
    rfl
  refine (congrArg Cell.colour (cellAt_setColours_getElem? narrow (placementOrder_nodup _ _) enough listed
    (colourOfBit false))).trans ?_
  rw [List.getD_map, placedBits_getD]
  simp only [colourOfBit, decide_eq_true_eq]
  rfl

/-- Entry of a first encoding error (60_exceptions.md R326): the record, and no STAGE. -/
theorem raiseError_encoding {f : Failure} {s : State} (ready : s.error = false)
    (kind : isEncodingError f.kind = true) :
    raiseError f s = { interfaceError f.kind f.opc f.exp f.act s with stage := .none } := by
  simp [raiseError, interfaceError, ready, kind]

/-- Settles O41: the failed PLACE leaves `freePlaceOutputs`, which draws colours for the Data cells alone. -/
theorem placeReportsACapacityMismatch : Obligations.PlaceReportsACapacityMismatch := by
  intro s ready stage v bits mismatch
  have ends : placeRule s = .failed ⟨.matrixCapacityMismatch, 0x14, freeCells s.cfg v, bits⟩ (freePlaceOutputs s) :=
    if_pos mismatch
  have executed := exec_place_ready ready stage
  rw [ends, finish, raiseError_encoding (s := freePlaceOutputs s) ready rfl] at executed
  refine ⟨_, executed, ⟨rfl, rfl, rfl, rfl, rfl, rfl, rfl, rfl⟩, fun r c _ => ?_, fun r c _ fixed =>
    (cellAt_freePlaceOutputs s r c).trans (if_neg fixed)⟩
  refine (congrArg Cell.tag (cellAt_freePlaceOutputs s r c)).trans ?_
  split <;> rfl

/-! ## The reference layouts (R230, R254) -/

/-- A row of the table of R230, with free(v) in the form that evaluates fast. -/
theorem sizes_reference {v : Nat} (known : v < 32) :
    (heightOf State.reset.cfg v, widthOf State.reset.cfg v, freeCells State.reset.cfg v, State.reset.cfg.rem.getD v 0) =
      ((refVtab.getD v (0, 0)).1, (refVtab.getD v (0, 0)).2,
        dataCells (alignColumns refAlign (refVtab.getD v (0, 0)).2) (refVtab.getD v (0, 0)).1 (refVtab.getD v (0, 0)).2,
        refRem.getD v 0) :=
  congrArg (fun free => ((refVtab.getD v (0, 0)).1, (refVtab.getD v (0, 0)).2, free, refRem.getD v 0))
    (freeCells_reference known)

/-- Settles O37: free(v) is counted by `dataCells` on the rows' masks; the three maps are the layout evaluated. -/
theorem stampedMapsOfTheSpec : Obligations.StampedMapsOfTheSpec := by
  refine ⟨?sizes, ?version0, ?version10, ?version16⟩
  case sizes =>
    refine (List.map_congr_left fun v known => sizes_reference (List.mem_range.mp known)).trans ?_
    decide +kernel
  case version0 => decide +kernel
  case version10 => decide +kernel
  case version16 => decide +kernel

/-! ## No cell stays Unset (R253) -/

/-- What the invariant knows of a cell inside MDIM at a stage from STAMPED on. -/
theorem cellOkAt_of_inv {s : State} (inv : Machine.Inv s) {x : Stage} (stage : s.stage = x) (late : 4 ≤ stageCode x)
    {r c : Nat} (inside : insideMatrix s r c) : cellOkAt x (geomCell s.cfg s.viSel.toNat r c) (cellAt s r c) := by
  subst stage
  exact inv.stages.matrix late r c inside

theorem visible_or_reserved_of_cellOkAt_placed {l : Layout} {x : Cell} (h : cellOkAt .placed l x) :
    (x.tag = .data ∨ x.tag = .structural) ∧ darkOrLight x.colour ∨ x.tag = .format ∧ x.colour = .reservedFormat := by
  obtain ⟨tag, colour⟩ := h
  cases l with
  | data => exact .inl ⟨.inl tag, colour⟩
  | format => exact .inr ⟨tag, colour⟩
  | dark => exact .inl ⟨.inr tag, .inl colour⟩
  | light => exact .inl ⟨.inr tag, .inr colour⟩

theorem darkOrLight_of_cellOkAt_formatted {l : Layout} {x : Cell} (h : cellOkAt .formatted l x) :
    darkOrLight x.colour := by
  obtain ⟨-, colour⟩ := h
  cases l with
  | data => exact colour
  | format => exact colour
  | dark => exact .inl colour
  | light => exact .inr colour

/-- Settles O60: a cell inside MDIM holds what its layout allows at the stage (`cellOkAt`), one outside is Unset. -/
theorem noCellStaysUnset : Obligations.NoCellStaysUnset := fun _ inv =>
  ⟨fun stage _ _ inside => visible_or_reserved_of_cellOkAt_placed (cellOkAt_of_inv inv stage (by decide) inside),
    fun stage _ _ inside => darkOrLight_of_cellOkAt_formatted (cellOkAt_of_inv inv stage (by decide) inside),
    inv.matrix.outside⟩

end Sys2Proof.Laws

/-! The penalties of the Mask Evaluator (45_mask.md R272 to R277): the grid as a function of row and column, what each
penalty counts on it, and the bounds of R277. -/

namespace Sys2Proof.Laws

open Sys2Proof.Machine

/-! ## Sums f(0) + … + f(n − 1) -/

section
variable {n m : Nat} {f g : Nat → Nat}

theorem sumBelow_eq_finsetSum (n : Nat) (f : Nat → Nat) : sumBelow n f = ∑ i ∈ Finset.range n, f i := rfl

theorem sumBelow_congr (same : ∀ i < n, f i = g i) : sumBelow n f = sumBelow n g :=
  congrArg List.sum (List.map_congr_left fun i hi => same i (List.mem_range.mp hi))

theorem sumBelow_eq_zero (zero : ∀ i < n, f i = 0) : sumBelow n f = 0 :=
  Finset.sum_eq_zero fun i hi => zero i (Finset.mem_range.mp hi)

theorem sumBelow_eq_single {k : Nat} (hk : k < n) (zero : ∀ i < n, i ≠ k → f i = 0) : sumBelow n f = f k :=
  Finset.sum_eq_single_of_mem k (Finset.mem_range.mpr hk) fun i hi => zero i (Finset.mem_range.mp hi)

theorem sumBelow_add (n m : Nat) (f : Nat → Nat) :
    sumBelow (n + m) f = sumBelow n f + sumBelow m fun i => f (n + i) := by
  simp only [sumBelow_eq_finsetSum, Finset.sum_range_add]

/-- Terms that are 0 from m on need not be summed. -/
theorem sumBelow_eq_of_le (below : m ≤ n) (zero : ∀ i, m ≤ i → i < n → f i = 0) : sumBelow n f = sumBelow m f := by
  obtain ⟨d, rfl⟩ := Nat.exists_eq_add_of_le below
  rw [sumBelow_add, sumBelow_eq_zero (n := d) fun i hi => zero (m + i) (by omega) (by omega), Nat.add_zero]

theorem sumBelow_le {b : Nat} (bound : ∀ i < n, f i ≤ b) : sumBelow n f ≤ n * b := by
  have := Finset.sum_le_card_nsmul (Finset.range n) f b fun i hi => bound i (Finset.mem_range.mp hi)
  rwa [Finset.card_range, smul_eq_mul] at this

theorem sumBelow_le_of_le_one (bound : ∀ i < n, f i ≤ 1) : sumBelow n f ≤ n :=
  (sumBelow_le bound).trans_eq (Nat.mul_one n)

theorem countP_range_eq_sumBelow (n : Nat) (p : Nat → Bool) :
    (List.range n).countP p = sumBelow n fun i => (p i).toNat := by
  induction n with
  | zero => rfl
  | succ n ih =>
    rw [List.range_succ, List.countP_append, ih, sumBelow_add n 1]
    cases h : p n <;> simp [sumBelow, h]

end

/-! ## Lines and grids -/

/-- The cells of a line of n cells. -/
def lineOf (n : Nat) (line : Nat → Bool) : List Bool := (List.range n).map line

/-- The rows of a grid of h rows of w cells. -/
def gridOf (h w : Nat) (value : Nat → Nat → Bool) : List (List Bool) := (List.range h).map fun r => lineOf w (value r)

@[simp] theorem lineOf_length (n : Nat) (line : Nat → Bool) : (lineOf n line).length = n := by simp [lineOf]

theorem lineOf_succ (n : Nat) (line : Nat → Bool) : lineOf (n + 1) line = line 0 :: lineOf n fun i => line (i + 1) := by
  simp [lineOf, List.range_succ_eq_map]

theorem lineOf_getD {n i : Nat} (hi : i < n) (line : Nat → Bool) : (lineOf n line).getD i false = line i := by
  simp [lineOf, List.getD_eq_getElem?_getD, hi]

theorem lineOf_window {n i k : Nat} (inside : i + k ≤ n) (line : Nat → Bool) :
    ((lineOf n line).drop i).take k = lineOf k fun j => line (i + j) := by
  apply List.ext_getElem
  · simp only [List.length_take, List.length_drop, lineOf_length]
    omega
  · intro j _ _
    simp [lineOf]

theorem gridAt_gridOf {h w r c : Nat} (hr : r < h) (hc : c < w) (value : Nat → Nat → Bool) :
    gridAt (gridOf h w value) r c = value r c := by
  have row : (gridOf h w value).getD r [] = lineOf w (value r) := by simp [gridOf, List.getD_eq_getElem?_getD, hr]
  rw [gridAt, row, lineOf_getD hc]

/-- A rectangular list of rows is the grid of its values. -/
theorem eq_gridOf_gridAt {h w : Nat} {grid : List (List Bool)} (rows : grid.length = h)
    (columns : ∀ row ∈ grid, row.length = w) : grid = gridOf h w (gridAt grid) := by
  subst rows
  refine List.ext_getElem (by simp [gridOf]) fun r hr _ => ?_
  have width := columns _ (List.getElem_mem hr)
  refine List.ext_getElem (by simp [gridOf, width]) fun c hc _ => ?_
  simp [gridOf, lineOf, gridAt, List.getD_eq_getElem?_getD, hr, hc]

theorem linesOf_gridOf (h w : Nat) (value : Nat → Nat → Bool) :
    linesOf w (gridOf h w value) = gridOf h w value ++ gridOf w h fun c r => value r c := by
  refine congrArg (gridOf h w value ++ ·) (List.map_congr_left fun c hc => ?_)
  rw [gridOf, List.map_map]
  exact List.map_congr_left fun r _ => lineOf_getD (List.mem_range.mp hc) _

/-- A measure of a line's cells, summed over the lines of a grid (R272). -/
theorem sum_linesOf_gridOf {measure : List Bool → Nat} {score : Nat → (Nat → Bool) → Nat}
    (same : ∀ n line, measure (lineOf n line) = score n line) (h w : Nat) (value : Nat → Nat → Bool) :
    ((linesOf w (gridOf h w value)).map measure).sum = sumOverLines h w value score := by
  have sumRows : ∀ h w value, ((gridOf h w value).map measure).sum = sumBelow h fun r => score w (value r) := by
    intro h w value
    rw [gridOf, List.map_map]
    exact congrArg List.sum (List.map_congr_left fun r _ => same w (value r))
  rw [linesOf_gridOf, List.map_append, List.sum_append, sumRows, sumRows]
  rfl

theorem sumOverLines_le {score : Nat → (Nat → Bool) → Nat} {b : Nat} (bound : ∀ n ≤ 256, ∀ line, score n line ≤ b)
    {h w : Nat} (hh : h ≤ 256) (hw : w ≤ 256) (value : Nat → Nat → Bool) :
    sumOverLines h w value score ≤ (h + w) * b := by
  have rows := sumBelow_le (n := h) fun r _ => bound w hw (value r)
  have columns := sumBelow_le (n := w) fun c _ => bound h hh fun r => value r c
  rw [Nat.add_mul]
  exact Nat.add_le_add rows columns

/-! ## pen_a: runs (R273) -/

section
variable {n1 n k m i : Nat} {line : Nat → Bool}

/-- A run cannot end before a longer one from the same cell does. -/
theorem length_le_of_isMaximalRun {k' : Nat} (run : isMaximalRun n line i k) (run' : isMaximalRun n line i k') :
    k' ≤ k := by
  obtain ⟨-, -, -, ends⟩ := run
  obtain ⟨inside, equal, -, -⟩ := run'
  by_contra longer
  rcases ends with ends | ends
  · omega
  · exact ends (equal k (by omega))

/-- What the maximal run from cell i adds, if there is one of five cells or more. -/
def runScoreAt (n1 n : Nat) (line : Nat → Bool) (i : Nat) : Nat :=
  sumBelow (n + 1) fun k => if 5 ≤ k ∧ isMaximalRun n line i k then n1 + (k - 5) else 0

theorem runScore_eq (n1 n : Nat) (line : Nat → Bool) : runScore n1 n line = sumBelow n (runScoreAt n1 n line) := rfl

theorem runScoreAt_of_isMaximalRun (run : isMaximalRun n line i k) : runScoreAt n1 n line i = runPenalty n1 k := by
  have inside : i + k ≤ n := run.1
  rw [runScoreAt, sumBelow_eq_single (k := k) (by omega)]
  · rw [runPenalty]
    exact if_congr (and_iff_left run) rfl rfl
  · intro k' _ other
    refine if_neg fun ⟨_, run'⟩ => other ?_
    exact Nat.le_antisymm (length_le_of_isMaximalRun run run') (length_le_of_isMaximalRun run' run)

theorem runScoreAt_eq_zero (before : i ≠ 0) (same : line (i - 1) = line i) : runScoreAt n1 n line i = 0 :=
  sumBelow_eq_zero fun _ _ => if_neg fun ⟨_, _, _, starts, _⟩ => starts.elim before (· same)

/-- A run from where the value changes is one of the line that begins there. -/
theorem isMaximalRun_add (change : line (k - 1) ≠ line k) (len : Nat) :
    isMaximalRun (k + m) line (k + i) len ↔ isMaximalRun m (fun j => line (k + j)) i len := by
  have starts : (k + i = 0 ∨ line (k + i - 1) ≠ line (k + i)) ↔ (i = 0 ∨ line (k + (i - 1)) ≠ line (k + i)) := by
    cases i with
    | zero => exact iff_of_true (.inr change) (.inl rfl)
    | succ i => simp [← Nat.add_assoc]
  simp only [isMaximalRun, starts, Nat.add_assoc, Nat.add_le_add_iff_left, Nat.add_left_cancel_iff]

theorem runScoreAt_add (change : line (k - 1) ≠ line k) :
    runScoreAt n1 (k + m) line (k + i) = runScoreAt n1 m (fun j => line (k + j)) i := by
  simp only [runScoreAt, isMaximalRun_add change]
  refine sumBelow_eq_of_le (by omega) fun len long _ => if_neg fun ⟨_, inside, _⟩ => ?_
  omega

/-- The first run of a line, and what follows it. -/
theorem runScore_add (hk : 0 < k) (equal : ∀ i < k, line i = line 0) (ends : m = 0 ∨ line k ≠ line 0) :
    runScore n1 (k + m) line = runPenalty n1 k + runScore n1 m fun j => line (k + j) := by
  have run : isMaximalRun (k + m) line 0 k := by
    refine ⟨by omega, fun j hj => ?_, .inl rfl, ends.imp (by omega) fun change => ?_⟩
    · rw [Nat.zero_add]
      exact equal j hj
    · rwa [Nat.zero_add]
  rw [runScore_eq, sumBelow_add, runScore_eq]
  refine congrArg₂ (· + ·) ?first (sumBelow_congr fun i hi => ?rest)
  case first =>
    rw [sumBelow_eq_single hk fun i hi later => runScoreAt_eq_zero later ?_, runScoreAt_of_isMaximalRun run]
    rw [equal (i - 1) (by omega), equal i hi]
  case rest =>
    refine runScoreAt_add ?_
    rw [equal (k - 1) (by omega)]
    exact (ends.resolve_left (by omega)).symm

/-- The run lengths counted from a run of k cells that the line begins with. -/
theorem sum_runsFrom_lineOf (hk : 0 < k) (equal : ∀ i < k, line i = line 0) :
    ((runsFrom (line 0) k (lineOf m fun i => line (k + i))).map (runPenalty n1)).sum = runScore n1 (k + m) line := by
  induction m generalizing k line with
  | zero => exact (runScore_add hk equal (.inl rfl)).symm
  | succ m ih =>
    rw [lineOf_succ, runsFrom]
    split
    · next same =>
      have longer : ∀ i < k + 1, line i = line 0 := fun i hi =>
        (Nat.lt_succ_iff_lt_or_eq.mp hi).elim (equal i) fun last => last ▸ same
      have rest := ih (Nat.add_pos_left hk 1) longer
      simpa only [Nat.add_assoc, Nat.add_comm 1] using rest
    · next change =>
      have rest := ih (k := 1) (line := fun j => line (k + j)) Nat.one_pos fun i hi => by rw [Nat.lt_one_iff.mp hi]
      simp only [Nat.add_comm 1] at rest
      rw [runScore_add hk equal (.inr change), ← rest]
      rfl

theorem sum_runLengths_lineOf (n1 n : Nat) (line : Nat → Bool) :
    ((runLengths (lineOf n line)).map (runPenalty n1)).sum = runScore n1 n line := by
  cases n with
  | zero => rfl
  | succ n =>
    rw [lineOf_succ, Nat.add_comm n 1, runLengths,
      ← sum_runsFrom_lineOf Nat.one_pos fun i hi => by rw [Nat.lt_one_iff.mp hi]]
    simp only [Nat.add_comm 1]

theorem penaltyRuns_gridOf (n1 h w : Nat) (value : Nat → Nat → Bool) :
    penaltyRuns n1 (linesOf w (gridOf h w value)) = sumOverLines h w value (runScore n1) :=
  sum_linesOf_gridOf (sum_runLengths_lineOf n1) h w value

/-- The runs cover the line. -/
theorem sum_runsFrom (cur : Bool) (k : Nat) (bs : List Bool) : (runsFrom cur k bs).sum = k + bs.length := by
  induction bs generalizing cur k with
  | nil => simp [runsFrom]
  | cons b bs ih =>
    rw [runsFrom]
    split
    · rw [ih, List.length_cons, Nat.add_assoc, Nat.add_comm 1]
    · rw [List.sum_cons, ih, List.length_cons, Nat.add_comm 1]

theorem sum_runLengths (l : List Bool) : (runLengths l).sum = l.length := by
  cases l with
  | nil => rfl
  | cons b bs => rw [runLengths, sum_runsFrom, List.length_cons, Nat.add_comm]

/-- A run adds at most N1 + 1 for each of its cells. -/
theorem runPenalty_le (n1 k : Nat) : runPenalty n1 k ≤ k * (n1 + 1) := by
  rw [runPenalty]
  split
  · next long =>
    have : n1 ≤ k * n1 := Nat.le_mul_of_pos_left n1 (by omega)
    rw [Nat.mul_succ]
    omega
  · exact Nat.zero_le _

theorem runScore_le (n1 n : Nat) (line : Nat → Bool) : runScore n1 n line ≤ n * (n1 + 1) := by
  have cells : (runLengths (lineOf n line)).sum = n := by rw [sum_runLengths, lineOf_length]
  calc runScore n1 n line
    _ = ((runLengths (lineOf n line)).map (runPenalty n1)).sum := (sum_runLengths_lineOf n1 n line).symm
    _ ≤ ((runLengths (lineOf n line)).map fun k => k * (n1 + 1)).sum := List.sum_le_sum fun k _ => runPenalty_le n1 k
    _ = n * (n1 + 1) := by rw [List.sum_map_mul_right, List.map_id', cells]

end

/-! ## pen_b: uniform blocks (R274) -/

theorem uniformBlock_gridOf {h w r c : Nat} (hr : r + 1 < h) (hc : c + 1 < w) (value : Nat → Nat → Bool) :
    (uniformBlock (gridOf h w value) r c).toNat =
      if r + 1 < h ∧ c + 1 < w ∧ value r (c + 1) = value r c ∧ value (r + 1) c = value r c
        ∧ value (r + 1) (c + 1) = value r c then 1 else 0 := by
  have values := fun {r c} (hr : r < h) (hc : c < w) => gridAt_gridOf hr hc value
  rw [uniformBlock, values (Nat.lt_of_succ_lt hr) hc, values hr (Nat.lt_of_succ_lt hc),
    values (Nat.lt_of_succ_lt hr) (Nat.lt_of_succ_lt hc), values hr hc, Bool.toNat]
  simp [hr, hc, Bool.cond_eq_ite, and_assoc]

theorem penaltyBlocks_gridOf (n2 h w : Nat) (value : Nat → Nat → Bool) :
    penaltyBlocks n2 h w (gridOf h w value) = n2 * uniformBlocks h w value := by
  refine congrArg (n2 * ·) ?_
  rw [uniformBlocks, sumBelow_eq_of_le (Nat.sub_le h 1) fun r last _ => sumBelow_eq_zero fun c _ => if_neg (by omega)]
  refine sumBelow_congr fun r hr => ?_
  rw [countP_range_eq_sumBelow, sumBelow_eq_of_le (n := w) (Nat.sub_le w 1) fun c last _ => if_neg (by omega)]
  exact sumBelow_congr fun c hc => uniformBlock_gridOf (by omega) (by omega) value

theorem uniformBlocks_le (h w : Nat) (value : Nat → Nat → Bool) : uniformBlocks h w value ≤ h * w :=
  sumBelow_le fun r _ => sumBelow_le_of_le_one fun c _ => by split <;> omega

/-! ## pen_c: windows like P1 or P2 (R275) -/

theorem toNat_injective : Function.Injective Bool.toNat := by rw [Function.Injective]; decide

theorem finderLike_lineOf (n : Nat) (line : Nat → Bool) : finderLike (lineOf n line) = finderWindows n line := by
  rw [finderLike, lineOf_length, countP_range_eq_sumBelow, finderWindows,
    sumBelow_eq_of_le (n := n) (Nat.sub_le n 10) fun i late _ => if_neg (by omega)]
  refine sumBelow_congr fun i hi => ?_
  have window : ((List.range 11).map fun j => (line (i + j)).toNat) =
      (lineOf 11 fun j => line (i + j)).map Bool.toNat := by
    rw [lineOf, List.map_map]
    rfl
  have patterns : [[1, 0, 1, 1, 1, 0, 1, 0, 0, 0, 0], [0, 0, 0, 0, 1, 0, 1, 1, 1, 0, 1]] =
      [patternP1.map Bool.toNat, patternP2.map Bool.toNat] := rfl
  have inside : i + 11 ≤ n := by omega
  rw [lineOf_window inside, window, patterns]
  simp only [List.mem_cons, List.not_mem_nil, or_false, List.map_inj_right toNat_injective, inside, true_and]
  rw [Bool.toNat, Bool.cond_eq_ite]
  simp

theorem penaltyFinders_gridOf (n3 h w : Nat) (value : Nat → Nat → Bool) :
    penaltyFinders n3 (linesOf w (gridOf h w value)) = n3 * sumOverLines h w value finderWindows :=
  congrArg (n3 * ·) (sum_linesOf_gridOf finderLike_lineOf h w value)

theorem finderWindows_le (n : Nat) (line : Nat → Bool) : finderWindows n line ≤ n :=
  sumBelow_le_of_le_one fun i _ => by split <;> omega

/-! ## pen_d: the dark share (R276) -/

theorem darkCells_gridOf (h w : Nat) (value : Nat → Nat → Bool) : darkCells (gridOf h w value) = darkSum h w value := by
  rw [darkCells, gridOf, List.map_map]
  refine sumBelow_congr fun r _ => ?_
  rw [Function.comp, lineOf, List.countP_map]
  exact countP_range_eq_sumBelow w (value r)

theorem penaltyBalance_eq (n4 dark tot : Nat) : penaltyBalance n4 dark tot = n4 * balanceSteps dark tot := by
  rw [penaltyBalance, balanceSteps]
  congr 2
  omega

theorem darkSum_le (h w : Nat) (value : Nat → Nat → Bool) : darkSum h w value ≤ h * w :=
  sumBelow_le fun _ _ => sumBelow_le_of_le_one fun _ _ => Bool.toNat_le _

/-- The dark share is between 0 and 1, so it deviates from one half by at most ten steps. -/
theorem balanceSteps_le {dark tot : Nat} (part : dark ≤ tot) : balanceSteps dark tot ≤ 10 := by
  rw [balanceSteps]
  exact Nat.div_le_of_le_mul (by omega)

/-! ## The whole penalty and its bounds (R277) -/

theorem penaltyOf_gridOf (c : Config) (h w : Nat) (value : Nat → Nat → Bool) :
    penaltyOf c h w (gridOf h w value) = penaltyScore c h w value := by
  rw [penaltyOf, penaltyScore, penaltyRuns_gridOf, penaltyBlocks_gridOf, penaltyFinders_gridOf, penaltyBalance_eq,
    darkCells_gridOf]

section
variable {h w : Nat} (hh : h ≤ 256) (hw : w ≤ 256) (value : Nat → Nat → Bool)
include hh hw

theorem sum_runScore_le (n1 : Nat) : sumOverLines h w value (runScore n1) ≤ (h + w) * 256 * (n1 + 1) := by
  rw [Nat.mul_assoc]
  exact sumOverLines_le (fun n hn line => (runScore_le n1 n line).trans (Nat.mul_le_mul_right _ hn)) hh hw value

theorem sum_finderWindows_le : sumOverLines h w value finderWindows ≤ (h + w) * 256 :=
  sumOverLines_le (fun n hn line => (finderWindows_le n line).trans hn) hh hw value

end

/-- R277's bound on the total, with at most 32 rows. -/
theorem penaltyScore_le {h w : Nat} (hh : h ≤ 32) (hw : w ≤ 256) (c : Config) (value : Nat → Nat → Bool) :
    penaltyScore c h w value ≤ 73728 * (c.n1 + 1) + c.n2 * 8192 + c.n3 * 73728 + c.n4 * 10 := by
  have lines : h + w ≤ 288 := by omega
  have cells : h * w ≤ 8192 := Nat.mul_le_mul hh hw
  have runs := (sum_runScore_le (by omega) hw value c.n1).trans
    (Nat.mul_le_mul_right (c.n1 + 1) (Nat.mul_le_mul_right 256 lines))
  have finders := (sum_finderWindows_le (by omega) hw value).trans (Nat.mul_le_mul_right 256 lines)
  have blocks := (uniformBlocks_le h w value).trans cells
  have balance := balanceSteps_le (darkSum_le h w value)
  rw [penaltyScore]
  gcongr

/-- R277: a penalty fits its register. -/
theorem penaltyScore_lt {h w : Nat} (hh : h ≤ 32) (hw : w ≤ 256) {c : Config} (value : Nat → Nat → Bool)
    (h1 : c.n1 ≤ 1000) (h2 : c.n2 ≤ 1000) (h3 : c.n3 ≤ 1000) (h4 : c.n4 ≤ 1000) :
    penaltyScore c h w value < 2 ^ 32 := by
  have := penaltyScore_le hh hw c value
  omega

/-- Settles O42: the grid is `gridOf` of its values, on which each penalty counts what the rules say. -/
theorem penaltiesAreBounded : Obligations.PenaltiesAreBounded := by
  refine ⟨fun c h w grid rows columns => ?_, rfl, rfl, rfl, rfl⟩
  intro value
  have shape : grid = gridOf h w value := eq_gridOf_gridAt rows columns
  clear_value value
  subst shape
  rw [penaltyRuns_gridOf, penaltyBlocks_gridOf, penaltyFinders_gridOf, penaltyBalance_eq, darkCells_gridOf,
    penaltyOf_gridOf]
  refine ⟨⟨rfl, rfl, rfl, rfl, rfl⟩, fun hh hw => ⟨sum_runScore_le hh hw value c.n1,
    Nat.mul_le_mul_left _ (uniformBlocks_le h w value), ?finders, ?balance, fun low h1 h2 h3 h4 => ?reference,
    fun low => penaltyScore_lt low hw value⟩⟩
  case finders =>
    calc c.n3 * sumOverLines h w value finderWindows
      _ ≤ c.n3 * ((h + w) * 256) := Nat.mul_le_mul_left _ (sum_finderWindows_le hh hw value)
      _ ≤ 2 * (c.n3 * ((h + w) * 256)) := by omega
      _ = 2 * c.n3 * (h + w) * 256 := by ring
  case balance =>
    rw [Nat.mul_comm 10]
    exact Nat.mul_le_mul_left _ (balanceSteps_le (darkSum_le h w value))
  case reference =>
    have total := penaltyScore_le low hw c value
    rw [h1, h2, h3, h4] at total
    omega

end Sys2Proof.Laws

/-! MASK (45_mask.md R270 to R281): the trial matrices' penalties, the selection and the matrix it leaves. -/

namespace Sys2Proof.Laws

open Sys2Proof.Machine

/-! ## The candidates' scores (R272, R280) -/

/-- The penalty of candidate i's trial matrix. -/
def candidateScore (s : State) (i : Nat) : Nat :=
  penaltyScore s.cfg s.mdimH s.mdimW (scoredValue s (s.cfg.masks.getD i .blocks))

/-- A trial cell is Dark when it was, or when it was Light and the mask flips it. -/
theorem maskCell_dark (m : MaskFn) (r c : Nat) (x : Cell) : (maskCell m r c x).colour = .dark ↔
    x.colour = if x.tag = .data ∧ maskAt m r c = true then .light else .dark := by
  rw [maskCell]
  split
  · show flipColour x.colour = .dark ↔ x.colour = .light
    cases x.colour <;> simp [flipColour]
  · rfl

theorem trialGrid_eq_gridOf (s : State) (m : MaskFn) :
    trialGrid s m = gridOf s.mdimH s.mdimW (scoredValue s m) := by
  simp only [trialGrid, maskCell_dark]
  rfl

theorem penalties_length (s : State) : (penalties s).length = nm s.cfg := List.length_map _

theorem penalties_getD {s : State} {i : Nat} (candidate : i < nm s.cfg) :
    (penalties s).getD i 0 = candidateScore s i := by
  have listed : i < (penalties s).length := by rwa [penalties_length]
  rw [candidateScore, List.getD_eq_getElem _ _ listed, List.getD_eq_getElem _ _ candidate, ← penaltyOf_gridOf,
    ← trialGrid_eq_gridOf]
  exact List.getElem_map _

/-- The selected candidate is the first of the least score. -/
theorem leastIndex_penalties (s : State) : leastIndex (penalties s) < nm s.cfg ∧
    (∀ j < nm s.cfg, candidateScore s (leastIndex (penalties s)) ≤ candidateScore s j) ∧
    ∀ j < leastIndex (penalties s), candidateScore s (leastIndex (penalties s)) < candidateScore s j := by
  have nonempty : penalties s ≠ [] := List.ne_nil_of_length_pos (penalties_length s ▸ (nm_bounded s.params).1)
  obtain ⟨candidate, least, first⟩ := leastIndex_spec (penalties s) nonempty
  rw [penalties_length] at candidate
  rw [penalties_getD candidate] at least first
  refine ⟨candidate, fun j hj => ?_, fun j hj => ?_⟩
  · rw [← penalties_getD hj]
    rw [← penalties_length] at hj
    exact least _ (List.getD_eq_getElem _ _ hj ▸ List.getElem_mem hj)
  · rw [← penalties_getD (hj.trans candidate)]
    exact first j hj

theorem penaltyWords_getD {s : State} {j : Nat} (hj : j < 8) : (penaltyWords (penalties s)).getD j 0 =
    if j < nm s.cfg then BitVec.ofNat 32 (candidateScore s j) else 0 := by
  have word : (penaltyWords (penalties s)).getD j 0 = BitVec.ofNat 32 ((penalties s).getD j 0) := by
    simp [penaltyWords, List.getD_eq_getElem?_getD, hj]
  rw [word]
  split
  · next candidate => rw [penalties_getD candidate]
  · next beyond =>
    rw [List.getD_eq_default _ _ (by rwa [penalties_length, ← Nat.not_lt])]
    rfl

/-! ## The statements -/

theorem exec_mask_ready {s : State} (ready : s.error = false) (stage : s.stage = .placed) :
    exec .mask s = .next (finish (maskRule s)) :=
  congrArg Host.Outcome.next (runRule_requireStage ready stage)

theorem maskAt_table (rows : List (List Bool)) (r c : Nat) :
    maskAt (.table rows) r c = true ↔ ∃ row, rows[r]? = some row ∧ row[c]? = some true := by
  rw [maskAt, List.getD_eq_getElem?_getD, List.getD_eq_getElem?_getD]
  cases rows[r]? with
  | none => simp
  | some row =>
    simp only [Option.getD_some, Option.some.injEq, exists_eq_left']
    cases row[c]? <;> simp

/-- Settles O43: MASK ends in `maskRule`'s state, whose cells `cellAt_maskedCells` reads. -/
theorem maskFlipsTheSelectedCells : Obligations.MaskFlipsTheSelectedCells := by
  refine ⟨fun s ready stage => ?completes, fun r c => rfl, fun r c => rfl, maskAt_table⟩
  obtain ⟨candidate, least, first⟩ := leastIndex_penalties s
  have fits : leastIndex (penalties s) < 8 := candidate.trans_le (nm_bounded s.params).2
  refine ⟨_, leastIndex (penalties s), exec_mask_ready ready stage, Nat.mod_eq_of_lt fits, candidate, least, first,
    fun j hj => penaltyWords_getD hj, fun r c hc => ?_, rfl, encodedAs_of_operandFree .mask (by decide)⟩
  refine (cellAt_maskedCells hc rfl).trans ?_
  rw [maskCell]
  split
  · cases (cellAt s r c).colour <;> rfl
  · rfl

/-- Settles O44: under R277's bounds each PENALTY register holds its candidate's score whole. -/
theorem maskSelectsTheLeastPenalty : Obligations.MaskSelectsTheLeastPenalty := by
  intro s t ready stage hh hw h1 h2 h3 h4 executed
  obtain ⟨t', best, executed', selected, candidate, least, first, words, -⟩ :=
    maskFlipsTheSelectedCells.1 s ready stage
  obtain rfl : t' = t := Host.Outcome.next.inj (executed'.symm.trans executed)
  have register : ∀ j < nm s.cfg, (wordValue t' (.penalty j)).toNat = candidateScore s j := fun j hj => by
    rw [words j (hj.trans_le (nm_bounded s.params).2), if_pos hj, BitVec.toNat_ofNat]
    exact Nat.mod_eq_of_lt (penaltyScore_lt hh hw _ h1 h2 h3 h4)
  rw [selected]
  refine ⟨fun j hj => ?_, fun j hj => ?_⟩
  · rw [BitVec.le_def, register best candidate, register j hj]
    exact least j hj
  · rw [BitVec.lt_def, register best candidate, register j (hj.trans candidate)]
    exact first j hj

end Sys2Proof.Laws

/-! The Format Encoder (46_format.md R300 to R304): the division by the generator, the reference format words, and the
cells FORMAT writes. -/

namespace Sys2Proof.Laws

open Sys2Proof.Machine

/-! ## The division by the generator (R301) -/

/-- Two polynomials of one degree have a sum of less degree. -/
theorem xor_lt_of_same_degree {n a b : Nat} (topA : 2 ^ n ≤ a) (boundA : a < 2 ^ (n + 1)) (topB : 2 ^ n ≤ b)
    (boundB : b < 2 ^ (n + 1)) : a ^^^ b < 2 ^ n := by
  have leading : ∀ x, 2 ^ n ≤ x → x < 2 ^ (n + 1) → x / 2 ^ n = 1 := fun x top bound =>
    Nat.div_eq_of_lt_le (by omega) (by omega)
  have cancel : (a ^^^ b) / 2 ^ n = 0 := by
    rw [Nat.xor_div_two_pow, leading a topA boundA, leading b topB boundB, Nat.xor_self]
  exact (Nat.div_eq_zero_iff_lt (Nat.two_pow_pos n)).mp cancel

theorem polyMul_congr {n a a' : Nat} (same : ∀ i < n, a.testBit i = a'.testBit i) (b : Nat) :
    polyMul n a b = polyMul n a' b := by
  induction n with
  | zero => rfl
  | succ n ih => rw [polyMul_succ, polyMul_succ, ih fun i hi => same i (by omega), same n (by omega)]

/-- A quotient without the coefficient n. -/
theorem polyMul_succ_of_lt {n q : Nat} (bound : q < 2 ^ n) (b : Nat) : polyMul (n + 1) q b = polyMul n q b := by
  rw [polyMul_succ, Nat.testBit_lt_two_pow bound, if_neg Bool.false_ne_true, Nat.xor_zero]

/-- A quotient with the leading coefficient n. -/
theorem polyMul_two_pow_add {n q : Nat} (bound : q < 2 ^ n) (b : Nat) :
    polyMul (n + 1) (2 ^ n + q) b = polyMul n q b ^^^ b <<< n := by
  have lead : (2 ^ n + q).testBit n = true := by rw [Nat.testBit_two_pow_add_eq, Nat.testBit_lt_two_pow bound]; rfl
  rw [polyMul_succ, lead, if_pos rfl, polyMul_congr fun i hi => Nat.testBit_two_pow_add_gt hi q]

/-- The remainder of the division of r, of degree below FMT_EC_W + n, in n steps. -/
def bchRemainder (c : Config) (n r : Nat) : Nat :=
  ((List.range n).map fun j => c.fmtEcW + n - 1 - j).foldl (bchStep c) r

theorem bchRemainder_succ (c : Config) (n r : Nat) :
    bchRemainder c (n + 1) r = bchRemainder c n (bchStep c r (c.fmtEcW + n)) := by
  have places : (fun j => c.fmtEcW + (n + 1) - 1 - j) ∘ Nat.succ = fun j => c.fmtEcW + n - 1 - j := by
    funext j
    simp only [Function.comp_apply]
    omega
  rw [bchRemainder, List.range_succ_eq_map, List.map_cons, List.map_map, places, List.foldl_cons]
  rfl

theorem bch_eq_bchRemainder {c : Config} (wide : c.fmtEcW ≤ fmtW c) (d : Nat) :
    bch c d = d <<< c.fmtEcW ||| bchRemainder c (fmtW c - c.fmtEcW) (d <<< c.fmtEcW) := by
  rw [bch, bchRemainder, Nat.add_sub_of_le wide]

section
variable {c : Config} (low : 2 ^ c.fmtEcW ≤ c.fmtGen) (high : c.fmtGen < 2 ^ (c.fmtEcW + 1))
include low high

/-- The step at the leading bit lowers the degree. -/
theorem bchStep_lt {n r : Nat} (bound : r < 2 ^ (c.fmtEcW + (n + 1))) :
    bchStep c r (c.fmtEcW + n) < 2 ^ (c.fmtEcW + n) := by
  rw [bchStep, Nat.add_sub_cancel_left]
  split
  · next lead =>
    refine xor_lt_of_same_degree (Nat.ge_two_pow_of_testBit lead) bound ?_ ?_ <;> rw [Nat.shiftLeft_eq]
    · rw [Nat.pow_add]
      exact Nat.mul_le_mul_right _ low
    · rw [Nat.add_right_comm, Nat.pow_add]
      exact Nat.mul_lt_mul_of_pos_right high (Nat.two_pow_pos n)
  · next clear =>
    by_contra beyond
    exact clear (Nat.testBit_of_two_pow_le_and_two_pow_add_one_gt (by omega) bound)

/-- R301: a division with remainder; each step that subtracts the generator sets a bit of the quotient. -/
theorem bchRemainder_spec {n r : Nat} (bound : r < 2 ^ (c.fmtEcW + n)) : bchRemainder c n r < 2 ^ c.fmtEcW ∧
    ∃ q < 2 ^ n, r ^^^ bchRemainder c n r = polyMul n q c.fmtGen := by
  induction n generalizing r with
  | zero => exact ⟨bound, 0, Nat.one_pos, Nat.xor_self r⟩
  | succ n ih =>
    obtain ⟨small, q, boundQ, product⟩ := ih (bchStep_lt low high bound)
    rw [bchRemainder_succ]
    refine ⟨small, ?_⟩
    generalize bchRemainder c n (bchStep c r (c.fmtEcW + n)) = rest at product
    rw [bchStep, Nat.add_sub_cancel_left] at product
    split at product
    · refine ⟨2 ^ n + q, by omega, ?_⟩
      rw [polyMul_two_pow_add boundQ, ← product, Nat.xor_right_comm, Nat.xor_xor_cancel_right]
    · exact ⟨q, by omega, by rw [polyMul_succ_of_lt boundQ, product]⟩

end

/-- Data bits above the check bits: or, sum and polynomial sum agree. -/
theorem shiftLeft_or_eq_xor {i b : Nat} (bound : b < 2 ^ i) (a : Nat) : a <<< i ||| b = a <<< i ^^^ b := by
  refine Nat.eq_of_testBit_eq fun j => ?_
  rw [Nat.testBit_or, Nat.testBit_xor, Nat.testBit_shiftLeft]
  by_cases data : i ≤ j
  · rw [Nat.testBit_lt_two_pow (bound.trans_le (Nat.pow_le_pow_right Nat.two_pos data)), Bool.or_false, Bool.xor_false]
  · simp [data]

/-- Settles O45: the check bits are the remainder of the division of the shifted data (`bchRemainder_spec`). -/
theorem formatWordsAreMultiplesOfTheGenerator : Obligations.FormatWordsAreMultiplesOfTheGenerator := by
  intro c d low high wide boundD
  have bound : d <<< c.fmtEcW < 2 ^ (c.fmtEcW + (fmtW c - c.fmtEcW)) := by
    rw [Nat.shiftLeft_eq, Nat.add_comm, Nat.pow_add]
    exact Nat.mul_lt_mul_of_pos_right boundD (Nat.two_pow_pos _)
  obtain ⟨small, multiple⟩ := bchRemainder_spec low high bound
  rw [bch_eq_bchRemainder wide]
  refine ⟨?_, shiftLeft_or_eq_xor small d ▸ multiple⟩
  rw [Nat.or_div_two_pow, Nat.div_eq_of_lt small, Nat.or_zero, Nat.shiftLeft_eq,
    Nat.mul_div_cancel _ (Nat.two_pow_pos _)]

/-! ## The reference format words (R304) -/

/-- Settles O46: each of the six rows is the division evaluated, and the masked rows are its words under a mask. -/
theorem formatWordsOfTheSpec : Obligations.FormatWordsOfTheSpec := by
  refine ⟨?_, ?_, ?_, ?_, ?_, ?_⟩ <;> decide +kernel

/-! ## FORMAT (R303) -/

/-- The first code of a level, as `List.lookup` finds it. -/
theorem levelCode_eq_lookup (c : Config) (l : Ecl) : levelCode c l = (c.levels.lookup l).getD 0 := by
  rw [levelCode]
  induction c.levels with
  | nil => rfl
  | cons row rows ih =>
    obtain ⟨level, code⟩ := row
    rw [List.find?_cons, List.lookup_cons, BEq.comm (a := l)]
    cases level == l with
    | true => rfl
    | false => exact ih

/-- MW is the least width that counts the masks (00_scope.md R7). -/
theorem mw_least (p : Params) :
    nm p.config ≤ 2 ^ mw p.config ∧ (1 ≤ mw p.config → 2 ^ (mw p.config - 1) < nm p.config) := by
  obtain ⟨-, few⟩ := nm_bounded p
  rw [mw]
  split_ifs <;> omega

theorem exec_format_ready {s : State} (ready : s.error = false) (stage : s.stage = .masked) :
    exec .format s = .next (finish (formatRule s)) :=
  congrArg Host.Outcome.next (runRule_requireStage ready stage)

/-- R302: position n of a format list shows bit n of the word. -/
theorem cellAt_setColours_fmtColours {s : State} {k : Config} {ps : List (Nat × Nat)} (w : Nat)
    (narrow : ∀ p ∈ ps, p.2 < 256) (nodup : ps.Nodup) (length : ps.length = fmtW k) {n r c : Nat}
    (listed : ps[n]? = some (r, c)) :
    (cellAt (setColours s ps (fmtColours k w)) r c).colour = if w.testBit n then .dark else .light := by
  have hn : n < fmtW k := length ▸ (List.getElem?_eq_some_iff.mp listed).1
  rw [cellAt_setColours_getElem? narrow nodup (by rw [fmtColours_length, length]) listed .unset]
  simp [fmtColours, List.getD_eq_getElem?_getD, hn, colourOfBit]

section
variable {s : State} (version : s.viSel.toNat < nv s.cfg) (a b : Nat) {n r c : Nat}
include version

/-- The cells of list B are coloured after those of list A, which R8 condition 5 keeps apart. -/
theorem formatColoured_posA (listed : (fmtPosA s.cfg s.viSel.toNat)[n]? = some (r, c)) :
    (cellAt (formatColoured s a b) r c).colour = if a.testBit n then .dark else .light := by
  obtain ⟨length, -, nodup, -⟩ := formatCells_spec s.params _ version
  obtain ⟨nodup, -, apart⟩ := List.nodup_append.mp nodup
  have narrow := formatPositions_narrow version
  have inA := List.mem_of_getElem? listed
  rw [formatColoured, cellAt_setColours_notMem _ _ _ (narrow _ (List.mem_append_left _ inA))
    (fun q hq => narrow q (List.mem_append_right _ hq)) fun inB => apart _ inA _ inB rfl]
  exact cellAt_setColours_fmtColours a (fun q hq => narrow q (List.mem_append_left _ hq)) nodup length listed

theorem formatColoured_posB (listed : (fmtPosB s.cfg s.viSel.toNat)[n]? = some (r, c)) :
    (cellAt (formatColoured s a b) r c).colour = if b.testBit n then .dark else .light := by
  obtain ⟨-, length, nodup, -⟩ := formatCells_spec s.params _ version
  obtain ⟨-, nodup, -⟩ := List.nodup_append.mp nodup
  have narrow := formatPositions_narrow version
  exact cellAt_setColours_fmtColours b (fun q hq => narrow q (List.mem_append_right _ hq)) nodup length listed

theorem formatColoured_tag (hc : c < 256) : (cellAt (formatColoured s a b) r c).tag = (cellAt s r c).tag := by
  have narrow := formatPositions_narrow version
  rw [formatColoured, cellAt_setColours_tag _ _ _ hc fun q hq => narrow q (List.mem_append_right _ hq),
    cellAt_setColours_tag _ _ _ hc fun q hq => narrow q (List.mem_append_left _ hq)]

theorem formatColoured_notMem (hc : c < 256)
    (other : (r, c) ∉ fmtPosA s.cfg s.viSel.toNat ++ fmtPosB s.cfg s.viSel.toNat) :
    cellAt (formatColoured s a b) r c = cellAt s r c := by
  have narrow := formatPositions_narrow version
  rw [List.mem_append, not_or] at other
  rw [formatColoured,
    cellAt_setColours_notMem _ _ _ hc (fun q hq => narrow q (List.mem_append_right _ hq)) other.2,
    cellAt_setColours_notMem _ _ _ hc (fun q hq => narrow q (List.mem_append_left _ hq)) other.1]

end

theorem fmtRegister_eq (c : Config) (w : Nat) : fmtRegister c w = BitVec.ofNat 32 (w % 2 ^ fmtW c) := by
  rw [fmtRegister, field, Nat.pow_zero, Nat.mul_one]

/-- Settles O47: FORMAT ends in `formatRule`'s state, whose cells are those of `formatColoured`. -/
theorem formatWritesTheFormatCells : Obligations.FormatWritesTheFormatCells := by
  refine ⟨fun s ready stage version => ?completes, fun _ => rfl, mw_least, fmtW_refWith, fun _ _ => ⟨rfl, rfl⟩⟩
  intro v code w
  have word : formatWord s = w := by rw [formatWord, fmtData, levelCode_eq_lookup]
  let a := w ^^^ s.cfg.fmtMaskA
  let b := w ^^^ s.cfg.fmtMaskB
  have ends : formatRule s = .success { formatColoured s a b with
      resFmtA := fmtRegister s.cfg a, resFmtB := fmtRegister s.cfg b, stage := .formatted } := by
    rw [formatRule, word]
    rfl
  have executed := exec_format_ready ready stage
  rw [ends] at executed
  refine ⟨_, executed, fmtRegister_eq _ _, fmtRegister_eq _ _, fun n r c => formatColoured_posA version a b,
    fun n r c => formatColoured_posB version a b, fun r c => formatColoured_tag version a b,
    fun r c => formatColoured_notMem version a b, ?_, encodedAs_of_operandFree .format (by decide)⟩
  rw [formatColoured_eq]
  rfl

end Sys2Proof.Laws

/-! A pending command completes (70_reset_and_hazards.md R361): a turn of the core leaves nothing pending, and a turn of
the host leaves one turn less. -/

namespace Sys2Proof.Laws

open Sys2Proof.Machine

/-- Whatever the core's turn finds pending, it leaves nothing pending (40_control.md R121). -/
theorem step_core_completes {s : State} (turn : nextAgent s = .core) : ∃ t, step s = .next t ∧ t.pend = none := by
  cases pending : s.pend with
  | none => exact ⟨useTurn s, step_core_idle turn pending, pending⟩
  | some w =>
    obtain ⟨t, executed, idle⟩ := execute_next w (useTurn s)
    exact ⟨t, (step_core_pending turn pending).trans executed, idle⟩

theorem hostEvent_turns (s : State) (e : HostEvent) : (hostEvent s e).turns = s.turns := by
  cases e with
  | read off width =>
    obtain ⟨_, _, _, h⟩ := hostRead_cases s off width
    rw [hostEvent, h]
  | write off width v =>
    obtain ⟨_, _, h⟩ | ⟨w, -, -, h⟩ := hostWrite_cases s off width v <;> rw [hostEvent, h]
    cases w <;> rfl
  | reset => rfl

theorem step_host_turns {s : State} (turn : nextAgent s = .host) :
    ∃ t, step s = .next t ∧ t.turns = s.turns.tail := by
  cases events : s.host with
  | nil => exact ⟨useTurn s, step_host_idle turn events, rfl⟩
  | cons e rest => exact ⟨_, step_host_event turn events, hostEvent_turns _ e⟩

theorem run_succ {M : Host.Core} {s t : M.State} (moves : M.step s = .next t) (k : Nat) :
    M.run (k + 1) s = M.run k t := by
  rw [Host.Core.run, moves]

/-- Settles O7, by induction on the turns that remain: one step suffices on the core's turn (`step_core_completes`), and
after the host's turn the rest of the list does. -/
theorem pendingCommandCompletes : Obligations.PendingCommandCompletes := by
  have coreTurn : ∀ s : State, nextAgent s = .core → ∃ t : State, core.run 1 s = .next t ∧ t.pend = none := by
    intro s turn
    obtain ⟨t, moves, idle⟩ := step_core_completes turn
    exact ⟨t, run_succ moves 0, idle⟩
  intro s
  induction turns : s.turns generalizing s with
  | nil =>
    cases pending : s.pend with
    | none => exact ⟨0, Nat.zero_le _, s, rfl, pending⟩
    | some w => exact ⟨1, le_rfl, coreTurn s (by rw [nextAgent_of_noTurns turns, pending]; rfl)⟩
  | cons agent rest ih =>
    cases agent with
    | core => exact ⟨1, Nat.le_add_left _ _, coreTurn s (nextAgent_of_turn turns)⟩
    | host =>
      obtain ⟨t, moves, left⟩ := step_host_turns (nextAgent_of_turn turns)
      rw [turns, List.tail_cons] at left
      obtain ⟨k, bound, u, ran, idle⟩ := ih t left
      exact ⟨k + 1, Nat.succ_le_succ bound, u, (run_succ moves k).trans ran, idle⟩

end Sys2Proof.Laws

/-! Errors are precise (60_exceptions.md R326, R328): what a rule that fails has left of the state it started from
(`PreciseFailure`), and error entry over it. -/

namespace Sys2Proof.Laws

open Sys2Proof.Machine

/-! ## The bound on the CWBUF entries a failed BUILD may lose (R170) -/

/-- The most data codewords of any CAP entry are a bound that some entry reaches. -/
theorem mostDataCodewords_spec (c : Config) : (∀ row ∈ c.cap, dataOf row.groups ≤ mostDataCodewords c) ∧
    (mostDataCodewords c = 0 ∨ ∃ row ∈ c.cap, dataOf row.groups = mostDataCodewords c) := by
  rw [mostDataCodewords]
  cases most : (c.cap.map fun row => dataOf row.groups).max? with
  | none =>
    rw [List.max?_eq_none_iff, List.map_eq_nil_iff] at most
    simp [most]
  | some x =>
    obtain ⟨listed, bound⟩ := List.max?_eq_some_iff.mp most
    exact ⟨fun row inCap => bound _ (List.mem_map_of_mem inCap), .inr (List.mem_map.mp listed)⟩

theorem cwByte_freeBuildOutputs {n j : Nat} {s : State} (past : n ≤ j) :
    cwByte (freeBuildOutputs n s) j = cwByte s j := cwByte_freeCwBytes_frame past

/-- No failure of BUILD reaches past the most data codewords of any CAP entry. -/
theorem cwByte_of_buildRule_failed {s t : State} {f : Failure} (ends : buildRule s = .failed f t) {j : Nat}
    (past : mostDataCodewords s.cfg ≤ j) : cwByte t j = cwByte s j := by
  simp only [buildRule] at ends
  split at ends
  · cases ends
    exact cwByte_freeBuildOutputs past
  · split at ends
    · cases ends
      exact cwByte_freeBuildOutputs past
    · split at ends <;> cases ends
      exact cwByte_freeBuildOutputs ((mostDataCodewordsOf_le _ _ _).trans past)

theorem placeRule_failed {s t : State} {f : Failure} (ends : placeRule s = .failed f t) : t = freePlaceOutputs s := by
  simp only [placeRule] at ends
  split at ends <;> cases ends
  rfl

theorem cellAt_freePlaceOutputs_tag (s : State) (r c : Nat) :
    (cellAt (freePlaceOutputs s) r c).tag = (cellAt s r c).tag := by
  rw [cellAt_freePlaceOutputs]
  split <;> rfl

/-! ## States that differ in the outputs of some stages -/

/-- u with SEGMENT's outputs as s has them. -/
def restoreSegments (s u : State) : State := { u with segtab := s.segtab, segFree := s.segFree, nseg := s.nseg }

/-- u with the outputs of BUILD and RSENC as s has them. -/
def restoreBuild (s u : State) : State := { u with
  cwbuf := s.cwbuf, cwFree := s.cwFree, viSel := s.viSel, eclSel := s.eclSel, resH := s.resH, resW := s.resW,
  resBits := s.resBits, resCw := s.resCw }

/-- u with the outputs of STAMP and PLACE as s has them. -/
def restoreMatrix (s u : State) : State := { u with mdimH := s.mdimH, mdimW := s.mdimW, cells := s.cells }

/-- A state with STAGE and the count of the draws set aside. -/
def stageless (s : State) : State := { s with stage := .none, draws := 0 }

/-- u differs from s in STAGE, in the draws and in what `restore` puts back only. -/
def SameBut (restore : State → State) (s u : State) : Prop := stageless (restore u) = stageless s

/-! ## How a rule fails -/

/-- What stands at an encoding error of ENCODE, by the opcode of the stage that failed (40_control.md R134). -/
inductive EncodeFailure (s : State) (f : Failure) (u : State) : Prop
  | segment (opc : f.opc = 0x10) (same : SameBut (restoreSegments s) s u)
  | build (opc : f.opc = 0x11) (same : SameBut (restoreBuild s ∘ restoreSegments s) s u)
      (codewords : ∀ j, mostDataCodewords s.cfg ≤ j → cwByte u j = cwByte s j)
  | place (opc : f.opc = 0x14) (same : SameBut (restoreMatrix s ∘ restoreBuild s ∘ restoreSegments s) s u)

/-- What stands at a command's encoding error: s, but for the outputs of the stage that failed. -/
inductive StageFailure (s : State) (f : Failure) (u : State) : Instr → Prop
  | segment (same : SameBut (restoreSegments s) s u) : StageFailure s f u .segment
  | build (same : SameBut (restoreBuild s) s u)
      (codewords : ∀ j, mostDataCodewords s.cfg ≤ j → cwByte u j = cwByte s j) : StageFailure s f u .build
  | place (same : u = freePlaceOutputs s) : StageFailure s f u .place
  | encode (stage : EncodeFailure s f u) : StageFailure s f u .encode

/-- A rule of command i that fails with an interface error has written nothing, and one that fails with an encoding
error has written the outputs of its stage only. -/
def PreciseFailure (i : Instr) (s : State) (f : Failure) (u : State) : Prop :=
  isEncodingError f.kind = false ∧ u = s ∨ isEncodingError f.kind = true ∧ StageFailure s f u i

/-- A rule of command i ends with ERROR as it was, and if it fails, precisely. -/
def PreciseEnd (i : Instr) (s : State) : RuleEnd → Prop
  | .success t => t.error = s.error
  | .failed f u => u.error = s.error ∧ PreciseFailure i s f u

/-! ## The single stages -/

section
variable {s : State}

theorem preciseEnd_segmentRule : PreciseEnd .segment s (segmentRule s) := by
  obtain ⟨t, ends, frame⟩ | ⟨f, t, ends, kind, -, frame⟩ := segmentRule_cases s <;> rw [ends]
  · exact (congrArg State.error frame :)
  · exact ⟨(congrArg State.error frame :), .inr ⟨kind, .segment (congrArg stageless frame :)⟩⟩

theorem preciseEnd_buildRule : PreciseEnd .build s (buildRule s) := by
  obtain ⟨t, ends, frame⟩ | ⟨f, t, ends, kind, -, frame⟩ := buildRule_cases s
  · rw [ends]
    exact (congrArg State.error frame :)
  · rw [ends]
    exact ⟨(congrArg State.error frame :), .inr ⟨kind, .build (congrArg stageless frame :) fun _ =>
      cwByte_of_buildRule_failed ends⟩⟩

theorem preciseEnd_rsencRule : PreciseEnd .rsenc s (rsencRule s) := by
  obtain ⟨t, ends, frame⟩ := rsencRule_success s
  rw [ends]
  exact (congrArg State.error frame :)

theorem preciseEnd_placeRule : PreciseEnd .place s (placeRule s) := by
  obtain ⟨t, ends, frame⟩ | ⟨f, t, ends, kind, -, frame⟩ := placeRule_cases s
  · rw [ends]
    exact (congrArg State.error frame :)
  · rw [ends]
    exact ⟨(congrArg State.error frame :), .inr ⟨kind, .place (placeRule_failed ends)⟩⟩

theorem preciseEnd_formatRule : PreciseEnd .format s (formatRule s) := by
  obtain ⟨t, ends, frame⟩ := formatRule_success s
  rw [ends]
  exact (congrArg State.error frame :)

/-- A stage command that fails at another stage changes nothing (40_control.md R122). -/
theorem preciseEnd_requireStage {i : Instr} {required : Stage} {opc : Nat} {rule : State → RuleEnd}
    (own : PreciseEnd i s (rule s)) : PreciseEnd i s (requireStage required opc rule s) := by
  rw [requireStage]
  split
  · exact own
  · exact ⟨rfl, .inl ⟨rfl, rfl⟩⟩

/-- A command that checks its operands fails before it writes anything. -/
theorem preciseEnd_checked {i : Instr} {p : Prop} [Decidable p] {f : Failure} {t : State}
    (kind : isEncodingError f.kind = false) (success : t.error = s.error) :
    PreciseEnd i s (if p then .failed f s else .success t) := by
  split
  · exact ⟨rfl, .inl ⟨kind, rfl⟩⟩
  · exact success

end

/-! ## ENCODE (40_control.md R134) -/

/-- The end of ENCODE's first stages: the stage `next` with `reached`, or an encoding error. -/
def StagesEnd (s : State) (next : Stage) (reached : State → Prop) : RuleEnd → Prop
  | .success t => t.stage = next ∧ reached t
  | .failed f t => isEncodingError f.kind = true ∧ EncodeFailure s f t

section
variable {s : State}

theorem stagesEnd_andThen {required next : Stage} {reached reached' : State → Prop} {opc : Nat} {r : RuleEnd}
    {rule : State → RuleEnd} (first : StagesEnd s required reached r)
    (second : ∀ t, reached t → StagesEnd s next reached' (rule t)) :
    StagesEnd s next reached' (andThen r (requireStage required opc rule)) := by
  cases r with
  | failed f t => exact first
  | success t =>
    obtain ⟨stage, reached⟩ := first
    rw [andThen, requireStage_at stage]
    exact second t reached

theorem stagesEnd_segmentRule : StagesEnd s .segmented (SameBut (restoreSegments s) s) (segmentRule s) := by
  obtain ⟨t, ends, frame⟩ | ⟨f, t, ends, kind, opc, frame⟩ := segmentRule_cases s <;> rw [ends]
  · exact ⟨congrArg State.stage frame, (congrArg stageless frame :)⟩
  · exact ⟨kind, .segment opc (congrArg stageless frame :)⟩

/-! A frame equation of the stage that ran from t, read through the restoring of all outputs so far, says that u is t
there; what `same` says of t then carries over. -/

section
variable {t : State}

theorem stagesEnd_buildRule (same : SameBut (restoreSegments s) s t) :
    StagesEnd s .built (SameBut (restoreBuild s ∘ restoreSegments s) s) (buildRule t) := by
  have carry : ∀ {u x draws}, restoreBuild t u = { t with stage := x, draws := draws } →
      SameBut (restoreBuild s ∘ restoreSegments s) s u := fun frame =>
    (congrArg (stageless ∘ restoreBuild s ∘ restoreSegments s) frame).trans (congrArg (restoreBuild s) same)
  obtain ⟨u, ends, frame⟩ | ⟨f, u, ends, kind, opc, frame⟩ := buildRule_cases t
  · rw [ends]
    exact ⟨congrArg State.stage frame, carry frame⟩
  · have params : t.params = s.params := (congrArg State.params same :)
    rw [ends]
    refine ⟨kind, .build opc (carry frame) fun j past => ?_⟩
    rw [cwByte_of_buildRule_failed ends (by rwa [State.cfg, params])]
    exact (congrArg (cwByte · j) same :)

theorem stagesEnd_rsencRule (same : SameBut (restoreBuild s ∘ restoreSegments s) s t) :
    StagesEnd s .coded (SameBut (restoreBuild s ∘ restoreSegments s) s) (rsencRule t) := by
  obtain ⟨u, ends, frame⟩ := rsencRule_success t
  rw [ends]
  exact ⟨congrArg State.stage frame,
    (congrArg (stageless ∘ restoreBuild s ∘ restoreSegments s) frame).trans same⟩

theorem stagesEnd_stampRule (same : SameBut (restoreBuild s ∘ restoreSegments s) s t) :
    StagesEnd s .stamped (SameBut (restoreMatrix s ∘ restoreBuild s ∘ restoreSegments s) s) (stampRule t) :=
  ⟨rfl, congrArg (restoreMatrix s) same⟩

theorem stagesEnd_placeRule (same : SameBut (restoreMatrix s ∘ restoreBuild s ∘ restoreSegments s) s t) :
    StagesEnd s .placed (fun _ => True) (placeRule t) := by
  obtain ⟨u, ends, frame⟩ | ⟨f, u, ends, kind, opc, frame⟩ := placeRule_cases t <;> rw [ends]
  · exact ⟨congrArg State.stage frame, trivial⟩
  · exact ⟨kind, .place opc
      ((congrArg (stageless ∘ restoreMatrix s ∘ restoreBuild s ∘ restoreSegments s) frame).trans same)⟩

theorem stagesEnd_maskRule (t : State) : StagesEnd s .masked (fun _ => True) (maskRule t) := ⟨rfl, trivial⟩

theorem stagesEnd_formatRule (t : State) : StagesEnd s .formatted (fun _ => True) (formatRule t) := by
  obtain ⟨u, ends, frame⟩ := formatRule_success t
  rw [ends]
  exact ⟨congrArg State.stage frame, trivial⟩

end

theorem stagesEnd_encodeRule : StagesEnd s .formatted (fun _ => True) (encodeRule s) := by
  have segmented := stagesEnd_segmentRule (s := s)
  rw [← segmentRule_restart] at segmented
  have built := stagesEnd_andThen (opc := opcode .build) segmented fun _ => stagesEnd_buildRule
  have coded := stagesEnd_andThen (opc := opcode .rsenc) built fun _ => stagesEnd_rsencRule
  have stamped := stagesEnd_andThen (opc := opcode .stamp) coded fun _ => stagesEnd_stampRule
  have placed := stagesEnd_andThen (opc := opcode .place) stamped fun _ => stagesEnd_placeRule
  have masked := stagesEnd_andThen (opc := opcode .mask) placed fun t _ => stagesEnd_maskRule t
  exact stagesEnd_andThen masked fun t _ => stagesEnd_formatRule t

theorem preciseEnd_encodeRule : PreciseEnd .encode s (encodeRule s) := by
  have noError : (endState (encodeRule s)).error = s.error := congrArg Kept.error (endsAt_encodeRule s).kept_eq
  have stages := stagesEnd_encodeRule (s := s)
  cases ends : encodeRule s with
  | success t => rwa [ends] at noError
  | failed f u =>
    rw [ends] at noError stages
    obtain ⟨kind, stage⟩ := stages
    exact ⟨noError, .inr ⟨kind, .encode stage⟩⟩

end

/-! ## Every command -/

theorem failed_of_preciseEnd {i : Instr} {rule : State → RuleEnd} {s t : State} (ready : s.error = false)
    (error : t.error = true) (executed : (.next (runRule rule s) : Host.Outcome State Fault Refusal) = .next t)
    (precise : PreciseEnd i s (rule s)) :
    ∃ f u, t = raiseError f u ∧ u.error = false ∧ PreciseFailure i s f u := by
  obtain ⟨u, ends, rfl⟩ | ⟨f, u, ends, rfl⟩ := runRule_cases ready executed <;> rw [ends] at precise
  · exact absurd (error.symm.trans (precise.trans ready)) (by decide)
  · obtain ⟨noError, failure⟩ := precise
    exact ⟨f, u, rfl, noError.trans ready, failure⟩

/-- A command that ends with an error from ERROR = 0 is the error entry of a precise failure. -/
theorem exec_failed {i : Instr} {s t : State} (ready : s.error = false) (executed : exec i s = .next t)
    (error : t.error = true) : ∃ f u, t = raiseError f u ∧ u.error = false ∧ PreciseFailure i s f u := by
  cases i
  case nop =>
    cases executed
    simp [ready] at error
  case clear | softReset =>
    cases executed
    cases error
  case segment => exact failed_of_preciseEnd ready error executed preciseEnd_segmentRule
  case build => exact failed_of_preciseEnd ready error executed (preciseEnd_requireStage preciseEnd_buildRule)
  case rsenc => exact failed_of_preciseEnd ready error executed (preciseEnd_requireStage preciseEnd_rsencRule)
  case stamp => exact failed_of_preciseEnd ready error executed (preciseEnd_requireStage rfl)
  case place => exact failed_of_preciseEnd ready error executed (preciseEnd_requireStage preciseEnd_placeRule)
  case mask => exact failed_of_preciseEnd ready error executed (preciseEnd_requireStage rfl)
  case format => exact failed_of_preciseEnd ready error executed (preciseEnd_requireStage preciseEnd_formatRule)
  case encode => exact failed_of_preciseEnd ready error executed preciseEnd_encodeRule
  case gfMul | gfExp => exact failed_of_preciseEnd ready error executed rfl
  case gfLog | gfInv =>
    refine failed_of_preciseEnd ready error executed (preciseEnd_checked rfl ?_)
    rfl
  case rsBlock | genPoly =>
    refine failed_of_preciseEnd ready error executed (preciseEnd_checked rfl ?_)
    exact setCwBytes_error s _ _

/-! ## Error entry over a precise failure (60_exceptions.md R326) -/

/-- s with the error record of t, no STAGE and the draws of t. -/
def encodingRecord (t s : State) : State :=
  { interfaceError t.errKind t.errOpc.toNat t.errExp.toNat t.errAct.toNat s with stage := .none, draws := t.draws }

/-- An error's record read back and entered again is the same entry. -/
theorem interfaceError_toNat (k : ErrKind) (opc : Byte) (expWord actWord : Word) (s : State) :
    interfaceError k opc.toNat expWord.toNat actWord.toNat s = { s with
      error := true, done := false, errKind := k, errOpc := opc, errExp := expWord, errAct := actWord,
      pend := none } := by
  simp [interfaceError]

section
variable {f : Failure} {s t u : State}

theorem raiseError_errKind (noError : u.error = false) : (raiseError f u).errKind = f.kind := by
  simp [raiseError, noError]

theorem raiseError_errOpc (noError : u.error = false) : (raiseError f u).errOpc = BitVec.ofNat 8 f.opc := by
  simp [raiseError, noError]

theorem raiseError_eq_interfaceError (noError : u.error = false) (kind : isEncodingError f.kind = false)
    (entered : t = raiseError f u) :
    t = interfaceError t.errKind t.errOpc.toNat t.errExp.toNat t.errAct.toNat u := by
  rw [interfaceError_toNat, entered, raiseError_interface noError kind]
  rfl

theorem raiseError_eq_encodingRecord (noError : u.error = false) (kind : isEncodingError f.kind = true)
    (entered : t = raiseError f u) : t = encodingRecord t u := by
  rw [encodingRecord, interfaceError_toNat, entered, raiseError_encoding noError kind]
  rfl

/-- What differs from s in the restored outputs only is, once they are restored, the record over s. -/
theorem restore_eq_encodingRecord {restore : State → State}
    (commutes : ∀ v, restore (encodingRecord t v) = encodingRecord t (stageless (restore v)))
    (recorded : t = encodingRecord t u) (same : SameBut restore s u) : restore t = encodingRecord t s := by
  calc restore t = restore (encodingRecord t u) := congrArg restore recorded
    _ = encodingRecord t (stageless (restore u)) := commutes u
    _ = encodingRecord t (stageless s) := congrArg (encodingRecord t) same
    _ = encodingRecord t s := rfl

theorem EncodeFailure.same (h : EncodeFailure s f u) :
    SameBut (restoreMatrix s ∘ restoreBuild s ∘ restoreSegments s) s u := by
  cases h with
  | segment _ same => exact congrArg (restoreMatrix s ∘ restoreBuild s) same
  | build _ same _ => exact congrArg (restoreMatrix s) same
  | place _ same => exact same

theorem cwByte_of_recorded (recorded : t = encodingRecord t u) : cwByte t = cwByte u :=
  (congrArg cwByte recorded :)

/-- The recorded opcode tells which stage of ENCODE failed, and so which outputs may differ. -/
theorem encode_errorsPrecise (h : EncodeFailure s f u) (recorded : t = encodingRecord t u)
    (opc : t.errOpc = BitVec.ofNat 8 f.opc) :
    restoreMatrix s (restoreBuild s (restoreSegments s t)) = encodingRecord t s ∧
    (t.errOpc = 0x10 → restoreSegments s t = encodingRecord t s) ∧
    (t.errOpc = 0x11 → restoreBuild s (restoreSegments s t) = encodingRecord t s ∧
      ∀ j, mostDataCodewords s.cfg ≤ j → cwByte t j = cwByte s j) := by
  refine ⟨restore_eq_encodingRecord (t := t) (fun _ => rfl) recorded h.same, ?_⟩
  cases h with
  | segment code same =>
    rw [code] at opc
    exact ⟨fun _ => restore_eq_encodingRecord (fun _ => rfl) recorded same,
      fun other => absurd (opc.symm.trans other) (by decide)⟩
  | build code same codewords =>
    rw [code] at opc
    rw [cwByte_of_recorded recorded]
    exact ⟨fun other => absurd (opc.symm.trans other) (by decide),
      fun _ => ⟨restore_eq_encodingRecord (t := t) (fun _ => rfl) recorded same, codewords⟩⟩
  | place code _ =>
    rw [code] at opc
    exact ⟨fun other => absurd (opc.symm.trans other) (by decide),
      fun other => absurd (opc.symm.trans other) (by decide)⟩

end

/-- Settles O48: a command that ends with an error is the entry of a precise failure (`exec_failed`), which changes the
record, STAGE and the outputs of the failed stage (`restore_eq_encodingRecord`). -/
theorem errorsArePrecise : Obligations.ErrorsArePrecise := by
  refine ⟨mostDataCodewords_spec, fun i s t ready executed error => ?_⟩
  obtain ⟨f, u, entered, noError, failure⟩ := exec_failed ready executed error
  have kind : isEncodingError t.errKind = isEncodingError f.kind := by rw [entered, raiseError_errKind noError]
  obtain ⟨interface, rfl⟩ | ⟨encoding, failed⟩ := failure <;> rw [kind]
  · rw [interface]
    exact ⟨fun _ => raiseError_eq_interfaceError noError interface entered, nofun⟩
  rw [encoding]
  refine ⟨nofun, fun _ => ?_⟩
  have recorded := raiseError_eq_encodingRecord noError encoding entered
  cases failed with
  | segment same => exact .inl ⟨rfl, restore_eq_encodingRecord (fun _ => rfl) recorded same⟩
  | build same frame =>
    rw [cwByte_of_recorded recorded]
    exact .inr (.inl ⟨rfl, restore_eq_encodingRecord (fun _ => rfl) recorded same, frame⟩)
  | place same =>
    have cells : cellAt t = cellAt u := (congrArg cellAt recorded :)
    rw [cells]
    subst same
    refine .inr (.inr (.inl ⟨rfl, ?_, fun r c _ => cellAt_freePlaceOutputs_tag s r c, fun r c _ fixed =>
      (cellAt_freePlaceOutputs s r c).trans (if_neg fixed)⟩))
    exact restore_eq_encodingRecord (restore := fun v => { v with cells := s.cells }) (fun _ => rfl) recorded rfl
  | encode stage =>
    exact .inr (.inr (.inr ⟨rfl, encode_errorsPrecise stage recorded (by rw [entered, raiseError_errOpc noError])⟩))

end Sys2Proof.Laws
